-- ==== Sys2Proof/Word.lean ====
section
/-! DEFINITION. The words of the block: bytes, image columns, and sets sent as masks. -/

namespace Sys2Proof

/-- One byte of the serial link (R177). -/
abbrev Byte := BitVec 8

/-- One column of a line image: bit r is logical row r, 0 at the top (R16, section 11.6). -/
abbrev Column := BitVec 24

/-- A set of physical pins: bit p is pin p (R8, R193). -/
abbrev PinSet := BitVec 24

/-- A set of the six trip causes: bit 0 HOME_FAIL … bit 5 DRIVER_FAULT (section 11.4). -/
abbrev CauseSet := BitVec 6

/-- The event set and the event mask: bit n is event n (R186, section 11.5). -/
abbrev EventSet := BitVec 13

end Sys2Proof
end

