-- ==== Sys2Proof/Config.lean ====
section
/-! DEFINITION. What the part fixes (limits the rules state), and the values the rules leave open. -/

namespace Sys2Proof.Config

/-- Print-queue capacity (R32). -/
def queueMax : Nat := 16
/-- Completion-list capacity (R43). -/
def completionMax : Nat := 32
/-- Receive places of the Link Unit (R180). -/
def receivePlaces : Nat := 2
/-- Reply places of the Link Unit (R181). -/
def replyPlaces : Nat := 4
/-- Number of columns of a full line (R16). -/
def lineColumns : Nat := 3264
/-- The home position, column −288, in ticks (R80). -/
def homeTicks : Int := -4608
/-- The parking place, column −200, in ticks (R80). -/
def parkTicks : Int := -3200
/-- The seek's greatest travel, 3,900 columns, in ticks (R79). -/
def seekLimit : Nat := 62400
/-- The no-mark distance at which the encoder is lost, in ticks (R94). -/
def noMarkLimit : Nat := 96
/-- Greatest value of the heat accumulator (R117). -/
def heatMax : Nat := 16777215
/-- The margin on each side of a pass's span, in columns (R82). -/
def margin : Nat := 12
/-- Greatest consecutive-open count (R10). -/
def openMax : Nat := 32
/-- Greatest count of unpulsed steps (R128). -/
def unpulsedMax : Nat := 240
/-- The height of one line in feed steps (R38, R150). -/
def bandSteps : Nat := 48

/-- FREE VALUE (log 7). DESIGN CHOICE: the spec gives a controlled stop's length in fractions of a tick
("about 763 ticks", section 5.11) and no rounding; whether the tick that is only partly covered counts in the
commanded position is left open, safe. -/
opaque stopTick : Nat → Bool

/-- FREE VALUE (log 12). When HEAD_HOT and DRIVER_FAULT arise in one step, which is taken first:
R166 allows either order, safe. -/
opaque driverFaultFirst : Nat → Bool

end Sys2Proof.Config
end

