-- ==== Sys2Proof/Syntax.lean ====
section
/-! DEFINITION. The commands: one constructor of Instr for each row of spec/opcode_table.json. The table gives its
rows no operands; a request carries its TAG and the fields of its layout (chapter 11), an event carries what the
environment decides (log 1). -/

namespace Sys2Proof

/-- The two rates the LINKRATE strap selects (R177). -/
inductive LinkRate where
  | bps115200 | bps460800
  deriving DecidableEq, Repr

/-- A direction of carriage travel, of paper feed or of an encoder edge: forward is away from home, or up the form. -/
inductive Dir where
  | forward | reverse
  deriving DecidableEq, Repr

/-- The six trip causes (R163). -/
inductive TripCause where
  | homeFail | carriageSlip | encoderLost | paperJam | headHot | driverFault
  deriving DecidableEq, Repr

/-- One byte as the receiver takes it: its value, and whether its stop bit was present (R177). -/
structure LineByte where
  value : Byte
  stop  : Bool
  deriving DecidableEq, Repr

/-- A frame less its start byte, LEN and CRC (section 11.2). -/
structure Frame where
  kind    : Byte
  tag     : Byte
  payload : List Byte
  deriving DecidableEq, Repr

/-- A request's payload as its layout reads it: its fields, or a payload of a length the kind does not allow,
which the Link Unit answers BAD_LENGTH (R182, R194). -/
inductive Wire (α : Type) where
  | fields (f : α)
  | wrongLength (payload : List Byte)
  deriving DecidableEq, Repr

/-- SETP: parameter id and signed value (R184). -/
structure SetpReq where
  id    : Byte
  value : BitVec 32
  deriving DecidableEq, Repr

/-- OPEN: slot, left column c0 and declared length n (R18). -/
structure OpenReq where
  slot   : Byte
  left   : BitVec 16
  length : BitVec 16
  deriving DecidableEq, Repr

/-- DATA: slot, start column and the bytes of the run list (R19, section 11.6). -/
structure DataReq where
  slot  : Byte
  start : BitVec 16
  runs  : List Byte
  deriving DecidableEq, Repr

/-- LINE: the fields of section 11.8 (R33). -/
structure LineReq where
  slot      : Byte
  mode      : Byte
  direction : Byte
  cls       : Byte
  feedAfter : BitVec 16
  ply       : Byte
  deriving DecidableEq, Repr

/-- One row of a PMAP request (R6). -/
structure RowReq where
  pin     : Byte
  offset  : Byte
  enabled : Byte
  deriving DecidableEq, Repr

/-- PINH: clear mask and set mask (R11). -/
structure PinhReq where
  clear : PinSet
  set   : PinSet
  deriving DecidableEq, Repr

/-- ETAB: widths for ply 1..6 in COOL, then in WARM (R113). -/
structure EtabReq where
  cool : Vector (BitVec 16) 6
  warm : Vector (BitVec 16) 6
  deriving DecidableEq, Repr

/-- One stop of a FORM request: position and channel set (section 11.10). -/
structure StopReq where
  position : BitVec 16
  channels : BitVec 16
  deriving DecidableEq, Repr

/-- FORM: one form definition (section 11.10). -/
structure FormReq where
  length     : BitVec 16
  ply        : Byte
  tear       : BitVec 16
  skipTop    : BitVec 16
  skipBottom : BitVec 16
  stops      : List StopReq
  deriving DecidableEq, Repr

/-- DOUT: reset mask and set mask (R170). -/
structure DoutReq where
  reset : Byte
  set   : Byte
  deriving DecidableEq, Repr

/-- TOVL: mode and overlay inputs (R172). -/
structure TovlReq where
  mode   : Byte
  inputs : Byte
  deriving DecidableEq, Repr

/-- The HALT frames that HALT_LINE stands for: mode LINE, and the two that no HALT row names, a mode byte above 2
(R46) and a wrong length (log 20). -/
inductive HaltForm where
  | lineMode
  | undefinedMode (code : Byte)
  | wrongLength (payload : List Byte)
  deriving DecidableEq, Repr

/-- The CNTR frames that CNTR_SNAP stands for: SNAP with its pad byte, and the two that no CNTR row names, an
operation above 2 (R192) and a wrong length (log 20). -/
inductive SnapForm where
  | snap (pad : Byte)
  | undefinedOp (op arg : Byte)
  | wrongLength (payload : List Byte)
  deriving DecidableEq, Repr

/-- The commands of the block, one constructor for each row of the table. -/
inductive Instr where
  /-- POWER_ON (R154, R177): the strap as it is read. -/
  | powerOn (strap : LinkRate)
  /-- RESET_LINE (R177): the strap as it is read. -/
  | resetLine (strap : LinkRate)
  /-- FRAME_RECEIVED (R178, R179): the bytes on the line, from the start byte on. -/
  | frameReceived (bytes : List LineByte)
  /-- BYTE_GAP_TIMEOUT (R179, R180). -/
  | byteGapTimeout
  /-- RECEIVE_OVERRUN (R180). -/
  | receiveOverrun
  /-- UNKNOWN_KIND (R182). -/
  | unknownKind (kind tag : Byte) (payload : List Byte)
  /-- REPLY_SENT (R183). -/
  | replySent
  /-- NOTICE_SENT (R187). -/
  | noticeSent
  /-- STAT (R189). -/
  | stat (tag : Byte) (req : Wire Unit)
  /-- EVNT (R188). -/
  | evnt (tag : Byte) (req : Wire Unit)
  /-- EMSK (R186): none is the query. -/
  | emsk (tag : Byte) (req : Wire (Option (BitVec 16)))
  /-- SETP (R184). -/
  | setp (tag : Byte) (req : Wire SetpReq)
  /-- GETP (R185): the parameter id. -/
  | getp (tag : Byte) (req : Wire Byte)
  /-- CNTR with operation SNAP (R192). -/
  | cntrSnap (tag : Byte) (req : SnapForm)
  /-- CNTR with operation READ (R192): the group. -/
  | cntrRead (tag group : Byte)
  /-- CNTR with operation CLEAR (R192): the group mask. -/
  | cntrClear (tag mask : Byte)
  /-- OPEN (R18). -/
  | slotOpen (tag : Byte) (req : Wire OpenReq)
  /-- DATA (R19, R20). -/
  | slotData (tag : Byte) (req : Wire DataReq)
  /-- SEAL (R21): the slot. -/
  | slotSeal (tag : Byte) (req : Wire Byte)
  /-- DROP (R22): the slot. -/
  | slotDrop (tag : Byte) (req : Wire Byte)
  /-- LINE (R33). -/
  | line (tag : Byte) (req : Wire LineReq)
  /-- FEED (R34): the signed distance. -/
  | feed (tag : Byte) (req : Wire (BitVec 16))
  /-- SKIP (R34): the channel. -/
  | skip (tag : Byte) (req : Wire Byte)
  /-- TEAR (R34). -/
  | tear (tag : Byte) (req : Wire Unit)
  /-- HALT in LINE mode (R46). -/
  | haltLine (tag : Byte) (req : HaltForm)
  /-- HALT in PASS mode (R47). -/
  | haltPass (tag : Byte)
  /-- HALT in NOW mode (R48). -/
  | haltNow (tag : Byte)
  /-- GO (R49). -/
  | go (tag : Byte) (req : Wire Unit)
  /-- FLSH (R50). -/
  | flsh (tag : Byte) (req : Wire Unit)
  /-- CMPL (R44): the maximum count. -/
  | cmpl (tag : Byte) (req : Wire Byte)
  /-- PMAP (R5, R6): none is the query. -/
  | pmap (tag : Byte) (req : Wire (Option (Vector RowReq 24)))
  /-- PINH (R11). -/
  | pinh (tag : Byte) (req : Wire PinhReq)
  /-- ETAB (R113, R114): none is the query. -/
  | etab (tag : Byte) (req : Wire (Option EtabReq))
  /-- FORM (R130 to R132): none is the query. -/
  | form (tag : Byte) (req : Wire (Option FormReq))
  /-- ENGA (R156). -/
  | enga (tag : Byte) (req : Wire Unit)
  /-- REST (R159). -/
  | rest (tag : Byte) (req : Wire Unit)
  /-- WAKE (R161). -/
  | wake (tag : Byte) (req : Wire Unit)
  /-- CLRF (R167). -/
  | clrf (tag : Byte) (req : Wire Unit)
  /-- ERST (R168, R169). -/
  | erst (tag : Byte) (req : Wire Unit)
  /-- DOUT (R170). -/
  | dout (tag : Byte) (req : Wire DoutReq)
  /-- TOVL (R172 to R175): none is the query. -/
  | tovl (tag : Byte) (req : Wire (Option TovlReq))
  /-- EXECUTOR_START (R37 to R39, R49). -/
  | executorStart
  /-- REPOSITION_END (R84). -/
  | repositionEnd
  /-- CRUISE_START (R82, R91). -/
  | cruiseStart
  /-- CRUISE_END (R82, R92). -/
  | cruiseEnd
  /-- PASS_END (R85). -/
  | passEnd
  /-- FIRE_GROUP_TAKEN (R91, R101). -/
  | fireGroupTaken
  /-- PULSE_END (R106, R107): the pin, and whether its sense result is OPEN. -/
  | pulseEnd (pin : Fin 24) (isOpen : Bool)
  /-- MARK_EDGE (R86, R87): the edge's direction, and the ticks of commanded travel since the last step (log 5). -/
  | markEdge (dir : Dir) (travel : Nat)
  /-- ENCODER_LOST (R94). -/
  | encoderLost
  /-- HOME_SENSOR_ACTIVE (R79, R80). -/
  | homeSensorActive
  /-- HOME_FAIL (R79). -/
  | homeFail
  /-- PARK_END (R80). -/
  | parkEnd
  /-- FEED_STEP (R137). -/
  | feedStep
  /-- PAPER_END (R142). -/
  | paperEnd
  /-- PAPER_JAM (R151, R152). -/
  | paperJam
  /-- EJECT_FAIL (R149). -/
  | ejectFail
  /-- FEED_MOVE_END (R137). -/
  | feedMoveEnd
  /-- STOP_AT_REST (R96, R138). -/
  | stopAtRest
  /-- PAPER_MOTION_PULSE (R151). -/
  | paperMotionPulse
  /-- PAPER_SENSOR_ABSENT (R141). -/
  | paperSensorAbsent
  /-- PAPER_SENSOR_PRESENT (R141). -/
  | paperSensorPresent
  /-- HEAD_HOT_ASSERTED (R163). -/
  | headHotAsserted
  /-- DRIVER_FAULT_ASSERTED (R163). -/
  | driverFaultAsserted
  /-- TEST_TRIP (R174): the cause of the check that is true on the overlaid view alone. -/
  | testTrip (cause : TripCause)
  /-- HOLD_TIMER_EXPIRY (R158). -/
  | holdTimerExpiry
  /-- WARMUP_EXPIRY (R162). -/
  | warmupExpiry
  /-- COOLING_TICK (R118). -/
  | coolingTick
  /-- HEAD_HOT_QUIET (R163). -/
  | headHotQuiet
  /-- DRIVER_FAULT_QUIET (R163). -/
  | driverFaultQuiet
  /-- HOME_SENSOR_INACTIVE (R79). -/
  | homeSensorInactive
  /-- DISCARDED_FRAME_PASSED_OVER (R180). -/
  | discardedFramePassedOver
  /-- PRELOAD_COMPLETE (R139). -/
  | preloadComplete
  deriving DecidableEq, Repr

end Sys2Proof
end

