-- ==== Sys2Proof/Machine/Types.lean ====
section
/-! DEFINITION. The records the blocks hold, as the rules name them. -/

namespace Sys2Proof.Machine

/-! ## Codes (section 11.4) -/

/-- The thirteen events (R186, section 11.5). -/
inductive Event where
  | entryDone | entryFailed | queueRoom | homed | trip | testTrip | paperOut | thermalWait
  | pinFailed | counterHalf | linkError | formApplied | wake
  deriving DecidableEq, Repr

/-- The result codes (R182). -/
inductive Result where
  | ok | okClamped | unknownKind | badLength | badValue | wrongState | busy | tripped
  | queueFull | slotState | outOfSequence | duplicatePin | wakePending | causeActive
  deriving DecidableEq, Repr

/-! ## Link Unit (R177 to R188) -/

/-- The receiver's mode (R177): in FRAME with the bytes since the start byte, in SKIP with the LEN bytes read and,
once LEN is known, the bytes left to pass over. -/
inductive RxMode where
  | hunt
  | frame (got : List Byte)
  | skip (len : List Byte) (left : Nat)
  deriving DecidableEq, Repr

/-- The transmitter (R183): free, sending the oldest reply, or sending a notice it has taken from its slot, with the
event set as it stood at the notice's first byte (R187). -/
inductive Transmitter where
  | free
  | reply
  | notice (events : EventSet)
  deriving DecidableEq, Repr

/-- The Link Unit's record. -/
structure Link where
  mode        : RxMode
  rate        : LinkRate
  received    : List Frame
  replies     : List Frame
  notice      : Bool
  outstanding : Bool
  events      : EventSet
  mask        : EventSet
  tx          : Transmitter
  deriving DecidableEq, Repr

/-! ## Image Store (R16) -/

/-- The slot states (R16). -/
inductive SlotState where
  | free | filling | sealed | bound | printing
  deriving DecidableEq, Repr

/-- A slot record (R16). The fill point is the number of columns supplied; the columns beyond it are blank. -/
structure Slot where
  state  : SlotState
  left   : Nat
  length : Nat
  cols   : List Column
  deriving DecidableEq, Repr

/-! ## Print Queue and Line Executor (R32, R36, R42, R45, R52, R53) -/

/-- The two modes of a LINE entry (R32). -/
inductive LineMode where
  | single | double
  deriving DecidableEq, Repr

/-- The requested direction of a LINE entry (R32). -/
inductive LineDirection where
  | auto | forward | reverse
  deriving DecidableEq, Repr

/-- The fields of a LINE entry (R32). -/
structure LineFields where
  slot      : Fin 8
  mode      : LineMode
  direction : LineDirection
  cls       : Nat
  feedAfter : Nat
  ply       : Option Nat
  deriving DecidableEq, Repr

/-- What an entry asks for (R32). -/
inductive EntryKind where
  | line (f : LineFields)
  | feed (distance : Int)
  | skip (channel : Nat)
  | tear
  deriving DecidableEq, Repr

/-- A queue entry; active is its state, ACTIVE or QUEUED (R32). -/
structure Entry where
  tag    : Byte
  kind   : EntryKind
  active : Bool
  deriving DecidableEq, Repr

/-- The kind of an entry as its completion record names it (R42). -/
inductive KindName where
  | line | feed | skip | tear
  deriving DecidableEq, Repr

/-- The outcome of an entry with the cause that goes with it (R42). -/
inductive EntryOutcome where
  | done
  | clampedReverse | clampedPulse
  | failedHalted | failedTrip | failedPaperOut | failedNoChannel | failedEject
  deriving DecidableEq, Repr

/-- A completion record (R42). -/
structure Completion where
  tag     : Byte
  kind    : KindName
  outcome : EntryOutcome
  passes  : Option Nat
  y       : Nat
  form    : BitVec 16
  deriving DecidableEq, Repr

/-- The hold-reason set (R45). -/
structure Holds where
  halted   : Bool
  paperOut : Bool
  deriving DecidableEq, Repr

/-- The executor states (R36). -/
inductive ExecState where
  | idle | prepare | cool | position | pass | advance
  deriving DecidableEq, Repr

/-- The blocking reasons (R36, R37). -/
inductive BlockReason where
  | empty | held | engine | listFull | paper
  deriving DecidableEq, Repr

/-- Where a held entry continues (R36). -/
inductive Resume where
  | staging | plan | pass (j : Nat) | feedAfter | motion
  deriving DecidableEq, Repr

/-- A HALT accepted but not yet in effect (R36). -/
inductive PendingHalt where
  | line | pass
  deriving DecidableEq, Repr

/-- A pass record (R53); subset none is ALL. -/
structure PassRec where
  dir    : Dir
  subset : Option Nat
  dots   : Nat
  heat   : Nat
  lo     : Nat
  hi     : Nat
  done   : Bool
  deriving DecidableEq, Repr

/-- A plan record (R52). -/
structure Plan where
  width   : Nat
  cls     : Nat
  speed   : Nat
  lead    : Nat
  shingle : Nat
  clamped : Bool
  dropped : Nat
  passes  : List PassRec
  deriving DecidableEq, Repr

/-- The Line Executor's record (R36); failing says that the ACTIVE entry has failed with cause HALTED and waits for
its motion to come to rest (R48). -/
structure Executor where
  state       : ExecState
  plan        : Option Plan
  resume      : Option Resume
  pendingHalt : Option PendingHalt
  failing     : Bool
  deriving DecidableEq, Repr

/-! ## Carriage Controller (R75 to R78) -/

/-- The motion phases (R75). -/
inductive MotionPhase where
  | stopped | seek | park | reposition | rampUp | cruise | rampDown | stopping
  deriving DecidableEq, Repr

/-- What a motion reads when it starts and uses unchanged until it ends (R77, R78, R82): its start and end points, for
a pass the edges at which CRUISE begins and ends in the direction of travel, its top speed and ACCEL. -/
structure Profile where
  origin : Int
  target : Int
  edgeIn : Int
  edgeOut : Int
  top    : Nat
  accel  : Nat
  deriving DecidableEq, Repr

/-- The Carriage Controller's record (R75); seekTravel is the seek's own count of ticks (R79). -/
structure Carriage where
  position       : Option Int
  phase          : MotionPhase
  direction      : Option Dir
  homed          : Bool
  markPhase      : Option Int
  markCount      : Int
  devForward     : Int
  devReverse     : Int
  noMark         : Nat
  observedNoMark : Nat
  seekTravel     : Nat
  profile        : Option Profile
  deriving DecidableEq, Repr

/-! ## Fire Unit (R3, R8 to R10, R99) -/

/-- A row of the pin map (R3). -/
structure MapRow where
  pin     : Fin 24
  offset  : Fin 16
  enabled : Bool
  deriving DecidableEq, Repr

/-- The energy bands (R112, R119). -/
inductive Band where
  | cool | warm
  deriving DecidableEq, Repr

/-- An energy table: a width for ply 1..6 in each band (R112); index i is ply i + 1. -/
structure EnergyTable where
  cool : Vector Nat 6
  warm : Vector Nat 6
  deriving DecidableEq, Repr

/-- The fire group that is due: its reference column and the fire position held for it (R91). -/
structure DueGroup where
  column : Nat
  firePos : Int
  deriving DecidableEq, Repr

/-- The Fire Unit's record (R99); the ribbon drive is output 6. -/
structure Fire where
  pinMap       : Vector MapRow 24
  inhibit      : PinSet
  failed       : PinSet
  openCounts   : Vector Nat 24
  table        : EnergyTable
  pendingTable : Option EnergyTable
  planInhibit  : PinSet
  driving      : PinSet
  due          : Option DueGroup
  deriving DecidableEq, Repr

/-! ## Heat Model (R116) -/

/-- The Heat Model's record (R116). -/
structure Heat where
  h       : Nat
  latch   : Bool
  band    : Band
  waiting : Option Nat
  deriving DecidableEq, Repr

/-! ## Paper Motion Unit (R128, R129) -/

/-- The two paper paths (R128). -/
inductive Path where
  | fanfold | sheet
  deriving DecidableEq, Repr

/-- The paper states (R128). -/
inductive PaperState where
  | loaded | ending | out
  deriving DecidableEq, Repr

/-- A stop: its position and its channel set, bit c standing for channel c (R129, section 11.10). -/
structure Stop where
  position : Nat
  channels : BitVec 16
  deriving DecidableEq, Repr

/-- A form definition (R129). -/
structure FormDef where
  length     : Nat
  ply        : Nat
  tear       : Nat
  skipTop    : Nat
  skipBottom : Nat
  stops      : List Stop
  deriving DecidableEq, Repr

/-- What a feed move is made for (R137). A preload is the tractor's own motion before a FANFOLD load (R139) and holds
the LOADDIST read when the load feeds began; an entry's FEED move holds whether it was reduced (R144); an eject holds
its step limit (R149). -/
inductive Purpose where
  | preload (loadDist : Nat)
  | load
  | retract
  | perfSkip
  | feed (reduced : Bool)
  | skip
  | present
  | eject (limit : Nat)
  | feedAfter
  deriving DecidableEq, Repr

/-- The paper motors that one step drives, and its direction (R137, R139). -/
structure MotorStep where
  lineFeed : Bool
  tractor  : Bool
  dir      : Dir
  deriving DecidableEq, Repr

/-- The feed move in progress (R128): left is its steps left (an eject runs until the paper is OUT and counts none
left), made the steps made, stopping whether a controlled stop ends it (R138), ended whether it is an eject that came
back to LOADED past its limit and so has ended there (R149). -/
structure FeedMove where
  purpose  : Purpose
  dir      : Dir
  left     : Nat
  made     : Nat
  stopping : Bool
  ended    : Bool
  deriving DecidableEq, Repr

/-- The Paper Motion Unit's record (R128). The path is parameter PATH and the load flag is set exactly when the state
is not OUT; jamDue says that the last feed step made PAPER_JAM due (log 6). -/
structure Paper where
  active           : FormDef
  next             : Option FormDef
  state            : PaperState
  y                : Nat
  form             : BitVec 16
  remaining        : Nat
  tearPresented    : Bool
  tearDistance     : Nat
  unpulsed         : Nat
  observedUnpulsed : Nat
  move             : Option FeedMove
  jamDue           : Bool
  deriving DecidableEq, Repr

/-! ## Engine Supervisor (R154) -/

/-- The engine states (R154). -/
inductive EngineState where
  | unready | homing | ready | hold | rest | warming | tripped
  deriving DecidableEq, Repr

/-- The state from which REST was entered (R154). -/
inductive RestOrigin where
  | unready | ready
  deriving DecidableEq, Repr

/-- The state WARMING will end in (R154). -/
inductive WakeTarget where
  | homing | unready
  deriving DecidableEq, Repr

/-- The overlay modes (R172). -/
inductive OverlayMode where
  | off | observe | drive
  deriving DecidableEq, Repr

/-- The six overlay inputs (R154). -/
inductive OverlayInput where
  | headHot | driverFault | paperAbsent | homeActive | markStall | motionStall
  deriving DecidableEq, Repr

/-- The first-fault record (R165). -/
structure FaultRecord where
  cause    : TripCause
  engine   : EngineState
  exec     : ExecState
  tag      : Option Byte
  position : Option Int
  y        : Nat
  form     : BitVec 16
  deriving DecidableEq, Repr

/-- The energy of the motor drivers (R155). -/
inductive DriverEnergy where
  | off | low | full
  deriving DecidableEq, Repr

/-- The head supply (R155). -/
inductive HeadSupply where
  | off | comingUp | on
  deriving DecidableEq, Repr

/-- The Engine Supervisor's record (R154); bit i of the outputs is output i. -/
structure Engine where
  state         : EngineState
  restOrigin    : Option RestOrigin
  wakeTarget    : Option WakeTarget
  holdTimer     : Option Nat
  warmTimer     : Option Nat
  resetPending  : Bool
  firstFault    : Option FaultRecord
  further       : CauseSet
  overlayMode   : OverlayMode
  overlayInputs : BitVec 6
  testTrips     : CauseSet
  outputs       : BitVec 8
  deriving DecidableEq, Repr

/-! ## Counter Block (R190) -/

/-- The ten GENERAL counters, in the order of section 11.12 (R190). -/
inductive General where
  | linesDone | linesFailed | passes | feedSteps | formsCrossed | droppedDots
  | framesRejected | receiveOverruns | trips | thermalWaits
  deriving DecidableEq, Repr

/-- One set of the thirty-four counters with their half flags (R190, R191). -/
structure Bank where
  general     : Vector Nat 10
  generalHalf : BitVec 10
  strikes     : Vector Nat 24
  strikesHalf : BitVec 24
  deriving DecidableEq, Repr

/-- The Counter Block's record (R190, R192). -/
structure Counters where
  live     : Bank
  snapshot : Bank
  deriving DecidableEq, Repr

/-! ## Parameters and input lines -/

/-- The thirty-two parameters, in the order of their ids 1..32 (R196). -/
inductive ParamId where
  | cruise0 | cruise1 | cruise2 | cruise3 | accel | slew | flight | rtrim0 | rtrim1 | rtrim2 | rtrim3
  | fdepth | climit | sliplim | recovery | openlim | coolshift | warmth | hotth | resume | ceiling
  | path | loaddist | enddist | jamlim | preload | feedrate | revlim | holddly | warmup | wakeins | tripmask
  deriving DecidableEq, Repr

/-- The parameter classes (R184). -/
inductive ParamClass where
  | tune | geom | order
  deriving DecidableEq, Repr

/-- The levels of the input lines (00_scope.md, External connections). -/
structure Lines where
  headHot     : Bool
  driverFault : Bool
  home        : Bool
  paper       : Bool
  deriving DecidableEq, Repr

end Sys2Proof.Machine
end

