-- ==== Sys2Proof/Machine/Defaults.lean ====
section
/-! DEFINITION. The tables the spec gives: the parameter table (R196), the default pin map (R3), energy table (R112) and
form definition (R129), and the records the blocks hold at power-on. -/

namespace Sys2Proof.Machine

/-- A parameter's place in the table, its id less one (R196). -/
def paramIndex : ParamId → Fin 32
  | .cruise0 => 0 | .cruise1 => 1 | .cruise2 => 2 | .cruise3 => 3 | .accel => 4 | .slew => 5 | .flight => 6
  | .rtrim0 => 7 | .rtrim1 => 8 | .rtrim2 => 9 | .rtrim3 => 10 | .fdepth => 11 | .climit => 12 | .sliplim => 13
  | .recovery => 14 | .openlim => 15 | .coolshift => 16 | .warmth => 17 | .hotth => 18 | .resume => 19
  | .ceiling => 20 | .path => 21 | .loaddist => 22 | .enddist => 23 | .jamlim => 24 | .preload => 25
  | .feedrate => 26 | .revlim => 27 | .holddly => 28 | .warmup => 29 | .wakeins => 30 | .tripmask => 31

/-- The parameters in the order of their ids. -/
def allParams : List ParamId :=
  [.cruise0, .cruise1, .cruise2, .cruise3, .accel, .slew, .flight, .rtrim0, .rtrim1, .rtrim2, .rtrim3,
   .fdepth, .climit, .sliplim, .recovery, .openlim, .coolshift, .warmth, .hotth, .resume, .ceiling,
   .path, .loaddist, .enddist, .jamlim, .preload, .feedrate, .revlim, .holddly, .warmup, .wakeins, .tripmask]

/-- The parameter an id names: ids 0 and 33..255 name none (R196). -/
def paramOfId (b : Byte) : Option ParamId :=
  if b = 0#8 then none else allParams[b.toNat - 1]?

/-- The low end of a parameter's range (R196). -/
def paramLow : ParamId → Int
  | .cruise0 | .cruise1 | .cruise2 | .cruise3 => 300
  | .accel => 20000
  | .slew => 400
  | .flight => 100
  | .rtrim0 | .rtrim1 | .rtrim2 | .rtrim3 => -32
  | .fdepth => 0
  | .climit => 0
  | .sliplim => 32
  | .recovery => 200
  | .openlim => 0
  | .coolshift => 6
  | .warmth | .hotth | .resume | .ceiling => 1
  | .path => 0
  | .loaddist => 0
  | .enddist => 360
  | .jamlim => 12
  | .preload => 0
  | .feedrate => 500
  | .revlim => 0
  | .holddly => 50
  | .warmup => 10
  | .wakeins => 0
  | .tripmask => 0

/-- The high end of a parameter's range (R196). -/
def paramHigh : ParamId → Int
  | .cruise0 | .cruise1 | .cruise2 | .cruise3 => 3000
  | .accel => 200000
  | .slew => 3000
  | .flight => 800
  | .rtrim0 | .rtrim1 | .rtrim2 | .rtrim3 => 31
  | .fdepth => 4
  | .climit => 63
  | .sliplim => 255
  | .recovery => 1000
  | .openlim => 32
  | .coolshift => 14
  | .warmth | .hotth | .resume | .ceiling => 16777215
  | .path => 1
  | .loaddist => 2160
  | .enddist => 2160
  | .jamlim => 240
  | .preload => 48
  | .feedrate => 3000
  | .revlim => 720
  | .holddly => 5000
  | .warmup => 500
  | .wakeins => 1
  | .tripmask => 63

/-- A parameter's default (R196). -/
def paramDefault : ParamId → Int
  | .cruise0 => 600
  | .cruise1 => 1200
  | .cruise2 => 1800
  | .cruise3 => 2400
  | .accel => 60000
  | .slew => 2000
  | .flight => 350
  | .rtrim0 | .rtrim1 | .rtrim2 | .rtrim3 => 0
  | .fdepth => 3
  | .climit => 24
  | .sliplim => 64
  | .recovery => 380
  | .openlim => 8
  | .coolshift => 11
  | .warmth => 400000
  | .hotth => 800000
  | .resume => 300000
  | .ceiling => 1200000
  | .path => 0
  | .loaddist => 720
  | .enddist => 1080
  | .jamlim => 48
  | .preload => 12
  | .feedrate => 1800
  | .revlim => 360
  | .holddly => 500
  | .warmup => 80
  | .wakeins => 0
  | .tripmask => 63

/-- A parameter's class (R196). -/
def paramClass : ParamId → ParamClass
  | .warmth | .hotth | .resume | .ceiling => .order
  | .path | .loaddist | .enddist | .wakeins | .tripmask => .geom
  | .cruise0 | .cruise1 | .cruise2 | .cruise3 | .accel | .slew | .flight | .rtrim0 | .rtrim1 | .rtrim2 | .rtrim3
  | .fdepth | .climit | .sliplim | .recovery | .openlim | .coolshift | .jamlim | .preload | .feedrate | .revlim
  | .holddly | .warmup => .tune

/-- The idle-only parameters: CRUISE0..3, ACCEL, SLEW, RECOVERY and PATH (R184). -/
def idleOnly : ParamId → Bool
  | .cruise0 | .cruise1 | .cruise2 | .cruise3 | .accel | .slew | .recovery | .path => true
  | .flight | .rtrim0 | .rtrim1 | .rtrim2 | .rtrim3 | .fdepth | .climit | .sliplim | .openlim | .coolshift
  | .warmth | .hotth | .resume | .ceiling | .loaddist | .enddist | .jamlim | .preload | .feedrate | .revlim
  | .holddly | .warmup | .wakeins | .tripmask => false

/-- Every parameter at its default (R185). -/
def defaultParams : Vector Int 32 :=
  #v[600, 1200, 1800, 2400, 60000, 2000, 350, 0, 0, 0, 0, 3, 24, 64, 380, 8, 11, 400000, 800000, 300000, 1200000,
     0, 720, 1080, 48, 12, 1800, 360, 500, 80, 0, 63]

/-- Row r of the default pin map: pin r, offset 0 for even r and 6 for odd r, enabled (R3). -/
def defaultMapRow (r : Fin 24) : MapRow := ⟨r, if r.val % 2 = 0 then 0 else 6, true⟩

/-- The default pin map (R3). -/
def defaultPinMap : Vector MapRow 24 := Vector.ofFn defaultMapRow

/-- The default energy table (R112). -/
def defaultTable : EnergyTable :=
  ⟨#v[200, 220, 245, 270, 300, 330], #v[190, 210, 235, 260, 290, 320]⟩

/-- The default form definition: 3960 steps, one ply, no tear motion, no margins, one stop at the top carrying
channel 1 (R129). -/
def defaultForm : FormDef := ⟨3960, 1, 0, 0, 0, [⟨0, 0x0002#16⟩]⟩

/-- A FREE slot: no extent, no column data (R16). -/
def freeSlot : Slot := ⟨.free, 0, 0, []⟩

/-- The executor's record at power-on and after ERST (R36). -/
def idleExecutor : Executor := ⟨.idle, none, none, none, false⟩

/-- The carriage record at power-on, and as a trip and an ERST at rest leave it (R75). -/
def clearedCarriage : Carriage := ⟨none, .stopped, none, false, none, 0, 0, 0, 0, 0, 0, none⟩

/-- The Fire Unit's record at power-on (R99, R3, R8 to R10). -/
def resetFire : Fire :=
  ⟨defaultPinMap, 0#24, 0#24, Vector.replicate 24 0, defaultTable, none, 0#24, 0#24, none⟩

/-- The Heat Model's record at power-on (R116). -/
def resetHeat : Heat := ⟨0, false, .cool, none⟩

/-- The Paper Motion Unit's record at power-on (R128). -/
def resetPaper : Paper :=
  ⟨defaultForm, none, .out, 0, 0#16, 0, false, 0, 0, 0, none, false⟩

/-- The Engine Supervisor's record at power-on (R154). -/
def resetEngine : Engine :=
  ⟨.unready, none, none, none, none, false, none, 0#6, .off, 0#6, 0#6, 0#8⟩

/-- Every counter 0 and every half flag clear (R190). -/
def clearedBank : Bank := ⟨Vector.replicate 10 0, 0#10, Vector.replicate 24 0, 0#24⟩

/-- The Link Unit's record at power-on, with the rate the strap selects (R177). -/
def resetLink (rate : LinkRate) : Link :=
  ⟨.hunt, rate, [], [], false, false, 0#13, BitVec.allOnes 13, .free⟩

end Sys2Proof.Machine
end

