-- ==== Sys2Proof/Machine/State.lean ====
section
/-! DEFINITION. The state of the block, the reasons a command can stop, and the state after reset. -/

namespace Sys2Proof.Machine

/-- Why a command stops with a fault: it has no constructor, because no command of this block stops. A trip (R164) and
a refused request (R182) are next states. -/
inductive Fault where
  deriving DecidableEq, Repr

/-- Why a command is refused by the model itself. -/
inductive Refusal where
  /-- Raised by exec's arm of a row that has no meaning yet (no row is left so); safe: the model stops where the block
  goes on. -/
  | notModelled (mnemonic : String)
  deriving DecidableEq, Repr

/-- The state of the controller, block by block, the levels of its input lines, and the model's own fields
(INVENTORY.md, State). -/
structure State where
  link        : Link
  slots       : Vector Slot 8
  queue       : List Entry
  completions : List Completion
  holds       : Holds
  exec        : Executor
  carriage    : Carriage
  fire        : Fire
  heat        : Heat
  paper       : Paper
  engine      : Engine
  counters    : Counters
  params      : Vector Int 32
  lines       : Lines
  /-- The model's own: the bytes of the frame last sent whole (log 18). -/
  txLine      : List Byte
  /-- The model's own: the paper motors last stepped (R137, log 35). -/
  motorStep   : Option MotorStep
  /-- The model's own: how many free values have been read (log 7, log 12). -/
  freeCount   : Nat
  /-- The model's own: the commands waiting, first in first out. -/
  pending     : List Instr
  deriving DecidableEq, Repr

/-- The state power-on leaves, for a strap and the levels of the lines as they stand, before any level cause arises
(R154, R177); the model's own fields are given. -/
def State.powerOnState (rate : LinkRate) (lines : Lines) (freeCount : Nat) (pending : List Instr) : State where
  link := resetLink rate
  slots := Vector.replicate 8 freeSlot
  queue := []
  completions := []
  holds := ⟨false, false⟩
  exec := idleExecutor
  carriage := clearedCarriage
  fire := resetFire
  heat := resetHeat
  paper := resetPaper
  engine := resetEngine
  counters := ⟨clearedBank, clearedBank⟩
  params := defaultParams
  lines := lines
  txLine := []
  motorStep := none
  freeCount := freeCount
  pending := pending

/-- The machine right after reset: power-on with the strap at 115,200 bit/s and every input line quiet (DESIGN CHOICE,
log 9), nothing waiting. -/
def State.reset : State := State.powerOnState .bps115200 ⟨false, false, false, false⟩ 0 []

end Sys2Proof.Machine
end

