-- ==== Sys2Proof/Machine/Flags.lean ====
section
/-! DEFINITION. The flags and counts every block drives: parameters read, the event set with the notice test, the
counters with their half flags, and the heat band and latch. -/

namespace Sys2Proof.Machine

/-! ## Parameters (R184, R185, R196) -/

/-- The value in force of a parameter. -/
def param (s : State) (id : ParamId) : Int := s.params[paramIndex id]

/-- The value in force of a parameter that is never negative. -/
def paramNat (s : State) (id : ParamId) : Nat := (param s id).toNat

/-- The state with a parameter set. -/
def setParam (s : State) (id : ParamId) (v : Int) : State :=
  { s with params := s.params.set (paramIndex id) v }

/-- The paper path, the value of parameter PATH (R128, R153). -/
def path (s : State) : Path := if param s .path = 0 then .fanfold else .sheet

/-! ## The event set and the notice test (R186, R187) -/

/-- An event's number (R186). -/
def Event.number : Event → Nat
  | .entryDone => 0 | .entryFailed => 1 | .queueRoom => 2 | .homed => 3 | .trip => 4 | .testTrip => 5
  | .paperOut => 6 | .thermalWait => 7 | .pinFailed => 8 | .counterHalf => 9 | .linkError => 10
  | .formApplied => 11 | .wake => 12

/-- The set that holds one event. -/
def eventBit (e : Event) : EventSet := BitVec.twoPow 13 e.number

/-- The notice test: with an enabled event set and the notice-outstanding flag clear, a notice goes into the slot and
the flag is set (R187). -/
def noticeTest (l : Link) : Link :=
  if l.events &&& l.mask ≠ 0#13 ∧ l.outstanding = false then
    { l with notice := true, outstanding := true }
  else l

/-- Raising an event sets its flag and makes the notice test (R186, R187). -/
def Link.raise (l : Link) (e : Event) : Link :=
  noticeTest { l with events := l.events ||| eventBit e }

/-- Raising an event when a condition holds. -/
def Link.raiseIf (l : Link) (b : Bool) (e : Event) : Link := if b then l.raise e else l

/-- The state with an event raised. -/
def raise (e : Event) (s : State) : State := { s with link := s.link.raise e }

/-- The state with an event raised when a condition holds. -/
def raiseIf (b : Bool) (e : Event) (s : State) : State := { s with link := s.link.raiseIf b e }

/-! ## The counters (R190, R191) -/

/-- A GENERAL counter's place in the list of section 11.12. -/
def General.index : General → Fin 10
  | .linesDone => 0 | .linesFailed => 1 | .passes => 2 | .feedSteps => 3 | .formsCrossed => 4
  | .droppedDots => 5 | .framesRejected => 6 | .receiveOverruns => 7 | .trips => 8 | .thermalWaits => 9

/-- A GENERAL counter's width in bits (R190). -/
def General.bits : General → Nat
  | .linesDone | .passes | .feedSteps | .formsCrossed | .droppedDots => 32
  | .linesFailed | .framesRejected | .receiveOverruns | .trips | .thermalWaits => 16

/-- A strike counter's width in bits (R190). -/
def strikeBits : Nat := 28

/-- Adding to a counter of some width: past its maximum it stays at its maximum (R190). -/
def saturate (bits v k : Nat) : Nat := min (v + k) (2 ^ bits - 1)

/-- Whether an addition takes a counter from below its half value to it or above with the half flag clear (R191). -/
def crossesHalf (bits v k : Nat) (flag : Bool) : Bool :=
  decide (v < 2 ^ (bits - 1)) && decide (2 ^ (bits - 1) ≤ saturate bits v k) && !flag

/-- Whether adding k to a GENERAL counter sets its half flag (R191). -/
def Bank.halves (b : Bank) (c : General) (k : Nat) : Bool :=
  crossesHalf c.bits b.general[c.index] k (b.generalHalf.getLsbD c.index)

/-- The bank with k added to a GENERAL counter (R190, R191). -/
def Bank.count (b : Bank) (c : General) (k : Nat) : Bank :=
  { b with
    general := b.general.set c.index (saturate c.bits b.general[c.index] k)
    generalHalf := if b.halves c k then b.generalHalf ||| BitVec.twoPow 10 c.index else b.generalHalf }

/-- Whether a strike sets a pin's half flag (R191). -/
def Bank.strikeHalves (b : Bank) (p : Fin 24) : Bool :=
  crossesHalf strikeBits b.strikes[p] 1 (b.strikesHalf.getLsbD p)

/-- The bank with one strike added to a pin (R104, R190). -/
def Bank.strike (b : Bank) (p : Fin 24) : Bank :=
  { b with
    strikes := b.strikes.set p (saturate strikeBits b.strikes[p] 1)
    strikesHalf := if b.strikeHalves p then b.strikesHalf ||| BitVec.twoPow 24 p else b.strikesHalf }

/-- The state with k added to a GENERAL counter, COUNTER_HALF raised where the addition reaches half (R190, R191). -/
def count (c : General) (k : Nat) (s : State) : State :=
  { s with
    counters := { s.counters with live := s.counters.live.count c k }
    link := s.link.raiseIf (s.counters.live.halves c k) .counterHalf }

/-- The state with one strike of a pin counted (R104). -/
def countStrike (p : Fin 24) (s : State) : State :=
  { s with
    counters := { s.counters with live := s.counters.live.strike p }
    link := s.link.raiseIf (s.counters.live.strikeHalves p) .counterHalf }

/-! ## The heat band and latch (R117 to R120) -/

/-- The band H gives: COOL below WARMTH, WARM at or above it (R119). -/
def bandOf (warmth h : Nat) : Band := if h < warmth then .cool else .warm

/-- The hot latch judged anew: set at or above HOTTH, clear at or below RESUME, otherwise as it was (R120). -/
def latchOf (hotth resume h : Nat) (was : Bool) : Bool :=
  if hotth ≤ h then true else if h ≤ resume then false else was

/-- The heat record with a new H, its band and latch judged anew (R119, R120). -/
def Heat.withH (r : Heat) (warmth hotth resume h : Nat) : Heat :=
  { r with h := h, band := bandOf warmth h, latch := latchOf hotth resume h r.latch }

/-- The state with H changed, band and latch judged anew. -/
def setHeat (h : Nat) (s : State) : State :=
  { s with heat := s.heat.withH (paramNat s .warmth) (paramNat s .hotth) (paramNat s .resume) h }

/-- A heat report: the sum, limited to 16,777,215 (R117). -/
def addHeat (k : Nat) (s : State) : State := setHeat (min (s.heat.h + k) Config.heatMax) s

/-- What one cooling tick leaves of H: H less max(1, H / 2^COOLSHIFT), and 0 stays 0 (R118). -/
def cooled (coolshift h : Nat) : Nat := h - max 1 (h / 2 ^ coolshift)

end Sys2Proof.Machine
end

