-- ==== Sys2Proof/Machine/Ops.lean ====
section
/-! DEFINITION. The shared operations: the views of the input lines, the queue and its retirement, the engine's part in
motions, unloading and form application, and a trip. -/

namespace Sys2Proof.Machine

/-! ## The input lines as the overlay presents them (R163, R173, R174) -/

/-- The bit of an overlay input (section 11.4). -/
def OverlayInput.bit : OverlayInput → Nat
  | .headHot => 0 | .driverFault => 1 | .paperAbsent => 2 | .homeActive => 3 | .markStall => 4 | .motionStall => 5

/-- Whether an overlay input's flag is set. -/
def flagSet (s : State) (i : OverlayInput) : Bool := s.engine.overlayInputs.getLsbD i.bit

/-- Whether an overlay input acts on its consumers: its flag is set in DRIVE mode (R173). -/
def driven (s : State) (i : OverlayInput) : Bool := decide (s.engine.overlayMode = .drive) && flagSet s i

/-- Whether an overlay input is judged on the overlaid view alone: its flag is set in OBSERVE mode (R174). -/
def observed (s : State) (i : OverlayInput) : Bool := decide (s.engine.overlayMode = .observe) && flagSet s i

/-- Whether HEAD_HOT is asserted in the sense of R163. -/
def headHotLevel (s : State) : Bool := s.lines.headHot || driven s .headHot

/-- Whether DRIVER_FAULT is asserted in the sense of R163. -/
def driverFaultLevel (s : State) : Bool := s.lines.driverFault || driven s .driverFault

/-- The assertion test of CLRF and ERST (R167, R168). -/
def levelAsserted (s : State) : Bool := headHotLevel s || driverFaultLevel s

/-- Whether the paper sensor is seen present (R141, R173). -/
def sensorPresent (s : State) : Bool := s.lines.paper && !driven s .paperAbsent

/-- Whether HOME is seen active (R79, R173). -/
def homeActive (s : State) : Bool := s.lines.home || driven s .homeActive

/-! ## Trip causes as sets (section 11.4) -/

/-- A trip cause's bit in a set. -/
def causeIndex : TripCause → Nat
  | .homeFail => 0 | .carriageSlip => 1 | .encoderLost => 2 | .paperJam => 3 | .headHot => 4 | .driverFault => 5

/-- The set that holds one cause. -/
def causeBit (c : TripCause) : CauseSet := BitVec.twoPow 6 (causeIndex c)

/-! ## The engine state's meaning (R155) -/

/-- The energy of the motor drivers in each engine state (R155). -/
def driverEnergy : EngineState → DriverEnergy
  | .homing | .ready => .full
  | .hold => .low
  | .unready | .rest | .warming | .tripped => .off

/-- The head supply in each engine state (R155). -/
def headSupply : EngineState → HeadSupply
  | .unready | .homing | .ready | .hold => .on
  | .rest | .tripped => .off
  | .warming => .comingUp

/-- Whether the executor may work: READY or HOLD (R37). -/
def readyOrHold (s : State) : Bool :=
  match s.engine.state with
  | .ready | .hold => true
  | .unready | .homing | .rest | .warming | .tripped => false

/-! ## Motion in progress -/

/-- Whether the carriage moves: a motion phase other than STOPPED (R184). -/
def carriageMoving (s : State) : Bool := decide (s.carriage.phase ≠ .stopped)

/-- Whether a feed move is in progress. -/
def feeding (s : State) : Bool := s.paper.move.isSome

/-- Whether a carriage motion or a feed move is in progress (R159, R168). -/
def inMotion (s : State) : Bool := carriageMoving s || feeding s

/-- The engine's part in a motion start: HOLD returns to READY and the hold timer stops (R78, R137, R158). -/
def Engine.motionStarted (e : Engine) : Engine :=
  { e with state := if e.state = .hold then .ready else e.state, holdTimer := none }

/-- The engine's part in a motion end: in READY the hold timer starts again from HOLDDLY (R158). -/
def Engine.motionEnded (e : Engine) (delay : Nat) : Engine :=
  { e with holdTimer := if e.state = .ready then some delay else e.holdTimer }

/-- Setting or clearing one output. -/
def Engine.setOutput (e : Engine) (i : Nat) (on : Bool) : Engine :=
  { e with outputs := if on then e.outputs ||| BitVec.twoPow 8 i else e.outputs &&& ~~~BitVec.twoPow 8 i }

/-- The ribbon drive, output 6 (R111). -/
def setRibbon (on : Bool) (s : State) : State := { s with engine := s.engine.setOutput 6 on }

/-! ## The queue -/

/-- The ACTIVE entry, which is the oldest if there is one (R32). -/
def activeEntry (s : State) : Option Entry :=
  match s.queue with
  | e :: _ => if e.active then some e else none
  | [] => none

/-- The fields of the ACTIVE entry when it is a LINE. -/
def activeLine (s : State) : Option LineFields :=
  match activeEntry s with
  | some e => match e.kind with
    | .line f => some f
    | .feed _ | .skip _ | .tear => none
  | none => none

/-- Whether a LINE entry is ACTIVE (R6, R184). -/
def lineActive (s : State) : Bool := (activeLine s).isSome

/-- Whether an entry is ACTIVE. -/
def hasActive (s : State) : Bool := (activeEntry s).isSome

/-- Whether an ACTIVE entry is held: the executor is IDLE with it (R36). -/
def held (s : State) : Bool := hasActive s && decide (s.exec.state = .idle)

/-- Whether the hold-reason set is empty (R45). -/
def holdsEmpty (s : State) : Bool := !s.holds.halted && !s.holds.paperOut

/-- The executor's blocking reason while it is IDLE: the first that applies, in R37's order. DESIGN CHOICE (log 37): none
while none applies and EXECUTOR_START has not yet been taken; R36 and R37 name no reason for that moment. -/
def blockingReason (s : State) : Option BlockReason :=
  if s.exec.state ≠ .idle then none
  else if s.queue = [] then some .empty
  else if s.holds.halted then some .held
  else if s.holds.paperOut then some .paper
  else if !readyOrHold s || s.engine.resetPending then some .engine
  else if !hasActive s && decide (Config.completionMax ≤ s.completions.length) then some .listFull
  else none

/-- The state with the HALTED hold added (R45). -/
def addHalted (s : State) : State := { s with holds := { s.holds with halted := true } }

/-- The state with one slot changed. -/
def setSlot (i : Fin 8) (x : Slot) (s : State) : State := { s with slots := s.slots.set i x }

/-- The state with one slot's state changed, the image kept. -/
def moveSlot (i : Fin 8) (st : SlotState) (s : State) : State := setSlot i { s.slots[i] with state := st } s

/-- The kind of an entry as a record names it. -/
def EntryKind.name : EntryKind → KindName
  | .line _ => .line
  | .feed _ => .feed
  | .skip _ => .skip
  | .tear => .tear

/-- Whether an outcome is FAILED (R42). -/
def EntryOutcome.failed : EntryOutcome → Bool
  | .done | .clampedReverse | .clampedPulse => false
  | .failedHalted | .failedTrip | .failedPaperOut | .failedNoChannel | .failedEject => true

/-- The passes of the plan whose RAMP_DOWN ended (R42, R53). -/
def passesMade (x : Executor) : Nat :=
  match x.plan with
  | some p => (p.passes.filter (fun r => r.done)).length
  | none => 0

/-- The completion record of an entry as it retires (R42). -/
def completionOf (e : Entry) (o : EntryOutcome) (s : State) : Completion where
  tag := e.tag
  kind := e.kind.name
  outcome := o
  passes := match e.kind with
    | .line _ => some (passesMade s.exec)
    | .feed _ | .skip _ | .tear => none
  y := s.paper.y
  form := s.paper.form

/-- The slots after an entry retires: a LINE's slot becomes FREE, or SEALED with its image when it failed
(R25, R26). -/
def releaseSlot (e : Entry) (o : EntryOutcome) (slots : Vector Slot 8) : Vector Slot 8 :=
  match e.kind with
  | .line f =>
    if o.failed then slots.set f.slot { slots[f.slot] with state := .sealed }
    else slots.set f.slot freeSlot
  | .feed _ | .skip _ | .tear => slots

/-- The line counters at a retirement (R42). -/
def countLine (e : Entry) (o : EntryOutcome) (s : State) : State :=
  match e.kind with
  | .line _ => count (if o.failed then .linesFailed else .linesDone) 1 s
  | .feed _ | .skip _ | .tear => s

/-- The state as the ACTIVE entry e leaves the queue with an outcome, before events and counts: record, removal, slot,
plan and resume point absent, a pending halt taking effect, the executor IDLE (R42); the plan-time inhibit set becomes
empty (R99) and a waiting pass absent (R123). -/
def leaveQueue (e : Entry) (rest : List Entry) (o : EntryOutcome) (s : State) : State :=
  { s with
    completions := s.completions ++ [completionOf e o s]
    queue := rest
    slots := releaseSlot e o s.slots
    exec := idleExecutor
    holds := { s.holds with halted := s.holds.halted || s.exec.pendingHalt.isSome }
    fire := { s.fire with planInhibit := 0#24 }
    heat := { s.heat with waiting := none } }

/-- Retirement of the ACTIVE entry, one step, with its events and counts (R32, R42). -/
def retire (o : EntryOutcome) (s : State) : State :=
  match s.queue with
  | [] => s
  | e :: rest =>
    if e.active then
      countLine e o
        (raiseIf (decide (s.queue.length = Config.queueMax)) .queueRoom
          (raise (if o.failed then .entryFailed else .entryDone) (leaveQueue e rest o s)))
    else s

/-- Failing the ACTIVE entry, if there is one: an entry already failed with cause HALTED keeps that cause (R48, R51). -/
def failActive (o : EntryOutcome) (s : State) : State := retire (if s.exec.failing then .failedHalted else o) s

/-- A held entry at a resume point: HALTED added, the executor IDLE, the pending halt in effect (R47). -/
def holdAt (r : Resume) (s : State) : State :=
  { s with
    holds := { s.holds with halted := true }
    exec := { s.exec with state := .idle, resume := some r, pendingHalt := none } }

/-! ## Paper records -/

/-- The load flag (R128). -/
def loaded (s : State) : Bool := decide (s.paper.state ≠ .out)

/-- Unloading the paper: load flag clear, state OUT, y, remaining, tear distance and unpulsed steps 0, the tear flag
clear; the form number and the definitions stand (R134, R142, R149, R152). -/
def Paper.unload (p : Paper) : Paper :=
  { p with
    state := .out, y := 0, remaining := 0, tearPresented := false, tearDistance := 0,
    unpulsed := 0, observedUnpulsed := 0 }

/-- The pending definition, if any, becomes the active one (R133). -/
def Paper.applyNext (p : Paper) : Paper :=
  { p with active := p.next.getD p.active, next := none }

/-- Applying a pending definition, FORM_APPLIED raised when there was one (R133). -/
def applyNext (s : State) : State :=
  { s with paper := s.paper.applyNext, link := s.link.raiseIf s.paper.next.isSome .formApplied }

/-- Adding the PAPER_OUT hold and raising PAPER_OUT (R38, R142). -/
def addPaperOut (s : State) : State :=
  raise .paperOut { s with holds := { s.holds with paperOut := true } }

/-! ## Trips (R164 to R166) -/

/-- The first-fault record of a cause: the part's state as it stands (R165). -/
def faultRecord (c : TripCause) (s : State) : FaultRecord where
  cause := c
  engine := s.engine.state
  exec := s.exec.state
  tag := (activeEntry s).map (fun e => e.tag)
  position := if s.carriage.homed then s.carriage.position else none
  y := s.paper.y
  form := s.paper.form

/-- The outputs after a trip: those of 0..5 named in TRIPMASK off, the ribbon off, the fault lamp on (R111, R164,
R171). -/
def tripOutputs (mask : Nat) (outputs : BitVec 8) : BitVec 8 :=
  (outputs &&& ~~~(BitVec.ofNat 8 mask &&& 0x3F#8) &&& ~~~0x40#8) ||| 0x80#8

/-- The mechanism causes that have come about and are not yet taken: a jam at the last feed step, the no-mark distance
at 96 ticks, the seek's travel at 3,900 columns with HOME inactive (R79, R94, R151). -/
def dueCauses (s : State) : CauseSet :=
  (if s.paper.jamDue then causeBit .paperJam else 0#6) |||
    (if carriageMoving s && decide (Config.noMarkLimit ≤ s.carriage.noMark) then causeBit .encoderLost else 0#6) |||
    (if decide (s.carriage.phase = .seek) && decide (Config.seekLimit ≤ s.carriage.seekTravel) && !homeActive s then
      causeBit .homeFail else 0#6)

/-- The engine's record after a trip (R164); another cause that came about with it joins the further causes, which are
otherwise empty (R166). -/
def tripEngine (c : TripCause) (s : State) : Engine :=
  { s.engine with
    state := .tripped, restOrigin := none, wakeTarget := none, holdTimer := none, warmTimer := none,
    resetPending := false, firstFault := some (faultRecord c s), further := dueCauses s &&& ~~~causeBit c,
    outputs := tripOutputs (paramNat s .tripmask) s.engine.outputs }

/-- The paper record after a trip: the feed move ends, the unpulsed steps are 0, and a PAPER_JAM unloads (R138, R151,
R152). -/
def Paper.trip (c : TripCause) (p : Paper) : Paper :=
  { (if c = .paperJam then p.unload else p) with
    move := none, jamDue := false, unpulsed := 0, observedUnpulsed := 0 }

/-- The Fire Unit's record after a trip: every pulse cut off, no group due, the plan-time inhibit set empty (R109).
DESIGN CHOICE (log 40): R99 and R109 empty the set in a trip that fails the active entry, and in one while no pass is in
progress; here a trip during an ERST's controlled stop of a pass, which finds no ACTIVE entry, empties it too. -/
def Fire.cutOff (f : Fire) : Fire := { f with driving := 0#24, planInhibit := 0#24, due := none }

/-- A trip (R164): record, carriage, pulses and feed move first, then the ACTIVE entry, then the hold, the event and
the count. -/
def trip (c : TripCause) (s : State) : State :=
  count .trips 1
    (raise .trip
      (addHalted
        (failActive .failedTrip
          { s with
            engine := tripEngine c s
            carriage := clearedCarriage
            fire := s.fire.cutOff
            paper := s.paper.trip c })))

/-- A test trip: the cause joins the test-trip set, and TEST_TRIP is raised if it was not in it (R174). -/
def testTripFor (c : TripCause) (s : State) : State :=
  raiseIf (!s.engine.testTrips.getLsbD (causeIndex c)) .testTrip
    { s with engine := { s.engine with testTrips := s.engine.testTrips ||| causeBit c } }

/-- A test trip when a condition holds. -/
def testTripIf (b : Bool) (c : TripCause) (s : State) : State := if b then testTripFor c s else s

end Sys2Proof.Machine
end

