-- ==== Sys2Proof/Machine/Motion.lean ====
section
/-! DEFINITION. The carriage: geometry, motions, marks and filters, and controlled stops (chapter 5). -/

namespace Sys2Proof.Machine

/-! ## Geometry (R77, R82) -/

/-- s of a direction: +1 forward, −1 reverse (00_scope.md). -/
def dirSign : Dir → Int
  | .forward => 1
  | .reverse => -1

/-- The other direction. -/
def dirFlip : Dir → Dir
  | .forward => .reverse
  | .reverse => .forward

/-- How many ticks q lies ahead of p in a direction; 0 when p has reached it (R76). -/
def ahead (d : Dir) (p q : Int) : Nat := (dirSign d * (q - p)).toNat

/-- The ramp R of a pass in columns: ceil((v² − 200²) / (2·ACCEL)) (R77). -/
def rampColumns (v accel : Nat) : Nat := (v * v - 40000 + (2 * accel - 1)) / (2 * accel)

/-- The low end of a pass (R82). -/
def lowEnd (lo ramp : Nat) : Int := 16 * ((lo : Int) - (Config.margin : Int) - (ramp : Int))
/-- The low cruise edge of a pass (R82). -/
def lowEdge (lo : Nat) : Int := 16 * ((lo : Int) - (Config.margin : Int))
/-- The high cruise edge of a pass (R82). -/
def highEdge (hi : Nat) : Int := 16 * ((hi : Int) + (Config.margin : Int))
/-- The high end of a pass (R82). -/
def highEnd (hi ramp : Nat) : Int := 16 * ((hi : Int) + (Config.margin : Int) + (ramp : Int))

/-- The points of a pass in its direction of travel (R82). -/
def passProfile (r : PassRec) (v accel : Nat) : Profile :=
  match r.dir with
  | .forward =>
    ⟨lowEnd r.lo (rampColumns v accel), highEnd r.hi (rampColumns v accel), lowEdge r.lo, highEdge r.hi, v, accel⟩
  | .reverse =>
    ⟨highEnd r.hi (rampColumns v accel), lowEnd r.lo (rampColumns v accel), highEdge r.hi, lowEdge r.lo, v, accel⟩

/-- A move at SLEW from p to q: a reposition or the park move (R77). -/
def slewProfile (p q : Int) (slew accel : Nat) : Profile := ⟨p, q, p, q, slew, accel⟩

/-! ## Starting and ending a motion (R78) -/

/-- A motion starts: phase, direction and profile, both no-mark distances 0, and the engine's part (R78, R174). -/
def startMotion (ph : MotionPhase) (d : Dir) (pf : Option Profile) (s : State) : State :=
  { s with
    carriage := { s.carriage with phase := ph, direction := some d, profile := pf, noMark := 0, observedNoMark := 0 }
    engine := s.engine.motionStarted }

/-- A motion ends: STOPPED, and the engine times the hold delay (R78, R158). -/
def endMotion (s : State) : State :=
  { s with
    carriage := { s.carriage with phase := .stopped, direction := none, profile := none }
    engine := s.engine.motionEnded (paramNat s .holddly) }

/-- The end of a feed move is reported in the same way (R137, R158). -/
def endFeed (s : State) : State :=
  { s with
    paper := { s.paper with move := none }
    engine := s.engine.motionEnded (paramNat s .holddly) }

/-- A feed move starts (R137). -/
def startFeed (u : Purpose) (d : Dir) (n : Nat) (s : State) : State :=
  { s with
    paper := { s.paper with move := some ⟨u, d, n, 0, false, false⟩ }
    engine := s.engine.motionStarted }

/-! ## Travel (R76, R94) -/

/-- The ticks left until the motion reaches its next point: the seek's limit, a cruise edge, the due group's fire
position, or the end point (R76, R79, R82, R91). -/
def legLeft (s : State) : Nat :=
  match s.carriage.direction, s.carriage.profile with
  | some d, some pf =>
    let p := s.carriage.position.getD 0
    match s.carriage.phase with
    | .stopped => 0
    | .seek => Config.seekLimit - s.carriage.seekTravel
    | .park | .reposition | .rampDown | .stopping => ahead d p pf.target
    | .rampUp => ahead d p pf.edgeIn
    | .cruise => match s.fire.due with
      | some g => ahead d p g.firePos
      | none => ahead d p pf.edgeOut
  | _, _ => if s.carriage.phase = .seek then Config.seekLimit - s.carriage.seekTravel else 0

/-- The ticks the carriage may travel before a step of its own falls due, the loss of the encoder among them (R94). -/
def room (s : State) : Nat := min (legLeft s) (Config.noMarkLimit - s.carriage.noMark)

/-- n ticks of commanded travel in the direction of motion (R76, R79, R94); the distances stay within their range. -/
def Carriage.travel (c : Carriage) (n : Nat) : Carriage :=
  match c.direction with
  | some d =>
    { c with
      position := c.position.map (fun p => p + dirSign d * (n : Int))
      seekTravel := if c.phase = .seek then c.seekTravel + n else c.seekTravel
      noMark := min Config.noMarkLimit (c.noMark + n)
      observedNoMark := min Config.noMarkLimit (c.observedNoMark + n) }
  | none => c

/-- Whether n ticks of travel in OBSERVE bring the observed no-mark distance to 96 at a tick at which the real one is
short of it (R174). -/
def observedLost (n : Nat) (s : State) : Bool :=
  decide (s.engine.overlayMode = .observe) && decide (0 < n) &&
    decide (Config.noMarkLimit ≤ s.carriage.observedNoMark + n) && decide (s.carriage.noMark < s.carriage.observedNoMark)

/-- The state after n ticks of commanded travel; the tick at which the observed distance alone reaches 96 is a test
trip, from which that distance starts again at 0 (R76, R94, R174). -/
def travel (n : Nat) (s : State) : State :=
  if observedLost n s then
    testTripFor .encoderLost
      { s with carriage := { s.carriage.travel n with
          observedNoMark := s.carriage.observedNoMark + n - Config.noMarkLimit } }
  else { s with carriage := s.carriage.travel n }

/-- The state after the travel that brings the commanded position to q, if it has not reached it (R76, log 5). -/
def reach (q : Int) (s : State) : State :=
  match s.carriage.direction, s.carriage.position with
  | some d, some p => travel (ahead d p q) s
  | _, _ => s

/-- Whether the motion can reach its next point: the no-mark distance stays short of 96 ticks on the way (R94). -/
def legClear (s : State) : Bool := decide (s.carriage.noMark + legLeft s < Config.noMarkLimit)

/-! ## Homing (R79, R80) -/

/-- HOME ends the seek: the position is set to −4608 ticks and the park move starts (R80). -/
def homeReached (s : State) : State :=
  startMotion .park .forward
    (some (slewProfile Config.homeTicks Config.parkTicks (paramNat s .slew) (paramNat s .accel)))
    { s with carriage := { s.carriage with position := some Config.homeTicks, seekTravel := 0 } }

/-- The seek starts: homed flag clear, position and phase absent; with HOME already active it ends at once (R79). -/
def startSeek (s : State) : State :=
  let s' := startMotion .seek .reverse none
    { s with carriage := { s.carriage with homed := false, position := none, markPhase := none, seekTravel := 0 } }
  if homeActive s' then homeReached s' else s'

/-- The engine enters HOMING: full current, the hold timer stops, the seek starts (R157). -/
def enterHoming (s : State) : State :=
  startSeek { s with engine := { s.engine with state := .homing, holdTimer := none, warmTimer := none } }

/-! ## Filters and corrections (R88, R89) -/

/-- A filter update: D + trunc((16·d − D) / 2^FDEPTH) (R88). -/
def filterStep (fdepth : Nat) (dev d : Int) : Int := dev + (16 * d - dev).tdiv (2 ^ fdepth)

/-- The filter of a direction of travel. -/
def Carriage.dev (c : Carriage) : Dir → Int
  | .forward => c.devForward
  | .reverse => c.devReverse

/-- The filters after an update of one direction's (R87, R88). -/
def Carriage.updateDev (c : Carriage) (fdepth : Nat) (dir : Dir) (d : Int) : Carriage :=
  match dir with
  | .forward => { c with devForward := filterStep fdepth c.devForward d }
  | .reverse => { c with devReverse := filterStep fdepth c.devReverse d }

/-- D/16 rounded to the nearest integer, halves away from zero (R89). -/
def roundSixteenth (d : Int) : Int :=
  if d < 0 then -(((d.natAbs + 8) / 16 : Nat) : Int) else (((d.natAbs + 8) / 16 : Nat) : Int)

/-- A value limited to a range. -/
def clampInt (lo hi v : Int) : Int := max lo (min hi v)

/-- The correction C(s) (R89). -/
def correction (s : State) (d : Dir) : Int :=
  clampInt (-(param s .climit)) (param s .climit) (roundSixteenth (s.carriage.dev d))

/-! ## Controlled stops (R96) -/

/-- The ticks of a controlled stop from p: no more than the travel made from rest, no more than what is left, and the
distance to slow from the top speed to 200 col/s at ACCEL; whether a tick only partly covered counts is a free value
(R96, log 7). -/
def stopTicks (pf : Profile) (p : Int) (countPartial : Bool) : Nat :=
  let q := 8 * (pf.top * pf.top - 40000)
  let full := q / pf.accel + (if countPartial && decide (q % pf.accel ≠ 0) then 1 else 0)
  min (p - pf.origin).natAbs (min (pf.target - p).natAbs full)

/-- The carriage with its motion in a controlled stop: the end point becomes the place of rest (R96). -/
def Carriage.stop (c : Carriage) (countPartial : Bool) : Carriage :=
  match c.direction, c.position, c.profile with
  | some d, some p, some pf =>
    { c with
      phase := .stopping
      profile := some { pf with origin := p, target := p + dirSign d * (stopTicks pf p countPartial : Int) } }
  | _, _, _ => { c with phase := .stopping }

/-- A controlled stop of the carriage is requested: firing stops at once; a stop in progress goes on (R96, R97). -/
def stopCarriage (s : State) : State :=
  if s.carriage.phase = .stopping then s
  else
    { s with
      carriage := s.carriage.stop (Config.stopTick s.freeCount)
      fire := { s.fire with due := none }
      freeCount := s.freeCount + 1 }

/-- Whether an eject has ended without its paper's end: at its limit with the sensor still present, or by an earlier
return to LOADED past the limit (R149, log 38). -/
def FeedMove.over (m : FeedMove) (st : PaperState) : Bool :=
  match m.purpose with
  | .eject limit => m.ended || (decide (limit ≤ m.made) && decide (st = .loaded))
  | .preload _ | .load | .retract | .perfSkip | .feed _ | .skip | .present | .feedAfter => false

/-- A controlled stop of the feed move in progress: only the step in progress may still be made, and none by an eject
that has ended (R138, R149, log 23). -/
def FeedMove.stop (m : FeedMove) (st : PaperState) : FeedMove :=
  if m.stopping then m
  else { m with stopping := true, left := match m.purpose with
    | .eject _ => if m.over st then 0 else 1
    | .preload _ | .load | .retract | .perfSkip | .feed _ | .skip | .present | .feedAfter => min 1 m.left }

/-- The state with a controlled stop of the feed move requested. -/
def stopFeed (s : State) : State :=
  { s with paper := { s.paper with move := s.paper.move.map (fun m => m.stop s.paper.state) } }

/-- A controlled stop of whatever is in motion: the carriage, or else the feed move. -/
def controlledStop (s : State) : State := if carriageMoving s then stopCarriage s else stopFeed s

end Sys2Proof.Machine
end

