-- ==== Sys2Proof/Machine/Planner.lean ====
section
/-! DEFINITION. The Line Planner: how a plan record is built, step by step (chapter 4), and the dots it speaks of. -/

namespace Sys2Proof.Machine

/-! ## Dots of an image (R1, R31, R59, R100) -/

/-- The rows whose dots belong to a line: enabled, and their pin not in the inhibit set (R1, R15). -/
def rowKept (map : Vector MapRow 24) (inhibit : PinSet) (r : Fin 24) : Bool :=
  map[r].enabled && !inhibit.getLsbD map[r].pin

/-- The rows of a column that hold a dot and belong to the line. -/
def dotRows (map : Vector MapRow 24) (inhibit : PinSet) (c : Column) : List (Fin 24) :=
  (List.finRange 24).filter (fun r => c.getLsbD r && rowKept map inhibit r)

/-- The rows of a column that hold a dot and are excluded (R15, R59). -/
def excludedRows (map : Vector MapRow 24) (inhibit : PinSet) (c : Column) : List (Fin 24) :=
  (List.finRange 24).filter (fun r => c.getLsbD r && !rowKept map inhibit r)

/-- The plan's dropped-at-plan count: every excluded dot, once (R59). -/
def droppedDots (map : Vector MapRow 24) (inhibit : PinSet) (cols : List Column) : Nat :=
  (cols.map (fun c => (excludedRows map inhibit c).length)).sum

/-- Whether some row has dots that belong to the line at two columns k apart (R60). -/
def apart (k : Nat) (map : Vector MapRow 24) (inhibit : PinSet) (cols : List Column) : Bool :=
  (cols.zip (cols.drop k)).any (fun ab =>
    (List.finRange 24).any (fun r => ab.1.getLsbD r && ab.2.getLsbD r && rowKept map inhibit r))

/-- Whether a target column lies in a pass's subset for shingle factor f (R53, R67). -/
def inSubset (f : Nat) (sub : Option Nat) (c : Nat) : Bool :=
  match sub with
  | none => true
  | some j => decide (c % f = j)

/-- The reference columns c + o of a line's dots in one subset, one for each dot (R1, R53, R69). -/
def passRefs (map : Vector MapRow 24) (inhibit : PinSet) (left f : Nat) (sub : Option Nat) (cols : List Column) :
    List Nat :=
  cols.zipIdx.flatMap (fun ci =>
    if inSubset f sub (left + ci.2) then
      (dotRows map inhibit ci.1).map (fun r => left + ci.2 + map[r].offset.val)
    else [])

/-! ## Choosing the class (R58, R61 to R65) -/

/-- The parameter CRUISEk (R196). -/
def cruiseId : Nat → ParamId
  | 0 => .cruise0
  | 1 => .cruise1
  | 2 => .cruise2
  | _ => .cruise3

/-- The cruise speed v_k of a class. -/
def cruise (s : State) (k : Nat) : Nat := paramNat s (cruiseId k)

/-- The pulse fits class k when 4·w·v ≤ 3,000,000 (R61). -/
def pulseFits (w v : Nat) : Bool := decide (4 * w * v ≤ 3000000)

/-- The recovery test at speed v for shingle factor f (R62). -/
def recovers (adjacent twoApart : Bool) (recovery v f : Nat) : Bool :=
  if f = 1 then !adjacent || decide (v * recovery ≤ 1000000)
  else if f = 2 then !twoApart || decide (v * recovery ≤ 2000000)
  else true

/-- The first class from q down to 0 that satisfies a test (R63). -/
def firstClass (ok : Nat → Bool) : Nat → Option Nat
  | 0 => if ok 0 then some 0 else none
  | q + 1 => if ok (q + 1) then some (q + 1) else firstClass ok q

/-- A class choice: class, shingle factor for recovery, pulse width, and whether no class carries the pulse. -/
structure Choice where
  cls     : Nat
  shingle : Nat
  width   : Nat
  unfit   : Bool
  deriving DecidableEq, Repr

/-- The smallest shingle factor at which class 0 passes the recovery test (R65). -/
def clampShingle (recoversAt : Nat → Bool) : Nat :=
  if recoversAt 1 then 1 else if recoversAt 2 then 2 else 4

/-- The class, shingle factor and pulse width of a line (R63 to R65). -/
def chooseClass (speed : Nat → Nat) (adjacent twoApart : Bool) (recovery q w : Nat) : Choice :=
  let fits := fun k => pulseFits w (speed k)
  let ok := fun f k => fits k && recovers adjacent twoApart recovery (speed k) f
  match firstClass (ok 1) q with
  | some k => ⟨k, 1, w, false⟩
  | none =>
    match firstClass fits q with
    | none => ⟨0, clampShingle (recovers adjacent twoApart recovery (speed 0)), 750000 / speed 0, true⟩
    | some k4 =>
      match firstClass (ok 2) q with
      | some k => ⟨k, 2, w, false⟩
      | none => ⟨k4, 4, w, false⟩

/-- The lead L = floor((v·FLIGHT·16 + 500,000) / 1,000,000), limited to 0..63 (R66). -/
def leadOf (v flight : Nat) : Nat := min 63 ((v * flight * 16 + 500000) / 1000000)

/-! ## Passes (R67 to R72) -/

/-- The subsets of a shingle factor, in order (R67). -/
def subsets (f : Nat) : List (Option Nat) := if f = 1 then [none] else (List.range f).map some

/-- A pass of a subset's reference columns; none when the subset holds no dots (R53, R67, R69). -/
def passOf (w : Nat) (sub : Option Nat) (refs : List Nat) : Option PassRec :=
  match refs with
  | [] => none
  | r :: rest =>
    some { dir := .forward, subset := sub, dots := refs.length, heat := refs.length * (w / 16),
           lo := rest.foldl min r, hi := rest.foldl max r, done := false }

/-- One set of passes (R67). -/
def passSet (map : Vector MapRow 24) (inhibit : PinSet) (left : Nat) (cols : List Column) (w f : Nat) : List PassRec :=
  (subsets f).filterMap (fun sub => passOf w sub (passRefs map inhibit left f sub cols))

/-- The shingle factor after the heat check: doubled while some pass is too hot, up to 4 (R68). -/
def heatShingle (sets : Nat → List PassRec) (limit f : Nat) : Nat :=
  let hot := fun f => (sets f).any (fun r => decide (limit < r.heat))
  if f = 1 then (if hot 1 then (if hot 2 then 4 else 2) else 1)
  else if f = 2 then (if hot 2 then 4 else 2)
  else f

/-- The direction of pass 0 under AUTO: the nearer start point, FORWARD at equal distances (R72). -/
def autoDir (r : PassRec) (ramp : Nat) (p : Int) : Dir :=
  if (lowEnd r.lo ramp - p).natAbs ≤ (highEnd r.hi ramp - p).natAbs then .forward else .reverse

/-- The passes with alternating directions, beginning with d (R72). -/
def alternate : Dir → List PassRec → List PassRec
  | _, [] => []
  | d, r :: rest => { r with dir := d } :: alternate (dirFlip d) rest

/-- The passes with their directions (R71, R72). -/
def directed (dir : LineDirection) (ramp : Nat) (p : Int) (passes : List PassRec) : List PassRec :=
  match dir with
  | .forward => passes.map (fun r => { r with dir := .forward })
  | .reverse => passes.map (fun r => { r with dir := .reverse })
  | .auto => match passes with
    | [] => []
    | r :: rest => alternate (autoDir r ramp p) (r :: rest)

/-! ## The planning step (R54) -/

/-- The width of a table for a ply 1..6 and a band (R58, R112). -/
def tableWidth (t : EnergyTable) (ply : Nat) (b : Band) : Nat :=
  match b with
  | .cool => t.cool.toList.getD (ply - 1) 0
  | .warm => t.warm.toList.getD (ply - 1) 0

/-- The class cap q (R58). -/
def classCap (cls : Nat) (b : Band) : Nat :=
  match b with
  | .cool => cls
  | .warm => min cls 2

/-- The plan of a LINE entry, from its fields and the state with the pending table already taken (R57 to R74). -/
def buildPlan (f : LineFields) (s : State) : Plan :=
  let slot := s.slots[f.slot]
  let map := s.fire.pinMap
  let inh := s.fire.inhibit
  let band := bandOf (paramNat s .warmth) s.heat.h
  let w0 := tableWidth s.fire.table (f.ply.getD s.paper.active.ply) band
  let ch := chooseClass (cruise s) (apart 1 map inh slot.cols) (apart 2 map inh slot.cols)
    (paramNat s .recovery) (classCap f.cls band) w0
  let sets := passSet map inh slot.left slot.cols ch.width
  let shingle := heatShingle sets (paramNat s .ceiling - paramNat s .resume) ch.shingle
  let v := cruise s ch.cls
  let single := sets shingle
  let passes := match f.mode with
    | .single => single
    | .double => single ++ single
  { width := ch.width
    cls := ch.cls
    speed := v
    lead := leadOf v (paramNat s .flight)
    shingle := shingle
    clamped := ch.unfit && !passes.isEmpty
    dropped := droppedDots map inh slot.cols
    passes := directed f.direction (rampColumns v (paramNat s .accel)) (s.carriage.position.getD 0) passes }

/-- The pending table, if any, is taken into use (R56). -/
def Fire.takeTable (f : Fire) : Fire :=
  { f with table := f.pendingTable.getD f.table, pendingTable := none }

/-- The planning step: the pending table is taken, the plan built, the inhibit list copied (R99) and the excluded dots
counted (R54, R56, R59). -/
def planned (f : LineFields) (s : State) : State :=
  let s1 := { s with fire := s.fire.takeTable }
  let plan := buildPlan f s1
  count .droppedDots plan.dropped
    { s1 with
      exec := { s1.exec with plan := some plan }
      fire := { s1.fire with planInhibit := s1.fire.inhibit } }

/-! ## Fire groups (R90, R91, R100) -/

/-- Whether the image of a slot holds a dot at a target column and row (R31). -/
def imageDot (slot : Slot) (c : Nat) (r : Fin 24) : Bool :=
  decide (slot.left ≤ c) && (slot.cols.getD (c - slot.left) 0#24).getLsbD r

/-- The rows of the fire group at a reference column of a pass (R100). -/
def groupRows (s : State) (slot : Slot) (f : Nat) (r : PassRec) (ref : Nat) : List (Fin 24) :=
  (List.finRange 24).filter (fun row =>
    let o := (s.fire.pinMap[row]).offset.val
    decide (o ≤ ref) && rowKept s.fire.pinMap s.fire.planInhibit row && inSubset f r.subset (ref - o) &&
      imageDot slot (ref - o) row)

/-- The first reference column with a group, from ref on in the direction of travel, within so many columns. -/
def findGroup (has : Nat → Bool) (d : Dir) : Nat → Nat → Option Nat
  | 0, _ => none
  | k + 1, ref =>
    if has ref then some ref
    else match d with
      | .forward => findGroup has d k (ref + 1)
      | .reverse => if ref = 0 then none else findGroup has d k (ref - 1)

/-- The reverse trim RTRIMk (R66, R90). -/
def trimId : Nat → ParamId
  | 0 => .rtrim0
  | 1 => .rtrim1
  | 2 => .rtrim2
  | _ => .rtrim3

/-- The fire position F = 16·(c + o) − s·L + T(s) − C(s), with the trim and correction of this moment (R90). -/
def firePosition (s : State) (plan : Plan) (d : Dir) (ref : Nat) : Int :=
  16 * (ref : Int) - dirSign d * (plan.lead : Int)
    + (match d with
       | .forward => 0
       | .reverse => param s (trimId plan.cls))
    - correction s d

/-- The number of the pass in progress, the first whose done flag is no (R73). -/
def passIndex (p : Plan) : Nat := (p.passes.takeWhile (fun r => r.done)).length

/-- The pass in progress (R73). -/
def passNow (p : Plan) : Option PassRec := p.passes.find? (fun r => !r.done)

/-- The group that becomes due when CRUISE begins (ref absent) or when the group at ref has fired (R91). -/
def dueAfter (s : State) (slot : Slot) (plan : Plan) (r : PassRec) (ref : Option Nat) : Option DueGroup :=
  let has := fun c => !(groupRows s slot plan.shingle r c).isEmpty
  let found := match r.dir with
    | .forward =>
      let start := ref.elim r.lo (fun c => c + 1)
      findGroup has .forward (r.hi + 1 - start) start
    | .reverse =>
      match ref with
      | some c => if c = 0 then none else findGroup has .reverse (c - r.lo) (c - 1)
      | none => findGroup has .reverse (r.hi + 1 - r.lo) r.hi
  found.map (fun c => ⟨c, firePosition s plan r.dir c⟩)

/-- The LINE entry at work: its slot, its plan and the pass in progress. -/
def working (s : State) : Option (Slot × Plan × PassRec) :=
  match activeLine s, s.exec.plan with
  | some f, some plan => (passNow plan).map (fun r => (s.slots[f.slot], plan, r))
  | _, _ => none

/-- The next fire group of the pass in progress, after the group at ref or from the start (R91). -/
def nextDue (s : State) (ref : Option Nat) : Option DueGroup :=
  match working s with
  | some w => dueAfter s w.1 w.2.1 w.2.2 ref
  | none => none

/-- The state with the next fire group due. -/
def setDue (ref : Option Nat) (s : State) : State := { s with fire := { s.fire with due := nextDue s ref } }

end Sys2Proof.Machine
end

