-- ==== Sys2Proof/Machine/Work.lean ====
section
/-! DEFINITION. The Line Executor's work from step to step: staging, planning, the heat gate, reposition and pass, the
entry's own move and the feed-after (R40, R41), resumption (R49), the ends of feed moves that are due (R142, R149) and how
a cause arises (R164, R166). -/

namespace Sys2Proof.Machine

/-! ## Passes (R84, R85, R121, R122) -/

/-- The pass's motion starts in RAMP_UP and the ribbon drive turns on (R85, R111). -/
def startPass (plan : Plan) (r : PassRec) (s : State) : State :=
  setRibbon true
    (startMotion .rampUp r.dir (some (passProfile r plan.speed (paramNat s .accel)))
      { s with exec := { s.exec with state := .pass } })

/-- POSITION: a reposition to the pass's start point, or at once the pass when the carriage stands there (R84). -/
def goPosition (plan : Plan) (r : PassRec) (s : State) : State :=
  let start := (passProfile r plan.speed (paramNat s .accel)).origin
  let p := s.carriage.position.getD 0
  let s' := { s with exec := { s.exec with state := .position }, heat := { s.heat with waiting := none } }
  if p = start then startPass plan r s'
  else startMotion .reposition (if p < start then .forward else .reverse)
    (some (slewProfile p start (paramNat s .slew) (paramNat s .accel))) s'

/-- The heat gate: admitted when the latch is clear and H + h ≤ CEILING or H ≤ RESUME (R121). -/
def gateAdmits (s : State) (h : Nat) : Bool :=
  !s.heat.latch && (decide (s.heat.h + h ≤ paramNat s .ceiling) || decide (s.heat.h ≤ paramNat s .resume))

/-- A pass the gate refuses waits in COOL; THERMAL_WAIT is raised and counted (R122). -/
def beginWait (r : PassRec) (s : State) : State :=
  count .thermalWaits 1
    (raise .thermalWait
      { s with exec := { s.exec with state := .cool }, heat := { s.heat with waiting := some r.heat } })

/-- A pass is submitted to the heat gate (R121, R122). -/
def submit (plan : Plan) (r : PassRec) (s : State) : State :=
  if gateAdmits s r.heat then goPosition plan r s else beginWait r s

/-- A waiting pass is tested again; the first test that admits ends the wait (R122). -/
def retest (s : State) : State :=
  match s.heat.waiting, s.exec.plan with
  | some h, some plan =>
    if gateAdmits s h then
      match passNow plan with
      | some r => goPosition plan r s
      | none => s
    else s
  | _, _ => s

/-! ## Feed-after and retirement of a line (R40) -/

/-- A line whose work is complete retires DONE, or CLAMPED when its plan is pulse-clamped (R40, R65). -/
def completeLine (s : State) : State :=
  retire (if (s.exec.plan.map (fun p => p.clamped)).getD false then .clampedPulse else .done) s

/-- ADVANCE of a line: the feed-after; 0 steps end it as soon as it is entered (R40). -/
def beginFeedAfter (s : State) : State :=
  let s' := { s with exec := { s.exec with state := .advance, resume := none } }
  match activeLine s with
  | some f => if f.feedAfter = 0 then completeLine s' else startFeed .feedAfter .forward f.feedAfter s'
  | none => s

/-- The next pass whose done flag is no, or the feed-after (R40, R73). -/
def nextWork (s : State) : State :=
  match s.exec.plan with
  | some plan =>
    match passNow plan with
    | some r => submit plan r s
    | none => beginFeedAfter s
  | none => s

/-- The planning step, then the first pass or the feed-after (R54, R74). -/
def planAndGo (f : LineFields) (s : State) : State :=
  nextWork (planned f { s with exec := { s.exec with state := .prepare, resume := none } })

/-! ## Staging of a line (R150) -/

/-- The perforation skip judged on the active definition and the present y, on FANFOLD: the steps of its next move,
0 when none is needed (R150). -/
def perfSkipSteps (s : State) : Nat :=
  let d := s.paper.active
  match path s with
  | .sheet => 0
  | .fanfold =>
    if s.paper.y < d.skipTop then d.skipTop - s.paper.y
    else if d.length < s.paper.y + Config.bandSteps + d.skipBottom then d.length - s.paper.y
    else 0

/-- Staging after any retract: the perforation skip's next move, or planning (R150, R54). -/
def stageLine (f : LineFields) (s : State) : State :=
  if perfSkipSteps s = 0 then planAndGo f s
  else startFeed .perfSkip .forward (perfSkipSteps s)
    { s with exec := { s.exec with state := .prepare, resume := none } }

/-! ## The moves of FEED, SKIP and TEAR (R144 to R149) -/

/-- The steps a reverse FEED makes: min(|d|, REVLIM, y) (R144). -/
def reverseSteps (d : Int) (revlim y : Nat) : Nat := min d.natAbs (min revlim y)

/-- Whether a stop carries a channel. -/
def Stop.carries (x : Stop) (n : Nat) : Bool := x.channels.getLsbD n

/-- The distance of a SKIP to channel n, if a stop carries it: first the active definition's stops after y, then the
next form's from its top (R145). -/
def skipDistance (p : Paper) (n : Nat) : Option Nat :=
  match p.active.stops.find? (fun x => decide (p.y < x.position) && x.carries n) with
  | some x => some (x.position - p.y)
  | none =>
    match (p.next.getD p.active).stops.find? (fun x => x.carries n) with
    | some x => some (p.active.length - p.y + x.position)
    | none => none

/-- ADVANCE of a FEED of distance d (R144). -/
def moveFeed (d : Int) (s : State) : State :=
  if 0 < d then startFeed (.feed false) .forward d.toNat s
  else if d = 0 then retire .done s
  else
    let n := reverseSteps d (paramNat s .revlim) s.paper.y
    let reduced := decide (n < d.natAbs)
    if n = 0 then retire .clampedReverse s else startFeed (.feed reduced) .reverse n s

/-- ADVANCE of a SKIP to channel n (R145, R146). -/
def moveSkip (n : Nat) (s : State) : State :=
  match skipDistance s.paper n with
  | some k => startFeed .skip .forward k s
  | none => retire .failedNoChannel s

/-- ADVANCE of a TEAR: the presentation on FANFOLD, the eject on SHEET (R147, R149). -/
def moveTear (s : State) : State :=
  match path s with
  | .fanfold =>
    if s.paper.active.tear = 0 ∨ s.paper.tearPresented = true then retire .done s
    else startFeed .present .forward s.paper.active.tear
      { s with paper := { s.paper with tearPresented := true, tearDistance := 0 } }
  | .sheet => startFeed (.eject s.paper.active.length) .forward 0 s

/-- ADVANCE of a FEED, SKIP or TEAR entry: its own move (R41). -/
def beginMove (k : EntryKind) (s : State) : State :=
  let s' := { s with exec := { s.exec with state := .advance, resume := none } }
  match k with
  | .feed d => moveFeed d s'
  | .skip n => moveSkip n s'
  | .tear => moveTear s'
  | .line _ => s

/-! ## PREPARE and resumption (R39 to R41, R49) -/

/-- What follows the retract in PREPARE: staging for a LINE, the move otherwise. -/
def afterRetract (k : EntryKind) (s : State) : State :=
  match k with
  | .line f => stageLine f s
  | .feed _ | .skip _ | .tear => beginMove k s

/-- Whether an entry's PREPARE retracts a standing tear presentation: LINE, FEED and SKIP do (R41, R148). -/
def retracts : EntryKind → Bool
  | .line _ | .feed _ | .skip _ => true
  | .tear => false

/-- PREPARE of an entry: the retract of a standing presentation first, complete at once at distance 0 (R148). -/
def prepare (k : EntryKind) (s : State) : State :=
  let s' := { s with exec := { s.exec with state := .prepare, resume := none } }
  if retracts k && s.paper.tearPresented then
    if s.paper.tearDistance = 0 then afterRetract k { s' with paper := { s'.paper with tearPresented := false } }
    else startFeed .retract .reverse s.paper.tearDistance s'
  else afterRetract k s'

/-- A held entry resumes from its resume point (R49). -/
def resumeEntry (e : Entry) (s : State) : State :=
  match s.exec.resume, e.kind with
  | some .staging, k => prepare k s
  | some .plan, .line f => planAndGo f s
  | some (.pass _), _ => nextWork { s with exec := { s.exec with resume := none } }
  | some .feedAfter, _ => beginFeedAfter s
  | some .motion, k => beginMove k s
  | some .plan, _ => s
  | none, _ => s

/-- Whether a held entry may resume: the hold set empty and the engine READY or HOLD (R49). -/
def canResume (s : State) : Bool := held s && holdsEmpty s && readyOrHold s && !s.engine.resetPending

/-- A held entry resumes if it may (R49). -/
def resumeIfHeld (s : State) : State :=
  match activeEntry s with
  | some e => if canResume s then resumeEntry e s else s
  | none => s

/-! ## Rest and wake (R159 to R162) -/

/-- The three wake conditions (section 9.5). -/
def wakeCondition (s : State) : Bool :=
  (!s.queue.isEmpty && holdsEmpty s) || inMotion s ||
    (decide (param s .wakeins = 1) && sensorPresent s && !loaded s)

/-- A wake begins: the target set, the rest origin absent, WARMING with the timer at WARMUP (R161). -/
def beginWake (t : WakeTarget) (s : State) : State :=
  { s with engine := { s.engine with
      state := .warming, wakeTarget := some t, restOrigin := none, warmTimer := some (paramNat s .warmup) } }

/-- The wake target a rest origin gives (R161). -/
def originTarget : Option RestOrigin → WakeTarget
  | some .ready => .homing
  | some .unready => .unready
  | none => .unready

/-- In REST, a wake condition that has become true begins a wake (R161). -/
def wakeIfDue (s : State) : State :=
  if s.engine.state = .rest ∧ wakeCondition s = true then beginWake (originTarget s.engine.restOrigin) s else s

/-! ## The load (R139, R140, R157) -/

/-- The end of the load: READY, the hold timer started, HOMED raised (R157, R158). -/
def finishHoming (s : State) : State :=
  raise .homed { s with engine := { s.engine with state := .ready, holdTimer := some (paramNat s .holddly) } }

/-- A load that succeeds with motion (R139): y and form number 0, LOADED, a pending definition applied, the PAPER_OUT
hold removed. -/
def loadSucceeds (s : State) : State :=
  applyNext
    { s with
      paper := { s.paper with y := 0, form := 0#16, state := .loaded, remaining := 0 }
      holds := { s.holds with paperOut := false } }

/-- The load feeds are complete: success with the sensor present, otherwise failure with PAPER_OUT raised (R139,
R140). -/
def finishLoad (s : State) : State :=
  finishHoming (if sensorPresent s then loadSucceeds s else raise .paperOut s)

/-- The LOADDIST feed of a load, or its end at once for LOADDIST 0 (R139, R140). -/
def loadFeed (n : Nat) (s : State) : State := if n = 0 then finishLoad s else startFeed .load .forward n s

/-- The load feeds begin: the unpulsed steps 0, the preload first on FANFOLD (R139). -/
def beginLoad (s : State) : State :=
  let s' := { s with paper := { s.paper with unpulsed := 0, observedUnpulsed := 0 } }
  let n := paramNat s .loaddist
  match path s with
  | .fanfold =>
    if paramNat s .preload = 0 then loadFeed n s' else startFeed (.preload n) .forward (paramNat s .preload) s'
  | .sheet => loadFeed n s'

/-- The load, the fourth step of homing, by the load flag and the sensor (R139). -/
def load (s : State) : State :=
  match s.paper.state with
  | .out => if sensorPresent s then beginLoad s else finishHoming s
  | .loaded => finishHoming { s with holds := { s.holds with paperOut := false } }
  | .ending => finishHoming s

/-! ## Engine reset (R168, R169) -/

/-- What an ERST clears at once: queue, completion list, holds, executor, slots and the waiting pass (R51, R28,
R169). -/
def resetWork (s : State) : State :=
  raiseIf (decide (s.queue.length = Config.queueMax)) .queueRoom
    { s with
      queue := []
      completions := []
      holds := ⟨false, false⟩
      exec := idleExecutor
      slots := Vector.replicate 8 freeSlot
      heat := { s.heat with waiting := none } }

/-- An ERST's clearing of the Fire Unit's record: no group due, and the plan-time inhibit set empty once the last pulse
has ended; a running pulse runs to its end (R99, R110). -/
def Fire.settle (f : Fire) : Fire :=
  { f with due := none, planInhibit := if f.driving = 0#24 then 0#24 else f.planInhibit }

/-- What an ERST clears once the part is at rest, whatever the engine state: the carriage record, the Fire Unit's and the
ribbon (R97, R99, R169). -/
def clearAtRest (s : State) : State :=
  setRibbon false { s with carriage := clearedCarriage, fire := s.fire.settle }

/-- The engine enters UNREADY from an ERST (R168). -/
def enterUnready (s : State) : State :=
  { s with engine := { s.engine with state := .unready, holdTimer := none, resetPending := false } }

/-- The end of an ERST whose motion has come to rest (R168). -/
def erstAtRest (s : State) : State := enterUnready (clearAtRest s)

/-- What the rest of a motion brings with it: a pending ERST completes (R168). -/
def finishReset (s : State) : State := if s.engine.resetPending then erstAtRest s else s

/-! ## Paper sensor (R141) -/

/-- Whether a feed step has brought the remaining distance to 0 (R142). -/
def atPaperEnd (s : State) : Bool := decide (s.paper.state = .ending) && decide (s.paper.remaining = 0)

/-- The sensor becomes absent: LOADED passes to ENDING with ENDDIST (R141). -/
def sensorLost (s : State) : State :=
  if s.paper.state = .loaded then
    { s with paper := { s.paper with state := .ending, remaining := paramNat s .enddist } }
  else s

/-- The sensor becomes present: ENDING passes to LOADED, unless paper end has been reached; in REST a wake may begin
(R141, R142, R161); an eject that has made its steps ends there (R149). -/
def sensorFound (s : State) : State :=
  wakeIfDue
    (if s.paper.state = .ending ∧ s.paper.remaining ≠ 0 then
      { s with paper := { s.paper with
          state := .loaded, remaining := 0, move := s.paper.move.map (fun m => { m with ended := m.over .loaded }) } }
    else s)

/-- A change of the sensor as it is seen, from before to now (R141, R175). -/
def sensorChange (before : Bool) (s : State) : State :=
  if before && !sensorPresent s then sensorLost s
  else if !before && sensorPresent s then sensorFound s
  else s

/-! ## Ends of feed moves (R142, R149) -/

/-- Whether a feed move is a sheet eject. -/
def Purpose.isEject : Purpose → Bool
  | .eject _ => true
  | .preload _ | .load | .retract | .perfSkip | .feed _ | .skip | .present | .feedAfter => false

/-- Paper end in a move other than an eject: the move ends, the paper unloads, the hold and the event, the ACTIVE entry
fails (R142). -/
def paperEnds (s : State) : State :=
  finishReset
    (failActive .failedPaperOut (addPaperOut (endFeed { s with paper := s.paper.unload })))

/-- A feed move whose last step ended it, and whose end is not yet taken, ends: a paper end, the unloading of an eject or
its failure (R142, R149); a stopped eject unloads (log 22). -/
def settleFeed (s : State) : State :=
  match s.paper.move with
  | some m =>
    if atPaperEnd s then
      if !m.purpose.isEject then paperEnds s
      else if m.stopping then { s with paper := s.paper.unload }
      else retire .done (endFeed { s with paper := s.paper.unload })
    else if m.over s.paper.state && !m.stopping then retire .failedEject (endFeed s)
    else s
  | none => s

/-! ## Causes (R164, R166) -/

/-- A cause arises: a trip, or in TRIPPED a member of the further-cause set (R164, R166). DESIGN CHOICE (log 39): a trip
other than a jam's takes the end that the last feed step brought before it. -/
def arise (c : TripCause) (s : State) : State :=
  if s.engine.state = .tripped then
    { s with engine := { s.engine with further := s.engine.further ||| causeBit c } }
  else trip c (if c = .paperJam then s else settleFeed s)

/-- A cause arises when a condition holds. -/
def ariseIf (b : Bool) (c : TripCause) (s : State) : State := if b then arise c s else s

/-- The two level causes that arise in one step, in the order the free value gives (R166, log 12). -/
def ariseLevels (hot fault : Bool) (s : State) : State :=
  if hot && fault then
    let s' := { s with freeCount := s.freeCount + 1 }
    if Config.driverFaultFirst s.freeCount then arise .headHot (arise .driverFault s')
    else arise .driverFault (arise .headHot s')
  else ariseIf fault .driverFault (ariseIf hot .headHot s)

end Sys2Proof.Machine
end

