-- ==== Sys2Proof/Decode.lean ====
section
/-! DEFINITION. The wire: kind codes, allowed lengths, request layouts both ways, the CRC and the frame (chapter 11).
Sys2Proof.decodeTableWord answers none, since no row of the table has bits (log 28). -/

namespace Sys2Proof

/-- The request kinds of section 11.3. HALT and CNTR are one kind each; their rows are told apart by the payload. -/
inductive RequestKind where
  | stat | evnt | emsk | setp | getp | cntr
  | slotOpen | slotData | slotSeal | slotDrop
  | line | feed | skip | tear | halt | go | flsh | cmpl
  | pmap | pinh | etab | form
  | enga | rest | wake | clrf | erst | dout | tovl
  deriving DecidableEq, Repr

/-- The KIND byte of a request kind (section 11.3). -/
def RequestKind.code : RequestKind → Byte
  | .stat => 0x01#8 | .evnt => 0x02#8 | .emsk => 0x03#8 | .setp => 0x04#8 | .getp => 0x05#8 | .cntr => 0x06#8
  | .slotOpen => 0x10#8 | .slotData => 0x11#8 | .slotSeal => 0x12#8 | .slotDrop => 0x13#8
  | .line => 0x20#8 | .feed => 0x21#8 | .skip => 0x22#8 | .tear => 0x23#8
  | .halt => 0x24#8 | .go => 0x25#8 | .flsh => 0x26#8 | .cmpl => 0x27#8
  | .pmap => 0x30#8 | .pinh => 0x31#8 | .etab => 0x32#8 | .form => 0x38#8
  | .enga => 0x40#8 | .rest => 0x41#8 | .wake => 0x42#8 | .clrf => 0x43#8 | .erst => 0x44#8
  | .dout => 0x45#8 | .tovl => 0x46#8

/-- Every request kind, in the order of section 11.3. -/
def RequestKind.all : List RequestKind :=
  [.stat, .evnt, .emsk, .setp, .getp, .cntr, .slotOpen, .slotData, .slotSeal, .slotDrop,
   .line, .feed, .skip, .tear, .halt, .go, .flsh, .cmpl, .pmap, .pinh, .etab, .form,
   .enga, .rest, .wake, .clrf, .erst, .dout, .tovl]

/-- The request kind a KIND byte names, if it names one (R182, check 1). -/
def RequestKind.ofCode (b : Byte) : Option RequestKind :=
  RequestKind.all.find? (fun k => k.code == b)

/-! ## Little-endian fields (R193) -/

/-- The two bytes of a 16-bit field, low byte first. -/
def le16 (w : BitVec 16) : List Byte := [w.extractLsb' 0 8, w.extractLsb' 8 8]

/-- The three bytes of a 24-bit mask, low byte first. -/
def le24 (w : BitVec 24) : List Byte := [w.extractLsb' 0 8, w.extractLsb' 8 8, w.extractLsb' 16 8]

/-- The four bytes of a 32-bit field, low byte first. -/
def le32 (w : BitVec 32) : List Byte :=
  [w.extractLsb' 0 8, w.extractLsb' 8 8, w.extractLsb' 16 8, w.extractLsb' 24 8]

/-- The byte at an offset of a payload. -/
def byteAt (p : List Byte) (i : Nat) : Byte := p.getD i 0#8

/-- The 16-bit field at an offset of a payload. -/
def word16At (p : List Byte) (i : Nat) : BitVec 16 := byteAt p (i + 1) ++ byteAt p i

/-- The 24-bit mask at an offset of a payload. -/
def word24At (p : List Byte) (i : Nat) : BitVec 24 := byteAt p (i + 2) ++ (byteAt p (i + 1) ++ byteAt p i)

/-- The 32-bit field at an offset of a payload. -/
def word32At (p : List Byte) (i : Nat) : BitVec 32 :=
  byteAt p (i + 3) ++ (byteAt p (i + 2) ++ (byteAt p (i + 1) ++ byteAt p i))

/-! ## Column bytes (section 11.6) -/

/-- The column three bytes spell: row r lies in byte r/8, at bit 7 − (r mod 8), so each byte is read backwards. -/
def columnOf (b0 b1 b2 : Byte) : Column := b2.reverse ++ (b1.reverse ++ b0.reverse)

/-! ## Allowed lengths (sections 11.7 to 11.12, R194) -/

/-- Whether a FORM payload's length fits the stop count it declares (section 11.10, R130). -/
def formLength (p : List Byte) : Bool :=
  decide (10 ≤ p.length) && decide (p.length = 10 + 4 * (byteAt p 9).toNat)

/-- Whether a payload has a length its kind allows (R182, check 2). -/
def lengthAllowed (k : RequestKind) (p : List Byte) : Bool :=
  match k with
  | .stat | .evnt | .tear | .go | .flsh | .enga | .rest | .wake | .clrf | .erst => p.length == 0
  | .getp | .slotSeal | .slotDrop | .skip | .halt | .cmpl => p.length == 1
  | .cntr | .feed | .dout => p.length == 2
  | .emsk | .tovl => p.length == 0 || p.length == 2
  | .setp | .slotOpen => p.length == 5
  | .slotData => decide (3 ≤ p.length)
  | .line => p.length == 7
  | .pmap => p.length == 0 || p.length == 72
  | .pinh => p.length == 6
  | .etab => p.length == 0 || p.length == 24
  | .form => p.length == 0 || formLength p

/-! ## Reading a request (sections 11.7 to 11.12) -/

/-- The fields f of a payload of an allowed length, or the wrong-length form. -/
def wireOf {α : Type} (k : RequestKind) (p : List Byte) (f : α) : Wire α :=
  if lengthAllowed k p then .fields f else .wrongLength p

/-- A request that is a query when its payload is empty. -/
def optionalOf {α : Type} (p : List Byte) (f : α) : Option α :=
  if p.length = 0 then none else some f

/-- The three bytes of a PMAP row. -/
def rowAt (p : List Byte) (r : Nat) : RowReq := ⟨byteAt p (3 * r), byteAt p (3 * r + 1), byteAt p (3 * r + 2)⟩

/-- The form definition a payload holds (section 11.10). -/
def formOf (p : List Byte) : FormReq :=
  { length := word16At p 0, ply := byteAt p 2, tear := word16At p 3, skipTop := word16At p 5,
    skipBottom := word16At p 7,
    stops := (List.range (byteAt p 9).toNat).map
      (fun i => ⟨word16At p (10 + 4 * i), word16At p (12 + 4 * i)⟩) }

/-- The command a HALT frame is: one of three rows by its mode byte (section 11.4). -/
def decodeHalt (tag : Byte) (p : List Byte) : Instr :=
  if lengthAllowed .halt p then
    if byteAt p 0 = 0#8 then .haltLine tag .lineMode
    else if byteAt p 0 = 1#8 then .haltPass tag
    else if byteAt p 0 = 2#8 then .haltNow tag
    else .haltLine tag (.undefinedMode (byteAt p 0))
  else .haltLine tag (.wrongLength p)

/-- The command a CNTR frame is: one of three rows by its operation byte (section 11.12). -/
def decodeCntr (tag : Byte) (p : List Byte) : Instr :=
  if lengthAllowed .cntr p then
    if byteAt p 0 = 0#8 then .cntrSnap tag (.snap (byteAt p 1))
    else if byteAt p 0 = 1#8 then .cntrRead tag (byteAt p 1)
    else if byteAt p 0 = 2#8 then .cntrClear tag (byteAt p 1)
    else .cntrSnap tag (.undefinedOp (byteAt p 0) (byteAt p 1))
  else .cntrSnap tag (.wrongLength p)

/-- The command a frame of a known kind is. -/
def decodePayload (k : RequestKind) (tag : Byte) (p : List Byte) : Instr :=
  match k with
  | .stat => .stat tag (wireOf .stat p ())
  | .evnt => .evnt tag (wireOf .evnt p ())
  | .emsk => .emsk tag (wireOf .emsk p (optionalOf p (word16At p 0)))
  | .setp => .setp tag (wireOf .setp p ⟨byteAt p 0, word32At p 1⟩)
  | .getp => .getp tag (wireOf .getp p (byteAt p 0))
  | .cntr => decodeCntr tag p
  | .slotOpen => .slotOpen tag (wireOf .slotOpen p ⟨byteAt p 0, word16At p 1, word16At p 3⟩)
  | .slotData => .slotData tag (wireOf .slotData p ⟨byteAt p 0, word16At p 1, p.drop 3⟩)
  | .slotSeal => .slotSeal tag (wireOf .slotSeal p (byteAt p 0))
  | .slotDrop => .slotDrop tag (wireOf .slotDrop p (byteAt p 0))
  | .line => .line tag (wireOf .line p
      ⟨byteAt p 0, byteAt p 1, byteAt p 2, byteAt p 3, word16At p 4, byteAt p 6⟩)
  | .feed => .feed tag (wireOf .feed p (word16At p 0))
  | .skip => .skip tag (wireOf .skip p (byteAt p 0))
  | .tear => .tear tag (wireOf .tear p ())
  | .halt => decodeHalt tag p
  | .go => .go tag (wireOf .go p ())
  | .flsh => .flsh tag (wireOf .flsh p ())
  | .cmpl => .cmpl tag (wireOf .cmpl p (byteAt p 0))
  | .pmap => .pmap tag (wireOf .pmap p (optionalOf p (Vector.ofFn (fun r : Fin 24 => rowAt p r.val))))
  | .pinh => .pinh tag (wireOf .pinh p ⟨word24At p 0, word24At p 3⟩)
  | .etab => .etab tag (wireOf .etab p (optionalOf p
      ⟨Vector.ofFn (fun i : Fin 6 => word16At p (2 * i.val)),
       Vector.ofFn (fun i : Fin 6 => word16At p (12 + 2 * i.val))⟩))
  | .form => .form tag (wireOf .form p (optionalOf p (formOf p)))
  | .enga => .enga tag (wireOf .enga p ())
  | .rest => .rest tag (wireOf .rest p ())
  | .wake => .wake tag (wireOf .wake p ())
  | .clrf => .clrf tag (wireOf .clrf p ())
  | .erst => .erst tag (wireOf .erst p ())
  | .dout => .dout tag (wireOf .dout p ⟨byteAt p 0, byteAt p 1⟩)
  | .tovl => .tovl tag (wireOf .tovl p (optionalOf p ⟨byteAt p 0, byteAt p 1⟩))

/-- The command a received frame is: every frame decodes, a KIND the controller does not define to
UNKNOWN_KIND (R182). -/
def decodeFrame (f : Frame) : Instr :=
  match RequestKind.ofCode f.kind with
  | some k => decodePayload k f.tag f.payload
  | none => .unknownKind f.kind f.tag f.payload

/-! ## Writing a request -/

/-- The bytes of a payload given the bytes of its fields. -/
def wireBytes {α : Type} (w : Wire α) (f : α → List Byte) : List Byte :=
  match w with
  | .fields x => f x
  | .wrongLength p => p

/-- The bytes of an optional payload. -/
def optionalBytes {α : Type} (o : Option α) (f : α → List Byte) : List Byte :=
  match o with
  | some x => f x
  | none => []

/-- The bytes of a form definition request. -/
def formBytes (f : FormReq) : List Byte :=
  le16 f.length ++ [f.ply] ++ le16 f.tear ++ le16 f.skipTop ++ le16 f.skipBottom ++
    [BitVec.ofNat 8 f.stops.length] ++ f.stops.flatMap (fun s => le16 s.position ++ le16 s.channels)

/-- The frame of a kind, a tag and a payload. -/
def frameOf (k : RequestKind) (tag : Byte) (p : List Byte) : Frame := ⟨k.code, tag, p⟩

/-- The frame of a request; none for a command that is no request. -/
def encodeFrame (c : Instr) : Option Frame :=
  match c with
  | .unknownKind kind tag p => some ⟨kind, tag, p⟩
  | .stat tag w => some (frameOf .stat tag (wireBytes w (fun _ => [])))
  | .evnt tag w => some (frameOf .evnt tag (wireBytes w (fun _ => [])))
  | .emsk tag w => some (frameOf .emsk tag (wireBytes w (fun o => optionalBytes o le16)))
  | .setp tag w => some (frameOf .setp tag (wireBytes w (fun r => r.id :: le32 r.value)))
  | .getp tag w => some (frameOf .getp tag (wireBytes w (fun b => [b])))
  | .cntrSnap tag w => some (frameOf .cntr tag (match w with
      | .snap pad => [0#8, pad]
      | .undefinedOp op arg => [op, arg]
      | .wrongLength p => p))
  | .cntrRead tag g => some (frameOf .cntr tag [1#8, g])
  | .cntrClear tag m => some (frameOf .cntr tag [2#8, m])
  | .slotOpen tag w => some (frameOf .slotOpen tag (wireBytes w (fun r => r.slot :: (le16 r.left ++ le16 r.length))))
  | .slotData tag w => some (frameOf .slotData tag (wireBytes w (fun r => r.slot :: (le16 r.start ++ r.runs))))
  | .slotSeal tag w => some (frameOf .slotSeal tag (wireBytes w (fun b => [b])))
  | .slotDrop tag w => some (frameOf .slotDrop tag (wireBytes w (fun b => [b])))
  | .line tag w => some (frameOf .line tag (wireBytes w (fun r =>
      [r.slot, r.mode, r.direction, r.cls] ++ le16 r.feedAfter ++ [r.ply])))
  | .feed tag w => some (frameOf .feed tag (wireBytes w le16))
  | .skip tag w => some (frameOf .skip tag (wireBytes w (fun b => [b])))
  | .tear tag w => some (frameOf .tear tag (wireBytes w (fun _ => [])))
  | .haltLine tag w => some (frameOf .halt tag (match w with
      | .lineMode => [0#8]
      | .undefinedMode m => [m]
      | .wrongLength p => p))
  | .haltPass tag => some (frameOf .halt tag [1#8])
  | .haltNow tag => some (frameOf .halt tag [2#8])
  | .go tag w => some (frameOf .go tag (wireBytes w (fun _ => [])))
  | .flsh tag w => some (frameOf .flsh tag (wireBytes w (fun _ => [])))
  | .cmpl tag w => some (frameOf .cmpl tag (wireBytes w (fun b => [b])))
  | .pmap tag w => some (frameOf .pmap tag (wireBytes w (fun o => optionalBytes o (fun rows =>
      rows.toList.flatMap (fun r => [r.pin, r.offset, r.enabled])))))
  | .pinh tag w => some (frameOf .pinh tag (wireBytes w (fun r => le24 r.clear ++ le24 r.set)))
  | .etab tag w => some (frameOf .etab tag (wireBytes w (fun o => optionalBytes o (fun t =>
      t.cool.toList.flatMap le16 ++ t.warm.toList.flatMap le16))))
  | .form tag w => some (frameOf .form tag (wireBytes w (fun o => optionalBytes o formBytes)))
  | .enga tag w => some (frameOf .enga tag (wireBytes w (fun _ => [])))
  | .rest tag w => some (frameOf .rest tag (wireBytes w (fun _ => [])))
  | .wake tag w => some (frameOf .wake tag (wireBytes w (fun _ => [])))
  | .clrf tag w => some (frameOf .clrf tag (wireBytes w (fun _ => [])))
  | .erst tag w => some (frameOf .erst tag (wireBytes w (fun _ => [])))
  | .dout tag w => some (frameOf .dout tag (wireBytes w (fun r => [r.reset, r.set])))
  | .tovl tag w => some (frameOf .tovl tag (wireBytes w (fun o => optionalBytes o (fun r => [r.mode, r.inputs]))))
  | .powerOn _ => none
  | .resetLine _ => none
  | .frameReceived _ => none
  | .byteGapTimeout => none
  | .receiveOverrun => none
  | .replySent => none
  | .noticeSent => none
  | .executorStart => none
  | .repositionEnd => none
  | .cruiseStart => none
  | .cruiseEnd => none
  | .passEnd => none
  | .fireGroupTaken => none
  | .pulseEnd _ _ => none
  | .markEdge _ _ => none
  | .encoderLost => none
  | .homeSensorActive => none
  | .homeFail => none
  | .parkEnd => none
  | .feedStep => none
  | .paperEnd => none
  | .paperJam => none
  | .ejectFail => none
  | .feedMoveEnd => none
  | .stopAtRest => none
  | .paperMotionPulse => none
  | .paperSensorAbsent => none
  | .paperSensorPresent => none
  | .headHotAsserted => none
  | .driverFaultAsserted => none
  | .testTrip _ => none
  | .holdTimerExpiry => none
  | .warmupExpiry => none
  | .coolingTick => none
  | .headHotQuiet => none
  | .driverFaultQuiet => none
  | .homeSensorInactive => none
  | .discardedFramePassedOver => none
  | .preloadComplete => none

/-! ## The CRC and the frame (R178, section 11.2) -/

/-- One bit of the CRC-16 shift: generator polynomial 0x1021 (R178). -/
def crcShift (c : BitVec 16) : BitVec 16 :=
  if c.msb then (c <<< 1) ^^^ 0x1021#16 else c <<< 1

/-- One data byte entering the CRC, most significant bit first (R178). -/
def crcByte (c : BitVec 16) (b : Byte) : BitVec 16 :=
  let c := c ^^^ (b ++ 0#8)
  crcShift (crcShift (crcShift (crcShift (crcShift (crcShift (crcShift (crcShift c)))))))

/-- The CRC-16 of a run of bytes, initial value 0xFFFF (R178). -/
def crc16 (bytes : List Byte) : BitVec 16 := bytes.foldl crcByte 0xFFFF#16

/-- The start byte of every frame (section 11.2). -/
def startByte : Byte := 0xA5#8

/-- The bytes of a frame that its CRC covers: LEN, KIND, TAG and payload (R178). -/
def coveredBytes (f : Frame) : List Byte :=
  le16 (BitVec.ofNat 16 (f.payload.length + 2)) ++ ([f.kind, f.tag] ++ f.payload)

/-- The bytes of a frame on the line (section 11.2). -/
def lineBytes (f : Frame) : List Byte :=
  startByte :: (coveredBytes f ++ le16 (crc16 (coveredBytes f)))

/-! ## The table's words -/

/-- The command a word of the table's bits spells: none, since the table gives no row any bits (log 28). -/
def decodeTableWord (_nbits _w : Nat) : Option Instr := none

end Sys2Proof
end

