-- ==== Sys2Proof/WellFormed.lean ====
section
/-! DEFINITION. Which terms of Instr stand for a command the outside world can send. -/

namespace Sys2Proof

/-- The greatest payload a frame carries (section 11.2). -/
def payloadMax : Nat := 1024

/-- A wrong-length form holds a payload that fits a frame and whose length the kind does not allow. -/
def wrongLengthOk (k : RequestKind) (p : List Byte) : Bool :=
  decide (p.length ≤ payloadMax) && !lengthAllowed k p

/-- A request's payload is well formed: the fields satisfy ok, or the length is one the kind does not allow. -/
def wireOk {α : Type} (k : RequestKind) (w : Wire α) (ok : α → Bool) : Bool :=
  match w with
  | .fields f => ok f
  | .wrongLength p => wrongLengthOk k p

/-- The overlay inputs can make these checks true (R174). -/
def TripCause.overlaid : TripCause → Bool
  | .headHot | .driverFault | .encoderLost | .paperJam => true
  | .homeFail | .carriageSlip => false

/-- The commands the outside world can send. -/
def WellFormed (c : Instr) : Bool :=
  match c with
  | .frameReceived bytes => (bytes.head?).any (fun b => b.stop && b.value == startByte)
  | .unknownKind kind _ p => (RequestKind.ofCode kind).isNone && decide (p.length ≤ payloadMax)
  | .stat _ w => wireOk .stat w (fun _ => true)
  | .evnt _ w => wireOk .evnt w (fun _ => true)
  | .emsk _ w => wireOk .emsk w (fun _ => true)
  | .setp _ w => wireOk .setp w (fun _ => true)
  | .getp _ w => wireOk .getp w (fun _ => true)
  | .cntrSnap _ w => match w with
      | .snap _ => true
      | .undefinedOp op _ => decide (2 < op.toNat)
      | .wrongLength p => wrongLengthOk .cntr p
  | .cntrRead _ _ => true
  | .cntrClear _ _ => true
  | .slotOpen _ w => wireOk .slotOpen w (fun _ => true)
  | .slotData _ w => wireOk .slotData w (fun r => decide (r.runs.length + 3 ≤ payloadMax))
  | .slotSeal _ w => wireOk .slotSeal w (fun _ => true)
  | .slotDrop _ w => wireOk .slotDrop w (fun _ => true)
  | .line _ w => wireOk .line w (fun _ => true)
  | .feed _ w => wireOk .feed w (fun _ => true)
  | .skip _ w => wireOk .skip w (fun _ => true)
  | .tear _ w => wireOk .tear w (fun _ => true)
  | .haltLine _ w => match w with
      | .lineMode => true
      | .undefinedMode m => decide (2 < m.toNat)
      | .wrongLength p => wrongLengthOk .halt p
  | .haltPass _ => true
  | .haltNow _ => true
  | .go _ w => wireOk .go w (fun _ => true)
  | .flsh _ w => wireOk .flsh w (fun _ => true)
  | .cmpl _ w => wireOk .cmpl w (fun _ => true)
  | .pmap _ w => wireOk .pmap w (fun _ => true)
  | .pinh _ w => wireOk .pinh w (fun _ => true)
  | .etab _ w => wireOk .etab w (fun _ => true)
  | .form _ w => wireOk .form w (fun o => o.all (fun f => decide (10 + 4 * f.stops.length ≤ payloadMax)))
  | .enga _ w => wireOk .enga w (fun _ => true)
  | .rest _ w => wireOk .rest w (fun _ => true)
  | .wake _ w => wireOk .wake w (fun _ => true)
  | .clrf _ w => wireOk .clrf w (fun _ => true)
  | .erst _ w => wireOk .erst w (fun _ => true)
  | .dout _ w => wireOk .dout w (fun _ => true)
  | .tovl _ w => wireOk .tovl w (fun _ => true)
  | .testTrip cause => cause.overlaid
  | .powerOn _ => true
  | .resetLine _ => true
  | .byteGapTimeout => true
  | .receiveOverrun => true
  | .replySent => true
  | .noticeSent => true
  | .executorStart => true
  | .repositionEnd => true
  | .cruiseStart => true
  | .cruiseEnd => true
  | .passEnd => true
  | .fireGroupTaken => true
  | .pulseEnd _ _ => true
  | .markEdge _ _ => true
  | .encoderLost => true
  | .homeSensorActive => true
  | .homeFail => true
  | .parkEnd => true
  | .feedStep => true
  | .paperEnd => true
  | .paperJam => true
  | .ejectFail => true
  | .feedMoveEnd => true
  | .stopAtRest => true
  | .paperMotionPulse => true
  | .paperSensorAbsent => true
  | .paperSensorPresent => true
  | .headHotAsserted => true
  | .driverFaultAsserted => true
  | .holdTimerExpiry => true
  | .warmupExpiry => true
  | .coolingTick => true
  | .headHotQuiet => true
  | .driverFaultQuiet => true
  | .homeSensorInactive => true
  | .discardedFramePassedOver => true
  | .preloadComplete => true

end Sys2Proof
end

