-- ==== Sys2Proof/Machine/Operands.lean ====
section
/-! DEFINITION. Operand forms and layouts: the codes of section 11.4, the fields of requests as values, run lists, the
reply layouts of chapter 11, the receiver (R177 to R180), and how a request is taken in and answered (R181, R182). -/

namespace Sys2Proof.Machine

/-! ## Codes (section 11.4) -/

/-- The code of a result (section 11.4). -/
def Result.code : Result → Byte
  | .ok => 0x00#8 | .okClamped => 0x01#8 | .unknownKind => 0x10#8 | .badLength => 0x11#8 | .badValue => 0x12#8
  | .wrongState => 0x13#8 | .busy => 0x14#8 | .tripped => 0x15#8 | .queueFull => 0x16#8 | .slotState => 0x17#8
  | .outOfSequence => 0x18#8 | .duplicatePin => 0x19#8 | .wakePending => 0x1A#8 | .causeActive => 0x1B#8

/-- The code of an engine state. -/
def EngineState.code : EngineState → Byte
  | .unready => 0#8 | .homing => 1#8 | .ready => 2#8 | .hold => 3#8 | .rest => 4#8 | .warming => 5#8 | .tripped => 6#8

/-- The code of an executor state. -/
def ExecState.code : ExecState → Byte
  | .idle => 0#8 | .prepare => 1#8 | .cool => 2#8 | .position => 3#8 | .pass => 4#8 | .advance => 5#8

/-- The code of a blocking reason; 0 when the executor is not IDLE. -/
def blockCode : Option BlockReason → Byte
  | none => 0#8
  | some .empty => 1#8 | some .held => 2#8 | some .engine => 3#8 | some .listFull => 4#8 | some .paper => 5#8

/-- The code of a slot state. -/
def SlotState.code : SlotState → Byte
  | .free => 0#8 | .filling => 1#8 | .sealed => 2#8 | .bound => 3#8 | .printing => 4#8

/-- The code of an entry kind. -/
def KindName.code : KindName → Byte
  | .line => 0#8 | .feed => 1#8 | .skip => 2#8 | .tear => 3#8

/-- The code of an outcome. -/
def EntryOutcome.code : EntryOutcome → Byte
  | .done => 0#8
  | .clampedReverse | .clampedPulse => 1#8
  | .failedHalted | .failedTrip | .failedPaperOut | .failedNoChannel | .failedEject => 2#8

/-- The code of an outcome's cause; 0 when absent. -/
def EntryOutcome.causeCode : EntryOutcome → Byte
  | .done => 0#8
  | .clampedReverse => 1#8 | .clampedPulse => 2#8 | .failedHalted => 3#8 | .failedTrip => 4#8
  | .failedPaperOut => 5#8 | .failedNoChannel => 6#8 | .failedEject => 7#8

/-- The code of a trip cause. -/
def causeCode : TripCause → Byte
  | .homeFail => 1#8 | .carriageSlip => 2#8 | .encoderLost => 3#8 | .paperJam => 4#8 | .headHot => 5#8
  | .driverFault => 6#8

/-- The code of the path. -/
def Path.code : Path → Byte
  | .fanfold => 0#8 | .sheet => 1#8

/-- The code of a paper state. -/
def PaperState.code : PaperState → Byte
  | .loaded => 0#8 | .ending => 1#8 | .out => 2#8

/-- The code of a band. -/
def Band.code : Band → Byte
  | .cool => 0#8 | .warm => 1#8

/-- The code of an overlay mode. -/
def OverlayMode.code : OverlayMode → Byte
  | .off => 0#8 | .observe => 1#8 | .drive => 2#8

/-- The overlay mode a code names. -/
def OverlayMode.ofCode (b : Byte) : Option OverlayMode :=
  if b = 0#8 then some .off else if b = 1#8 then some .observe else if b = 2#8 then some .drive else none

/-! ## Numbers as bytes (R193) -/

/-- One byte of an unsigned number. -/
def byteOf (n : Nat) : Byte := BitVec.ofNat 8 n

/-- Two bytes of an unsigned number. -/
def natLe16 (n : Nat) : List Byte := le16 (BitVec.ofNat 16 n)

/-- Four bytes of an unsigned number. -/
def natLe32 (n : Nat) : List Byte := le32 (BitVec.ofNat 32 n)

/-- Four bytes of a signed number, in two's complement. -/
def intLe32 (n : Int) : List Byte := le32 (BitVec.ofInt 32 n)

/-- A flags byte with some flags at bits 0 and 1. -/
def flags2 (b0 b1 : Bool) : Byte := (if b0 then 1#8 else 0#8) ||| (if b1 then 2#8 else 0#8)

/-- A presence or enabled byte: 0 no, 1 yes. -/
def boolByte (b : Bool) : Byte := if b then 1#8 else 0#8

/-! ## Request fields as values (R33, R34, R194) -/

/-- The slot a byte names, 0..7. -/
def slotOf (b : Byte) : Option (Fin 8) := if h : b.toNat < 8 then some ⟨b.toNat, h⟩ else none

/-- The LINE mode a code names. -/
def LineMode.ofCode (b : Byte) : Option LineMode :=
  if b = 0#8 then some .single else if b = 1#8 then some .double else none

/-- The LINE direction a code names. -/
def LineDirection.ofCode (b : Byte) : Option LineDirection :=
  if b = 0#8 then some .auto else if b = 1#8 then some .forward else if b = 2#8 then some .reverse else none

/-- The ply override a byte carries: 0 absent, 1..6 (section 11.8). -/
def plyOf (b : Byte) : Option (Option Nat) :=
  if b = 0#8 then some none else if b.toNat ≤ 6 then some (some b.toNat) else none

/-- The fields of a LINE request, when its first check passes (R33). -/
def lineFieldsOf (r : LineReq) : Option LineFields :=
  match slotOf r.slot, LineMode.ofCode r.mode, LineDirection.ofCode r.direction, plyOf r.ply with
  | some slot, some mode, some dir, some ply =>
    if r.cls.toNat ≤ 3 ∧ r.feedAfter.toNat ≤ 7920 then some ⟨slot, mode, dir, r.cls.toNat, r.feedAfter.toNat, ply⟩
    else none
  | _, _, _, _ => none

/-- The distance of a FEED request, when its check passes (R34). -/
def feedOf (w : BitVec 16) : Option Int :=
  if -720 ≤ w.toInt ∧ w.toInt ≤ 7920 then some w.toInt else none

/-- The channel of a SKIP request, when its check passes (R34). -/
def channelOf (b : Byte) : Option Nat := if 1 ≤ b.toNat ∧ b.toNat ≤ 12 then some b.toNat else none

/-! ## Pin map, energy table and form definition (R6, R113, R130) -/

/-- Whether a row names a pin 0..23, an offset 0..15 and an enabled flag of 0 or 1 (R6, check 2). -/
def rowValid (r : RowReq) : Bool :=
  decide (r.pin.toNat < 24) && decide (r.offset.toNat < 16) && decide (r.enabled.toNat ≤ 1)

/-- A row of a PMAP request as a row of the map. -/
def rowOf (r : RowReq) : MapRow := ⟨Fin.ofNat 24 r.pin.toNat, Fin.ofNat 16 r.offset.toNat, r.enabled == 1#8⟩

/-- The map a PMAP request carries. -/
def mapOf (rows : Vector RowReq 24) : Vector MapRow 24 := Vector.ofFn (fun r : Fin 24 => rowOf rows[r])

/-- Whether every row is valid (R6, check 2). -/
def rowsValid (rows : Vector RowReq 24) : Bool := (List.finRange 24).all (fun r => rowValid rows[r])

/-- Whether no two rows name one pin (R6, check 3). -/
def pinsDistinct (m : Vector MapRow 24) : Bool :=
  decide ((List.finRange 24).map (fun r => m[r].pin)).Nodup

/-- A width of an ETAB request, limited to 100..600 (R113). -/
def clampWidth (w : BitVec 16) : Nat := max 100 (min 600 w.toNat)

/-- The table an ETAB request asks for, its widths limited (R113). -/
def tableOf (t : EtabReq) : EnergyTable :=
  ⟨Vector.ofFn (fun i : Fin 6 => clampWidth t.cool[i]), Vector.ofFn (fun i : Fin 6 => clampWidth t.warm[i])⟩

/-- Whether some width of an ETAB request was replaced (R113). -/
def tableClamped (t : EtabReq) : Bool :=
  (List.finRange 6).any (fun i =>
    decide (clampWidth t.cool[i] ≠ t.cool[i].toNat) || decide (clampWidth t.warm[i] ≠ t.warm[i].toNat))

/-- A channel set that is not empty and holds only channels 1..12 (R130). -/
def channelsValid (c : BitVec 16) : Bool := decide (c ≠ 0#16) && decide (c &&& 0xE001#16 = 0#16)

/-- Whether the positions of a stop list rise strictly and stay below a length (R130). -/
def positionsRise (length : Nat) : List StopReq → Bool
  | [] => true
  | [x] => decide (x.position.toNat < length)
  | x :: y :: rest => decide (x.position.toNat < y.position.toNat) && positionsRise length (y :: rest)

/-- The checks of FORM (R130). -/
def formValid (f : FormReq) : Bool :=
  decide (360 ≤ f.length.toNat ∧ f.length.toNat ≤ 7920) && decide (1 ≤ f.ply.toNat ∧ f.ply.toNat ≤ 6) &&
    decide (f.skipTop.toNat ≤ 720) && decide (f.skipBottom.toNat ≤ 720) &&
    decide (f.skipTop.toNat + f.skipBottom.toNat + 48 ≤ f.length.toNat) &&
    decide (f.tear.toNat ≤ 1440 ∧ f.tear.toNat ≤ f.length.toNat) &&
    decide (1 ≤ f.stops.length ∧ f.stops.length ≤ 24) &&
    f.stops.all (fun x => channelsValid x.channels) &&
    (f.stops.head?).any (fun x => decide (x.position = 0#16) && x.channels.getLsbD 1) &&
    positionsRise f.length.toNat f.stops

/-- The definition a FORM request carries. -/
def formDefOf (f : FormReq) : FormDef :=
  ⟨f.length.toNat, f.ply.toNat, f.tear.toNat, f.skipTop.toNat, f.skipBottom.toNat,
    f.stops.map (fun x => ⟨x.position.toNat, x.channels⟩)⟩

/-! ## Run lists (R19, R20, section 11.6) -/

/-- The columns of a literal run of so many columns, and the bytes after it; none when the run is not complete. -/
def takeColumns : Nat → List Byte → Option (List Column × List Byte)
  | 0, bytes => some ([], bytes)
  | n + 1, b0 :: b1 :: b2 :: rest => (takeColumns n rest).map (fun r => (columnOf b0 b1 b2 :: r.1, r.2))
  | _ + 1, _ => none

/-- The runs of a run list, each as the columns it covers; none when the list is not well formed. The first argument
bounds the number of runs. -/
def parseRuns : Nat → List Byte → Option (List (List Column))
  | _, [] => some []
  | 0, _ :: _ => none
  | k + 1, header :: rest =>
    let n := (header &&& 0x7F#8).toNat
    if header.getLsbD 7 then (parseRuns k rest).map (fun runs => List.replicate n 0#24 :: runs)
    else match takeColumns n rest with
      | some r => (parseRuns k r.2).map (fun runs => r.1 :: runs)
      | none => none

/-- The runs of a DATA request (R19, check 1). -/
def runsOf (bytes : List Byte) : Option (List (List Column)) := parseRuns bytes.length bytes

/-! ## Reply layouts (sections 11.7 to 11.13) -/

/-- The slot reply (section 11.7). -/
def slotReply (r : Result) (i : Fin 8) (s : State) : List Byte :=
  [r.code, byteOf i.val, s.slots[i].state.code] ++ natLe16 s.slots[i].left ++ natLe16 s.slots[i].length ++
    natLe16 s.slots[i].cols.length

/-- The reply to an enqueue request: result and queue count (section 11.8). -/
def queueReply (r : Result) (s : State) : List Byte := [r.code, byteOf s.queue.length]

/-- The completion record's nine bytes (section 11.8). -/
def completionBytes (c : Completion) : List Byte :=
  [c.tag, c.kind.code, c.outcome.code, c.outcome.causeCode, (c.passes.map byteOf).getD 0xFF#8] ++
    natLe16 c.y ++ le16 c.form

/-- One row of the pin map in a PMAP reply (section 11.9). -/
def mapRowBytes (r : MapRow) : List Byte := [byteOf r.pin.val, byteOf r.offset.val, boolByte r.enabled]

/-- The PMAP reply (section 11.9). -/
def pmapReply (r : Result) (s : State) : List Byte :=
  r.code :: (List.finRange 24).flatMap (fun i => mapRowBytes s.fire.pinMap[i])

/-- The PINH reply (section 11.9). -/
def pinhReply (r : Result) (s : State) : List Byte :=
  r.code :: (le24 s.fire.inhibit ++ le24 s.fire.failed ++
    (List.finRange 24).map (fun p => byteOf s.fire.openCounts[p]))

/-- The twelve widths of a table (section 11.9). -/
def tableBytes (t : EnergyTable) : List Byte :=
  (List.finRange 6).flatMap (fun i => natLe16 t.cool[i]) ++ (List.finRange 6).flatMap (fun i => natLe16 t.warm[i])

/-- The ETAB reply (section 11.9). -/
def etabReply (r : Result) (s : State) : List Byte :=
  [r.code, boolByte s.fire.pendingTable.isSome] ++ tableBytes s.fire.table ++
    (s.fire.pendingTable.map tableBytes).getD (List.replicate 24 0#8)

/-- A form definition's layout (section 11.10). -/
def formDefBytes (d : FormDef) : List Byte :=
  natLe16 d.length ++ [byteOf d.ply] ++ natLe16 d.tear ++ natLe16 d.skipTop ++ natLe16 d.skipBottom ++
    [byteOf d.stops.length] ++ d.stops.flatMap (fun x => natLe16 x.position ++ le16 x.channels)

/-- The FORM reply: the disposition is PENDING exactly when a definition is pending (section 11.10). -/
def formReply (r : Result) (s : State) : List Byte :=
  [r.code, boolByte s.paper.next.isSome] ++ formDefBytes s.paper.active ++ (s.paper.next.map formDefBytes).getD []

/-- The reply to ENGA, REST, WAKE and ERST: result and engine state (section 11.11). -/
def engineReply (r : Result) (s : State) : List Byte := [r.code, s.engine.state.code]

/-- The first-fault record's thirteen bytes (section 11.11). -/
def faultBytes : Option FaultRecord → List Byte
  | none => List.replicate 13 0#8
  | some f =>
    [causeCode f.cause, f.engine.code, f.exec.code, flags2 f.tag.isSome f.position.isSome, f.tag.getD 0#8] ++
      intLe32 (f.position.getD 0) ++ natLe16 f.y ++ le16 f.form

/-- The CLRF reply: the record and the further causes as they stood when the request arrived (R165). -/
def clrfReply (r : Result) (s : State) : List Byte :=
  r.code :: (faultBytes s.engine.firstFault ++ [s.engine.further.setWidth 8])

/-- The DOUT reply (section 11.11). -/
def doutReply (r : Result) (s : State) : List Byte := [r.code, s.engine.outputs]

/-- The TOVL reply: mode and inputs after the request, the test-trip set as it stood on arrival (R172). -/
def tovlReply (r : Result) (arrived : CauseSet) (s : State) : List Byte :=
  [r.code, s.engine.overlayMode.code, s.engine.overlayInputs.setWidth 8, arrived.setWidth 8]

/-- The SETP and GETP reply (section 11.12). -/
def paramReply (r : Result) (id : Byte) (v : Int) : List Byte := [r.code, id] ++ intLe32 v

/-- The two bytes of an event set (section 11.5). -/
def eventBytes (e : EventSet) : List Byte := le16 (e.setWidth 16)

/-- The EMSK reply (section 11.12). -/
def emskReply (r : Result) (s : State) : List Byte := r.code :: (eventBytes s.link.mask ++ eventBytes s.link.events)

/-- The GENERAL counters in the order of section 11.12. -/
def allGeneral : List General :=
  [.linesDone, .linesFailed, .passes, .feedSteps, .formsCrossed, .droppedDots, .framesRejected, .receiveOverruns,
   .trips, .thermalWaits]

/-- A GENERAL counter's bytes, two or four by its width (section 11.12). -/
def generalBytes (b : Bank) (c : General) : List Byte :=
  if c.bits = 32 then natLe32 b.general[c.index] else natLe16 b.general[c.index]

/-- The counter reply of group GENERAL, 34 bytes (section 11.12). -/
def generalReply (s : State) : List Byte :=
  [Result.ok.code, 0#8] ++ le16 (s.counters.snapshot.generalHalf.setWidth 16) ++
    allGeneral.flatMap (generalBytes s.counters.snapshot)

/-- The counter reply of group PINS, 101 bytes (section 11.12). -/
def pinsReply (s : State) : List Byte :=
  [Result.ok.code, 1#8] ++ le24 s.counters.snapshot.strikesHalf ++
    (List.finRange 24).flatMap (fun p => natLe32 s.counters.snapshot.strikes[p])

/-- The STAT reply, 49 bytes (section 11.13). -/
def statReply (s : State) : List Byte :=
  [Result.ok.code, s.engine.state.code, s.exec.state.code, blockCode (blockingReason s),
   flags2 s.holds.halted s.holds.paperOut, byteOf s.queue.length,
   boolByte (hasActive s), ((activeEntry s).map (fun e => e.tag)).getD 0#8, byteOf s.completions.length] ++
  (List.finRange 8).map (fun i => s.slots[i].state.code) ++
  [(path s).code, s.paper.state.code] ++
  natLe16 s.paper.remaining ++ natLe16 s.paper.y ++ le16 s.paper.form ++
  [flags2 s.paper.tearPresented s.paper.next.isSome, boolByte s.carriage.homed] ++
  intLe32 (if s.carriage.homed then s.carriage.position.getD 0 else 0) ++
  [BitVec.ofInt 8 (correction s .forward), BitVec.ofInt 8 (correction s .reverse)] ++
  natLe32 s.heat.h ++
  [s.heat.band.code, flags2 s.heat.latch s.fire.pendingTable.isSome] ++
  le24 s.fire.inhibit ++ le24 s.fire.failed ++
  [(s.engine.firstFault.map (fun f => causeCode f.cause)).getD 0#8, s.engine.further.setWidth 8,
   s.engine.overlayMode.code, s.engine.outputs]

/-! ## The receiver (R177 to R180) -/

/-- The state with the receiver in a mode. -/
def setMode (m : RxMode) (s : State) : State := { s with link := { s.link with mode := m } }

/-- A frame in FRAME is rejected: dropped, counted, LINK_ERROR raised, back to HUNT (R179). -/
def rejectFrame (s : State) : State := raise .linkError (count .framesRejected 1 (setMode .hunt s))

/-- A frame that finds no receive place: counted, LINK_ERROR raised (R180). -/
def overrun (s : State) : State := raise .linkError (count .receiveOverruns 1 s)

/-- The value of the two LEN bytes. -/
def lenOf (bytes : List Byte) : Nat := (word16At bytes 0).toNat

/-- Whether LEN lies in 2..1026 (R178). -/
def lenValid (bytes : List Byte) : Bool := decide (2 ≤ lenOf bytes) && decide (lenOf bytes ≤ 1026)

/-- The frame that LEN, KIND, TAG and payload bytes hold. -/
def frameIn (bytes : List Byte) : Frame :=
  ⟨byteAt bytes 2, byteAt bytes 3, (bytes.drop 4).take (lenOf bytes - 2)⟩

/-- Whether the CRC received after LEN, KIND, TAG and payload matches the one computed over them (R178). -/
def crcMatches (bytes : List Byte) : Bool :=
  decide (word16At bytes (lenOf bytes + 2) = crc16 (bytes.take (lenOf bytes + 2)))

/-- One byte in HUNT (R177, R178, R180). -/
def rxHunt (b : LineByte) (s : State) : State :=
  if b.stop ∧ b.value = startByte then
    if s.link.received.length < Config.receivePlaces then setMode (.frame []) s
    else setMode (.skip [] 0) (overrun s)
  else s

/-- The bytes of a frame after one more of them (R178, R179). -/
def rxFrameBytes (bytes : List Byte) (s : State) : State :=
  if bytes.length = 2 then
    if lenValid bytes then setMode (.frame bytes) s else rejectFrame s
  else if bytes.length = lenOf bytes + 4 then
    if crcMatches bytes then
      { s with link := { s.link with mode := .hunt, received := s.link.received ++ [frameIn bytes] } }
    else rejectFrame s
  else setMode (.frame bytes) s

/-- One byte in FRAME (R178, R179). -/
def rxFrame (got : List Byte) (b : LineByte) (s : State) : State :=
  if b.stop then rxFrameBytes (got ++ [b.value]) s else rejectFrame s

/-- The receiver's mode after one byte in SKIP, whatever its stop bit (R180). -/
def skipMode (len : List Byte) (left : Nat) (b : Byte) : RxMode :=
  if len.length < 1 then .skip (len ++ [b]) 0
  else if len.length = 1 then
    if lenValid (len ++ [b]) then .skip (len ++ [b]) (lenOf (len ++ [b]) + 2) else .hunt
  else if left ≤ 1 then .hunt
  else .skip len (left - 1)

/-- One byte on the line (R177 to R180). -/
def rxByte (s : State) (b : LineByte) : State :=
  match s.link.mode with
  | .hunt => rxHunt b s
  | .frame got => rxFrame got b s
  | .skip len left => setMode (skipMode len left b.value) s

/-- A run of bytes on the line. -/
def rxBytes (bytes : List LineByte) (s : State) : State := bytes.foldl rxByte s

/-! ## Taking in and answering a request (R180 to R182) -/

/-- The receive places occupied: the frames that wait and one in FRAME mode (R180). -/
def placesUsed (l : Link) : Nat :=
  l.received.length + (match l.mode with
    | .frame _ => 1
    | .hunt => 0
    | .skip _ _ => 0)

/-- A request that must wait takes a receive place, or is discarded when both are occupied (R180, R181, log 19). -/
def arrive (f : Frame) (s : State) : State :=
  if placesUsed s.link < Config.receivePlaces then
    { s with link := { s.link with received := s.link.received ++ [f] } }
  else overrun s

/-- The reply to a frame: KIND plus 0x80 modulo 256 and the request's TAG (R182). -/
def replyFrame (f : Frame) (payload : List Byte) : Frame := ⟨f.kind + 0x80#8, f.tag, payload⟩

/-- A reply joins the reply places (R181, R183). -/
def pushReply (r : Frame) (s : State) : State := { s with link := { s.link with replies := s.link.replies ++ [r] } }

/-- A free transmitter takes the oldest reply, or with no reply waiting the notice out of its slot, with the event set as
it stands (R183, R187). -/
def beginSending (s : State) : State :=
  match s.link.tx with
  | .free =>
    if !s.link.replies.isEmpty then { s with link := { s.link with tx := .reply } }
    else if s.link.notice then { s with link := { s.link with tx := .notice s.link.events, notice := false } }
    else s
  | .reply | .notice _ => s

/-- A command acts: whatever it is, a free transmitter has taken the frame that waits for it before the command is taken
(R183, log 18). -/
def acting (f : State → State) (s : State) : Host.Outcome State Fault Refusal := .next (f (beginSending s))

/-- What a block makes of a request: the new state and the reply's payload. -/
abbrev Answer := State × List Byte

/-- A request decoded: handled whole by its block, and its reply placed (R181, R182). -/
def answer (f : Frame) (h : State → Answer) (s : State) : State := pushReply (replyFrame f (h s).2) (h s).1

/-- The oldest waiting frame leaves its receive place (R181). -/
def dropOldest (s : State) : State := { s with link := { s.link with received := s.link.received.tail } }

/-- A request is decoded when a reply place is free and no older frame waits; its own frame leaves its receive place.
Otherwise it keeps the place it has, or takes one (R180, R181, log 2). -/
def serve (f : Frame) (h : State → Answer) (s : State) : State :=
  if s.link.replies.length < Config.replyPlaces then
    match s.link.received with
    | [] => answer f h s
    | g :: _ => if g = f then answer f h (dropOldest s) else arrive f s
  else if s.link.received.head? = some f then s
  else arrive f s

/-- The meaning of a request row: the decoding of its frame. -/
def request (c : Instr) (h : State → Answer) (s : State) : Host.Outcome State Fault Refusal :=
  match encodeFrame c with
  | some f => acting (serve f h) s
  | none => acting id s

/-- A refusal or answer that is the result code alone (R195). -/
def bare (r : Result) (s : State) : Answer := (s, [r.code])

/-- The Link Unit's length check before a block's own handling (R182). -/
def onFields {α : Type} (w : Wire α) (h : α → State → Answer) (s : State) : Answer :=
  match w with
  | .fields f => h f s
  | .wrongLength _ => bare .badLength s

end Sys2Proof.Machine
end

