-- ==== Sys2Proof/Machine/Clock.lean ====
section
/-! DEFINITION. What the block does of itself when no command waits (DESIGN CHOICE, log 3). -/

namespace Sys2Proof.Machine

/-- Whether the transmitter is free with a frame to send (R183). -/
def canSend (s : State) : Bool :=
  decide (s.link.tx = .free) && (!s.link.replies.isEmpty || s.link.notice)

/-- The oldest waiting frame as a command, when a reply place is free (R181). -/
def frameDue (s : State) : Option Instr :=
  if s.link.replies.length < Config.replyPlaces then (s.link.received.head?).map decodeFrame else none

/-- A timer with one millisecond less left. -/
def countDown : Option Nat → Option Nat
  | some n => some (n - 1)
  | none => none

/-- A tick of time: one tick of carriage travel while the carriage moves short of its next step (R76), otherwise one
millisecond of the running timers (R158, R162). -/
def tick (s : State) : State :=
  if carriageMoving s = true ∧ 0 < room s then travel 1 s
  else { s with engine := { s.engine with
      holdTimer := countDown s.engine.holdTimer, warmTimer := countDown s.engine.warmTimer } }

end Sys2Proof.Machine
end

