-- ==== Sys2Proof/Machine/CarriageUnit.lean ====
section
/-! DEFINITION. The Carriage Controller's events (chapter 5) and the rest of a controlled stop (R96, R138). -/

namespace Sys2Proof.Machine

/-! ## Repositions and passes (R84, R85, R91) -/

/-- The end of a reposition: the pass starts, or a pending HALT in PASS mode holds the entry at this pass (R47, R84,
R85). -/
def arriveAtStart (plan : Plan) (r : PassRec) (s : State) : State :=
  if s.exec.pendingHalt = some .pass then holdAt (.pass (passIndex plan)) s else startPass plan r s

/-- REPOSITION_END: the reposition arrives at the start point, the encoder not lost on the way (R84, R94). -/
def execRepositionEnd : State → Host.Outcome State Fault Refusal :=
  acting fun s => match s.carriage.profile, working s with
    | some pf, some w =>
      if s.exec.state = .position ∧ s.carriage.phase = .reposition ∧ legClear s = true then
        arriveAtStart w.2.1 w.2.2 (endMotion (reach pf.target s))
      else s
    | _, _ => s

/-- The state with the motion phase changed, the motion going on (R85). -/
def setPhase (ph : MotionPhase) (s : State) : State := { s with carriage := { s.carriage with phase := ph } }

/-- CRUISE_START: RAMP_UP reaches the near cruise edge and the first group becomes due (R82, R91, R94). -/
def execCruiseStart : State → Host.Outcome State Fault Refusal :=
  acting fun s => match s.carriage.profile with
    | some pf =>
      if s.carriage.phase = .rampUp ∧ legClear s = true then setDue none (setPhase .cruise (reach pf.edgeIn s)) else s
    | none => s

/-- CRUISE_END: with every group fired and no pulse running, CRUISE reaches the far cruise edge (R82, R92, R94,
R103, log 8). -/
def execCruiseEnd : State → Host.Outcome State Fault Refusal :=
  acting fun s => match s.carriage.profile with
    | some pf =>
      if s.carriage.phase = .cruise ∧ s.fire.due = none ∧ s.fire.driving = 0#24 ∧ legClear s = true then
        setPhase .rampDown (reach pf.edgeOut s)
      else s
    | none => s

/-- The pass list with the pass in progress done (R53, R85). -/
def markDone : List PassRec → List PassRec
  | [] => []
  | r :: rest => if r.done then r :: markDone rest else { r with done := true } :: rest

/-- The executor with the pass in progress done (R85). -/
def Executor.passDone (x : Executor) : Executor :=
  { x with plan := x.plan.map (fun p => { p with passes := markDone p.passes }) }

/-- Where a line held at the end of a pass continues: the next pass or the feed-after (R47). -/
def afterPassResume (s : State) : Resume :=
  match s.exec.plan with
  | some plan => if (passNow plan).isSome then .pass (passIndex plan) else .feedAfter
  | none => .feedAfter

/-- What follows a pass: a hold by a pending HALT in PASS mode, or the next work (R40, R47). -/
def afterPass (s : State) : State :=
  if s.exec.pendingHalt = some .pass then holdAt (afterPassResume s) s else nextWork s

/-- The end of a pass: done, counted, the ribbon off, the motion at rest (R85, R111). -/
def endPass (pf : Profile) (s : State) : State :=
  count .passes 1
    (setRibbon false (endMotion (reach pf.target { s with exec := s.exec.passDone })))

/-- PASS_END: RAMP_DOWN arrives at the end point (R85, R94). -/
def execPassEnd : State → Host.Outcome State Fault Refusal :=
  acting fun s => match s.carriage.profile with
    | some pf =>
      if s.carriage.phase = .rampDown ∧ s.exec.state = .pass ∧ legClear s = true then afterPass (endPass pf s) else s
    | none => s

/-! ## Mark edges (R86, R87, R93, R94) -/

/-- The no-mark distances at a mark edge: both 0, the observed one kept while OBSERVE holds MARK_STALL; one that has
reached 96 with the real one at this edge is then a test trip (R87, R94, R174). -/
def clearNoMark (s : State) : State :=
  if observed s .markStall then
    if Config.noMarkLimit ≤ s.carriage.observedNoMark then
      testTripFor .encoderLost { s with carriage := { s.carriage with noMark := 0, observedNoMark := 0 } }
    else { s with carriage := { s.carriage with noMark := 0 } }
  else { s with carriage := { s.carriage with noMark := 0, observedNoMark := 0 } }

/-- The capture of the coordinate (R80). -/
def capture (s : State) : State :=
  clearNoMark { s with carriage := { s.carriage with
      markPhase := s.carriage.position, markCount := 0, devForward := 0, devReverse := 0, homed := true } }

/-- K after an edge (R86). -/
def Carriage.countMark (c : Carriage) (dir : Dir) : Carriage := { c with markCount := c.markCount + dirSign dir }

/-- The deviation d = m − p of an edge, with K as it stands after the edge (R86, R87). -/
def Carriage.deviation (c : Carriage) : Int := c.markPhase.getD 0 + 32 * c.markCount - c.position.getD 0

/-- The filter of the motion's direction updated, if a motion is in progress (R87, R88). -/
def Carriage.filter (c : Carriage) (fdepth : Nat) (d : Int) : Carriage :=
  match c.direction with
  | some dir => c.updateDev fdepth dir d
  | none => c

/-- An edge with the homed flag set, other than the capture edge (R86, R87, R93). -/
def edgeHomed (dir : Dir) (s : State) : State :=
  let s1 := clearNoMark { s with carriage := s.carriage.countMark dir }
  let d := s1.carriage.deviation
  if param s .sliplim < (d.natAbs : Int) then arise .carriageSlip s1
  else { s1 with carriage := s1.carriage.filter (paramNat s .fdepth) d }

/-- An edge as its consumers see it (R79, R80, R86, R96, log 14). -/
def edge (dir : Dir) (s : State) : State :=
  if s.carriage.homed then edgeHomed dir s
  else match s.carriage.phase with
    | .seek | .stopping => clearNoMark s
    | .park => capture s
    | .stopped | .reposition | .rampUp | .cruise | .rampDown => s

/-- MARK_EDGE: the travel since the last step (log 5), then the edge, which MARK_STALL in DRIVE suppresses (R86, R87,
R173). -/
def execMarkEdge (dir : Dir) (n : Nat) : State → Host.Outcome State Fault Refusal :=
  acting fun s =>
    let s1 := travel (min n (room s)) s
    if driven s .markStall then s1 else edge dir s1

/-- ENCODER_LOST: the no-mark distance reaches 96 ticks during a motion (R94). -/
def execEncoderLost : State → Host.Outcome State Fault Refusal :=
  acting fun s =>
    if carriageMoving s = true ∧ Config.noMarkLimit - s.carriage.noMark ≤ legLeft s then
      arise .encoderLost (travel (Config.noMarkLimit - s.carriage.noMark) s)
    else s

/-! ## Homing (R79, R80) -/

/-- HOME_SENSOR_ACTIVE: the level; in the seek, HOME stops the carriage and the park move starts (R79, R80). -/
def execHomeSensorActive : State → Host.Outcome State Fault Refusal :=
  acting fun s =>
    let s1 := { s with lines := { s.lines with home := true } }
    if s.carriage.phase = .seek then homeReached s1 else s1

/-- HOME_SENSOR_INACTIVE: the level (R79). -/
def execHomeSensorInactive : State → Host.Outcome State Fault Refusal :=
  acting fun s => { s with lines := { s.lines with home := false } }

/-- HOME_FAIL: the seek's travel reaches 3,900 columns with HOME inactive, the no-mark distance at most reaching 96 at
that tick (R79, R94, R163). -/
def execHomeFail : State → Host.Outcome State Fault Refusal :=
  acting fun s =>
    if s.carriage.phase = .seek ∧ homeActive s = false ∧ s.carriage.noMark + legLeft s ≤ Config.noMarkLimit then
      arise .homeFail (travel (legLeft s) s)
    else s

/-- PARK_END: the park move arrives at −3200 ticks with the coordinate captured, and the load begins (R80, R81, R94,
R157). -/
def execParkEnd : State → Host.Outcome State Fault Refusal :=
  acting fun s => match s.carriage.profile with
    | some pf =>
      if s.carriage.phase = .park ∧ s.carriage.homed = true ∧ legClear s = true then
        load (endMotion (reach pf.target s))
      else s
    | none => s

/-! ## The rest of a controlled stop (R48, R96, R97, R138, R168) -/

/-- What rest brings: an entry failed by HALT in NOW mode retires, a pending ERST completes (R48, R168). -/
def afterRest (s : State) : State :=
  finishReset (if s.exec.failing then failActive .failedHalted s else s)

/-- The carriage comes to rest from a controlled stop, the ribbon off (R96, R111). -/
def carriageRest (s : State) : State :=
  let s1 := match s.carriage.profile with
    | some pf => reach pf.target s
    | none => s
  afterRest (setRibbon false (endMotion s1))

/-- The feed move comes to rest from a controlled stop; an eject that has reached paper end unloads (R138, R149,
log 22). -/
def feedRest (m : FeedMove) (s : State) : State :=
  match m.purpose with
  | .eject _ => afterRest (if atPaperEnd s then endFeed { s with paper := s.paper.unload } else endFeed s)
  | .preload _ | .load | .retract | .perfSkip | .feed _ | .skip | .present | .feedAfter =>
    if atPaperEnd s then s else afterRest (endFeed s)

/-- STOP_AT_REST: a controlled stop of the carriage, whose running pulses go on to their ends, or of the feed move comes
to rest (R94, R96, R103, R110, R138). -/
def execStopAtRest : State → Host.Outcome State Fault Refusal :=
  acting fun s =>
    if s.carriage.phase = .stopping then
      (if legClear s = true then carriageRest s else s)
    else match s.paper.move with
      | some m => if m.stopping = true ∧ s.paper.jamDue = false then feedRest m s else s
      | none => s

end Sys2Proof.Machine
end

