-- ==== Sys2Proof/Machine/CounterBlock.lean ====
section
/-! DEFINITION. The Counter Block's request CNTR, by its three operations (R192). -/

namespace Sys2Proof.Machine

/-- SNAP: every live counter and half flag is copied into the snapshot (R192). -/
def doSnap (s : State) : Answer :=
  ({ s with counters := { s.counters with snapshot := s.counters.live } }, [Result.ok.code])

/-- CNTR_SNAP, with the CNTR frames no row names: an undefined operation, answered with the result alone since section
11.12 gives that operation no layout, and a wrong length (R192, R194, R195, log 20, log 34). -/
def execCntrSnap (tag : Byte) (req : SnapForm) (s : State) : Host.Outcome State Fault Refusal :=
  request (.cntrSnap tag req)
    (match req with
      | .snap _ => doSnap
      | .undefinedOp _ _ => bare .badValue
      | .wrongLength _ => bare .badLength) s

/-- The reply to a READ of a group that is not defined: the result and the group; the rest of the counter reply is a
group's own values, and this group has none (R192, R195, section 11.12, log 33). -/
def noGroupReply (group : Byte) : List Byte := [Result.badValue.code, group]

/-- READ: the snapshot of a group; another group is refused (R192). -/
def doRead (group : Byte) (s : State) : Answer :=
  if group = 0#8 then (s, generalReply s)
  else if group = 1#8 then (s, pinsReply s)
  else (s, noGroupReply group)

/-- CNTR_READ (R192). -/
def execCntrRead (tag group : Byte) (s : State) : Host.Outcome State Fault Refusal :=
  request (.cntrRead tag group) (doRead group) s

/-- A bank with the named groups cleared (R192). -/
def Bank.clear (b : Bank) (general pins : Bool) : Bank where
  general := if general then Vector.replicate 10 0 else b.general
  generalHalf := if general then 0#10 else b.generalHalf
  strikes := if pins then Vector.replicate 24 0 else b.strikes
  strikesHalf := if pins then 0#24 else b.strikesHalf

/-- CLEAR: the live counters of the named groups; the snapshot stands; a mask naming another group is refused (R192,
R194). -/
def doClear (mask : Byte) (s : State) : Answer :=
  if mask &&& 0xFC#8 = 0#8 then
    ({ s with counters := { s.counters with live := s.counters.live.clear (mask.getLsbD 0) (mask.getLsbD 1) } },
      [Result.ok.code])
  else bare .badValue s

/-- CNTR_CLEAR (R192). -/
def execCntrClear (tag mask : Byte) (s : State) : Host.Outcome State Fault Refusal :=
  request (.cntrClear tag mask) (doClear mask) s

end Sys2Proof.Machine
end

