-- ==== Sys2Proof/Machine/PaperUnit.lean ====
section
/-! DEFINITION. The Paper Motion Unit's request FORM and its events (chapter 8). -/

namespace Sys2Proof.Machine

/-! ## FORM (R130 to R132) -/

/-- Whether an accepted FORM is applied at once (R131). -/
def formAtOnce (s : State) : Bool :=
  !loaded s ||
    (decide (s.paper.y = 0) && s.queue.isEmpty && decide (s.exec.state = .idle) && !s.paper.tearPresented)

/-- The paper record after an accepted FORM (R131). -/
def Paper.takeForm (p : Paper) (d : FormDef) (atOnce : Bool) : Paper :=
  if atOnce then { p with active := d, next := none } else { p with next := some d }

/-- FORM's own part (R130 to R132). -/
def doForm (o : Option FormReq) (s : State) : Answer :=
  match o with
  | none => (s, formReply .ok s)
  | some f =>
    if formValid f then
      let s' := { s with paper := s.paper.takeForm (formDefOf f) (formAtOnce s) }
      (s', formReply .ok s')
    else (s, formReply .badValue s)

/-- FORM (R130 to R132). -/
def execForm (tag : Byte) (req : Wire (Option FormReq)) (s : State) : Host.Outcome State Fault Refusal :=
  request (.form tag req) (onFields req doForm) s

/-! ## FEED_STEP (R134 to R137, R142, R147, R148, R151) -/

/-- A forward top-of-form crossing (R135): a tear presentation applies no definition. -/
def crossForward (u : Purpose) (s : State) : State :=
  let s1 := count .formsCrossed 1 { s with paper := { s.paper with y := 0, form := s.paper.form + 1#16 } }
  match u with
  | .present => s1
  | .preload _ | .load | .retract | .perfSkip | .feed _ | .skip | .eject _ | .feedAfter => applyNext s1

/-- The position after a step, while a form is loaded (R134 to R136). -/
def stepPosition (m : FeedMove) (s : State) : State :=
  if loaded s then
    match m.dir with
    | .forward =>
      if s.paper.active.length ≤ s.paper.y + 1 then crossForward m.purpose s
      else { s with paper := { s.paper with y := s.paper.y + 1 } }
    | .reverse =>
      if s.paper.y = 0 then
        { s with paper := { s.paper with y := s.paper.active.length - 1, form := s.paper.form - 1#16 } }
      else { s with paper := { s.paper with y := s.paper.y - 1 } }
  else s

/-- The tear state after a step of a presentation or a retract (R147, R148). -/
def Paper.stepTear (p : Paper) (u : Purpose) : Paper :=
  match u with
  | .present => { p with tearDistance := p.tearDistance + 1 }
  | .retract =>
    { p with tearDistance := p.tearDistance - 1, tearPresented := p.tearPresented && decide (1 < p.tearDistance) }
  | .preload _ | .load | .perfSkip | .feed _ | .skip | .eject _ | .feedAfter => p

/-- A count of unpulsed steps after one more step, within its range (R128, R151). -/
def oneMore (n : Nat) : Nat := min Config.unpulsedMax (n + 1)

/-- Whether the next feed step in OBSERVE brings the observed unpulsed steps to JAMLIM and the real ones not (R174). -/
def testJams (s : State) : Bool :=
  decide (s.engine.overlayMode = .observe) && decide (paramNat s .jamlim ≤ oneMore s.paper.observedUnpulsed) &&
    !decide (paramNat s .jamlim ≤ oneMore s.paper.unpulsed)

/-- The unpulsed steps rise by one and the real ones are judged for a jam (R151); the observed ones that make a test trip
return to 0 (R174). -/
def Paper.stepUnpulsed (p : Paper) (jamlim : Nat) (testTrip : Bool) : Paper :=
  { p with
    unpulsed := oneMore p.unpulsed
    observedUnpulsed := if testTrip then 0 else oneMore p.observedUnpulsed
    jamDue := decide (jamlim ≤ oneMore p.unpulsed) }

/-- The remaining distance after a step: in ENDING a forward step lowers it by one (R137, R142). -/
def Paper.stepRemaining (p : Paper) (d : Dir) : Paper :=
  match d with
  | .forward => if p.state = .ending then { p with remaining := p.remaining - 1 } else p
  | .reverse => p

/-- The feed move after a step. -/
def FeedMove.stepped (m : FeedMove) : FeedMove := { m with left := m.left - 1, made := m.made + 1 }

/-- Whether the feed move makes another step: never a preload, never past a jam or paper end; an eject runs on unless
its limit is met with the sensor still present (R137, R142, R149, R151). -/
def stepAllowed (m : FeedMove) (s : State) : Bool :=
  !s.paper.jamDue && !atPaperEnd s &&
    (match m.purpose with
      | .preload _ => false
      | .eject _ =>
        !m.over s.paper.state && (!m.stopping || decide (0 < m.left))
      | .load | .retract | .perfSkip | .feed _ | .skip | .present | .feedAfter => decide (0 < m.left))

/-- The paper motors a feed step drives, once each and in its direction: on FANFOLD the line feed and the tractor, on
SHEET the line feed alone (R137). -/
def feedMotors (p : Path) (d : Dir) : MotorStep :=
  match p with
  | .fanfold => ⟨true, true, d⟩
  | .sheet => ⟨true, false, d⟩

/-- One feed step, in R137's order: the motors, position, count, jam check, remaining distance; a test jam is made with
the check (R174). -/
def feedOne (m : FeedMove) (s : State) : State :=
  let s1 := count .feedSteps 1 (stepPosition m s)
  testTripIf (testJams s) .paperJam
    { s1 with
      motorStep := some (feedMotors (path s) m.dir)
      paper :=
        { (((s1.paper.stepTear m.purpose).stepUnpulsed (paramNat s .jamlim) (testJams s)).stepRemaining m.dir) with
          move := some m.stepped } }

/-- FEED_STEP (R137). -/
def execFeedStep : State → Host.Outcome State Fault Refusal :=
  acting fun s => match s.paper.move with
    | some m => if stepAllowed m s then feedOne m s else s
    | none => s

/-! ## Ends of feed moves -/

/-- PAPER_JAM: the last step brought the unpulsed steps to JAMLIM (R151, R152, log 6). -/
def execPaperJam : State → Host.Outcome State Fault Refusal :=
  acting fun s =>
    if s.paper.jamDue then arise .paperJam s else s

/-- PAPER_END: the last step brought the remaining distance to 0 (R142). -/
def execPaperEnd : State → Host.Outcome State Fault Refusal :=
  acting fun s => match s.paper.move with
    | some m =>
      if m.purpose.isEject = false ∧ atPaperEnd s = true ∧ s.paper.jamDue = false then paperEnds s else s
    | none => s

/-- EJECT_FAIL: the eject has made its L steps with the sensor still present (R149). -/
def execEjectFail : State → Host.Outcome State Fault Refusal :=
  acting fun s => match s.paper.move with
    | some m =>
      if m.over s.paper.state = true ∧ s.paper.jamDue = false ∧ m.stopping = false then
        retire .failedEject (endFeed s)
      else s
    | none => s

/-- The entry held by a pending HALT in PASS mode at the end of a staging feed (R47). -/
def stagingResume (k : EntryKind) : Resume :=
  match k with
  | .line _ => .staging
  | .feed _ | .skip _ | .tear => .motion

/-- What follows a staging feed: the hold of a pending HALT in PASS mode, or the work that comes next (R47). -/
def afterStaging (next : EntryKind → State → State) (s : State) : State :=
  match activeEntry s with
  | some e => if s.exec.pendingHalt = some .pass then holdAt (stagingResume e.kind) s else next e.kind s
  | none => s

/-- Staging of a LINE goes on after a perforation skip's move (R150). -/
def stagingGoesOn (k : EntryKind) (s : State) : State :=
  match k with
  | .line f => stageLine f s
  | .feed _ | .skip _ | .tear => s

/-- What a complete feed move brings, by its purpose (R40, R41, R137, R139, R144 to R150). -/
def moveComplete (u : Purpose) (s : State) : State :=
  match u with
  | .preload _ => s
  | .load => finishLoad s
  | .retract => afterStaging afterRetract s
  | .perfSkip => afterStaging stagingGoesOn s
  | .feed reduced => retire (if reduced then .clampedReverse else .done) s
  | .skip => retire .done s
  | .present => retire .done s
  | .eject _ => retire .done s
  | .feedAfter => completeLine s

/-- Whether the feed move has made its last step (R137, R149). -/
def moveDone (m : FeedMove) (s : State) : Bool :=
  !m.stopping && !s.paper.jamDue &&
    (match m.purpose with
      | .preload _ => false
      | .eject _ => atPaperEnd s
      | .load | .retract | .perfSkip | .feed _ | .skip | .present | .feedAfter =>
        decide (m.left = 0) && !atPaperEnd s)

/-- FEED_MOVE_END: the move has made its last step; an eject's end unloads the paper (R137, R149). -/
def execFeedMoveEnd : State → Host.Outcome State Fault Refusal :=
  acting fun s => match s.paper.move with
    | some m =>
      if moveDone m s then
        moveComplete m.purpose (endFeed (if m.purpose.isEject then { s with paper := s.paper.unload } else s))
      else s
    | none => s

/-- PRELOAD_COMPLETE: the preload's steps of the tractor alone are done and the LOADDIST feed begins (R139). -/
def execPreloadComplete : State → Host.Outcome State Fault Refusal :=
  acting fun s => match s.paper.move with
    | some m => match m.purpose with
      | .preload n =>
        if m.stopping then s else loadFeed n { endFeed s with motorStep := some ⟨false, true, .forward⟩ }
      | .load | .retract | .perfSkip | .feed _ | .skip | .present | .eject _ | .feedAfter => s
    | none => s

/-! ## The wheel and the sensor (R141, R151) -/

/-- PAPER_MOTION_PULSE: the unpulsed steps return to 0, unless MOTION_STALL in DRIVE suppresses the pulse; the observed
ones are kept while OBSERVE holds MOTION_STALL (R151, R173, R174). A jam already due finds the motors stopped. -/
def execPaperMotionPulse : State → Host.Outcome State Fault Refusal :=
  acting fun s =>
    if driven s .motionStall || s.paper.jamDue then s
    else if observed s .motionStall then { s with paper := { s.paper with unpulsed := 0 } }
    else { s with paper := { s.paper with unpulsed := 0, observedUnpulsed := 0 } }

/-- PAPER_SENSOR_ABSENT: the sensor, as the overlay presents it (R141, R173). -/
def execPaperSensorAbsent : State → Host.Outcome State Fault Refusal :=
  acting fun s => sensorChange (sensorPresent s) { s with lines := { s.lines with paper := false } }

/-- PAPER_SENSOR_PRESENT: the sensor, as the overlay presents it (R141, R161, R173). -/
def execPaperSensorPresent : State → Host.Outcome State Fault Refusal :=
  acting fun s => sensorChange (sensorPresent s) { s with lines := { s.lines with paper := true } }

end Sys2Proof.Machine
end

