-- ==== Sys2Proof/Machine/EngineUnit.lean ====
section
/-! DEFINITION. The Engine Supervisor's requests and events (chapter 9) and the cooling tick (R118). -/

namespace Sys2Proof.Machine

/-- The answer to ENGA, REST, WAKE and ERST: the engine state is the one after the request (section 11.11). -/
def engineAnswer (p : State × Result) : Answer := (p.1, engineReply p.2 p.1)

/-! ## ENGA, REST and WAKE (R156, R159 to R161) -/

/-- ENGA's own part (R156). -/
def engage (s : State) : State × Result :=
  match s.engine.state with
  | .unready => (enterHoming s, .ok)
  | .ready | .hold =>
    if s.exec.state = .idle ∧ inMotion s = false then (enterHoming s, .ok) else (s, .wrongState)
  | .homing => (s, .busy)
  | .warming => (s, .busy)
  | .rest => (beginWake .homing s, .ok)
  | .tripped => (s, .tripped)

/-- ENGA (R156). -/
def execEnga (tag : Byte) (req : Wire Unit) (s : State) : Host.Outcome State Fault Refusal :=
  request (.enga tag req) (onFields req (fun _ s => engineAnswer (engage s))) s

/-- The engine enters REST (R160, log 21). -/
def enterRest (o : RestOrigin) (s : State) : State :=
  { s with
    engine := { s.engine with state := .rest, restOrigin := some o, holdTimer := none }
    carriage := { s.carriage with homed := false, position := none, markPhase := none } }

/-- REST's own part (R159). -/
def restEngine (s : State) : State × Result :=
  match s.engine.state with
  | .unready => if wakeCondition s then (s, .wakePending) else (enterRest .unready s, .ok)
  | .ready | .hold => if wakeCondition s then (s, .wakePending) else (enterRest .ready s, .ok)
  | .homing | .rest | .warming | .tripped => (s, .wrongState)

/-- REST (R159, R160). -/
def execRest (tag : Byte) (req : Wire Unit) (s : State) : Host.Outcome State Fault Refusal :=
  request (.rest tag req) (onFields req (fun _ s => engineAnswer (restEngine s))) s

/-- WAKE's own part: in REST a wake begins (R161). -/
def wakeEngine (s : State) : State × Result :=
  if s.engine.state = .rest then (beginWake (originTarget s.engine.restOrigin) s, .ok) else (s, .ok)

/-- WAKE (R161, R162). -/
def execWake (tag : Byte) (req : Wire Unit) (s : State) : Host.Outcome State Fault Refusal :=
  request (.wake tag req) (onFields req (fun _ s => engineAnswer (wakeEngine s))) s

/-! ## CLRF and ERST (R167 to R169) -/

/-- The engine leaves TRIPPED: UNREADY, no record, no further cause, output 7 off (R167, R168). -/
def clearTrip (s : State) : State :=
  { s with engine := { (s.engine.setOutput 7 false) with state := .unready, firstFault := none, further := 0#6 } }

/-- CLRF's own part; the reply carries the record as it stood on arrival (R165, R167). -/
def doClrf (s : State) : Answer :=
  if s.engine.state = .tripped then
    if levelAsserted s then (s, clrfReply .causeActive s) else (clearTrip s, clrfReply .ok s)
  else (s, clrfReply .ok s)

/-- CLRF (R167). -/
def execClrf (tag : Byte) (req : Wire Unit) (s : State) : Host.Outcome State Fault Refusal :=
  request (.clrf tag req) (onFields req (fun _ => doClrf)) s

/-- The carriage record of a carriage at rest, cleared as ERST finds it (R97). DESIGN CHOICE (log 31): with a feed move
in progress R168 speaks of the clearing when that move is at rest; the model makes it at once, as R97 says. -/
def clearIfStanding (s : State) : State := if carriageMoving s then s else { s with carriage := clearedCarriage }

/-- ERST with the engine HOMING, READY or HOLD: at once at rest or in the seek, otherwise a controlled stop, a standing
carriage's record cleared (R97, R168, log 31). -/
def erstDriven (s : State) : State :=
  if inMotion s = false ∨ s.carriage.phase = .seek then erstAtRest s
  else controlledStop (clearIfStanding { s with engine := { s.engine with resetPending := true } })

/-- ERST's own part: what is cleared on arrival, then the engine's part; a second ERST during the stop changes nothing
further (R168, R169, log 13). -/
def resetEngineNow (s : State) : State :=
  if s.engine.resetPending then s
  else
    let s1 := resetWork s
    match s.engine.state with
    | .unready => clearAtRest s1
    | .homing | .ready | .hold => erstDriven s1
    | .rest => beginWake .unready (clearAtRest s1)
    | .warming => clearAtRest { s1 with engine := { s1.engine with wakeTarget := some .unready } }
    | .tripped => if levelAsserted s then clearAtRest s1 else clearTrip (clearAtRest s1)

/-- ERST (R168, R169). -/
def execErst (tag : Byte) (req : Wire Unit) (s : State) : Host.Outcome State Fault Refusal :=
  request (.erst tag req) (onFields req (fun _ s => engineAnswer (resetEngineNow s, .ok))) s

/-! ## DOUT (R170) -/

/-- The outputs after a DOUT: the reset mask, then the set mask, on outputs 0..5 (R170). -/
def doutOutputs (r : DoutReq) (o : BitVec 8) : BitVec 8 := (o &&& ~~~(r.reset &&& 0x3F#8)) ||| (r.set &&& 0x3F#8)

/-- DOUT's own part (R170). -/
def doDout (r : DoutReq) (s : State) : Answer :=
  let s' := { s with engine := { s.engine with outputs := doutOutputs r s.engine.outputs } }
  (s', doutReply .ok s')

/-- DOUT (R170). -/
def execDout (tag : Byte) (req : Wire DoutReq) (s : State) : Host.Outcome State Fault Refusal :=
  request (.dout tag req) (onFields req doDout) s

/-! ## TOVL (R172 to R175) -/

/-- The overlay's mode and inputs replaced (R172). -/
def setOverlay (m : OverlayMode) (inputs : BitVec 6) (s : State) : State :=
  { s with engine := { s.engine with overlayMode := m, overlayInputs := inputs } }

/-- The test-trip set emptied (R172). -/
def emptyTestTrips (s : State) : State := { s with engine := { s.engine with testTrips := 0#6 } }

/-- A setting whose mode is OBSERVE sets the observed counts equal to the real ones (R174). -/
def syncObserved (s : State) : State :=
  if s.engine.overlayMode = .observe then
    { s with
      carriage := { s.carriage with observedNoMark := s.carriage.noMark }
      paper := { s.paper with observedUnpulsed := s.paper.unpulsed } }
  else s

/-- Whether an overlay input is set in a view other than OFF. -/
def viewed (s : State) (i : OverlayInput) : Bool := decide (s.engine.overlayMode ≠ .off) && flagSet s i

/-- Whether a setting makes a level asserted in OBSERVE's view alone: its line quiet, its flag set, and the view before
quiet (R174, R175). -/
def newlyObserved (before after : State) (line : Bool) (i : OverlayInput) : Bool :=
  observed after i && !line && !viewed before i

/-- What a change of view brings: level causes, test trips, the paper sensor (R174, R175). DESIGN CHOICE (log 29): of one
setting's changes the level causes are taken first and the sensor's last; R175 gives no order. -/
def overlayEffects (before after : State) : State :=
  sensorChange (sensorPresent before)
    (testTripIf (newlyObserved before after before.lines.driverFault .driverFault) .driverFault
      (testTripIf (newlyObserved before after before.lines.headHot .headHot) .headHot
        (ariseLevels (!headHotLevel before && headHotLevel after)
          (!driverFaultLevel before && driverFaultLevel after) after)))

/-- TOVL's own part: the setting with its effects, then the test-trip set emptied (R172, R174, R175, log 24). -/
def doTovl (o : Option TovlReq) (s : State) : Answer :=
  match o with
  | none => (s, tovlReply .ok s.engine.testTrips s)
  | some r =>
    if s.engine.state = .homing then (s, tovlReply .busy s.engine.testTrips s)
    else match OverlayMode.ofCode r.mode with
      | some m =>
        if r.inputs &&& 0xC0#8 = 0#8 then
          let s' := emptyTestTrips (overlayEffects s (syncObserved (setOverlay m (r.inputs.setWidth 6) s)))
          (s', tovlReply .ok s.engine.testTrips s')
        else (s, tovlReply .badValue s.engine.testTrips s)
      | none => (s, tovlReply .badValue s.engine.testTrips s)

/-- TOVL (R172 to R175). -/
def execTovl (tag : Byte) (req : Wire (Option TovlReq)) (s : State) : Host.Outcome State Fault Refusal :=
  request (.tovl tag req) (onFields req doTovl) s

/-! ## The level inputs (R163) -/

/-- HEAD_HOT_ASSERTED: the line; the cause arises when the level was quiet (R163). -/
def execHeadHotAsserted : State → Host.Outcome State Fault Refusal :=
  acting fun s => ariseIf (!headHotLevel s) .headHot { s with lines := { s.lines with headHot := true } }

/-- HEAD_HOT_QUIET: the line; nothing else changes (R163). -/
def execHeadHotQuiet : State → Host.Outcome State Fault Refusal :=
  acting fun s => { s with lines := { s.lines with headHot := false } }

/-- DRIVER_FAULT_ASSERTED: the line; the cause arises when the level was quiet (R163). -/
def execDriverFaultAsserted : State → Host.Outcome State Fault Refusal :=
  acting fun s => ariseIf (!driverFaultLevel s) .driverFault { s with lines := { s.lines with driverFault := true } }

/-- DRIVER_FAULT_QUIET: the line; nothing else changes (R163). -/
def execDriverFaultQuiet : State → Host.Outcome State Fault Refusal :=
  acting fun s => { s with lines := { s.lines with driverFault := false } }

/-! ## TEST_TRIP (R174) -/

/-- The travel that brings the observed no-mark distance to 96 while the real one stays short of it, and with it the
test trip (R174). -/
def encoderTestTrip (s : State) : State :=
  let k := Config.noMarkLimit - s.carriage.observedNoMark
  if carriageMoving s = true ∧ k ≤ legLeft s ∧ s.carriage.noMark < s.carriage.observedNoMark then travel k s else s

/-- The feed step that brings the observed unpulsed steps to JAMLIM while the real ones stay short of it, and with it
the test trip (R174). -/
def jamTestTrip (s : State) : State :=
  match s.paper.move with
  | some m => if stepAllowed m s && testJams s then feedOne m s else s
  | none => s

/-- TEST_TRIP in OBSERVE: the event at which a check is true on the overlaid view alone; the level causes' test trips are
made by the TOVL that asserts them, and one that another command's travel or feed step meets is made there (R174, R175,
log 6). -/
def execTestTrip (c : TripCause) : State → Host.Outcome State Fault Refusal :=
  acting fun s =>
    if s.engine.overlayMode = .observe then
      match c with
      | .encoderLost => encoderTestTrip s
      | .paperJam => jamTestTrip s
      | .homeFail | .carriageSlip | .headHot | .driverFault => s
    else s

/-! ## Timers and the cooling tick (R118, R158, R162) -/

/-- HOLD_TIMER_EXPIRY: READY passes to HOLD (R158). -/
def execHoldTimerExpiry : State → Host.Outcome State Fault Refusal :=
  acting fun s =>
    if s.engine.state = .ready ∧ s.engine.holdTimer.isSome = true ∧ inMotion s = false then
      { s with engine := { s.engine with state := .hold, holdTimer := none } }
    else s

/-- WARMUP_EXPIRY: the engine enters the wake target and WAKE is raised (R162). -/
def execWarmupExpiry : State → Host.Outcome State Fault Refusal :=
  acting fun s =>
    if s.engine.state = .warming ∧ s.engine.warmTimer.isSome = true then
      let s1 := { s with engine := { s.engine with wakeTarget := none, warmTimer := none } }
      raise .wake (match s.engine.wakeTarget with
        | some .homing => enterHoming s1
        | some .unready => { s1 with engine := { s1.engine with state := .unready } }
        | none => { s1 with engine := { s1.engine with state := .unready } })
    else s

/-- COOLING_TICK: H falls, the band and latch are judged anew, and a waiting pass is tested again (R118, R122). -/
def execCoolingTick : State → Host.Outcome State Fault Refusal :=
  acting fun s => retest (setHeat (cooled (paramNat s .coolshift) s.heat.h) s)

end Sys2Proof.Machine
end

