-- ==== Sys2Proof/Machine/FireUnit.lean ====
section
/-! DEFINITION. The Fire Unit's requests PMAP, PINH and ETAB, and its events (chapters 1 and 6). -/

namespace Sys2Proof.Machine

/-! ## PMAP (R5 to R7) -/

/-- PMAP's first check fails: a LINE entry ACTIVE, the engine HOMING or the carriage moving (R6). -/
def pmapBlocked (s : State) : Bool := lineActive s || decide (s.engine.state = .homing) || carriageMoving s

/-- The state with a new pin map (R7). -/
def setMap (m : Vector MapRow 24) (s : State) : State := { s with fire := { s.fire with pinMap := m } }

/-- PMAP's own part (R5, R6, R7). -/
def doPmap (o : Option (Vector RowReq 24)) (s : State) : Answer :=
  match o with
  | none => (s, pmapReply .ok s)
  | some rows =>
    if pmapBlocked s then (s, pmapReply .wrongState s)
    else if !rowsValid rows then (s, pmapReply .badValue s)
    else if !pinsDistinct (mapOf rows) then (s, pmapReply .duplicatePin s)
    else (setMap (mapOf rows) s, pmapReply .ok (setMap (mapOf rows) s))

/-- PMAP (R5 to R7). -/
def execPmap (tag : Byte) (req : Wire (Option (Vector RowReq 24))) (s : State) : Host.Outcome State Fault Refusal :=
  request (.pmap tag req) (onFields req doPmap) s

/-! ## PINH (R11) -/

/-- The clear mask applied: off both sets, counts 0 (R11). -/
def Fire.clearPins (f : Fire) (m : PinSet) : Fire :=
  { f with
    inhibit := f.inhibit &&& ~~~m
    failed := f.failed &&& ~~~m
    openCounts := Vector.ofFn (fun p : Fin 24 => if m.getLsbD p then 0 else f.openCounts[p]) }

/-- The set mask applied: onto the inhibit list (R11). -/
def Fire.setPins (f : Fire) (m : PinSet) : Fire := { f with inhibit := f.inhibit ||| m }

/-- PINH's own part: the clear mask, then the set mask (R11). -/
def doPinh (r : PinhReq) (s : State) : Answer :=
  let s' := { s with fire := (s.fire.clearPins r.clear).setPins r.set }
  (s', pinhReply .ok s')

/-- PINH (R11). -/
def execPinh (tag : Byte) (req : Wire PinhReq) (s : State) : Host.Outcome State Fault Refusal :=
  request (.pinh tag req) (onFields req doPinh) s

/-! ## ETAB (R113, R114) -/

/-- ETAB's own part (R113, R114). -/
def doEtab (o : Option EtabReq) (s : State) : Answer :=
  match o with
  | none => (s, etabReply .ok s)
  | some t =>
    let s' := { s with fire := { s.fire with pendingTable := some (tableOf t) } }
    (s', etabReply (if tableClamped t then .okClamped else .ok) s')

/-- ETAB (R113, R114). -/
def execEtab (tag : Byte) (req : Wire (Option EtabReq)) (s : State) : Host.Outcome State Fault Refusal :=
  request (.etab tag req) (onFields req doEtab) s

/-! ## FIRE_GROUP_TAKEN (R91, R101 to R105) -/

/-- The pin's pulse state set to DRIVING or IDLE. -/
def Fire.drive (f : Fire) (p : Fin 24) (on : Bool) : Fire :=
  { f with driving := if on then f.driving ||| BitVec.twoPow 24 p else f.driving &&& ~~~BitVec.twoPow 24 p }

/-- A pulse starts: the pin drives, heat and a strike are reported (R103, R104). -/
def startPulse (w : Nat) (p : Fin 24) (s : State) : State :=
  countStrike p (addHeat (w / 16) { s with fire := s.fire.drive p true })

/-- One dot of a group: fired, or dropped when its pin is inhibited or still driving (R101, R102, R105). -/
def fireDot (w : Nat) (s : State) (row : Fin 24) : State :=
  let p := s.fire.pinMap[row].pin
  if s.fire.inhibit.getLsbD p || s.fire.driving.getLsbD p then count .droppedDots 1 s else startPulse w p s

/-- A group taken at its fire position: each of its dots, then the next group due (R91, R101). All the group's heat
reports fall in this one step, with no cooling tick between them (R117, log 32). -/
def takeGroup (g : DueGroup) (slot : Slot) (plan : Plan) (r : PassRec) (s : State) : State :=
  setDue (some g.column)
    ((groupRows s slot plan.shingle r g.column).foldl (fireDot plan.width) (reach g.firePos s))

/-- FIRE_GROUP_TAKEN: in READY and CRUISE, the due group's position is reached (R91, R94, R101). -/
def execFireGroupTaken : State → Host.Outcome State Fault Refusal :=
  acting fun s => match s.fire.due, working s with
    | some g, some w =>
      if s.engine.state = .ready ∧ s.carriage.phase = .cruise ∧ legClear s = true then
        takeGroup g w.1 w.2.1 w.2.2 s
      else s
    | _, _ => s

/-! ## PULSE_END (R106, R107) -/

/-- The consecutive-open count after a sense result (R106). -/
def senseCount (n : Nat) (isOpen : Bool) : Nat := if isOpen then min Config.openMax (n + 1) else 0

/-- Whether an OPEN result inhibits the pin: OPENLIM in 1..32 and the count at or above it (R107). -/
def inhibitsAt (openlim n : Nat) : Bool :=
  decide (1 ≤ openlim) && decide (openlim ≤ 32) && decide (openlim ≤ n)

/-- The Fire Unit's record with a pin automatically inhibited (R107). -/
def Fire.condemn (f : Fire) (p : Fin 24) : Fire :=
  { f with inhibit := f.inhibit ||| BitVec.twoPow 24 p, failed := f.failed ||| BitVec.twoPow 24 p }

/-- The sense result of a pin applied (R106, R107). DESIGN CHOICE (log 36): with OPENLIM 1 the first OPEN result after a
clearing PINH inhibits the pin, as R8 and R107 say; R13 says of such a result that it does not. -/
def applySense (p : Fin 24) (isOpen : Bool) (s : State) : State :=
  let n := senseCount s.fire.openCounts[p] isOpen
  let s1 := { s with fire := { s.fire with openCounts := s.fire.openCounts.set p n } }
  if isOpen && inhibitsAt (paramNat s .openlim) n then raise .pinFailed { s1 with fire := s1.fire.condemn p }
  else s1

/-- What an ERST at rest has left of the Fire Unit's clearing to the last pulse: with no entry ACTIVE and no ERST
waiting, the plan-time inhibit set is empty when no pin drives (R99, R110). -/
def settlePulses (s : State) : State :=
  if !hasActive s && !s.engine.resetPending && decide (s.fire.driving = 0#24) then
    { s with fire := { s.fire with planInhibit := 0#24 } }
  else s

/-- PULSE_END: a driving pin is released and its sense result applied (R103, R106, R107, R110). -/
def execPulseEnd (p : Fin 24) (isOpen : Bool) : State → Host.Outcome State Fault Refusal :=
  acting fun s =>
    if s.fire.driving.getLsbD p then
      applySense p isOpen (settlePulses { s with fire := s.fire.drive p false })
    else s

end Sys2Proof.Machine
end

