-- ==== Sys2Proof/Machine/ImageStore.lean ====
section
/-! DEFINITION. The Image Store's requests OPEN, DATA, SEAL and DROP (R17 to R22). -/

namespace Sys2Proof.Machine

/-- A slot request: a slot outside 0..7 is refused BAD_VALUE with the result alone, before any other check; otherwise
the reply carries the slot as it stands after the request (R17). -/
def slotAnswer (b : Byte) (h : Fin 8 → State → State × Result) (s : State) : Answer :=
  match slotOf b with
  | none => bare .badValue s
  | some i => ((h i s).1, slotReply (h i s).2 i (h i s).1)

/-- OPEN's own part (R18). -/
def openSlot (left length : Nat) (i : Fin 8) (s : State) : State × Result :=
  if s.slots[i].state ≠ .free then (s, .slotState)
  else if left ≤ 3263 ∧ 1 ≤ length ∧ left + length ≤ Config.lineColumns then
    (setSlot i ⟨.filling, left, length, []⟩ s, .ok)
  else (s, .badValue)

/-- OPEN (R17, R18). -/
def execSlotOpen (tag : Byte) (req : Wire OpenReq) (s : State) : Host.Outcome State Fault Refusal :=
  request (.slotOpen tag req)
    (onFields req (fun r => slotAnswer r.slot (openSlot r.left.toNat r.length.toNat))) s

/-- A slot with more columns supplied (R20). -/
def Slot.append (x : Slot) (cols : List Column) : Slot := { x with cols := x.cols ++ cols }

/-- DATA's own part: the four checks in order, then the runs whole (R19, R20). -/
def storeData (start : Nat) (bytes : List Byte) (i : Fin 8) (s : State) : State × Result :=
  match runsOf bytes with
  | none => (s, .badLength)
  | some runs =>
    if s.slots[i].state ≠ .filling then (s, .slotState)
    else if start ≠ s.slots[i].cols.length then (s, .outOfSequence)
    else if runs.all (fun r => !r.isEmpty) ∧ s.slots[i].cols.length + runs.flatten.length ≤ s.slots[i].length then
      (setSlot i (s.slots[i].append runs.flatten) s, .ok)
    else (s, .badValue)

/-- DATA (R17, R19, R20). -/
def execSlotData (tag : Byte) (req : Wire DataReq) (s : State) : Host.Outcome State Fault Refusal :=
  request (.slotData tag req) (onFields req (fun r => slotAnswer r.slot (storeData r.start.toNat r.runs))) s

/-- SEAL's own part (R21). -/
def sealSlot (i : Fin 8) (s : State) : State × Result :=
  if s.slots[i].state = .filling then (moveSlot i .sealed s, .ok) else (s, .slotState)

/-- SEAL (R17, R21). -/
def execSlotSeal (tag : Byte) (req : Wire Byte) (s : State) : Host.Outcome State Fault Refusal :=
  request (.slotSeal tag req) (onFields req (fun b => slotAnswer b sealSlot)) s

/-- DROP's own part (R22). -/
def dropSlot (i : Fin 8) (s : State) : State × Result :=
  match s.slots[i].state with
  | .free => (s, .ok)
  | .filling | .sealed => (setSlot i freeSlot s, .ok)
  | .bound | .printing => (s, .slotState)

/-- DROP (R17, R22). -/
def execSlotDrop (tag : Byte) (req : Wire Byte) (s : State) : Host.Outcome State Fault Refusal :=
  request (.slotDrop tag req) (onFields req (fun b => slotAnswer b dropSlot)) s

end Sys2Proof.Machine
end

