-- ==== Sys2Proof/Machine/LinkUnit.lean ====
section
/-! DEFINITION. Reset, the receiver and transmitter, and the Link Unit's own requests (R177 to R189). -/

namespace Sys2Proof.Machine

/-! ## Power-on and the RESET line -/

/-- POWER_ON: every record at its reset value, the strap read, the lines as they stand; a level already asserted arises
then and trips the part in UNREADY (R154, R163, R177). -/
def execPowerOn (strap : LinkRate) (s : State) : Host.Outcome State Fault Refusal :=
  let s' := State.powerOnState strap s.lines s.freeCount s.pending
  .next (ariseLevels s.lines.headHot s.lines.driverFault s')

/-- RESET_LINE: as POWER_ON (R154, R163, R177). -/
def execResetLine (strap : LinkRate) (s : State) : Host.Outcome State Fault Refusal :=
  let s' := State.powerOnState strap s.lines s.freeCount s.pending
  .next (ariseLevels s.lines.headHot s.lines.driverFault s')

/-! ## The receiver -/

/-- FRAME_RECEIVED: the bytes on the line, taken one by one (R177 to R180); a frame whose CRC matches waits to be
decoded. -/
def execFrameReceived (bytes : List LineByte) : State → Host.Outcome State Fault Refusal :=
  acting (rxBytes bytes)

/-- BYTE_GAP_TIMEOUT: a gap in FRAME rejects the frame, a gap in SKIP ends the passing over (R179, R180). -/
def execByteGapTimeout : State → Host.Outcome State Fault Refusal :=
  acting fun s => match s.link.mode with
    | .hunt => s
    | .frame _ => rejectFrame s
    | .skip _ _ => setMode .hunt s

/-- RECEIVE_OVERRUN: a start byte in HUNT with both receive places occupied (R180). -/
def execReceiveOverrun : State → Host.Outcome State Fault Refusal :=
  acting fun s =>
    if s.link.mode = .hunt ∧ Config.receivePlaces ≤ s.link.received.length then
      setMode (.skip [] 0) (overrun s)
    else s

/-- DISCARDED_FRAME_PASSED_OVER: SKIP returns to HUNT (R180). -/
def execDiscardedFramePassedOver : State → Host.Outcome State Fault Refusal :=
  acting fun s => match s.link.mode with
    | .hunt => s
    | .frame _ => s
    | .skip _ _ => setMode .hunt s

/-- UNKNOWN_KIND: a decoded frame of a KIND the controller does not define is answered UNKNOWN_KIND alone and changes
nothing else (R182, R195). -/
def execUnknownKind (kind tag : Byte) (payload : List Byte) (s : State) : Host.Outcome State Fault Refusal :=
  if (RequestKind.ofCode kind).isSome then acting id s
  else request (.unknownKind kind tag payload) (bare .unknownKind) s

/-! ## The transmitter (R183, R187) -/

/-- REPLY_SENT: the reply that is being sent has been sent whole and its place is free; no reply ends while a notice is
being sent (R183, log 18). -/
def execReplySent : State → Host.Outcome State Fault Refusal :=
  acting fun s => match s.link.tx, s.link.replies with
    | .reply, r :: rest => { s with link := { s.link with replies := rest, tx := .free }, txLine := lineBytes r }
    | _, _ => s

/-- The notice: KIND 0x7F, TAG 0, the event set as it stood at its first byte (R187). -/
def noticeFrame (e : EventSet) : Frame := ⟨0x7F#8, 0#8, eventBytes e⟩

/-- NOTICE_SENT: the notice that is being sent has been sent whole; the outstanding flag stays set (R183, R187,
log 18). -/
def execNoticeSent : State → Host.Outcome State Fault Refusal :=
  acting fun s => match s.link.tx with
    | .notice e => { s with link := { s.link with tx := .free }, txLine := lineBytes (noticeFrame e) }
    | .free | .reply => s

/-! ## STAT, EVNT and EMSK (R186, R188, R189) -/

/-- STAT's own part: nothing changes (R189). -/
def doStat (s : State) : Answer := (s, statReply s)

/-- STAT (R189). -/
def execStat (tag : Byte) (req : Wire Unit) (s : State) : Host.Outcome State Fault Refusal :=
  request (.stat tag req) (onFields req (fun _ => doStat)) s

/-- EVNT's own part: the set is answered and emptied, the flag cleared, a notice that waits in its slot withdrawn; one
that has been begun has left the slot and is completed (R188). -/
def doEvnt (s : State) : Answer :=
  ({ s with link := { s.link with events := 0#13, outstanding := false, notice := false } },
    Result.ok.code :: eventBytes s.link.events)

/-- EVNT (R188). -/
def execEvnt (tag : Byte) (req : Wire Unit) (s : State) : Host.Outcome State Fault Refusal :=
  request (.evnt tag req) (onFields req (fun _ => doEvnt)) s

/-- An accepted EMSK replaces the mask and makes the notice test (R186, R187). -/
def setMask (m : EventSet) (s : State) : State := { s with link := noticeTest { s.link with mask := m } }

/-- EMSK's own part (R186). -/
def doEmsk (m : Option (BitVec 16)) (s : State) : Answer :=
  match m with
  | none => (s, emskReply .ok s)
  | some w =>
    if w &&& 0xE000#16 = 0#16 then (setMask (w.setWidth 13) s, emskReply .ok (setMask (w.setWidth 13) s))
    else (s, emskReply .badValue s)

/-- EMSK (R186). -/
def execEmsk (tag : Byte) (req : Wire (Option (BitVec 16))) (s : State) : Host.Outcome State Fault Refusal :=
  request (.emsk tag req) (onFields req doEmsk) s

/-! ## SETP and GETP (R184, R185) -/

/-- SETP's second check: an idle-only parameter with a LINE entry ACTIVE, the engine HOMING or the carriage moving, and
PATH while loaded (R184). -/
def setpBlocked (id : ParamId) (s : State) : Bool :=
  idleOnly id &&
    (lineActive s || decide (s.engine.state = .homing) || carriageMoving s || (decide (id = .path) && loaded s))

/-- Whether RESUME < WARMTH < HOTTH < CEILING holds (R125). -/
def chainHolds (s : State) : Bool :=
  decide (param s .resume < param s .warmth) && decide (param s .warmth < param s .hotth) &&
    decide (param s .hotth < param s .ceiling)

/-- Whether a value lies in a parameter's range. -/
def inRange (id : ParamId) (v : Int) : Bool := decide (paramLow id ≤ v) && decide (v ≤ paramHigh id)

/-- SETP's third check: the value that is set and the result, or none when the value is refused BAD_VALUE (R184). -/
def judgeValue (id : ParamId) (v : Int) (s : State) : Option (Int × Result) :=
  match paramClass id with
  | .tune => if inRange id v then some (v, .ok) else some (clampInt (paramLow id) (paramHigh id) v, .okClamped)
  | .geom => if inRange id v then some (v, .ok) else none
  | .order => if inRange id v && chainHolds (setParam s id v) then some (v, .ok) else none

/-- The band judged anew (R119). -/
def judgeBand (s : State) : State :=
  { s with heat := { s.heat with band := bandOf (paramNat s .warmth) s.heat.h } }

/-- The hot latch judged anew (R120). -/
def judgeLatch (s : State) : State :=
  { s with heat := { s.heat with latch := latchOf (paramNat s .hotth) (paramNat s .resume) s.heat.h s.heat.latch } }

/-- What an accepted SETP acts on at once (R119, R120, R122, R161). -/
def afterSetp (id : ParamId) (s : State) : State :=
  match id with
  | .warmth => judgeBand s
  | .hotth => retest (judgeLatch s)
  | .resume => retest (judgeLatch s)
  | .ceiling => retest s
  | .wakeins => wakeIfDue s
  | .cruise0 | .cruise1 | .cruise2 | .cruise3 | .accel | .slew | .flight | .rtrim0 | .rtrim1 | .rtrim2 | .rtrim3
  | .fdepth | .climit | .sliplim | .recovery | .openlim | .coolshift | .path | .loaddist | .enddist | .jamlim
  | .preload | .feedrate | .revlim | .holddly | .warmup | .tripmask => s

/-- SETP's own part (R184). -/
def doSetp (r : SetpReq) (s : State) : Answer :=
  match paramOfId r.id with
  | none => (s, paramReply .badValue r.id 0)
  | some id =>
    if setpBlocked id s then (s, paramReply .wrongState r.id (param s id))
    else match judgeValue id r.value.toInt s with
      | some (v, res) => (afterSetp id (setParam s id v), paramReply res r.id v)
      | none => (s, paramReply .badValue r.id (param s id))

/-- SETP (R184). -/
def execSetp (tag : Byte) (req : Wire SetpReq) (s : State) : Host.Outcome State Fault Refusal :=
  request (.setp tag req) (onFields req doSetp) s

/-- GETP's own part (R185). -/
def doGetp (b : Byte) (s : State) : Answer :=
  match paramOfId b with
  | some id => (s, paramReply .ok b (param s id))
  | none => (s, paramReply .badValue b 0)

/-- GETP (R185). -/
def execGetp (tag : Byte) (req : Wire Byte) (s : State) : Host.Outcome State Fault Refusal :=
  request (.getp tag req) (onFields req doGetp) s

end Sys2Proof.Machine
end

