-- ==== Sys2Proof/Machine/PrintQueue.lean ====
section
/-! DEFINITION. The Print Queue's requests and the start of work (chapter 3). -/

namespace Sys2Proof.Machine

/-! ## Enqueue requests (R33 to R35) -/

/-- An accepted enqueue request appends a QUEUED entry; in REST it may be a wake condition (R32, R35). -/
def enqueue (tag : Byte) (k : EntryKind) (s : State) : State :=
  wakeIfDue { s with queue := s.queue ++ [⟨tag, k, false⟩] }

/-- The checks and the effect of an enqueue request whose fields are valid (R33, R34). -/
def tryEnqueue (tag : Byte) (k : EntryKind) (s : State) : State × Result :=
  if Config.queueMax ≤ s.queue.length then (s, .queueFull)
  else match k with
    | .line f =>
      if s.slots[f.slot].state = .sealed then (enqueue tag k (moveSlot f.slot .bound s), .ok)
      else (s, .slotState)
    | .feed _ | .skip _ | .tear => (enqueue tag k s, .ok)

/-- The answer to an enqueue request: the fields' check first (R33, R34). -/
def enqueueAnswer (tag : Byte) (k : Option EntryKind) (s : State) : Answer :=
  match k with
  | none => (s, queueReply .badValue s)
  | some k => ((tryEnqueue tag k s).1, queueReply (tryEnqueue tag k s).2 (tryEnqueue tag k s).1)

/-- LINE (R33, R35). -/
def execLine (tag : Byte) (req : Wire LineReq) (s : State) : Host.Outcome State Fault Refusal :=
  request (.line tag req) (onFields req (fun r => enqueueAnswer tag ((lineFieldsOf r).map .line))) s

/-- FEED (R34, R35). -/
def execFeed (tag : Byte) (req : Wire (BitVec 16)) (s : State) : Host.Outcome State Fault Refusal :=
  request (.feed tag req) (onFields req (fun w => enqueueAnswer tag ((feedOf w).map .feed))) s

/-- SKIP (R34, R35). -/
def execSkip (tag : Byte) (req : Wire Byte) (s : State) : Host.Outcome State Fault Refusal :=
  request (.skip tag req) (onFields req (fun b => enqueueAnswer tag ((channelOf b).map .skip))) s

/-- TEAR (R34, R35). -/
def execTear (tag : Byte) (req : Wire Unit) (s : State) : Host.Outcome State Fault Refusal :=
  request (.tear tag req) (onFields req (fun _ => enqueueAnswer tag (some .tear))) s

/-! ## HALT (R46 to R48) -/

/-- HALT in LINE mode (R46, log 15). -/
def haltInLine (s : State) : State :=
  if !hasActive s || held s then addHalted s
  else if s.exec.pendingHalt = some .pass then s
  else { s with exec := { s.exec with pendingHalt := some .line } }

/-- HALT_LINE, with the HALT frames no row names: an undefined mode and a wrong length (R46, log 20). -/
def execHaltLine (tag : Byte) (req : HaltForm) (s : State) : Host.Outcome State Fault Refusal :=
  request (.haltLine tag req)
    (match req with
      | .lineMode => fun s => (haltInLine s, [Result.ok.code])
      | .undefinedMode _ => bare .badValue
      | .wrongLength _ => bare .badLength) s

/-- Where a line held between its steps continues: PLAN, PASS j or FEED_AFTER (R47). -/
def lineResume (s : State) : Resume :=
  match s.exec.plan with
  | none => .plan
  | some plan => if (passNow plan).isSome then .pass (passIndex plan) else .feedAfter

/-- The resume point of an entry held in PREPARE with no feed under way (R47). -/
def prepareResume (s : State) : Resume := if lineActive s then lineResume s else .motion

/-- HALT in PASS mode, by the executor state it finds (R47). -/
def haltInPass (s : State) : State :=
  if !hasActive s || held s then addHalted s
  else match s.exec.state with
    | .cool => holdAt (lineResume s) { s with heat := { s.heat with waiting := none } }
    | .prepare =>
      if feeding s then { s with exec := { s.exec with pendingHalt := some .pass } }
      else holdAt (prepareResume s) s
    | .idle | .position | .pass | .advance => { s with exec := { s.exec with pendingHalt := some .pass } }

/-- HALT_PASS (R47). -/
def execHaltPass (tag : Byte) (s : State) : Host.Outcome State Fault Refusal :=
  request (.haltPass tag) (fun s => (haltInPass s, [Result.ok.code])) s

/-- HALT in NOW mode: HALTED at once, any pending halt cleared; the ACTIVE entry fails at once, or when its motion has
come to a controlled stop (R48). A second one during the stop leaves the stop and the entry as they are. DESIGN CHOICE
(log 30): when a GO or another HALT came between them, the second adds HALTED anew and clears what was pended. -/
def haltAtOnce (s : State) : State :=
  let s1 := addHalted { s with exec := { s.exec with pendingHalt := none } }
  if !hasActive s then s1
  else if held s || !inMotion s then retire .failedHalted s1
  else controlledStop { s1 with exec := { s1.exec with failing := true } }

/-- HALT_NOW (R48). -/
def execHaltNow (tag : Byte) (s : State) : Host.Outcome State Fault Refusal :=
  request (.haltNow tag) (fun s => (haltAtOnce s, [Result.ok.code])) s

/-! ## GO, FLSH and CMPL (R44, R49, R50) -/

/-- GO's own part (R49). -/
def doGo (s : State) : Answer :=
  if s.engine.state = .tripped then bare .tripped s
  else
    let s1 := { s with holds := { s.holds with halted := false }, exec := { s.exec with pendingHalt := none } }
    (wakeIfDue (if s.holds.halted then resumeIfHeld s1 else s1), [Result.ok.code])

/-- GO (R49). -/
def execGo (tag : Byte) (req : Wire Unit) (s : State) : Host.Outcome State Fault Refusal :=
  request (.go tag req) (onFields req (fun _ => doGo)) s

/-- The slots after QUEUED entries have been removed: theirs move from BOUND to SEALED (R27). -/
def sealRemoved (slots : Vector Slot 8) : List Entry → Vector Slot 8
  | [] => slots
  | e :: rest => match e.kind with
    | .line f => sealRemoved (slots.set f.slot { slots[f.slot] with state := .sealed }) rest
    | .feed _ | .skip _ | .tear => sealRemoved slots rest

/-- FLSH's own part: every QUEUED entry leaves, the ACTIVE one stays (R50). -/
def doFlsh (s : State) : Answer :=
  let gone := s.queue.filter (fun e => !e.active)
  (raiseIf (decide (s.queue.length = Config.queueMax)) .queueRoom
      { s with queue := s.queue.filter (fun e => e.active), slots := sealRemoved s.slots gone },
    [Result.ok.code, byteOf gone.length])

/-- FLSH (R50). -/
def execFlsh (tag : Byte) (req : Wire Unit) (s : State) : Host.Outcome State Fault Refusal :=
  request (.flsh tag req) (onFields req (fun _ => doFlsh)) s

/-- CMPL's own part: the oldest records leave, as many as asked for and held (R44). -/
def doCmpl (n : Byte) (s : State) : Answer :=
  if 1 ≤ n.toNat ∧ n.toNat ≤ 8 then
    let taken := s.completions.take n.toNat
    ({ s with completions := s.completions.drop n.toNat },
      [Result.ok.code, byteOf taken.length] ++ taken.flatMap completionBytes)
  else (s, [Result.badValue.code, 0#8])

/-- CMPL (R44). -/
def execCmpl (tag : Byte) (req : Wire Byte) (s : State) : Host.Outcome State Fault Refusal :=
  request (.cmpl tag req) (onFields req doCmpl) s

/-! ## The start of work (R37 to R39) -/

/-- The conditions on which the executor starts work on a QUEUED entry (R37). -/
def mayStart (s : State) : Bool :=
  decide (s.exec.state = .idle) && !hasActive s && !s.queue.isEmpty && holdsEmpty s && readyOrHold s &&
    !s.engine.resetPending && decide (s.completions.length < Config.completionMax)

/-- The start checks on the oldest entry: a form loaded, and for a LINE in ENDING 48 steps left (R38). -/
def startChecks (k : EntryKind) (s : State) : Bool :=
  match s.paper.state with
  | .out => false
  | .loaded => true
  | .ending => match k with
    | .line _ => decide (Config.bandSteps ≤ s.paper.remaining)
    | .feed _ | .skip _ | .tear => true

/-- The slots after an entry becomes ACTIVE: a LINE's moves from BOUND to PRINTING (R24). -/
def printSlot (k : EntryKind) (slots : Vector Slot 8) : Vector Slot 8 :=
  match k with
  | .line f => slots.set f.slot { slots[f.slot] with state := .printing }
  | .feed _ | .skip _ | .tear => slots

/-- The oldest entry becomes ACTIVE and its work begins (R39 to R41). -/
def activate (e : Entry) (rest : List Entry) (s : State) : State :=
  prepare e.kind
    { s with
      queue := { e with active := true } :: rest
      slots := printSlot e.kind s.slots
      exec := { s.exec with state := .prepare, resume := none, plan := none } }

/-- The start of work on the oldest entry: activation, or the PAPER_OUT hold (R38, R39). -/
def startWork (s : State) : State :=
  match s.queue with
  | [] => s
  | e :: rest => if startChecks e.kind s then activate e rest s else addPaperOut s

/-- EXECUTOR_START: a held entry resumes, or the oldest entry is started, when R37's conditions hold (R37 to R39,
R49). -/
def execExecutorStart : State → Host.Outcome State Fault Refusal :=
  acting fun s =>
    if canResume s then resumeIfHeld s else if mayStart s then startWork s else s

end Sys2Proof.Machine
end

