-- ==== Sys2Proof/Machine/Dispatch.lean ====
section
/-! DEFINITION. One arm for each command: a direct call of its meaning. -/

namespace Sys2Proof.Machine

/-- The effect of a command on everything but the queue. -/
def exec (i : Instr) (s : State) : Host.Outcome State Fault Refusal :=
  match i with
  | .powerOn strap => Sys2Proof.Machine.execPowerOn strap s
  | .resetLine strap => Sys2Proof.Machine.execResetLine strap s
  | .frameReceived bytes => Sys2Proof.Machine.execFrameReceived bytes s
  | .byteGapTimeout => Sys2Proof.Machine.execByteGapTimeout s
  | .receiveOverrun => Sys2Proof.Machine.execReceiveOverrun s
  | .unknownKind kind tag payload => Sys2Proof.Machine.execUnknownKind kind tag payload s
  | .replySent => Sys2Proof.Machine.execReplySent s
  | .noticeSent => Sys2Proof.Machine.execNoticeSent s
  | .stat tag req => Sys2Proof.Machine.execStat tag req s
  | .evnt tag req => Sys2Proof.Machine.execEvnt tag req s
  | .emsk tag req => Sys2Proof.Machine.execEmsk tag req s
  | .setp tag req => Sys2Proof.Machine.execSetp tag req s
  | .getp tag req => Sys2Proof.Machine.execGetp tag req s
  | .cntrSnap tag req => Sys2Proof.Machine.execCntrSnap tag req s
  | .cntrRead tag group => Sys2Proof.Machine.execCntrRead tag group s
  | .cntrClear tag mask => Sys2Proof.Machine.execCntrClear tag mask s
  | .slotOpen tag req => Sys2Proof.Machine.execSlotOpen tag req s
  | .slotData tag req => Sys2Proof.Machine.execSlotData tag req s
  | .slotSeal tag req => Sys2Proof.Machine.execSlotSeal tag req s
  | .slotDrop tag req => Sys2Proof.Machine.execSlotDrop tag req s
  | .line tag req => Sys2Proof.Machine.execLine tag req s
  | .feed tag req => Sys2Proof.Machine.execFeed tag req s
  | .skip tag req => Sys2Proof.Machine.execSkip tag req s
  | .tear tag req => Sys2Proof.Machine.execTear tag req s
  | .haltLine tag req => Sys2Proof.Machine.execHaltLine tag req s
  | .haltPass tag => Sys2Proof.Machine.execHaltPass tag s
  | .haltNow tag => Sys2Proof.Machine.execHaltNow tag s
  | .go tag req => Sys2Proof.Machine.execGo tag req s
  | .flsh tag req => Sys2Proof.Machine.execFlsh tag req s
  | .cmpl tag req => Sys2Proof.Machine.execCmpl tag req s
  | .pmap tag req => Sys2Proof.Machine.execPmap tag req s
  | .pinh tag req => Sys2Proof.Machine.execPinh tag req s
  | .etab tag req => Sys2Proof.Machine.execEtab tag req s
  | .form tag req => Sys2Proof.Machine.execForm tag req s
  | .enga tag req => Sys2Proof.Machine.execEnga tag req s
  | .rest tag req => Sys2Proof.Machine.execRest tag req s
  | .wake tag req => Sys2Proof.Machine.execWake tag req s
  | .clrf tag req => Sys2Proof.Machine.execClrf tag req s
  | .erst tag req => Sys2Proof.Machine.execErst tag req s
  | .dout tag req => Sys2Proof.Machine.execDout tag req s
  | .tovl tag req => Sys2Proof.Machine.execTovl tag req s
  | .executorStart => Sys2Proof.Machine.execExecutorStart s
  | .repositionEnd => Sys2Proof.Machine.execRepositionEnd s
  | .cruiseStart => Sys2Proof.Machine.execCruiseStart s
  | .cruiseEnd => Sys2Proof.Machine.execCruiseEnd s
  | .passEnd => Sys2Proof.Machine.execPassEnd s
  | .fireGroupTaken => Sys2Proof.Machine.execFireGroupTaken s
  | .pulseEnd pin isOpen => Sys2Proof.Machine.execPulseEnd pin isOpen s
  | .markEdge dir travel => Sys2Proof.Machine.execMarkEdge dir travel s
  | .encoderLost => Sys2Proof.Machine.execEncoderLost s
  | .homeSensorActive => Sys2Proof.Machine.execHomeSensorActive s
  | .homeFail => Sys2Proof.Machine.execHomeFail s
  | .parkEnd => Sys2Proof.Machine.execParkEnd s
  | .feedStep => Sys2Proof.Machine.execFeedStep s
  | .paperEnd => Sys2Proof.Machine.execPaperEnd s
  | .paperJam => Sys2Proof.Machine.execPaperJam s
  | .ejectFail => Sys2Proof.Machine.execEjectFail s
  | .feedMoveEnd => Sys2Proof.Machine.execFeedMoveEnd s
  | .stopAtRest => Sys2Proof.Machine.execStopAtRest s
  | .paperMotionPulse => Sys2Proof.Machine.execPaperMotionPulse s
  | .paperSensorAbsent => Sys2Proof.Machine.execPaperSensorAbsent s
  | .paperSensorPresent => Sys2Proof.Machine.execPaperSensorPresent s
  | .headHotAsserted => Sys2Proof.Machine.execHeadHotAsserted s
  | .driverFaultAsserted => Sys2Proof.Machine.execDriverFaultAsserted s
  | .testTrip cause => Sys2Proof.Machine.execTestTrip cause s
  | .holdTimerExpiry => Sys2Proof.Machine.execHoldTimerExpiry s
  | .warmupExpiry => Sys2Proof.Machine.execWarmupExpiry s
  | .coolingTick => Sys2Proof.Machine.execCoolingTick s
  | .headHotQuiet => Sys2Proof.Machine.execHeadHotQuiet s
  | .driverFaultQuiet => Sys2Proof.Machine.execDriverFaultQuiet s
  | .homeSensorInactive => Sys2Proof.Machine.execHomeSensorInactive s
  | .discardedFramePassedOver => Sys2Proof.Machine.execDiscardedFramePassedOver s
  | .preloadComplete => Sys2Proof.Machine.execPreloadComplete s

end Sys2Proof.Machine
end

