-- ==== Sys2Proof/Machine/Step.lean ====
section
/-! DEFINITION. One step: the command at the front of the queue, or what the block does of itself. -/

namespace Sys2Proof.Machine

/-- One step: the oldest waiting command is taken off the queue and run; on an empty queue a free transmitter begins the
frame that waits for it, or else the oldest waiting frame is decoded if it may be, and otherwise time passes (log 3). -/
def step (s : State) : Host.Outcome State Fault Refusal :=
  match s.pending with
  | c :: rest => exec c { s with pending := rest }
  | [] =>
    if canSend s then .next (beginSending s)
    else match frameDue s with
      | some c => exec c s
      | none => .next (tick s)

/-- The state with the command that a word of the table's bits spells at the front of its queue; no row of the table
has bits, so no word spells one (log 28). -/
def State.withFetchWord (s : State) (nbits w : Nat) : State :=
  match decodeTableWord nbits w with
  | some c => { s with pending := c :: s.pending }
  | none => s

end Sys2Proof.Machine
end

