-- ==== Sys2Proof/Safety.lean ====
section
/-! DEFINITION. What counts as a sound state of the controller, and when a request can be decoded: the terms the
statements use. -/

namespace Sys2Proof.Machine

/-- A frame can be decoded now: a reply place is free and no older frame waits (R181). -/
def Decodable (f : Frame) (s : State) : Prop :=
  s.link.replies.length < 4 ∧ (s.link.received = [] ∨ s.link.received.head? = some f)

/-- The transmitter is not free, or no frame waits for it: what a command finds, since a free transmitter takes a frame
that waits before the command is taken (R183). -/
def Settled (s : State) : Prop := s.link.tx = .free → s.link.replies = [] ∧ s.link.notice = false

/-- A request can be decoded now: its frame can, and the transmitter has taken what waits for it (R181, R183). -/
def Ready (c : Instr) (s : State) : Prop := Settled s ∧ ∃ f, encodeFrame c = some f ∧ Decodable f s

/-- A decoded request's frame has left its receive place and its reply holds a reply place; everything else is as in
u (R181, R182). -/
def replied (kind tag : Byte) (payload : List Byte) (u : State) : State :=
  pushReply ⟨kind, tag, payload⟩ (dropOldest u)

/-- Every parameter lies in its range, and RESUME < WARMTH < HOTTH < CEILING (R125, R184, R196). -/
def ParamsInv (s : State) : Prop :=
  (∀ id, paramLow id ≤ param s id ∧ param s id ≤ paramHigh id) ∧
    param s .resume < param s .warmth ∧ param s .warmth < param s .hotth ∧ param s .hotth < param s .ceiling

/-- The heat record: H in range, the band what H gives, the latch set at HOTTH and clear at RESUME (R117, R119,
R120). -/
def HeatInv (s : State) : Prop :=
  s.heat.h ≤ 16777215 ∧
    s.heat.band = (if (s.heat.h : Int) < param s .warmth then .cool else .warm) ∧
    (param s .hotth ≤ (s.heat.h : Int) → s.heat.latch = true) ∧
    ((s.heat.h : Int) ≤ param s .resume → s.heat.latch = false)

/-- The head's tables: failed pins on the inhibit list, counts in range, the map one-to-one, widths in range (R3, R9,
R10, R112). -/
def HeadInv (s : State) : Prop :=
  s.fire.failed &&& ~~~s.fire.inhibit = 0#24 ∧
    (∀ p : Fin 24, s.fire.openCounts[p] ≤ 32) ∧
    (∀ r q : Fin 24, s.fire.pinMap[r].pin = s.fire.pinMap[q].pin → r = q) ∧
    (∀ i : Fin 6, 100 ≤ s.fire.table.cool[i] ∧ s.fire.table.cool[i] ≤ 600 ∧
      100 ≤ s.fire.table.warm[i] ∧ s.fire.table.warm[i] ≤ 600) ∧
    (∀ t, s.fire.pendingTable = some t → ∀ i : Fin 6, 100 ≤ t.cool[i] ∧ t.cool[i] ≤ 600 ∧
      100 ≤ t.warm[i] ∧ t.warm[i] ≤ 600)

/-- A bank whose counters do not exceed their maximums (R190). -/
def BankOk (b : Bank) : Prop :=
  (∀ c : General, b.general[c.index] ≤ 2 ^ c.bits - 1) ∧ (∀ p : Fin 24, b.strikes[p] ≤ 268435455)

/-- No counter exceeds its maximum, live or snapshot (R190). -/
def CountersInv (s : State) : Prop := BankOk s.counters.live ∧ BankOk s.counters.snapshot

/-- A form definition within the ranges of R129, as R130 checks them. -/
def FormOk (d : FormDef) : Prop :=
  360 ≤ d.length ∧ d.length ≤ 7920 ∧ 1 ≤ d.ply ∧ d.ply ≤ 6 ∧ d.tear ≤ 1440 ∧ d.tear ≤ d.length ∧
    d.skipTop ≤ 720 ∧ d.skipBottom ≤ 720 ∧ d.skipTop + d.skipBottom + 48 ≤ d.length ∧
    1 ≤ d.stops.length ∧ d.stops.length ≤ 24 ∧
    (∀ x, d.stops.head? = some x → x.position = 0 ∧ x.channels.getLsbD 1 = true) ∧
    d.stops.Pairwise (fun x y => x.position < y.position) ∧
    (∀ x ∈ d.stops, x.position < d.length ∧ x.channels ≠ 0#16 ∧ x.channels &&& 0xE001#16 = 0#16)

/-- The paper record: definitions in range, y below the form length and 0 with no form loaded, the remaining distance 0
outside ENDING, the unpulsed steps and the tear distance in range, a presentation under way included (R128, R129,
R147). -/
def PaperInv (s : State) : Prop :=
  FormOk s.paper.active ∧ (∀ d, s.paper.next = some d → FormOk d) ∧ s.paper.y < s.paper.active.length ∧
    (s.paper.state = .out → s.paper.y = 0) ∧ (s.paper.state ≠ .ending → s.paper.remaining = 0) ∧
    s.paper.remaining ≤ 2160 ∧ s.paper.unpulsed ≤ 240 ∧ s.paper.observedUnpulsed ≤ 240 ∧ s.paper.tearDistance ≤ 1440 ∧
    (∀ m, s.paper.move = some m → m.purpose = .present → s.paper.tearDistance + m.left ≤ 1440)

/-- The queue and the completion list: at most 16 entries, only the oldest may be ACTIVE, at most 32 records and at most
31 while an entry is ACTIVE (R32, R43). -/
def QueueInv (s : State) : Prop :=
  s.queue.length ≤ 16 ∧ (∀ e ∈ s.queue.tail, e.active = false) ∧ s.completions.length ≤ 32 ∧
    (hasActive s = true → s.completions.length ≤ 31)

/-- The Link Unit's places: at most four replies, at most two frames with the one arriving; a notice waits only with the
flag set, and a reply being sent holds its place (R177, R180, R181, R183, R187). -/
def LinkInv (s : State) : Prop :=
  s.link.replies.length ≤ 4 ∧ placesUsed s.link ≤ 2 ∧ (s.link.notice = true → s.link.outstanding = true) ∧
    (s.link.tx = .reply → s.link.replies ≠ [])

/-- The trip state: TRIPPED, the first-fault record and the fault lamp go together, and further causes are held in
TRIPPED alone (R154, R164 to R168, R171). -/
def TripInv (s : State) : Prop :=
  (s.engine.state = .tripped ↔ s.engine.firstFault.isSome = true) ∧
    (s.engine.state = .tripped ↔ s.engine.outputs.getLsbD 7 = true) ∧
    (s.engine.state ≠ .tripped → s.engine.further = 0#6)

/-- The deviation filters lie within ±4080 and the no-mark distances within 0..96 (R75, R88, R94, R174). -/
def CarriageInv (s : State) : Prop :=
  -4080 ≤ s.carriage.devForward ∧ s.carriage.devForward ≤ 4080 ∧
    -4080 ≤ s.carriage.devReverse ∧ s.carriage.devReverse ≤ 4080 ∧
    s.carriage.noMark ≤ 96 ∧ s.carriage.observedNoMark ≤ 96

/-- The LINE entries of a queue that name a slot. -/
def naming (i : Fin 8) (q : List Entry) : List Entry :=
  q.filter (fun e => match e.kind with
    | .line f => decide (f.slot = i)
    | .feed _ | .skip _ | .tear => false)

/-- A slot's image fits its extent, and a FREE slot holds none (R16). -/
def SlotOk (x : Slot) : Prop :=
  (x.state = .free → x = freeSlot) ∧
    (x.state ≠ .free → 1 ≤ x.length ∧ x.left + x.length ≤ 3264 ∧ x.cols.length ≤ x.length)

/-- Slots and queue entries: every slot in BOUND or PRINTING is named by exactly one LINE entry, a PRINTING one by the
ACTIVE entry and a BOUND one by a QUEUED entry, and no entry names another slot (R24). -/
def SlotsInv (s : State) : Prop :=
  ∀ i : Fin 8, SlotOk s.slots[i] ∧
    (match s.slots[i].state with
      | .bound => ∃ e, naming i s.queue = [e] ∧ e.active = false
      | .printing => ∃ e, naming i s.queue = [e] ∧ e.active = true
      | .free | .filling | .sealed => naming i s.queue = [])

/-- Whether the motion in progress is in a controlled stop (R96, R138). -/
def stopping (s : State) : Bool :=
  decide (s.carriage.phase = .stopping) || (s.paper.move.map (fun m => m.stopping)).getD false

/-- What a controlled stop requested in s leaves in t. A moving carriage keeps its direction, and its motion now ends at
a place no farther than the end point, than the travel made from rest, and than the distance to slow from the top speed
to 200 col/s at ACCEL, whose last tick may be left out; a stop in progress goes on (R96, R97, log 7). A feed move makes
at most one more step (R138, log 23). -/
def StopOf (s t : State) : Prop :=
  (s.carriage.phase = .stopping → t.carriage = s.carriage) ∧
    (∀ d p pf, s.carriage.phase ≠ .stopped → s.carriage.phase ≠ .stopping → s.carriage.direction = some d →
      s.carriage.position = some p → s.carriage.profile = some pf →
      ∃ k n : Nat, (k = 8 * (pf.top * pf.top - 40000) / pf.accel ∨
          (k = 8 * (pf.top * pf.top - 40000) / pf.accel + 1 ∧ 8 * (pf.top * pf.top - 40000) % pf.accel ≠ 0)) ∧
        n = min (p - pf.origin).natAbs (min (pf.target - p).natAbs k) ∧
        t.carriage = { s.carriage with
          phase := .stopping
          profile := some { pf with origin := p, target := p + dirSign d * (n : Int) } }) ∧
    (∀ m, s.carriage.phase = .stopped → s.paper.move = some m →
      (m.stopping = true → t.paper.move = some m) ∧
      (m.stopping = false → ∃ k : Nat, k ≤ 1 ∧ t.paper.move = some { m with stopping := true, left := k }))

/-- What is in motion, and in which engine state. -/
structure MotionInv (s : State) : Prop where
  /-- Outside HOMING and READY nothing moves: with the motor drivers off no motor turns, and HOLD stands still
  (R155). -/
  rest : s.engine.state ≠ .homing → s.engine.state ≠ .ready → inMotion s = false
  /-- The carriage and the paper do not move together (R137). -/
  apart : carriageMoving s = false ∨ feeding s = false
  /-- No pulse runs in RAMP_DOWN, which CRUISE enters when the last has ended, nor in TRIPPED, which cuts them off; a
  controlled stop may come to rest before its last pulse ends (R103, R109, R110). -/
  pulses : s.fire.driving ≠ 0#24 → s.carriage.phase ≠ .rampDown ∧ s.engine.state ≠ .tripped
  /-- The executor works on an ACTIVE entry, in READY or HOLD, with no ERST waiting (R36, R37). -/
  works : s.exec.state ≠ .idle → hasActive s = true ∧ readyOrHold s = true ∧ s.engine.resetPending = false
  /-- In READY, while the executor is IDLE or in COOL and no ERST waits, nothing moves (R36, R84). -/
  idleStill : s.engine.state = .ready → s.engine.resetPending = false →
    s.exec.state = .idle ∨ s.exec.state = .cool → inMotion s = false
  /-- A pass waits in COOL alone (R122, R123). -/
  waits : s.heat.waiting.isSome = true → s.exec.state = .cool
  /-- An ERST waits for a controlled stop, the executor IDLE (R168). -/
  resets : s.engine.resetPending = true → stopping s = true ∧ s.exec.state = .idle
  /-- While a hold stands, the executor works in a controlled stop alone (R45, R48). -/
  holds : s.exec.state ≠ .idle → holdsEmpty s = false → stopping s = true
  /-- An entry whose motion is in a controlled stop has failed with cause HALTED (R48). -/
  fails : s.exec.state ≠ .idle → stopping s = true → s.exec.failing = true
  /-- In PREPARE and ADVANCE the paper moves, not the carriage (R36, R137). -/
  advances : s.exec.state = .prepare ∨ s.exec.state = .advance → carriageMoving s = false
  /-- A load feed is made with the executor IDLE, every other move in PREPARE or ADVANCE, unless a controlled stop ends
  it (R137 to R150, R168). -/
  feeds : ∀ m, s.paper.move = some m → m.stopping = false →
    (match m.purpose with
      | .preload _ | .load => s.exec.state = .idle
      | .retract | .perfSkip | .feed _ | .skip | .present | .eject _ | .feedAfter =>
        s.exec.state = .prepare ∨ s.exec.state = .advance)
  /-- The seek and the park move are made in HOMING (R157). -/
  homes : s.carriage.phase = .seek ∨ s.carriage.phase = .park → s.engine.state = .homing

end Sys2Proof.Machine
end

