-- ==== Sys2Proof/Certificates/Slice0/Obligations.lean ====
section
/-! DEFINITION. The statements for the provers, from the numbered rules of spec/. -/

open Sys2Proof Sys2Proof.Machine

/-! ## The step -/

/-- A step runs the command at the front of the queue on the state with the queue's rest. -/
def Obligations.StepRunsFrontCommand : Prop :=
  ∀ (c : Instr) (rest : List Instr) (s : State), s.pending = c :: rest → step s = exec c { s with pending := rest }

/-- With no command waiting, a free transmitter begins the oldest reply, or with none waiting takes the notice out of
its slot with the event set as it stands (R183, R187); otherwise the oldest waiting frame is decoded when a reply place
is free (R181); otherwise a moving carriage travels one tick short of its next step (R76), and a standing one lets the
running timers count one millisecond (R158, R162). That the block does this of itself, in this order, is the model's
choice (log 3). -/
def Obligations.EmptyQueueDecodesOrPassesTime : Prop :=
  ∀ s : State, s.pending = [] →
    (s.link.tx = .free → s.link.replies ≠ [] → step s = .next { s with link := { s.link with tx := .reply } }) ∧
    (s.link.tx = .free → s.link.replies = [] → s.link.notice = true →
      step s = .next { s with link := { s.link with tx := .notice s.link.events, notice := false } }) ∧
    (s.link.tx ≠ .free ∨ (s.link.replies = [] ∧ s.link.notice = false) →
      (∀ f rest, s.link.replies.length < 4 → s.link.received = f :: rest → step s = exec (decodeFrame f) s) ∧
      (4 ≤ s.link.replies.length ∨ s.link.received = [] →
        (s.carriage.phase ≠ .stopped → 0 < room s → step s = .next (travel 1 s)) ∧
        (s.carriage.phase = .stopped ∨ room s = 0 →
          step s = .next { s with engine := { s.engine with
            holdTimer := s.engine.holdTimer.map (fun n => n - 1)
            warmTimer := s.engine.warmTimer.map (fun n => n - 1) } })))

/-! ## Frames and the receiver (R177 to R180) -/

/-- Decode and encode agree: every well-formed request is read back from its own frame, so that no bit of any field is
dropped, and every frame that fits the link stands for one well-formed request, whose frame it is (sections 11.2 to
11.12). -/
def Obligations.DecodeAndEncodeAgree : Prop :=
  (∀ (c : Instr) (f : Frame), WellFormed c = true → encodeFrame c = some f → decodeFrame f = c) ∧
  (∀ f : Frame, f.payload.length ≤ 1024 → WellFormed (decodeFrame f) = true ∧ encodeFrame (decodeFrame f) = some f)

/-- The bytes of a frame on the line, each with its stop bit, taken in HUNT: with a receive place free the frame waits
and nothing else changes; with both places occupied it is passed over whole and counted as an overrun, with LINK_ERROR
raised (R178, R180). A frame with a wrong CRC, a LEN outside 2..1026, or a byte without its stop bit is dropped,
counted, and raises LINK_ERROR, and the receiver is back in HUNT (R178, R179). -/
def Obligations.FramesAreReceivedOrRejected : Prop :=
  (∀ (f : Frame) (s : State), Settled s → s.link.mode = .hunt → s.link.received.length < 2 →
     f.payload.length ≤ 1024 →
     exec (.frameReceived ((lineBytes f).map (fun b => ⟨b, true⟩))) s =
       .next { s with link := { s.link with received := s.link.received ++ [f] } }) ∧
  (∀ (f : Frame) (s : State), Settled s → s.link.mode = .hunt → 2 ≤ s.link.received.length →
     f.payload.length ≤ 1024 →
     exec (.frameReceived ((lineBytes f).map (fun b => ⟨b, true⟩))) s =
       .next (raise .linkError (count .receiveOverruns 1 s))) ∧
  (∀ s : State, Settled s → s.link.mode = .hunt → s.link.received.length < 2 →
     (∀ (f : Frame) (crc : BitVec 16), f.payload.length ≤ 1024 → crc ≠ crc16 (coveredBytes f) →
       exec (.frameReceived ((startByte :: (coveredBytes f ++ le16 crc)).map (fun b => ⟨b, true⟩))) s =
         .next (raise .linkError (count .framesRejected 1 s))) ∧
     (∀ len : BitVec 16, len.toNat < 2 ∨ 1026 < len.toNat →
       exec (.frameReceived ((startByte :: le16 len).map (fun b => ⟨b, true⟩))) s =
         .next (raise .linkError (count .framesRejected 1 s))) ∧
     (∀ (f : Frame) (n : Nat) (b : Byte), f.payload.length ≤ 1024 → 1 ≤ n → n < (lineBytes f).length →
       exec (.frameReceived (((lineBytes f).take n).map (fun b => ⟨b, true⟩) ++ [⟨b, false⟩])) s =
         .next (raise .linkError (count .framesRejected 1 s))))

/-- The receiver's other events act by its mode (R179, R180): a gap rejects a frame in FRAME and ends the passing over
in SKIP; a start byte with no place enters SKIP; a discarded frame passed over returns to HUNT; in another mode these
events change nothing (log 4). A free transmitter takes the oldest reply, or with none waiting the notice with the event
set as it stands, before any command is taken; this is what Settled says of the state that a command finds, and no
command but a reset takes a frame from the transmitter before its end. A reply's end frees its place; a notice that was
begun is completed with the event set of its first byte, its flag standing, and a reply waits for its end (R183, R187);
that these commands mark the end of a whole frame is the model's choice (log 18), and with nothing being sent they
change nothing (log 4). -/
def Obligations.LinkEventsActByMode : Prop :=
  (∀ s : State, Settled s →
     exec .byteGapTimeout s = .next (match s.link.mode with
       | .hunt => s
       | .frame _ => raise .linkError (count .framesRejected 1 { s with link := { s.link with mode := .hunt } })
       | .skip _ _ => { s with link := { s.link with mode := .hunt } }) ∧
     (s.link.mode = .hunt → 2 ≤ s.link.received.length →
       exec .receiveOverrun s = .next (raise .linkError (count .receiveOverruns 1
         { s with link := { s.link with mode := .skip [] 0 } }))) ∧
     (s.link.mode ≠ .hunt ∨ s.link.received.length < 2 → exec .receiveOverrun s = .next s) ∧
     exec .discardedFramePassedOver s = .next (match s.link.mode with
       | .hunt => s
       | .frame _ => s
       | .skip _ _ => { s with link := { s.link with mode := .hunt } })) ∧
  (∀ (c : Instr) (s u : State),
     u = (if s.link.tx ≠ .free then s
       else if s.link.replies ≠ [] then { s with link := { s.link with tx := .reply } }
       else if s.link.notice = true then { s with link := { s.link with tx := .notice s.link.events, notice := false } }
       else s) →
     Settled u ∧ (Settled s → u = s) ∧ exec c s = exec c u) ∧
  (∀ s : State,
     (∀ r rest, s.link.tx = .reply → s.link.replies = r :: rest →
       exec .replySent s =
         .next { s with link := { s.link with replies := rest, tx := .free }, txLine := lineBytes r }) ∧
     (Settled s → s.link.tx ≠ .reply ∨ s.link.replies = [] → exec .replySent s = .next s) ∧
     (∀ e, s.link.tx = .notice e →
       exec .noticeSent s = .next
         { s with
           link := { s.link with tx := .free }
           txLine := lineBytes ⟨0x7F#8, 0#8, le16 (e.setWidth 16)⟩ }) ∧
     (Settled s → (∀ e, s.link.tx ≠ .notice e) → exec .noticeSent s = .next s)) ∧
  (∀ (c : Instr) (s t : State), exec c s = .next t → Settled s → s.link.tx ≠ .free →
     c ≠ .replySent → c ≠ .noticeSent → (∀ r, c ≠ .powerOn r) → (∀ r, c ≠ .resetLine r) → t.link.tx = s.link.tx)

/-! ## The transmitter, events and counters (R183, R186, R187, R190, R191) -/

/-- Raising an event sets its flag and puts one notice in the slot when an enabled event is set and no notice is
outstanding (R186, R187). Adding to a counter stops at its maximum, leaves the other counters and the snapshot, and sets
the half flag and raises COUNTER_HALF on the addition that first reaches half; the 24 strike counters do the same at
their width of 28 bits (R190, R191). -/
def Obligations.EventsAndCountersSignalOnce : Prop :=
  (∀ (e : Event) (s : State),
     (∀ n : Fin 13, (raise e s).link.events.getLsbD n =
       (s.link.events.getLsbD n || decide (n.val = e.number))) ∧
     (s.link.outstanding = false →
       ((∃ n : Fin 13, (raise e s).link.events.getLsbD n = true ∧ s.link.mask.getLsbD n = true) →
         (raise e s).link.notice = true ∧ (raise e s).link.outstanding = true) ∧
       ((∀ n : Fin 13, (raise e s).link.events.getLsbD n = true → s.link.mask.getLsbD n = false) →
         (raise e s).link.notice = s.link.notice ∧ (raise e s).link.outstanding = false)) ∧
     (s.link.outstanding = true →
       (raise e s).link.notice = s.link.notice ∧ (raise e s).link.outstanding = true) ∧
     { raise e s with link := { (raise e s).link with
         events := s.link.events, notice := s.link.notice, outstanding := s.link.outstanding } } = s) ∧
  (∀ (g : General) (k : Nat) (s : State),
     (count g k s).counters.live.general[g.index] =
       min (s.counters.live.general[g.index] + k) (2 ^ g.bits - 1) ∧
     (∀ g' : General, g' ≠ g →
       (count g k s).counters.live.general[g'.index] = s.counters.live.general[g'.index] ∧
       (count g k s).counters.live.generalHalf.getLsbD g'.index = s.counters.live.generalHalf.getLsbD g'.index) ∧
     (count g k s).counters.live.strikes = s.counters.live.strikes ∧
     (count g k s).counters.live.strikesHalf = s.counters.live.strikesHalf ∧
     (count g k s).counters.snapshot = s.counters.snapshot ∧
     (s.counters.live.general[g.index] < 2 ^ (g.bits - 1) → 2 ^ (g.bits - 1) ≤ s.counters.live.general[g.index] + k →
       (count g k s).counters.live.generalHalf.getLsbD g.index = true ∧
       (s.counters.live.generalHalf.getLsbD g.index = false → (count g k s).link = s.link.raise .counterHalf) ∧
       (s.counters.live.generalHalf.getLsbD g.index = true → (count g k s).link = s.link)) ∧
     (2 ^ (g.bits - 1) ≤ s.counters.live.general[g.index] ∨ s.counters.live.general[g.index] + k < 2 ^ (g.bits - 1) →
       (count g k s).counters.live.generalHalf = s.counters.live.generalHalf ∧ (count g k s).link = s.link) ∧
     { count g k s with counters := s.counters, link := s.link } = s) ∧
  (∀ (p : Fin 24) (s : State),
     (countStrike p s).counters.live.strikes[p] = min (s.counters.live.strikes[p] + 1) 268435455 ∧
     (∀ q : Fin 24, q ≠ p →
       (countStrike p s).counters.live.strikes[q] = s.counters.live.strikes[q] ∧
       (countStrike p s).counters.live.strikesHalf.getLsbD q = s.counters.live.strikesHalf.getLsbD q) ∧
     (countStrike p s).counters.live.general = s.counters.live.general ∧
     (countStrike p s).counters.live.generalHalf = s.counters.live.generalHalf ∧
     (countStrike p s).counters.snapshot = s.counters.snapshot ∧
     (s.counters.live.strikes[p] = 134217727 →
       (countStrike p s).counters.live.strikesHalf.getLsbD p = true ∧
       (s.counters.live.strikesHalf.getLsbD p = false → (countStrike p s).link = s.link.raise .counterHalf) ∧
       (s.counters.live.strikesHalf.getLsbD p = true → (countStrike p s).link = s.link)) ∧
     (s.counters.live.strikes[p] ≠ 134217727 →
       (countStrike p s).counters.live.strikesHalf = s.counters.live.strikesHalf ∧
       (countStrike p s).link = s.link) ∧
     { countStrike p s with counters := s.counters, link := s.link } = s)

/-! ## Requests (R180 to R182, R195) -/

/-- A request that cannot be decoded yet keeps the receive place it has, or takes a free one, or is discarded as an
overrun with LINK_ERROR raised (R180, R181). That a request row stands for its frame is the model's choice (log 2, log
19). A payload of a length its kind does not allow is answered BAD_LENGTH alone, and a KIND that is not defined
UNKNOWN_KIND alone (R182, R194, R195); a CNTR frame of an undefined operation is answered BAD_VALUE alone, and a READ
of an undefined group BAD_VALUE and the group (R192), the forms of these two replies being the model's choice (log 33,
log 34). None of these changes anything else. -/
def Obligations.RequestsWaitOrAreRefusedByTheLink : Prop :=
  (∀ (c : Instr) (f : Frame) (s : State), WellFormed c = true → encodeFrame c = some f → Settled s →
     ¬ Decodable f s →
     exec c s = .next
       (if 4 ≤ s.link.replies.length ∧ s.link.received.head? = some f then s
        else if placesUsed s.link < 2 then { s with link := { s.link with received := s.link.received ++ [f] } }
        else raise .linkError (count .receiveOverruns 1 s))) ∧
  (∀ (f : Frame) (k : RequestKind) (s : State), RequestKind.ofCode f.kind = some k →
     lengthAllowed k f.payload = false → Settled s → Decodable f s →
     exec (decodeFrame f) s = .next (replied (f.kind + 0x80#8) f.tag [0x11#8] s)) ∧
  (∀ (kind tag : Byte) (p : List Byte) (s : State), RequestKind.ofCode kind = none → Settled s →
     Decodable ⟨kind, tag, p⟩ s →
     exec (.unknownKind kind tag p) s = .next (replied (kind + 0x80#8) tag [0x10#8] s)) ∧
  (∀ (tag op arg : Byte) (s : State), 2 < op.toNat → Ready (.cntrSnap tag (.undefinedOp op arg)) s →
     exec (.cntrSnap tag (.undefinedOp op arg)) s = .next (replied 0x86#8 tag [0x12#8] s)) ∧
  (∀ (tag g : Byte) (s : State), 1 < g.toNat → Ready (.cntrRead tag g) s →
     exec (.cntrRead tag g) s = .next (replied 0x86#8 tag [0x12#8, g] s))

/-- Every request that can be decoded is answered once: its frame leaves its receive place, one reply with its KIND plus
0x80 and its TAG joins the reply places, the queue of commands stands, and a refusal (a result code from 0x10 up)
changes nothing else (R181, R182, R195). -/
def Obligations.EveryRequestIsAnsweredOnce : Prop :=
  ∀ (c : Instr) (f : Frame) (s : State), WellFormed c = true → encodeFrame c = some f → Settled s → Decodable f s →
    ∃ (code : Byte) (fields : List Byte) (t : State),
      exec c s = .next t ∧
      t.link.replies = s.link.replies ++ [⟨f.kind + 0x80#8, f.tag, code :: fields⟩] ∧
      t.link.received = s.link.received.tail ∧ t.link.mode = s.link.mode ∧ t.pending = s.pending ∧
      (16 ≤ code.toNat → t = replied (f.kind + 0x80#8) f.tag (code :: fields) s)

/-! ## Link and counter requests (R184 to R189, R192) -/

/-- STAT changes nothing, and its 49 bytes describe the state, each field at its place in section 11.13 (R189). The
blocking reason is the first of R37's five that applies while the executor is IDLE; that it is always judged on the
state as it stands is the model's choice (log 16), and so is the 0 shown while none of them applies and EXECUTOR_START
has not yet been taken (log 37). -/
def Obligations.StatReportsTheState : Prop :=
  ∀ (tag : Byte) (s : State), Ready (.stat tag (.fields ())) s →
    ∃ p : List Byte, exec (.stat tag (.fields ())) s = .next (replied 0x81#8 tag p s) ∧ p.length = 49 ∧
      byteAt p 0 = 0#8 ∧ byteAt p 1 = s.engine.state.code ∧ byteAt p 2 = s.exec.state.code ∧
      (byteAt p 4).getLsbD 0 = s.holds.halted ∧ (byteAt p 4).getLsbD 1 = s.holds.paperOut ∧
      byteAt p 5 = BitVec.ofNat 8 s.queue.length ∧
      (byteAt p 6).getLsbD 0 = hasActive s ∧ (∀ e, activeEntry s = some e → byteAt p 7 = e.tag) ∧
      (activeEntry s = none → byteAt p 7 = 0#8) ∧
      byteAt p 8 = BitVec.ofNat 8 s.completions.length ∧
      (∀ i : Fin 8, byteAt p (9 + i.val) = s.slots[i].state.code) ∧
      byteAt p 17 = (if param s .path = 0 then 0#8 else 1#8) ∧ byteAt p 18 = s.paper.state.code ∧
      word16At p 19 = BitVec.ofNat 16 s.paper.remaining ∧ word16At p 21 = BitVec.ofNat 16 s.paper.y ∧
      word16At p 23 = s.paper.form ∧
      (byteAt p 25).getLsbD 0 = s.paper.tearPresented ∧ (byteAt p 25).getLsbD 1 = s.paper.next.isSome ∧
      (byteAt p 26).getLsbD 0 = s.carriage.homed ∧
      (s.carriage.homed = false → word32At p 27 = 0#32) ∧
      (∀ x, s.carriage.homed = true → s.carriage.position = some x → word32At p 27 = BitVec.ofInt 32 x) ∧
      byteAt p 31 = BitVec.ofInt 8 (correction s .forward) ∧ byteAt p 32 = BitVec.ofInt 8 (correction s .reverse) ∧
      word32At p 33 = BitVec.ofNat 32 s.heat.h ∧ byteAt p 37 = s.heat.band.code ∧
      (byteAt p 38).getLsbD 0 = s.heat.latch ∧ (byteAt p 38).getLsbD 1 = s.fire.pendingTable.isSome ∧
      word24At p 39 = s.fire.inhibit ∧ word24At p 42 = s.fire.failed ∧
      byteAt p 45 = (match s.engine.firstFault with
        | some f => causeCode f.cause
        | none => 0#8) ∧
      byteAt p 46 = s.engine.further.setWidth 8 ∧ byteAt p 47 = s.engine.overlayMode.code ∧
      byteAt p 48 = s.engine.outputs ∧
      (s.exec.state ≠ .idle → byteAt p 3 = 0#8) ∧
      (s.exec.state = .idle →
        (s.queue = [] → byteAt p 3 = 1#8) ∧
        (s.queue ≠ [] →
          (s.holds.halted = true → byteAt p 3 = 2#8) ∧
          (s.holds.halted = false → s.holds.paperOut = true → byteAt p 3 = 5#8) ∧
          (s.holds.halted = false → s.holds.paperOut = false →
            ((s.engine.state ≠ .ready ∧ s.engine.state ≠ .hold) ∨ s.engine.resetPending = true → byteAt p 3 = 3#8) ∧
            (s.engine.state = .ready ∨ s.engine.state = .hold → s.engine.resetPending = false →
              (hasActive s = false → 32 ≤ s.completions.length → byteAt p 3 = 4#8) ∧
              (hasActive s = true ∨ s.completions.length < 32 → byteAt p 3 = 0#8)))))

/-- EVNT answers the set, empties it, clears the notice-outstanding flag and withdraws a waiting notice, leaving one
that was begun to be completed; EMSK replaces the mask with the notice test, or answers as a query, and a mask with a
bit above 12 is refused (R186 to R188). -/
def Obligations.EvntEmptiesAndEmskMasks : Prop :=
  ∀ (tag : Byte) (s : State),
    (Ready (.evnt tag (.fields ())) s →
      exec (.evnt tag (.fields ())) s =
        .next (replied 0x82#8 tag (0x00#8 :: le16 (s.link.events.setWidth 16))
          { s with link := { s.link with events := 0#13, outstanding := false, notice := false } })) ∧
    (Ready (.emsk tag (.fields none)) s →
      exec (.emsk tag (.fields none)) s =
        .next (replied 0x83#8 tag
          (0x00#8 :: (le16 (s.link.mask.setWidth 16) ++ le16 (s.link.events.setWidth 16))) s)) ∧
    (∀ m : BitVec 16, Ready (.emsk tag (.fields (some m))) s →
      (8192 ≤ m.toNat → exec (.emsk tag (.fields (some m))) s =
        .next (replied 0x83#8 tag
          (0x12#8 :: (le16 (s.link.mask.setWidth 16) ++ le16 (s.link.events.setWidth 16))) s)) ∧
      (m.toNat < 8192 → exec (.emsk tag (.fields (some m))) s =
        .next (replied 0x83#8 tag (0x00#8 :: (le16 m ++ le16 (s.link.events.setWidth 16)))
          { s with link :=
            if s.link.events &&& m.setWidth 13 ≠ 0#13 ∧ s.link.outstanding = false then
              { s.link with mask := m.setWidth 13, notice := true, outstanding := true }
            else { s.link with mask := m.setWidth 13 } })))

/-- SETP, check by check: an unknown id and a blocked parameter are refused; a TUNE value is limited to its range and
set; a GEOM value outside its range is refused and inside it is set, with WAKEINS a wake may begin; an ORDER value is
set when it is in range and keeps RESUME < WARMTH < HOTTH < CEILING, with band and latch judged anew and a waiting pass
tested again (R119, R120, R122, R125, R184). Setting a parameter changes that one alone. GETP answers the value in force
of ids 1 to 32 and refuses every other id, and changes nothing (R185, R196). -/
def Obligations.SetpJudgesAndGetpReads : Prop :=
  (∀ (tag : Byte) (r : SetpReq) (s : State), Ready (.setp tag (.fields r)) s →
     (r.id = 0#8 ∨ 32 < r.id.toNat →
       exec (.setp tag (.fields r)) s = .next (replied 0x84#8 tag [0x12#8, r.id, 0#8, 0#8, 0#8, 0#8] s)) ∧
     (∀ id, paramOfId r.id = some id →
       (idleOnly id = true ∧ (lineActive s = true ∨ s.engine.state = .homing ∨ s.carriage.phase ≠ .stopped ∨
           (id = .path ∧ s.paper.state ≠ .out)) →
         exec (.setp tag (.fields r)) s =
           .next (replied 0x84#8 tag ([0x13#8, r.id] ++ le32 (BitVec.ofInt 32 (param s id))) s)) ∧
       (idleOnly id = false ∨ (lineActive s = false ∧ s.engine.state ≠ .homing ∧ s.carriage.phase = .stopped ∧
           (id = .path → s.paper.state = .out)) →
         (paramClass id = .tune → paramLow id ≤ r.value.toInt → r.value.toInt ≤ paramHigh id →
           exec (.setp tag (.fields r)) s =
             .next (replied 0x84#8 tag ([0x00#8, r.id] ++ le32 r.value) (setParam s id r.value.toInt))) ∧
         (paramClass id = .tune → r.value.toInt < paramLow id →
           exec (.setp tag (.fields r)) s =
             .next (replied 0x84#8 tag ([0x01#8, r.id] ++ le32 (BitVec.ofInt 32 (paramLow id)))
               (setParam s id (paramLow id)))) ∧
         (paramClass id = .tune → paramHigh id < r.value.toInt →
           exec (.setp tag (.fields r)) s =
             .next (replied 0x84#8 tag ([0x01#8, r.id] ++ le32 (BitVec.ofInt 32 (paramHigh id)))
               (setParam s id (paramHigh id)))) ∧
         (paramClass id ≠ .tune → r.value.toInt < paramLow id ∨ paramHigh id < r.value.toInt →
           exec (.setp tag (.fields r)) s =
             .next (replied 0x84#8 tag ([0x12#8, r.id] ++ le32 (BitVec.ofInt 32 (param s id))) s)) ∧
         (paramClass id = .geom → paramLow id ≤ r.value.toInt → r.value.toInt ≤ paramHigh id →
           exec (.setp tag (.fields r)) s =
             .next (replied 0x84#8 tag ([0x00#8, r.id] ++ le32 r.value)
               (if id = .wakeins then wakeIfDue (setParam s id r.value.toInt)
                else setParam s id r.value.toInt))) ∧
         (paramClass id = .order → paramLow id ≤ r.value.toInt → r.value.toInt ≤ paramHigh id →
           ∀ u, u = setParam s id r.value.toInt →
           (¬ (param u .resume < param u .warmth ∧ param u .warmth < param u .hotth ∧
               param u .hotth < param u .ceiling) →
             exec (.setp tag (.fields r)) s =
               .next (replied 0x84#8 tag ([0x12#8, r.id] ++ le32 (BitVec.ofInt 32 (param s id))) s)) ∧
           (param u .resume < param u .warmth → param u .warmth < param u .hotth →
             param u .hotth < param u .ceiling →
             exec (.setp tag (.fields r)) s =
               .next (replied 0x84#8 tag ([0x00#8, r.id] ++ le32 r.value)
                 (if id = .warmth then
                   { u with heat := { s.heat with band := bandOf (paramNat u .warmth) s.heat.h } }
                 else if id = .ceiling then retest u
                 else retest { u with heat :=
                   { s.heat with latch := latchOf (paramNat u .hotth) (paramNat u .resume) s.heat.h s.heat.latch } }))))))) ∧
  (∀ (s : State) (id : ParamId) (v : Int),
     param (setParam s id v) id = v ∧ (∀ id', id' ≠ id → param (setParam s id v) id' = param s id') ∧
     { setParam s id v with params := s.params } = s) ∧
  (∀ (tag b : Byte) (s : State), Ready (.getp tag (.fields b)) s →
     (b = 0#8 ∨ 32 < b.toNat →
       exec (.getp tag (.fields b)) s = .next (replied 0x85#8 tag [0x12#8, b, 0#8, 0#8, 0#8, 0#8] s)) ∧
     (∀ id, b.toNat = (paramIndex id).val + 1 →
       exec (.getp tag (.fields b)) s =
         .next (replied 0x85#8 tag ([0x00#8, b] ++ le32 (BitVec.ofInt 32 (param s id))) s)))

/-- CNTR by its operation, in every state: SNAP copies the live counters and half flags of both groups, READ answers one
group's snapshot and changes nothing, CLEAR sets the named groups to 0 and leaves the snapshot; another operation, group
or mask is refused (R192). -/
def Obligations.CntrSnapsReadsAndClears : Prop :=
  ∀ (tag : Byte) (s : State),
    (∀ pad, Ready (.cntrSnap tag (.snap pad)) s →
      exec (.cntrSnap tag (.snap pad)) s =
        .next (replied 0x86#8 tag [0x00#8] { s with counters := ⟨s.counters.live, s.counters.live⟩ })) ∧
    (∀ op arg, 2 < op.toNat → Ready (.cntrSnap tag (.undefinedOp op arg)) s →
      ∃ fields, exec (.cntrSnap tag (.undefinedOp op arg)) s = .next (replied 0x86#8 tag (0x12#8 :: fields) s)) ∧
    (∀ g, Ready (.cntrRead tag g) s →
      (g = 0#8 → exec (.cntrRead tag g) s = .next (replied 0x86#8 tag (generalReply s) s)) ∧
      (g = 1#8 → exec (.cntrRead tag g) s = .next (replied 0x86#8 tag (pinsReply s) s)) ∧
      (1 < g.toNat → ∃ fields, exec (.cntrRead tag g) s = .next (replied 0x86#8 tag (0x12#8 :: fields) s))) ∧
    (∀ m, Ready (.cntrClear tag m) s →
      (4 ≤ m.toNat → exec (.cntrClear tag m) s = .next (replied 0x86#8 tag [0x12#8] s)) ∧
      (m.toNat < 4 → exec (.cntrClear tag m) s =
        .next (replied 0x86#8 tag [0x00#8]
          { s with counters := ⟨
              { general := if m.getLsbD 0 then Vector.replicate 10 0 else s.counters.live.general
                generalHalf := if m.getLsbD 0 then 0#10 else s.counters.live.generalHalf
                strikes := if m.getLsbD 1 then Vector.replicate 24 0 else s.counters.live.strikes
                strikesHalf := if m.getLsbD 1 then 0#24 else s.counters.live.strikesHalf },
              s.counters.snapshot⟩ }))) ∧
    (generalReply s).length = 34 ∧ (pinsReply s).length = 101

/-! ## Image Store requests (R17 to R22) -/

/-- OPEN: a slot that is not FREE is refused SLOT_STATE, an extent that does not fit the line BAD_VALUE; otherwise the
slot becomes FILLING with that extent and no column (R18). SEAL closes a FILLING slot, whatever its fill point, and is
refused in every other state (R21). -/
def Obligations.OpenAndSealFrameAnImage : Prop :=
  (∀ (tag : Byte) (r : OpenReq) (s : State), Ready (.slotOpen tag (.fields r)) s →
     ∀ i : Fin 8, r.slot.toNat = i.val →
       (s.slots[i].state ≠ .free →
         exec (.slotOpen tag (.fields r)) s = .next (replied 0x90#8 tag (slotReply .slotState i s) s)) ∧
       (s.slots[i].state = .free → 3263 < r.left.toNat ∨ r.length = 0#16 ∨ 3264 < r.left.toNat + r.length.toNat →
         exec (.slotOpen tag (.fields r)) s = .next (replied 0x90#8 tag (slotReply .badValue i s) s)) ∧
       (s.slots[i].state = .free → r.left.toNat ≤ 3263 → 1 ≤ r.length.toNat →
         r.left.toNat + r.length.toNat ≤ 3264 →
         exec (.slotOpen tag (.fields r)) s =
           .next (replied 0x90#8 tag ([0x00#8, r.slot, 0x01#8] ++ le16 r.left ++ le16 r.length ++ [0#8, 0#8])
             { s with slots := s.slots.set i ⟨.filling, r.left.toNat, r.length.toNat, []⟩ }))) ∧
  (∀ (tag b : Byte) (s : State), Ready (.slotSeal tag (.fields b)) s →
     ∀ i : Fin 8, b.toNat = i.val →
       (s.slots[i].state ≠ .filling →
         exec (.slotSeal tag (.fields b)) s = .next (replied 0x92#8 tag (slotReply .slotState i s) s)) ∧
       (s.slots[i].state = .filling →
         exec (.slotSeal tag (.fields b)) s =
           .next (replied 0x92#8 tag
             ([0x00#8, b, 0x02#8] ++ natLe16 s.slots[i].left ++ natLe16 s.slots[i].length ++
               natLe16 s.slots[i].cols.length)
             { s with slots := s.slots.set i { s.slots[i] with state := .sealed } })))

/-- An accepted DATA stores its runs in list order from the fill point on: a run is so many blank columns, or columns of
three bytes each, row r at byte r/8, bit 7 − (r mod 8) (R19, R20, section 11.6). -/
def Obligations.DataStoresItsRuns : Prop :=
  (∀ (tag : Byte) (start : BitVec 16) (runs : List (Nat ⊕ List (Byte × Byte × Byte))) (b : Byte) (i : Fin 8) (s : State)
     (bytes : List Byte) (cols : List Column),
     (∀ x ∈ runs, 1 ≤ x.elim id List.length ∧ x.elim id List.length ≤ 127) →
     bytes = runs.flatMap (fun x => match x with
       | .inl n => [BitVec.ofNat 8 (128 + n)]
       | .inr l => BitVec.ofNat 8 l.length :: l.flatMap (fun c => [c.1, c.2.1, c.2.2])) →
     cols = runs.flatMap (fun x => match x with
       | .inl n => List.replicate n 0#24
       | .inr l => l.map (fun c => columnOf c.1 c.2.1 c.2.2)) →
     Ready (.slotData tag (.fields ⟨b, start, bytes⟩)) s → b.toNat = i.val →
     s.slots[i].state = .filling → start.toNat = s.slots[i].cols.length →
     s.slots[i].cols.length + cols.length ≤ s.slots[i].length →
     exec (.slotData tag (.fields ⟨b, start, bytes⟩)) s =
       .next (replied 0x91#8 tag
         ([0x00#8, b, 0x01#8] ++ natLe16 s.slots[i].left ++ natLe16 s.slots[i].length ++
           natLe16 (s.slots[i].cols.length + cols.length))
         { s with slots := s.slots.set i { s.slots[i] with cols := s.slots[i].cols ++ cols } })) ∧
  (∀ (b0 b1 b2 : Byte) (r : Fin 24),
     (columnOf b0 b1 b2).getLsbD r =
       (if r.val < 8 then b0.getLsbD (7 - r.val)
        else if r.val < 16 then b1.getLsbD (15 - r.val)
        else b2.getLsbD (23 - r.val)))

/-- The four checks of DATA, in order; a refused DATA stores nothing (R19). OPEN, DATA, SEAL and DROP refuse a slot
above 7 with BAD_VALUE alone, before any other check (R17). -/
def Obligations.SlotRequestsAreChecked : Prop :=
  (∀ (tag : Byte) (r : DataReq) (s : State), Ready (.slotData tag (.fields r)) s →
     ∀ i : Fin 8, r.slot.toNat = i.val →
       (runsOf r.runs = none →
         exec (.slotData tag (.fields r)) s = .next (replied 0x91#8 tag (slotReply .badLength i s) s)) ∧
       (∀ runs, runsOf r.runs = some runs →
         (s.slots[i].state ≠ .filling →
           exec (.slotData tag (.fields r)) s = .next (replied 0x91#8 tag (slotReply .slotState i s) s)) ∧
         (s.slots[i].state = .filling → r.start.toNat ≠ s.slots[i].cols.length →
           exec (.slotData tag (.fields r)) s = .next (replied 0x91#8 tag (slotReply .outOfSequence i s) s)) ∧
         (s.slots[i].state = .filling → r.start.toNat = s.slots[i].cols.length →
           [] ∈ runs ∨ s.slots[i].length < s.slots[i].cols.length + (runs.map List.length).sum →
           exec (.slotData tag (.fields r)) s = .next (replied 0x91#8 tag (slotReply .badValue i s) s)))) ∧
  (∀ (tag : Byte) (s : State),
     (∀ r : OpenReq, 8 ≤ r.slot.toNat → Ready (.slotOpen tag (.fields r)) s →
       exec (.slotOpen tag (.fields r)) s = .next (replied 0x90#8 tag [0x12#8] s)) ∧
     (∀ r : DataReq, 8 ≤ r.slot.toNat → Ready (.slotData tag (.fields r)) s →
       exec (.slotData tag (.fields r)) s = .next (replied 0x91#8 tag [0x12#8] s)) ∧
     (∀ b : Byte, 8 ≤ b.toNat → Ready (.slotSeal tag (.fields b)) s →
       exec (.slotSeal tag (.fields b)) s = .next (replied 0x92#8 tag [0x12#8] s)) ∧
     (∀ b : Byte, 8 ≤ b.toNat → Ready (.slotDrop tag (.fields b)) s →
       exec (.slotDrop tag (.fields b)) s = .next (replied 0x93#8 tag [0x12#8] s)))

/-- DROP by the slot's state: a FILLING or SEALED slot becomes FREE and loses its extent and columns, a FREE one stays
FREE, a BOUND or PRINTING one is refused unchanged (R22). -/
def Obligations.DropActsByTheSlotState : Prop :=
  ∀ (tag b : Byte) (i : Fin 8) (s : State), Ready (.slotDrop tag (.fields b)) s → b.toNat = i.val →
    exec (.slotDrop tag (.fields b)) s = .next (match s.slots[i].state with
      | .free => replied 0x93#8 tag (slotReply .ok i s) s
      | .filling | .sealed =>
        replied 0x93#8 tag [0x00#8, b, 0x00#8, 0#8, 0#8, 0#8, 0#8, 0#8, 0#8]
          { s with slots := s.slots.set i ⟨.free, 0, 0, []⟩ }
      | .bound | .printing => replied 0x93#8 tag (slotReply .slotState i s) s)

/-! ## Print Queue requests (R33 to R35, R44, R46 to R50) -/

/-- LINE: its fields' values, then room in the queue, then a SEALED slot; accepted, the entry joins the queue QUEUED and
its slot is BOUND, and in REST a wake may begin (R33, R35). FEED, SKIP and TEAR: the distance or the channel, then room
in the queue; accepted, the entry joins the queue QUEUED, and in REST a wake may begin (R34, R35). -/
def Obligations.EntriesAreEnqueued : Prop :=
  (∀ (tag : Byte) (r : LineReq) (s : State), Ready (.line tag (.fields r)) s →
     (8 ≤ r.slot.toNat ∨ 2 ≤ r.mode.toNat ∨ 3 ≤ r.direction.toNat ∨ 4 ≤ r.cls.toNat ∨ 7920 < r.feedAfter.toNat ∨
         7 ≤ r.ply.toNat →
       exec (.line tag (.fields r)) s =
         .next (replied 0xA0#8 tag [0x12#8, BitVec.ofNat 8 s.queue.length] s)) ∧
     (∀ f : LineFields, f.slot.val = r.slot.toNat →
       (r.mode = 0#8 ∧ f.mode = .single ∨ r.mode = 1#8 ∧ f.mode = .double) →
       (r.direction = 0#8 ∧ f.direction = .auto ∨ r.direction = 1#8 ∧ f.direction = .forward ∨
         r.direction = 2#8 ∧ f.direction = .reverse) →
       f.cls = r.cls.toNat → f.cls ≤ 3 → f.feedAfter = r.feedAfter.toNat → f.feedAfter ≤ 7920 →
       (r.ply = 0#8 ∧ f.ply = none ∨ 1 ≤ r.ply.toNat ∧ r.ply.toNat ≤ 6 ∧ f.ply = some r.ply.toNat) →
       (16 ≤ s.queue.length →
         exec (.line tag (.fields r)) s =
           .next (replied 0xA0#8 tag [0x16#8, BitVec.ofNat 8 s.queue.length] s)) ∧
       (s.queue.length < 16 → s.slots[f.slot].state ≠ .sealed →
         exec (.line tag (.fields r)) s =
           .next (replied 0xA0#8 tag [0x17#8, BitVec.ofNat 8 s.queue.length] s)) ∧
       (s.queue.length < 16 → s.slots[f.slot].state = .sealed →
         exec (.line tag (.fields r)) s =
           .next (replied 0xA0#8 tag [0x00#8, BitVec.ofNat 8 (s.queue.length + 1)]
             (wakeIfDue
               { s with
                 queue := s.queue ++ [⟨tag, .line f, false⟩]
                 slots := s.slots.set f.slot { s.slots[f.slot] with state := .bound } }))))) ∧
  (∀ (tag : Byte) (s : State),
     (∀ w : BitVec 16, Ready (.feed tag (.fields w)) s →
       (w.toInt < -720 ∨ 7920 < w.toInt → exec (.feed tag (.fields w)) s =
         .next (replied 0xA1#8 tag [0x12#8, BitVec.ofNat 8 s.queue.length] s)) ∧
       (-720 ≤ w.toInt → w.toInt ≤ 7920 → 16 ≤ s.queue.length → exec (.feed tag (.fields w)) s =
         .next (replied 0xA1#8 tag [0x16#8, BitVec.ofNat 8 s.queue.length] s)) ∧
       (-720 ≤ w.toInt → w.toInt ≤ 7920 → s.queue.length < 16 → exec (.feed tag (.fields w)) s =
         .next (replied 0xA1#8 tag [0x00#8, BitVec.ofNat 8 (s.queue.length + 1)]
           (wakeIfDue { s with queue := s.queue ++ [⟨tag, .feed w.toInt, false⟩] })))) ∧
     (∀ n : Byte, Ready (.skip tag (.fields n)) s →
       (n = 0#8 ∨ 12 < n.toNat → exec (.skip tag (.fields n)) s =
         .next (replied 0xA2#8 tag [0x12#8, BitVec.ofNat 8 s.queue.length] s)) ∧
       (1 ≤ n.toNat → n.toNat ≤ 12 → 16 ≤ s.queue.length → exec (.skip tag (.fields n)) s =
         .next (replied 0xA2#8 tag [0x16#8, BitVec.ofNat 8 s.queue.length] s)) ∧
       (1 ≤ n.toNat → n.toNat ≤ 12 → s.queue.length < 16 → exec (.skip tag (.fields n)) s =
         .next (replied 0xA2#8 tag [0x00#8, BitVec.ofNat 8 (s.queue.length + 1)]
           (wakeIfDue { s with queue := s.queue ++ [⟨tag, .skip n.toNat, false⟩] })))) ∧
     (Ready (.tear tag (.fields ())) s →
       (16 ≤ s.queue.length → exec (.tear tag (.fields ())) s =
         .next (replied 0xA3#8 tag [0x16#8, BitVec.ofNat 8 s.queue.length] s)) ∧
       (s.queue.length < 16 → exec (.tear tag (.fields ())) s =
         .next (replied 0xA3#8 tag [0x00#8, BitVec.ofNat 8 (s.queue.length + 1)]
           (wakeIfDue { s with queue := s.queue ++ [⟨tag, .tear, false⟩] })))))

/-- HALT in LINE mode: HALTED at once with no ACTIVE entry or a held one (for a held one whose HALTED a GO has removed,
log 15), otherwise a pending halt, which a pending PASS outlasts; a mode above 2 is refused (R46). HALT in PASS mode, by
the executor state it finds: at once in COOL, whose wait ends, and in PREPARE with no feed under way; otherwise pending
at the end of the movement (R47). -/
def Obligations.HaltHoldsOrPends : Prop :=
  (∀ (tag : Byte) (s : State),
     (Ready (.haltLine tag .lineMode) s →
       (hasActive s = false ∨ s.exec.state = .idle →
         exec (.haltLine tag .lineMode) s =
           .next (replied 0xA4#8 tag [0x00#8] { s with holds := { s.holds with halted := true } })) ∧
       (hasActive s = true → s.exec.state ≠ .idle →
         exec (.haltLine tag .lineMode) s =
           .next (replied 0xA4#8 tag [0x00#8]
             { s with exec := { s.exec with pendingHalt :=
                 if s.exec.pendingHalt = some .pass then some .pass else some .line } }))) ∧
     (∀ m : Byte, 2 < m.toNat → Ready (.haltLine tag (.undefinedMode m)) s →
       exec (.haltLine tag (.undefinedMode m)) s = .next (replied 0xA4#8 tag [0x12#8] s))) ∧
  (∀ (tag : Byte) (s : State) (point : Resume), Ready (.haltPass tag) s →
     point = (match s.exec.plan with
       | none => .plan
       | some p =>
         if p.passes.all (fun r => r.done) then .feedAfter else .pass (p.passes.takeWhile (fun r => r.done)).length) →
     (hasActive s = false ∨ s.exec.state = .idle →
       exec (.haltPass tag) s =
         .next (replied 0xA4#8 tag [0x00#8] { s with holds := { s.holds with halted := true } })) ∧
     (hasActive s = true → s.exec.state = .cool →
       exec (.haltPass tag) s =
         .next (replied 0xA4#8 tag [0x00#8]
           { s with
             holds := { s.holds with halted := true }
             exec := { s.exec with state := .idle, resume := some point, pendingHalt := none }
             heat := { s.heat with waiting := none } })) ∧
     (hasActive s = true → s.exec.state = .prepare → s.paper.move = none →
       exec (.haltPass tag) s =
         .next (replied 0xA4#8 tag [0x00#8]
           { s with
             holds := { s.holds with halted := true }
             exec := { s.exec with
               state := .idle, resume := some (if lineActive s then point else .motion), pendingHalt := none } })) ∧
     (hasActive s = true → (s.exec.state = .prepare ∧ s.paper.move ≠ none) ∨ s.exec.state = .position ∨
         s.exec.state = .pass ∨ s.exec.state = .advance →
       exec (.haltPass tag) s =
         .next (replied 0xA4#8 tag [0x00#8] { s with exec := { s.exec with pendingHalt := some .pass } })))

/-- HALT in NOW mode: HALTED at once and no pending halt; an ACTIVE entry with nothing in motion retires FAILED with
cause HALTED; with a motion in progress it has failed and the motion is in a controlled stop, firing at an end (R48).
The stop keeps the direction of travel and ends at a place between the present position and the end point of the motion,
no farther than braking at ACCEL takes (R96, the last tick log 7); a feed move makes at most one more step (R138, log
23). A second one during the stop leaves the stop as it is; that it adds HALTED anew and clears what was pended, when a
GO or another HALT came between them, is the model's choice (log 30). -/
def Obligations.HaltInNowModeFailsTheEntry : Prop :=
  ∀ (tag : Byte) (s u : State), Ready (.haltNow tag) s →
    u = { s with holds := { s.holds with halted := true }, exec := { s.exec with pendingHalt := none } } →
    (hasActive s = false → exec (.haltNow tag) s = .next (replied 0xA4#8 tag [0x00#8] u)) ∧
    (hasActive s = true → s.exec.state = .idle ∨ inMotion s = false →
      exec (.haltNow tag) s = .next (replied 0xA4#8 tag [0x00#8] (retire .failedHalted u))) ∧
    (hasActive s = true → s.exec.state ≠ .idle → inMotion s = true →
      ∃ t, exec (.haltNow tag) s = .next (replied 0xA4#8 tag [0x00#8] t) ∧ stopping t = true ∧ StopOf s t ∧
        t.exec = { u.exec with failing := true } ∧
        (s.carriage.phase ≠ .stopped → s.carriage.phase ≠ .stopping → t.fire.due = none) ∧
        t.carriage.position = s.carriage.position ∧
        { t with
          exec := u.exec, carriage := s.carriage, fire := { t.fire with due := s.fire.due }
          paper := { t.paper with move := s.paper.move }, freeCount := s.freeCount } = u)

/-- GO: refused in TRIPPED; otherwise HALTED and any pending halt go, PAPER_OUT stays; a held entry resumes when it may,
and in REST a wake may begin (R49). -/
def Obligations.GoReleasesTheHalt : Prop :=
  ∀ (tag : Byte) (s u : State), Ready (.go tag (.fields ())) s →
    u = { s with holds := { s.holds with halted := false }, exec := { s.exec with pendingHalt := none } } →
    (s.engine.state = .tripped →
      exec (.go tag (.fields ())) s = .next (replied 0xA5#8 tag [0x15#8] s)) ∧
    (s.engine.state ≠ .tripped → s.engine.state ≠ .rest →
      s.holds.halted = false ∨ hasActive s = false ∨ s.exec.state ≠ .idle ∨ s.holds.paperOut = true ∨
        readyOrHold s = false ∨ s.engine.resetPending = true →
      exec (.go tag (.fields ())) s = .next (replied 0xA5#8 tag [0x00#8] u)) ∧
    (∀ e, activeEntry s = some e → s.exec.state = .idle → s.holds.halted = true → s.holds.paperOut = false →
      readyOrHold s = true → s.engine.resetPending = false →
      exec (.go tag (.fields ())) s = .next (replied 0xA5#8 tag [0x00#8] (resumeEntry e u))) ∧
    (s.engine.state = .rest →
      exec (.go tag (.fields ())) s = .next (replied 0xA5#8 tag [0x00#8] (wakeIfDue u)))

/-- FLSH removes every QUEUED entry and answers how many; their slots go from BOUND to SEALED with their images; a full
queue raises QUEUE_ROOM; nothing else changes (R27, R50). CMPL removes the oldest records, as many as asked for (1 to 8)
and held, and answers them oldest first; a count outside 1 to 8 is refused (R44). -/
def Obligations.FlshAndCmplRemoveEntriesAndRecords : Prop :=
  (∀ (tag : Byte) (s : State), Ready (.flsh tag (.fields ())) s →
     ∃ slots : Vector Slot 8,
       exec (.flsh tag (.fields ())) s =
         .next (replied 0xA6#8 tag
           [0x00#8, BitVec.ofNat 8 (s.queue.filter (fun e => !e.active)).length]
           (raiseIf (decide (s.queue.length = 16)) .queueRoom
             { s with queue := s.queue.filter (fun e => e.active), slots := slots })) ∧
       (∀ i : Fin 8,
         slots[i] = (if (s.queue.filter (fun e => !e.active)).any (fun e => match e.kind with
             | .line f => decide (f.slot = i)
             | .feed _ | .skip _ | .tear => false)
           then { s.slots[i] with state := .sealed } else s.slots[i]))) ∧
  (∀ (tag n : Byte) (s : State), Ready (.cmpl tag (.fields n)) s →
     (n = 0#8 ∨ 8 < n.toNat →
       exec (.cmpl tag (.fields n)) s = .next (replied 0xA7#8 tag [0x12#8, 0x00#8] s)) ∧
     (1 ≤ n.toNat → n.toNat ≤ 8 → ∀ taken left, s.completions = taken ++ left →
       (taken.length = n.toNat ∨ (taken.length < n.toNat ∧ left = [])) →
       exec (.cmpl tag (.fields n)) s =
         .next (replied 0xA7#8 tag
           ([0x00#8, BitVec.ofNat 8 taken.length] ++ taken.flatMap (fun c =>
             [c.tag, c.kind.code, c.outcome.code, c.outcome.causeCode,
               (match c.passes with
                 | some k => BitVec.ofNat 8 k
                 | none => 0xFF#8)] ++ le16 (BitVec.ofNat 16 c.y) ++ le16 c.form))
           { s with completions := left })))

/-- Retirement of the ACTIVE entry is one step: its record joins the completion list, it leaves the queue, a LINE's slot
becomes FREE or, failed, SEALED with its image, the executor is IDLE with no plan, a pending halt becomes the hold, the
event is raised, then QUEUE_ROOM by a full queue, and a LINE counts, with COUNTER_HALF when its counter first reaches
half; the plan-time inhibit set is empty and no pass waits, and everything else stands, the rest of the Link Unit's
record with it (R25, R26, R42, R99, R123, R191). An entry that fails retires so with its cause, or with cause HALTED
when it has already failed so (R48, R51); with no entry ACTIVE none fails. -/
def Obligations.RetirementIsOneStep : Prop :=
  (∀ (o : EntryOutcome) (x : State),
    (hasActive x = false → failActive o x = x) ∧
    (hasActive x = true → x.exec.failing = false → failActive o x = retire o x) ∧
    (hasActive x = true → x.exec.failing = true → failActive o x = retire .failedHalted x)) ∧
  ∀ (o : EntryOutcome) (e : Entry) (rest : List Entry) (s : State), s.queue = e :: rest → e.active = true →
    (∀ raised : State,
      raised = (if s.queue.length = 16 then raise .queueRoom (raise (if o.failed then .entryFailed else .entryDone) s)
        else raise (if o.failed then .entryFailed else .entryDone) s) →
      (retire o s).link =
        (if (retire o s).counters.live.generalHalf = s.counters.live.generalHalf then raised.link
         else (raise .counterHalf raised).link)) ∧
    (retire o s).queue = rest ∧
    (retire o s).completions = s.completions ++
      [⟨e.tag, e.kind.name, o,
        (match e.kind with
          | .line _ => some (match s.exec.plan with
            | some p => (p.passes.filter (fun r => r.done)).length
            | none => 0)
          | .feed _ | .skip _ | .tear => none),
        s.paper.y, s.paper.form⟩] ∧
    (∀ i : Fin 8, (retire o s).slots[i] =
      (match e.kind with
        | .line f => if f.slot = i then (if o.failed then { s.slots[i] with state := .sealed } else freeSlot)
          else s.slots[i]
        | .feed _ | .skip _ | .tear => s.slots[i])) ∧
    (retire o s).exec = ⟨.idle, none, none, none, false⟩ ∧
    (retire o s).holds = ⟨s.holds.halted || s.exec.pendingHalt.isSome, s.holds.paperOut⟩ ∧
    (retire o s).link.events.getLsbD (if o.failed then 1 else 0) = true ∧
    (s.queue.length = 16 → (retire o s).link.events.getLsbD 2 = true) ∧
    (s.queue.length ≠ 16 → (retire o s).link.events.getLsbD 2 = s.link.events.getLsbD 2) ∧
    (∀ f, e.kind = .line f →
      (retire o s).counters.live =
        s.counters.live.count (if o.failed then .linesFailed else .linesDone) 1) ∧
    (∀ k, e.kind = .feed k → (retire o s).counters = s.counters) ∧
    (∀ k, e.kind = .skip k → (retire o s).counters = s.counters) ∧
    (e.kind = .tear → (retire o s).counters = s.counters) ∧
    (retire o s).paper = s.paper ∧ (retire o s).carriage = s.carriage ∧ (retire o s).engine = s.engine ∧
    (retire o s).params = s.params ∧ (retire o s).lines = s.lines ∧
    (retire o s).fire = { s.fire with planInhibit := 0#24 } ∧ (retire o s).heat = { s.heat with waiting := none } ∧
    (retire o s).counters.snapshot = s.counters.snapshot ∧ (retire o s).pending = s.pending ∧
    (retire o s).txLine = s.txLine ∧ (retire o s).motorStep = s.motorStep ∧ (retire o s).freeCount = s.freeCount

/-! ## Fire Unit and paper requests (R5 to R11, R113, R114, R130 to R132) -/

/-- PMAP: a query answers the map; a setting is refused while a line is ACTIVE, in HOMING or while the carriage moves,
then for a row out of range, then for a pin named twice, and otherwise replaces all 24 rows and nothing else (R5 to R7).
ETAB: each width is limited to 100..600 and the table becomes the pending one, OK_CLAMPED if a width was replaced; a
query answers both tables; the table in use stands (R113, R114). -/
def Obligations.PmapAndEtabSetTheirTables : Prop :=
  (∀ (tag : Byte) (s : State),
     (Ready (.pmap tag (.fields none)) s →
       exec (.pmap tag (.fields none)) s = .next (replied 0xB0#8 tag (pmapReply .ok s) s)) ∧
     (∀ rows : Vector RowReq 24, Ready (.pmap tag (.fields (some rows))) s →
       (lineActive s = true ∨ s.engine.state = .homing ∨ s.carriage.phase ≠ .stopped →
         exec (.pmap tag (.fields (some rows))) s = .next (replied 0xB0#8 tag (pmapReply .wrongState s) s)) ∧
       (lineActive s = false → s.engine.state ≠ .homing → s.carriage.phase = .stopped →
         ((∃ r : Fin 24, 24 ≤ rows[r].pin.toNat ∨ 16 ≤ rows[r].offset.toNat ∨ 2 ≤ rows[r].enabled.toNat) →
           exec (.pmap tag (.fields (some rows))) s = .next (replied 0xB0#8 tag (pmapReply .badValue s) s)) ∧
         ((∀ r : Fin 24, rows[r].pin.toNat < 24 ∧ rows[r].offset.toNat < 16 ∧ rows[r].enabled.toNat < 2) →
           ((∃ r q : Fin 24, r ≠ q ∧ rows[r].pin = rows[q].pin) →
             exec (.pmap tag (.fields (some rows))) s = .next (replied 0xB0#8 tag (pmapReply .duplicatePin s) s)) ∧
           ((∀ r q : Fin 24, rows[r].pin = rows[q].pin → r = q) →
             ∃ m : Vector MapRow 24,
               (∀ r : Fin 24, m[r].pin.val = rows[r].pin.toNat ∧ m[r].offset.val = rows[r].offset.toNat ∧
                 (m[r].enabled = true ↔ rows[r].enabled = 1#8)) ∧
               exec (.pmap tag (.fields (some rows))) s =
                 .next (replied 0xB0#8 tag
                   (0x00#8 :: (List.finRange 24).flatMap (fun r =>
                     [rows[r].pin, rows[r].offset, rows[r].enabled]))
                   { s with fire := { s.fire with pinMap := m } })))))) ∧
  (∀ (tag : Byte) (s : State),
     (Ready (.etab tag (.fields none)) s →
       exec (.etab tag (.fields none)) s = .next (replied 0xB2#8 tag (etabReply .ok s) s)) ∧
     (∀ (t : EtabReq) (n : EnergyTable) (u : State), Ready (.etab tag (.fields (some t))) s →
       (∀ i : Fin 6, n.cool[i] = max 100 (min 600 t.cool[i].toNat) ∧ n.warm[i] = max 100 (min 600 t.warm[i].toNat)) →
       u = { s with fire := { s.fire with pendingTable := some n } } →
       ((∀ i : Fin 6, n.cool[i] = t.cool[i].toNat ∧ n.warm[i] = t.warm[i].toNat) →
         exec (.etab tag (.fields (some t))) s = .next (replied 0xB2#8 tag (etabReply .ok u) u)) ∧
       ((∃ i : Fin 6, n.cool[i] ≠ t.cool[i].toNat ∨ n.warm[i] ≠ t.warm[i].toNat) →
         exec (.etab tag (.fields (some t))) s = .next (replied 0xB2#8 tag (etabReply .okClamped u) u))))

/-- PINH, accepted in every state: the clear mask takes its pins off the inhibit list and the failed-pin set and sets
their counts to 0, then the set mask puts its pins on the inhibit list; the reply carries the three tables as they then
stand, and nothing else changes (R11). -/
def Obligations.PinhClearsThenSets : Prop :=
  ∀ (tag : Byte) (r : PinhReq) (counts : Vector Nat 24) (s : State), Ready (.pinh tag (.fields r)) s →
    (∀ p : Fin 24, counts[p] = if r.clear.getLsbD p then 0 else s.fire.openCounts[p]) →
    exec (.pinh tag (.fields r)) s =
      .next (replied 0xB1#8 tag
        (0x00#8 :: (le24 ((s.fire.inhibit &&& ~~~r.clear) ||| r.set) ++ le24 (s.fire.failed &&& ~~~r.clear) ++
          (List.finRange 24).map (fun p => BitVec.ofNat 8 counts[p])))
        { s with fire := { s.fire with
          inhibit := (s.fire.inhibit &&& ~~~r.clear) ||| r.set
          failed := s.fire.failed &&& ~~~r.clear
          openCounts := counts } })

/-- FORM: a query answers the definitions; a definition outside the ranges is refused; another is applied at once with
no form loaded or on an idle form at its top with nothing queued or presented, and is pending otherwise; y and the form
number stand (R130 to R132). -/
def Obligations.FormIsAppliedOrPending : Prop :=
  ∀ (tag : Byte) (s : State),
    (Ready (.form tag (.fields none)) s →
      exec (.form tag (.fields none)) s = .next (replied 0xB8#8 tag (formReply .ok s) s)) ∧
    (∀ (f : FormReq) (d : FormDef), Ready (.form tag (.fields (some f))) s →
      d = ⟨f.length.toNat, f.ply.toNat, f.tear.toNat, f.skipTop.toNat, f.skipBottom.toNat,
        f.stops.map (fun x => ⟨x.position.toNat, x.channels⟩)⟩ →
      (¬ FormOk d →
        exec (.form tag (.fields (some f))) s = .next (replied 0xB8#8 tag (formReply .badValue s) s)) ∧
      (FormOk d → s.paper.state = .out ∨
          (s.paper.y = 0 ∧ s.queue = [] ∧ s.exec.state = .idle ∧ s.paper.tearPresented = false) →
        ∀ u, u = { s with paper := { s.paper with active := d, next := none } } →
        exec (.form tag (.fields (some f))) s = .next (replied 0xB8#8 tag (formReply .ok u) u)) ∧
      (FormOk d → s.paper.state ≠ .out →
          s.paper.y ≠ 0 ∨ s.queue ≠ [] ∨ s.exec.state ≠ .idle ∨ s.paper.tearPresented = true →
        ∀ u, u = { s with paper := { s.paper with next := some d } } →
        exec (.form tag (.fields (some f))) s = .next (replied 0xB8#8 tag (formReply .ok u) u)))

/-! ## Engine requests (R156 to R175) -/

/-- ENGA, by the engine state: homing from UNREADY, and from READY or HOLD with the executor IDLE and nothing moving; a
wake to HOMING from REST; refused otherwise (R156, R161). Entering HOMING starts the seek with the homed flag clear and
the coordinate absent; with HOME already active the position is set to −4608 ticks at once and the park move to −3200
starts (R79, R80, R157). -/
def Obligations.EngaStartsHoming : Prop :=
  (∀ (tag : Byte) (s : State), Ready (.enga tag (.fields ())) s →
     (s.engine.state = .unready →
       exec (.enga tag (.fields ())) s = .next (replied 0xC0#8 tag [0x00#8, 1#8] (enterHoming s))) ∧
     (s.engine.state = .ready ∨ s.engine.state = .hold → s.exec.state = .idle → inMotion s = false →
       exec (.enga tag (.fields ())) s = .next (replied 0xC0#8 tag [0x00#8, 1#8] (enterHoming s))) ∧
     (s.engine.state = .ready ∨ s.engine.state = .hold → s.exec.state ≠ .idle ∨ inMotion s = true →
       exec (.enga tag (.fields ())) s = .next (replied 0xC0#8 tag [0x13#8, s.engine.state.code] s)) ∧
     (s.engine.state = .homing ∨ s.engine.state = .warming →
       exec (.enga tag (.fields ())) s = .next (replied 0xC0#8 tag [0x14#8, s.engine.state.code] s)) ∧
     (s.engine.state = .rest →
       exec (.enga tag (.fields ())) s =
         .next (replied 0xC0#8 tag [0x00#8, 5#8]
           { s with engine := { s.engine with
             state := .warming, restOrigin := none, wakeTarget := some .homing
             warmTimer := some (paramNat s .warmup) } })) ∧
     (s.engine.state = .tripped →
       exec (.enga tag (.fields ())) s = .next (replied 0xC0#8 tag [0x15#8, 6#8] s))) ∧
  (∀ s : State,
     (homeActive s = false →
       enterHoming s =
         { s with
           engine := { s.engine with state := .homing, holdTimer := none, warmTimer := none }
           carriage := { s.carriage with
             position := none, phase := .seek, direction := some .reverse, homed := false, markPhase := none,
             noMark := 0, observedNoMark := 0, seekTravel := 0, profile := none } }) ∧
     (homeActive s = true →
       enterHoming s =
         { s with
           engine := { s.engine with state := .homing, holdTimer := none, warmTimer := none }
           carriage := { s.carriage with
             position := some (-4608), phase := .park, direction := some .forward, homed := false, markPhase := none,
             noMark := 0, observedNoMark := 0, seekTravel := 0,
             profile := some ⟨-4608, -3200, -4608, -3200, paramNat s .slew, paramNat s .accel⟩ } }))

/-- REST and WAKE, by the engine state and the wake conditions: REST enters REST from UNREADY, READY or HOLD unless
work, motion or paper to load waits; WAKE and a wake condition in REST begin the warm-up to the target the rest origin
gives, and WAKE has no effect elsewhere (R159 to R161). Entry to REST clears the homed flag, position and phase (R75,
R160); that K and the no-mark distances stand is the model's reading (log 21). -/
def Obligations.RestAndWakeActByTheEngineState : Prop :=
  ∀ (tag : Byte) (s t w : State) (busy : Prop),
    (busy ↔ (s.queue ≠ [] ∧ s.holds.halted = false ∧ s.holds.paperOut = false) ∨ s.carriage.phase ≠ .stopped ∨
      s.paper.move ≠ none ∨ (param s .wakeins = 1 ∧ sensorPresent s = true ∧ s.paper.state = .out)) →
    t = { s with
      engine := { s.engine with
        state := .rest, holdTimer := none
        restOrigin := some (if s.engine.state = .unready then .unready else .ready) }
      carriage := { s.carriage with homed := false, position := none, markPhase := none } } →
    w = { s with engine := { s.engine with
      state := .warming, restOrigin := none, warmTimer := some (paramNat s .warmup)
      wakeTarget := some (if s.engine.restOrigin = some .ready then .homing else .unready) } } →
    (Ready (.rest tag (.fields ())) s →
      (s.engine.state = .unready ∨ s.engine.state = .ready ∨ s.engine.state = .hold → ¬ busy →
        exec (.rest tag (.fields ())) s = .next (replied 0xC1#8 tag [0x00#8, 4#8] t)) ∧
      (s.engine.state = .unready ∨ s.engine.state = .ready ∨ s.engine.state = .hold → busy →
        exec (.rest tag (.fields ())) s = .next (replied 0xC1#8 tag [0x1A#8, s.engine.state.code] s)) ∧
      (s.engine.state = .homing ∨ s.engine.state = .rest ∨ s.engine.state = .warming ∨ s.engine.state = .tripped →
        exec (.rest tag (.fields ())) s = .next (replied 0xC1#8 tag [0x13#8, s.engine.state.code] s))) ∧
    (Ready (.wake tag (.fields ())) s →
      (s.engine.state = .rest →
        exec (.wake tag (.fields ())) s = .next (replied 0xC2#8 tag [0x00#8, 5#8] w)) ∧
      (s.engine.state ≠ .rest →
        exec (.wake tag (.fields ())) s = .next (replied 0xC2#8 tag [0x00#8, s.engine.state.code] s))) ∧
    (s.engine.state = .rest → busy → wakeIfDue s = w) ∧
    (s.engine.state ≠ .rest ∨ ¬ busy → wakeIfDue s = s)

/-- CLRF: in TRIPPED it is refused while HEAD_HOT or DRIVER_FAULT is asserted, and otherwise takes the engine to UNREADY
with no record, no further cause and output 7 off; it has no effect elsewhere, and answers the record as it stood (R165,
R167). DOUT resets, then sets, outputs 0 to 5 by its masks and leaves outputs 6 and 7 and everything else (R170). -/
def Obligations.ClrfAndDoutAct : Prop :=
  (∀ (tag : Byte) (s : State), Ready (.clrf tag (.fields ())) s →
     (s.engine.state = .tripped →
       (s.lines.headHot = true ∨ s.lines.driverFault = true ∨
           (s.engine.overlayMode = .drive ∧
             (s.engine.overlayInputs.getLsbD 0 = true ∨ s.engine.overlayInputs.getLsbD 1 = true)) →
         exec (.clrf tag (.fields ())) s = .next (replied 0xC3#8 tag (clrfReply .causeActive s) s)) ∧
       (s.lines.headHot = false → s.lines.driverFault = false →
           (s.engine.overlayMode = .drive →
             s.engine.overlayInputs.getLsbD 0 = false ∧ s.engine.overlayInputs.getLsbD 1 = false) →
         exec (.clrf tag (.fields ())) s =
           .next (replied 0xC3#8 tag (clrfReply .ok s)
             { s with engine := { s.engine with
               state := .unready, firstFault := none, further := 0#6, outputs := s.engine.outputs &&& 0x7F#8 } }))) ∧
     (s.engine.state ≠ .tripped →
       exec (.clrf tag (.fields ())) s = .next (replied 0xC3#8 tag (clrfReply .ok s) s))) ∧
  (∀ (tag : Byte) (r : DoutReq) (s : State), Ready (.dout tag (.fields r)) s →
     ∃ o : BitVec 8,
       exec (.dout tag (.fields r)) s =
         .next (replied 0xC5#8 tag [0x00#8, o] { s with engine := { s.engine with outputs := o } }) ∧
       (∀ i : Fin 8, o.getLsbD i =
         (if i.val < 6 then r.set.getLsbD i || (s.engine.outputs.getLsbD i && !r.reset.getLsbD i)
          else s.engine.outputs.getLsbD i)))

/-- ERST clears queue, completion list, holds, executor, slots and waiting pass on arrival; at rest the carriage record,
the plan-time inhibit set once the last pulse has ended, and the ribbon go too and the engine acts as R168's table; a
motion is first brought to a controlled stop within its bounds (R96, R138), and a carriage that stands while a feed move
is stopped has its record cleared at once, which R97 says and R168 does not (log 31). The tractor preload of a load is
such a feed move, in whose stop an ERST is completed (log 26), and of a stopped feed move one step may be left (log 23).
While one such stop lasts a second ERST changes nothing further, entries accepted meanwhile standing (log 13) (R97, R99,
R110, R168, R169). -/
def Obligations.ErstClearsTheWork : Prop :=
  ∀ (tag : Byte) (s u v : State), Ready (.erst tag (.fields ())) s →
    u = raiseIf (decide (s.queue.length = 16)) .queueRoom
      { s with
        queue := [], completions := [], holds := ⟨false, false⟩, exec := ⟨.idle, none, none, none, false⟩
        slots := Vector.replicate 8 ⟨.free, 0, 0, []⟩, heat := { s.heat with waiting := none } } →
    v = { u with
      carriage := ⟨none, .stopped, none, false, none, 0, 0, 0, 0, 0, 0, none⟩
      fire := { s.fire with
        planInhibit := if s.fire.driving = 0#24 then 0#24 else s.fire.planInhibit, due := none }
      engine := { s.engine with outputs := s.engine.outputs &&& 0xBF#8 } } →
    (s.engine.resetPending = true →
      exec (.erst tag (.fields ())) s = .next (replied 0xC4#8 tag [0x00#8, s.engine.state.code] s)) ∧
    (s.engine.resetPending = false →
      (s.engine.state = .unready →
        exec (.erst tag (.fields ())) s = .next (replied 0xC4#8 tag [0x00#8, 0#8] v)) ∧
      (s.engine.state = .homing ∨ s.engine.state = .ready ∨ s.engine.state = .hold →
        inMotion s = false ∨ s.carriage.phase = .seek →
        exec (.erst tag (.fields ())) s =
          .next (replied 0xC4#8 tag [0x00#8, 0#8]
            { v with engine := { v.engine with state := .unready, holdTimer := none } })) ∧
      (s.engine.state = .homing ∨ s.engine.state = .ready ∨ s.engine.state = .hold →
        inMotion s = true → s.carriage.phase ≠ .seek →
        ∃ t, exec (.erst tag (.fields ())) s = .next (replied 0xC4#8 tag [0x00#8, s.engine.state.code] t) ∧
          stopping t = true ∧ t.engine = { s.engine with resetPending := true } ∧ StopOf s t ∧
          (s.carriage.phase ≠ .stopped → t.carriage.position = s.carriage.position) ∧
          (s.carriage.phase = .stopped → t.carriage = v.carriage) ∧
          (s.carriage.phase ≠ .stopped → s.carriage.phase ≠ .stopping → t.fire.due = none) ∧
          { t with
            engine := s.engine, carriage := s.carriage, fire := { t.fire with due := s.fire.due }
            paper := { t.paper with move := s.paper.move }, freeCount := s.freeCount } = u) ∧
      (s.engine.state = .rest →
        exec (.erst tag (.fields ())) s =
          .next (replied 0xC4#8 tag [0x00#8, 5#8]
            { v with engine := { v.engine with
              state := .warming, restOrigin := none, wakeTarget := some .unready
              warmTimer := some (paramNat s .warmup) } })) ∧
      (s.engine.state = .warming →
        exec (.erst tag (.fields ())) s =
          .next (replied 0xC4#8 tag [0x00#8, 5#8]
            { v with engine := { v.engine with wakeTarget := some .unready } })) ∧
      (s.engine.state = .tripped → levelAsserted s = true →
        exec (.erst tag (.fields ())) s = .next (replied 0xC4#8 tag [0x00#8, 6#8] v)) ∧
      (s.engine.state = .tripped → levelAsserted s = false →
        exec (.erst tag (.fields ())) s =
          .next (replied 0xC4#8 tag [0x00#8, 0#8]
            { v with engine := { v.engine with
              state := .unready, firstFault := none, further := 0#6, outputs := s.engine.outputs &&& 0x3F#8 } })))

/-- TOVL: a query changes nothing; a setting is refused BUSY in HOMING (before a bad value, log 24) and BAD_VALUE for an
undefined mode or input; accepted, it replaces mode and inputs, and an OBSERVE setting makes the observed counts equal
to the real ones; then the change of view acts: a level newly asserted in DRIVE arises, and of two that are the free
value says which comes first (log 12); a level newly asserted in OBSERVE's view alone makes a test trip; then, in the
model's order (log 29), the sensor newly absent in DRIVE takes LOADED to ENDING, and newly present takes ENDING back to
LOADED and may begin a wake; an input whose view stays as it was does nothing. Then the test-trip set, which the reply
gives as it stood, is emptied (R172 to R175). -/
def Obligations.TovlReplacesTheOverlay : Prop :=
  ∀ (tag : Byte) (s : State),
    (Ready (.tovl tag (.fields none)) s →
      exec (.tovl tag (.fields none)) s = .next (replied 0xC6#8 tag (tovlReply .ok s.engine.testTrips s) s)) ∧
    (∀ r : TovlReq, Ready (.tovl tag (.fields (some r))) s →
      (s.engine.state = .homing →
        exec (.tovl tag (.fields (some r))) s =
          .next (replied 0xC6#8 tag (tovlReply .busy s.engine.testTrips s) s)) ∧
      (s.engine.state ≠ .homing → 2 < r.mode.toNat ∨ 63 < r.inputs.toNat →
        exec (.tovl tag (.fields (some r))) s =
          .next (replied 0xC6#8 tag (tovlReply .badValue s.engine.testTrips s) s)) ∧
      (∀ (m : OverlayMode) (u : State), s.engine.state ≠ .homing → m.code = r.mode → r.inputs.toNat < 64 →
        u = { s with
          engine := { s.engine with
            overlayMode := m, overlayInputs := r.inputs.setWidth 6 }
          paper := { s.paper with
            observedUnpulsed := if m = .observe then s.paper.unpulsed else s.paper.observedUnpulsed }
          carriage := { s.carriage with
            observedNoMark := if m = .observe then s.carriage.noMark else s.carriage.observedNoMark } } →
        exec (.tovl tag (.fields (some r))) s =
          .next (replied 0xC6#8 tag [0x00#8, r.mode, r.inputs, s.engine.testTrips.setWidth 8]
            { overlayEffects s u with engine := { (overlayEffects s u).engine with testTrips := 0#6 } }) ∧
        (∀ hot fault hotSeen faultSeen gone back : Prop,
          (hot ↔ s.lines.headHot = false ∧ ¬ (s.engine.overlayMode = .drive ∧ s.engine.overlayInputs.getLsbD 0 = true) ∧
            m = .drive ∧ r.inputs.getLsbD 0 = true) →
          (fault ↔ s.lines.driverFault = false ∧
            ¬ (s.engine.overlayMode = .drive ∧ s.engine.overlayInputs.getLsbD 1 = true) ∧
            m = .drive ∧ r.inputs.getLsbD 1 = true) →
          (hotSeen ↔ s.lines.headHot = false ∧
            ¬ (s.engine.overlayMode ≠ .off ∧ s.engine.overlayInputs.getLsbD 0 = true) ∧
            m = .observe ∧ r.inputs.getLsbD 0 = true) →
          (faultSeen ↔ s.lines.driverFault = false ∧
            ¬ (s.engine.overlayMode ≠ .off ∧ s.engine.overlayInputs.getLsbD 1 = true) ∧
            m = .observe ∧ r.inputs.getLsbD 1 = true) →
          (gone ↔ s.lines.paper = true ∧ ¬ (s.engine.overlayMode = .drive ∧ s.engine.overlayInputs.getLsbD 2 = true) ∧
            m = .drive ∧ r.inputs.getLsbD 2 = true) →
          (back ↔ s.lines.paper = true ∧ s.engine.overlayMode = .drive ∧ s.engine.overlayInputs.getLsbD 2 = true ∧
            ¬ (m = .drive ∧ r.inputs.getLsbD 2 = true)) →
          ∃ v w : State,
            (¬ hot → ¬ fault → v = u) ∧ (hot → ¬ fault → v = arise .headHot u) ∧
            (¬ hot → fault → v = arise .driverFault u) ∧
            (hot → fault → ∀ y, y = { u with freeCount := s.freeCount + 1 } →
              v = arise .driverFault (arise .headHot y) ∨ v = arise .headHot (arise .driverFault y)) ∧
            (¬ hotSeen → ¬ faultSeen → w = v) ∧ (hotSeen → ¬ faultSeen → w = testTripFor .headHot v) ∧
            (¬ hotSeen → faultSeen → w = testTripFor .driverFault v) ∧
            (hotSeen → faultSeen → w = testTripFor .driverFault (testTripFor .headHot v)) ∧
            (¬ gone → ¬ back → overlayEffects s u = w) ∧
            (gone → w.paper.state ≠ .loaded → overlayEffects s u = w) ∧
            (gone → w.paper.state = .loaded →
              overlayEffects s u =
                { w with paper := { w.paper with state := .ending, remaining := paramNat s .enddist } }) ∧
            (back → w.paper.state ≠ .ending ∨ w.paper.remaining = 0 → overlayEffects s u = wakeIfDue w) ∧
            (back → w.paper.state = .ending → w.paper.remaining ≠ 0 →
              overlayEffects s u =
                wakeIfDue { w with paper := { w.paper with
                  state := .loaded, remaining := 0
                  move := w.paper.move.map (fun m => { m with ended := m.over .loaded }) } }))))

/-! ## Reset (R3, R16, R75, R99, R112, R116, R128, R154, R163, R177, R196) -/

/-- POWER_ON and the RESET line set every record to its reset value, read the strap, and let a level already asserted
trip the part in UNREADY; which of two such levels is taken first is left open (R163, R166, log 12). The lines keep
their levels (log 9). The failing mark, the seek's travel, the profile, the due group, the feed move's and the
receiver's fields, whose reset values no rule gives, are at rest (log 11), and of the model's own fields the command
queue and the free-value counter stand and the others are empty (log 10). -/
def Obligations.PowerOnResetsEveryRecord : Prop :=
  ∀ (strap : LinkRate) (s u : State), u = State.powerOnState strap s.lines s.freeCount s.pending →
    exec (.resetLine strap) s = exec (.powerOn strap) s ∧
    (s.lines.headHot = false → s.lines.driverFault = false → exec (.powerOn strap) s = .next u) ∧
    (s.lines.headHot = true → s.lines.driverFault = false → exec (.powerOn strap) s = .next (trip .headHot u)) ∧
    (s.lines.headHot = false → s.lines.driverFault = true → exec (.powerOn strap) s = .next (trip .driverFault u)) ∧
    (s.lines.headHot = true → s.lines.driverFault = true → ∀ v, v = { u with freeCount := u.freeCount + 1 } →
      exec (.powerOn strap) s = .next (arise .driverFault (trip .headHot v)) ∨
      exec (.powerOn strap) s = .next (arise .headHot (trip .driverFault v))) ∧
    u.link = ⟨.hunt, strap, [], [], false, false, 0#13, 0x1FFF#13, .free⟩ ∧
    (∀ i : Fin 8, u.slots[i] = ⟨.free, 0, 0, []⟩) ∧ u.queue = [] ∧ u.completions = [] ∧ u.holds = ⟨false, false⟩ ∧
    u.exec = ⟨.idle, none, none, none, false⟩ ∧
    u.carriage = ⟨none, .stopped, none, false, none, 0, 0, 0, 0, 0, 0, none⟩ ∧
    (∀ r : Fin 24, u.fire.pinMap[r] = ⟨r, if r.val % 2 = 0 then 0 else 6, true⟩ ∧ u.fire.openCounts[r] = 0) ∧
    u.fire.inhibit = 0#24 ∧ u.fire.failed = 0#24 ∧ u.fire.driving = 0#24 ∧ u.fire.planInhibit = 0#24 ∧
    u.fire.due = none ∧ u.fire.pendingTable = none ∧
    u.fire.table = ⟨#v[200, 220, 245, 270, 300, 330], #v[190, 210, 235, 260, 290, 320]⟩ ∧
    u.heat = ⟨0, false, .cool, none⟩ ∧
    u.paper = ⟨⟨3960, 1, 0, 0, 0, [⟨0, 0x0002#16⟩]⟩, none, .out, 0, 0#16, 0, false, 0, 0, 0, none, false⟩ ∧
    u.engine = ⟨.unready, none, none, none, none, false, none, 0#6, .off, 0#6, 0#6, 0#8⟩ ∧
    (∀ g : General, u.counters.live.general[g.index] = 0 ∧ u.counters.snapshot.general[g.index] = 0) ∧
    (∀ p : Fin 24, u.counters.live.strikes[p] = 0 ∧ u.counters.snapshot.strikes[p] = 0) ∧
    u.counters.live.generalHalf = 0#10 ∧ u.counters.snapshot.generalHalf = 0#10 ∧
    u.counters.live.strikesHalf = 0#24 ∧ u.counters.snapshot.strikesHalf = 0#24 ∧
    (∀ id, param u id = paramDefault id) ∧ u.lines = s.lines ∧ u.pending = s.pending ∧
    u.freeCount = s.freeCount ∧ u.txLine = [] ∧ u.motorStep = none

/-! ## The Line Executor (R36 to R41, R49, R54 to R74, R84, R121, R122, R144 to R150) -/

/-- EXECUTOR_START, with the executor IDLE, no hold, the engine READY or HOLD and no ERST waiting: a held entry resumes;
otherwise the oldest entry is activated, its slot PRINTING, if at most 31 records are held and its start checks pass,
and a failed check adds PAPER_OUT and raises its event; with those conditions not met nothing changes (R37 to R39, R49).
A held entry resumes from its resume point: staging judged again, planning, the first pass not done, the feed-after or
its own move (R49). -/
def Obligations.ExecutorStartsOrResumesWork : Prop :=
  (∀ s : State, Settled s → (s.queue = [] → exec .executorStart s = .next s) ∧
     ∀ (e : Entry) (rest : List Entry), s.queue = e :: rest →
     (s.exec.state ≠ .idle ∨ holdsEmpty s = false ∨ readyOrHold s = false ∨ s.engine.resetPending = true ∨
       (e.active = false ∧ 32 ≤ s.completions.length) →
       exec .executorStart s = .next s) ∧
     (s.exec.state = .idle → holdsEmpty s = true → readyOrHold s = true → s.engine.resetPending = false →
       (e.active = true → exec .executorStart s = .next (resumeEntry e s)) ∧
       (e.active = false → s.completions.length ≤ 31 →
         (s.paper.state = .out ∨ (s.paper.state = .ending ∧ s.paper.remaining < 48 ∧ ∃ f, e.kind = .line f) →
           exec .executorStart s =
             .next (raise .paperOut { s with holds := { s.holds with paperOut := true } })) ∧
         (s.paper.state = .loaded ∨
             (s.paper.state = .ending ∧ (48 ≤ s.paper.remaining ∨ ∀ f, e.kind ≠ .line f)) →
           exec .executorStart s =
             .next (prepare e.kind
               { s with
                 queue := ⟨e.tag, e.kind, true⟩ :: rest
                 exec := { s.exec with state := .prepare, resume := none, plan := none }
                 slots := (match e.kind with
                   | .line f => s.slots.set f.slot { s.slots[f.slot] with state := .printing }
                   | .feed _ | .skip _ | .tear => s.slots) }))))) ∧
  (∀ (s : State) (e : Entry),
     (s.exec.resume = some .staging → resumeEntry e s = prepare e.kind s) ∧
     (∀ f, s.exec.resume = some .plan → e.kind = .line f →
       resumeEntry e s =
         nextWork (planned f { s with exec := { s.exec with state := .prepare, resume := none } })) ∧
     (∀ j, s.exec.resume = some (.pass j) →
       resumeEntry e s = nextWork { s with exec := { s.exec with resume := none } }) ∧
     (∀ f, s.exec.resume = some .feedAfter → activeLine s = some f → 1 ≤ f.feedAfter →
       resumeEntry e s =
         startFeed .feedAfter .forward f.feedAfter
           { s with exec := { s.exec with state := .advance, resume := none } }) ∧
     (∀ f, s.exec.resume = some .feedAfter → activeLine s = some f → f.feedAfter = 0 →
       resumeEntry e s =
         retire (if (s.exec.plan.map (fun p => p.clamped)).getD false then .clampedPulse else .done)
           { s with exec := { s.exec with state := .advance, resume := none } }) ∧
     (s.exec.resume = some .motion → resumeEntry e s = beginMove e.kind s))

/-- The moves of FEED, SKIP and TEAR with no presentation to retract: distance and direction, a reverse move limited by
REVLIM and the top of form, a stop searched in this form and then in the next, the presentation on FANFOLD and the eject
on SHEET; what needs no step retires at once (R41, R144 to R147, R149). -/
def Obligations.EntriesMakeTheirMoves : Prop :=
  ∀ (s u : State), u = { s with exec := { s.exec with state := .advance, resume := none } } →
    (∀ k, k = .tear ∨ s.paper.tearPresented = false → (∀ f, k ≠ .line f) → prepare k s = beginMove k s) ∧
    (∀ d : Int, 0 < d → beginMove (.feed d) s = startFeed (.feed false) .forward d.toNat u) ∧
    (beginMove (.feed 0) s = retire .done u) ∧
    (∀ d : Int, d < 0 → ∀ n, n = min d.natAbs (min (paramNat s .revlim) s.paper.y) →
      (n = 0 → beginMove (.feed d) s = retire .clampedReverse u) ∧
      (1 ≤ n → n < d.natAbs → beginMove (.feed d) s = startFeed (.feed true) .reverse n u) ∧
      (1 ≤ n → n = d.natAbs → beginMove (.feed d) s = startFeed (.feed false) .reverse n u)) ∧
    (∀ (n : Nat) (before after : List Stop) (x : Stop),
      s.paper.active.stops.filter (fun x => decide (s.paper.y < x.position)) = before ++ x :: after →
      (∀ z ∈ before, z.channels.getLsbD n = false) → x.channels.getLsbD n = true →
      beginMove (.skip n) s = startFeed .skip .forward (x.position - s.paper.y) u) ∧
    (∀ (n : Nat), (∀ z ∈ s.paper.active.stops, s.paper.y < z.position → z.channels.getLsbD n = false) →
      (∀ (next before after : List Stop) (x : Stop),
        next = (match s.paper.next with
          | some d => d.stops
          | none => s.paper.active.stops) →
        ((∀ z ∈ next, z.channels.getLsbD n = false) → beginMove (.skip n) s = retire .failedNoChannel u) ∧
        (next = before ++ x :: after → (∀ z ∈ before, z.channels.getLsbD n = false) → x.channels.getLsbD n = true →
          beginMove (.skip n) s =
            startFeed .skip .forward (s.paper.active.length - s.paper.y + x.position) u))) ∧
    (param s .path = 0 → s.paper.active.tear = 0 ∨ s.paper.tearPresented = true →
      beginMove .tear s = retire .done u) ∧
    (param s .path = 0 → s.paper.active.tear ≠ 0 → s.paper.tearPresented = false →
      beginMove .tear s =
        startFeed .present .forward s.paper.active.tear
          { u with paper := { s.paper with tearPresented := true, tearDistance := 0 } }) ∧
    (param s .path ≠ 0 → beginMove .tear s = startFeed (.eject s.paper.active.length) .forward 0 u)

/-- PREPARE of a LINE, FEED or SKIP first retracts a standing presentation by its distance, at once when that is 0; a
LINE on FANFOLD is then fed to its skip-top, or to the next top of form where the band would not fit, and is otherwise
planned at once; a feed move starts with the engine READY and the hold timer stopped (R78, R137, R148, R150, R54). -/
def Obligations.PreparationRetractsAndSkips : Prop :=
  ∀ (s u : State), u = { s with exec := { s.exec with state := .prepare, resume := none } } →
    (∀ k, k ≠ .tear → s.paper.tearPresented = true →
      (1 ≤ s.paper.tearDistance → prepare k s = startFeed .retract .reverse s.paper.tearDistance u) ∧
      (s.paper.tearDistance = 0 →
        prepare k s = prepare k { u with paper := { s.paper with tearPresented := false } })) ∧
    (∀ f, s.paper.tearPresented = false →
      (param s .path = 0 → s.paper.y < s.paper.active.skipTop →
        prepare (.line f) s = startFeed .perfSkip .forward (s.paper.active.skipTop - s.paper.y) u) ∧
      (param s .path = 0 → s.paper.active.skipTop ≤ s.paper.y → s.paper.y < s.paper.active.length →
        s.paper.active.length < s.paper.y + 48 + s.paper.active.skipBottom →
        prepare (.line f) s = startFeed .perfSkip .forward (s.paper.active.length - s.paper.y) u) ∧
      (param s .path ≠ 0 ∨ (s.paper.active.skipTop ≤ s.paper.y ∧
          s.paper.y + 48 + s.paper.active.skipBottom ≤ s.paper.active.length) →
        prepare (.line f) s = nextWork (planned f u))) ∧
    (∀ (p : Purpose) (d : Dir) (n : Nat),
      startFeed p d n s =
        { s with
          paper := { s.paper with move := some ⟨p, d, n, 0, false, false⟩ }
          engine := { s.engine with
            state := (if s.engine.state = .hold then .ready else s.engine.state), holdTimer := none } })

/-- The work of a planned line: its first pass not done goes to the heat gate, which admits it with the latch clear and
H + h within CEILING or H within RESUME; an admitted pass starts, or a reposition to its start point; a refused one
waits in COOL with THERMAL_WAIT raised and counted, and each later test that admits ends the wait; with every pass done
the feed-after is made, or the line retires (R40, R65, R84, R121, R122). -/
def Obligations.PassesGoThroughTheHeatGate : Prop :=
  ∀ (s : State) (plan : Plan), s.exec.plan = some plan →
    (∀ (before after : List PassRec) (r : PassRec) (pf : Profile),
      plan.passes = before ++ r :: after → (∀ q ∈ before, q.done = true) → r.done = false →
      pf = passProfile r plan.speed (paramNat s .accel) →
      (s.heat.latch = false → s.heat.h + r.heat ≤ paramNat s .ceiling ∨ s.heat.h ≤ paramNat s .resume →
        (s.carriage.position.getD 0 = pf.origin →
          nextWork s = startPass plan r { s with heat := { s.heat with waiting := none } }) ∧
        (s.carriage.position.getD 0 ≠ pf.origin →
          nextWork s =
            { s with
              exec := { s.exec with state := .position }
              heat := { s.heat with waiting := none }
              engine := s.engine.motionStarted
              carriage := { s.carriage with
                phase := .reposition, noMark := 0, observedNoMark := 0
                direction := some (if s.carriage.position.getD 0 < pf.origin then .forward else .reverse)
                profile := some ⟨s.carriage.position.getD 0, pf.origin, s.carriage.position.getD 0, pf.origin,
                  paramNat s .slew, paramNat s .accel⟩ } })) ∧
      (s.heat.latch = true ∨ (paramNat s .ceiling < s.heat.h + r.heat ∧ paramNat s .resume < s.heat.h) →
        nextWork s =
          count .thermalWaits 1
            (raise .thermalWait
              { s with
                exec := { s.exec with state := .cool }, heat := { s.heat with waiting := some r.heat } })) ∧
      (s.heat.waiting = some r.heat →
        (s.heat.latch = false → s.heat.h + r.heat ≤ paramNat s .ceiling ∨ s.heat.h ≤ paramNat s .resume →
          retest s = nextWork s) ∧
        (s.heat.latch = true ∨ (paramNat s .ceiling < s.heat.h + r.heat ∧ paramNat s .resume < s.heat.h) →
          retest s = s)) ∧
      (s.heat.waiting = none → retest s = s)) ∧
    (plan.passes.all (fun r => r.done) = true → ∀ f, activeLine s = some f →
      ∀ u, u = { s with exec := { s.exec with state := .advance, resume := none } } →
      (1 ≤ f.feedAfter → nextWork s = startFeed .feedAfter .forward f.feedAfter u) ∧
      (f.feedAfter = 0 → plan.clamped = false → nextWork s = retire .done u) ∧
      (f.feedAfter = 0 → plan.clamped = true → nextWork s = retire .clampedPulse u))

/-- The class, shingle factor and pulse width of a plan: the highest class within the cap that passes the pulse fit and
the recovery test at the smallest factor at which one does, no recovery test at factor 4, and a pulse that fits no class
clamped to class 0 (R61 to R65). -/
def Obligations.ClassChoiceTakesTheFirstThatFits : Prop :=
  ∀ (speed : Nat → Nat) (adjacent twoApart : Bool) (recovery q w : Nat) (c : Choice),
    c = chooseClass speed adjacent twoApart recovery q w →
    ∀ (fits : Nat → Prop) (recovers : Nat → Nat → Prop),
    (∀ k, fits k ↔ 4 * w * speed k ≤ 3000000) →
    (∀ k f, recovers k f ↔
      (f = 1 → adjacent = true → speed k * recovery ≤ 1000000) ∧
      (f = 2 → twoApart = true → speed k * recovery ≤ 2000000)) →
    ((∀ k, k ≤ q → ¬ fits k) →
      c.cls = 0 ∧ c.width = 750000 / speed 0 ∧ c.unfit = true ∧
      (c.shingle = 1 ∨ c.shingle = 2 ∨ c.shingle = 4) ∧ recovers 0 c.shingle ∧
      (∀ f, f = 1 ∨ f = 2 → f < c.shingle → ¬ recovers 0 f)) ∧
    ((∃ k, k ≤ q ∧ fits k) →
      c.width = w ∧ c.unfit = false ∧ c.cls ≤ q ∧ fits c.cls ∧ recovers c.cls c.shingle ∧
      (c.shingle = 1 ∨ c.shingle = 2 ∨ c.shingle = 4) ∧
      (∀ k, c.cls < k → k ≤ q → ¬ (fits k ∧ recovers k c.shingle)) ∧
      (∀ f, f = 1 ∨ f = 2 → f < c.shingle → ∀ k, k ≤ q → ¬ (fits k ∧ recovers k f)))

/-- The passes of a plan hold every dot of the line once, twice in DOUBLE. A pass holds the dots of its own subset, all
of them and no other: its dot count is their number, its heat so many times floor(w / 16), and its span runs from their
lowest reference column c + o to their highest; the subsets of one set of passes differ and come in order, and every
subset that holds a dot has its pass; the dots left out are the excluded ones; f is 1, 2 or 4, and below 4 every pass
fits CEILING − RESUME (R53, R59, R67 to R70). -/
def Obligations.PlanHoldsEveryDotOnce : Prop :=
  ∀ (f : LineFields) (s : State) (plan : Plan) (left all : Nat) (columns : List Column) (dots : List (Nat × Nat))
    (member : Option Nat → Nat → Bool),
    plan = buildPlan f s → columns = s.slots[f.slot].cols → left = s.slots[f.slot].left →
    all = (columns.map (fun c => ((List.finRange 24).filter (fun r => c.getLsbD r)).length)).sum →
    dots = columns.zipIdx.flatMap (fun ci =>
      ((List.finRange 24).filter (fun r =>
        ci.1.getLsbD r && s.fire.pinMap[r].enabled && !s.fire.inhibit.getLsbD s.fire.pinMap[r].pin)).map
        (fun r => (left + ci.2, left + ci.2 + s.fire.pinMap[r].offset.val))) →
    (∀ c, member none c = true) → (∀ j c, member (some j) c = decide (c % plan.shingle = j)) →
    (plan.passes.map (fun r => r.dots)).sum = (match f.mode with
      | .single => dots.length
      | .double => 2 * dots.length) ∧
    plan.dropped + dots.length = all ∧
    (∀ r ∈ plan.passes,
      r.dots = (dots.filter (fun x => member r.subset x.1)).length ∧ 1 ≤ r.dots ∧
      r.heat = r.dots * (plan.width / 16) ∧ r.done = false ∧
      (∀ x ∈ dots, member r.subset x.1 = true → r.lo ≤ x.2 ∧ x.2 ≤ r.hi) ∧
      (∃ x ∈ dots, member r.subset x.1 = true ∧ x.2 = r.lo) ∧
      (∃ x ∈ dots, member r.subset x.1 = true ∧ x.2 = r.hi) ∧
      (r.subset = none ↔ plan.shingle = 1) ∧ (∀ j, r.subset = some j → j < plan.shingle)) ∧
    (∀ x ∈ dots, ∃ r ∈ plan.passes, member r.subset x.1 = true) ∧
    (∃ l : List (Option Nat), l.Pairwise (fun a b => ∃ i j, a = some i ∧ b = some j ∧ i < j) ∧
      plan.passes.map (fun r => r.subset) = (match f.mode with
        | .single => l
        | .double => l ++ l)) ∧
    (plan.shingle = 1 ∨ plan.shingle = 2 ∨ plan.shingle = 4) ∧
    (plan.shingle ≠ 4 → ∀ r ∈ plan.passes, r.heat ≤ paramNat s .ceiling - paramNat s .resume)

/-! ## The carriage and the pins (R79 to R107) -/

/-- The motion of a line: a reposition that arrives starts its pass, or a pending HALT in PASS mode holds the entry
there; RAMP_UP reaches CRUISE with the first group due; CRUISE ends with no group due and no pulse running, which is the
model's reading (log 8); RAMP_DOWN arrives, and the pass is done and counted, the ribbon off and the hold timer started;
each is reached with the commanded position there (log 5), the no-mark distance staying short of 96 ticks on the way,
and a row whose motion is not in progress or whose place cannot be reached so changes nothing (log 4) (R47, R82 to R85,
R91, R94, R111, R158). -/
def Obligations.PassMotionsFollowOneAnother : Prop :=
  ∀ (s : State) (pf : Profile), Settled s → s.carriage.profile = some pf →
    (s.carriage.noMark + legLeft s < 96 →
    (s.exec.state = .position → s.carriage.phase = .reposition → ∀ slot plan r, working s = some (slot, plan, r) →
      ∀ u, u = endMotion (reach pf.target s) →
      (s.exec.pendingHalt ≠ some .pass → exec .repositionEnd s = .next (startPass plan r u)) ∧
      (s.exec.pendingHalt = some .pass →
        exec .repositionEnd s =
          .next { u with
            holds := { s.holds with halted := true }
            exec := { s.exec with
              state := .idle, pendingHalt := none
              resume := some (.pass (plan.passes.takeWhile (fun r => r.done)).length) } })) ∧
    (s.carriage.phase = .rampUp → ∀ u, u = reach pf.edgeIn s →
      ∀ v, v = { u with carriage := { u.carriage with phase := .cruise } } →
      exec .cruiseStart s = .next { v with fire := { s.fire with due := nextDue v none } }) ∧
    (s.carriage.phase = .cruise → s.fire.due = none → s.fire.driving = 0#24 → ∀ u, u = reach pf.edgeOut s →
      exec .cruiseEnd s = .next { u with carriage := { u.carriage with phase := .rampDown } }) ∧
    (s.carriage.phase = .rampDown → s.exec.state = .pass → ∀ plan before after r, s.exec.plan = some plan →
      plan.passes = before ++ r :: after → (∀ q ∈ before, q.done = true) → r.done = false →
      ∀ u, u = count .passes 1 (setRibbon false (endMotion (reach pf.target
        { s with exec := { s.exec with plan := some { plan with
            passes := before ++ { r with done := true } :: after } } }))) →
      (s.exec.pendingHalt ≠ some .pass → exec .passEnd s = .next (nextWork u)) ∧
      (s.exec.pendingHalt = some .pass →
        exec .passEnd s =
          .next { u with
            holds := { s.holds with halted := true }
            exec := { u.exec with
              state := .idle, pendingHalt := none
              resume := some (if after.all (fun q => q.done) then .feedAfter
                else .pass (before.length + 1 + (after.takeWhile (fun q => q.done)).length)) } }))) ∧
    (96 ≤ s.carriage.noMark + legLeft s →
      exec .repositionEnd s = .next s ∧ exec .cruiseStart s = .next s ∧ exec .cruiseEnd s = .next s ∧
      exec .passEnd s = .next s) ∧
    (s.carriage.phase ≠ .reposition → exec .repositionEnd s = .next s) ∧
    (s.carriage.phase ≠ .rampUp → exec .cruiseStart s = .next s) ∧
    (s.carriage.phase ≠ .cruise ∨ s.fire.due ≠ none ∨ s.fire.driving ≠ 0#24 → exec .cruiseEnd s = .next s) ∧
    (s.carriage.phase ≠ .rampDown → exec .passEnd s = .next s)

/-- Motions. A place ahead is reached by travel in the direction of motion, a place already reached by none; every tick
of travel counts towards both no-mark distances and, in the seek, towards its own count, and the tick at which the
observed distance alone comes to 96 in OBSERVE makes a test trip, from which that distance starts again at 0. The travel
left goes to the end point of a move, a ramp down or a controlled stop, to the near cruise edge in RAMP_UP, to the due
group's fire position or else the far cruise edge in CRUISE, and to 62,400 ticks in the seek; no step of time passes
that place or the loss of the encoder (log 5). That the observed distance follows the real one outside OBSERVE is the
model's choice (log 17). A pass's motion starts in RAMP_UP with its four points, the ribbon on, which is output 6 alone,
and the engine READY; a motion's end leaves the carriage STOPPED and, in READY, starts the hold timer at HOLDDLY (R76,
R78, R79, R82, R91, R94, R111, R158, R174). -/
def Obligations.MotionsStartTravelAndEnd : Prop :=
  ∀ (s : State),
    (∀ (d : Dir) (p q : Int) (n : Nat), s.carriage.direction = some d → s.carriage.position = some p →
      ((d = .forward → q = p + n) → (d = .reverse → q = p - n) → reach q s = travel n s) ∧
      ((d = .forward → q < p) → (d = .reverse → p < q) → reach q s = travel 0 s)) ∧
    (∀ (d : Dir) (n : Nat) (u : State), s.carriage.direction = some d →
      u = { s with carriage := { s.carriage with
        position := s.carriage.position.map (fun p => match d with
          | .forward => p + n
          | .reverse => p - n)
        seekTravel := if s.carriage.phase = .seek then s.carriage.seekTravel + n else s.carriage.seekTravel
        noMark := min 96 (s.carriage.noMark + n)
        observedNoMark := min 96 (s.carriage.observedNoMark + n) } } →
      (s.engine.overlayMode ≠ .observe ∨ n = 0 ∨ s.carriage.observedNoMark + n < 96 ∨
          s.carriage.observedNoMark ≤ s.carriage.noMark → travel n s = u) ∧
      (s.engine.overlayMode = .observe → 1 ≤ n → 96 ≤ s.carriage.observedNoMark + n →
        s.carriage.noMark < s.carriage.observedNoMark →
        travel n s = testTripFor .encoderLost
          { u with carriage := { u.carriage with observedNoMark := s.carriage.observedNoMark + n - 96 } })) ∧
    (∀ (d : Dir) (pf : Profile) (p q : Int), s.carriage.direction = some d → s.carriage.profile = some pf →
      s.carriage.position = some p →
      ((s.carriage.phase = .park ∨ s.carriage.phase = .reposition ∨ s.carriage.phase = .rampDown ∨
          s.carriage.phase = .stopping) ∧ q = pf.target) ∨
        (s.carriage.phase = .rampUp ∧ q = pf.edgeIn) ∨
        (s.carriage.phase = .cruise ∧ s.fire.due = none ∧ q = pf.edgeOut) ∨
        (s.carriage.phase = .cruise ∧ s.fire.due.map (fun g => g.firePos) = some q) →
      (∀ n : Nat, (d = .forward → q = p + n) → (d = .reverse → q = p - n) → legLeft s = n) ∧
      ((d = .forward → q < p) → (d = .reverse → p < q) → legLeft s = 0)) ∧
    (s.carriage.phase = .seek → legLeft s = 62400 - s.carriage.seekTravel) ∧
    room s = min (legLeft s) (96 - s.carriage.noMark) ∧
    (∀ (plan : Plan) (r : PassRec) (a v : Nat) (R : Int), a = paramNat s .accel → v = plan.speed → 0 < a →
      R = ((v * v - 40000 + (2 * a - 1)) / (2 * a) : Nat) →
      startPass plan r s =
        { s with
          exec := { s.exec with state := .pass }
          engine := { s.engine with
            state := (if s.engine.state = .hold then .ready else s.engine.state), holdTimer := none
            outputs := s.engine.outputs ||| 0x40#8 }
          carriage := { s.carriage with
            phase := .rampUp, direction := some r.dir, noMark := 0, observedNoMark := 0
            profile := some (match r.dir with
              | .forward => ⟨16 * (r.lo - 12 - R), 16 * (r.hi + 12 + R), 16 * (r.lo - 12), 16 * (r.hi + 12), v, a⟩
              | .reverse => ⟨16 * (r.hi + 12 + R), 16 * (r.lo - 12 - R), 16 * (r.hi + 12), 16 * (r.lo - 12), v, a⟩) } }) ∧
    endMotion s =
      { s with
        carriage := { s.carriage with phase := .stopped, direction := none, profile := none }
        engine := { s.engine with
          holdTimer := if s.engine.state = .ready then some (paramNat s .holddly) else s.engine.holdTimer } } ∧
    (∀ on : Bool, ∃ o : BitVec 8, setRibbon on s = { s with engine := { s.engine with outputs := o } } ∧
      ∀ i : Fin 8, o.getLsbD i = (if i.val = 6 then on else s.engine.outputs.getLsbD i))

/-- The due fire group is taken in READY and CRUISE: the position is reached, which the row brings about (log 5), each
of its dots is dropped and counted when its pin is on the inhibit list or still driving and is fired otherwise, with
floor(w / 16) of heat and one strike, all in this one step (log 32), and the next group falls due; the place is reached
with the no-mark distance short of 96 ticks, and otherwise nothing changes (log 4); no other command starts a pulse, and
a pulse never starts on an inhibited pin (R91, R94, R101 to R105). -/
def Obligations.FireGroupIsTakenInCruise : Prop :=
  ∀ s : State,
    (∀ g slot plan r, Settled s → s.fire.due = some g → working s = some (slot, plan, r) →
      (s.engine.state = .ready → s.carriage.phase = .cruise → s.carriage.noMark + legLeft s < 96 →
        exec .fireGroupTaken s =
          .next (setDue (some g.column)
            ((groupRows s slot plan.shingle r g.column).foldl (fireDot plan.width) (reach g.firePos s)))) ∧
      (s.engine.state ≠ .ready ∨ s.carriage.phase ≠ .cruise ∨ 96 ≤ s.carriage.noMark + legLeft s →
        exec .fireGroupTaken s = .next s)) ∧
    (∀ (w : Nat) (row : Fin 24) (p : Fin 24), p = s.fire.pinMap[row].pin →
      (s.fire.inhibit.getLsbD p = true ∨ s.fire.driving.getLsbD p = true →
        fireDot w s row = count .droppedDots 1 s) ∧
      (s.fire.inhibit.getLsbD p = false → s.fire.driving.getLsbD p = false →
        ∃ t, fireDot w s row = t ∧ (∀ q : Fin 24, t.fire.driving.getLsbD q =
            (s.fire.driving.getLsbD q || decide (q = p))) ∧
          t.heat.h = min (s.heat.h + w / 16) 16777215 ∧
          t.counters.live.strikes = s.counters.live.strikes.set p (min (s.counters.live.strikes[p] + 1) 268435455) ∧
          t.counters.live.general = s.counters.live.general ∧
          { t with
            fire := { t.fire with driving := s.fire.driving }, heat := s.heat
            counters := s.counters, link := s.link } = s)) ∧
    (∀ (c : Instr) (t : State) (q : Fin 24), exec c s = .next t → s.fire.driving.getLsbD q = false →
      t.fire.driving.getLsbD q = true →
      c = .fireGroupTaken ∧ s.engine.state = .ready ∧ s.carriage.phase = .cruise ∧ s.fire.inhibit.getLsbD q = false)

/-- PULSE_END releases a driving pin: OK sets its count to 0, OPEN adds one up to 32, and with OPENLIM in 1..32 a count
at or above it puts the pin on the inhibit list and the failed-pin set and raises PIN_FAILED; the last pulse that
outlasts an ERST's stop empties the plan-time inhibit set; a pin that is not driving gives no result, and nothing
changes (log 4) (R99, R103, R106, R107, R110). With OPENLIM 1 the first OPEN after a PINH has cleared the count inhibits
the pin, as R8 and R107 give and R13's second case does not, which is the model's choice (log 36). -/
def Obligations.PulseEndAppliesTheSense : Prop :=
  ∀ (s : State) (p : Fin 24) (u : Nat → State), Settled s →
    (∀ n, u n = { s with fire := { s.fire with
      driving := s.fire.driving &&& ~~~BitVec.twoPow 24 p, openCounts := s.fire.openCounts.set p n
      planInhibit := if hasActive s = false ∧ s.engine.resetPending = false ∧
        s.fire.driving &&& ~~~BitVec.twoPow 24 p = 0#24 then 0#24 else s.fire.planInhibit } }) →
    (s.fire.driving.getLsbD p = false → ∀ isOpen, exec (.pulseEnd p isOpen) s = .next s) ∧
    (s.fire.driving.getLsbD p = true →
      exec (.pulseEnd p false) s = .next (u 0) ∧
      (∀ n, n = min 32 (s.fire.openCounts[p] + 1) →
        (param s .openlim ≤ 0 ∨ 32 < param s .openlim ∨ (n : Int) < param s .openlim →
          exec (.pulseEnd p true) s = .next (u n)) ∧
        (1 ≤ param s .openlim → param s .openlim ≤ 32 → param s .openlim ≤ (n : Int) →
          exec (.pulseEnd p true) s =
            .next (raise .pinFailed { u n with fire := { (u n).fire with
              inhibit := s.fire.inhibit ||| BitVec.twoPow 24 p
              failed := s.fire.failed ||| BitVec.twoPow 24 p } }))))

/-- MARK_EDGE, after the travel since the last step (log 5): with the homed flag set K moves by the edge's own direction
and the deviation phase + 32 K − p trips CARRIAGE_SLIP beyond SLIPLIM, and otherwise updates the filter of the motion's
direction by trunc((16 d − D) / 2^FDEPTH); the first edge of the park move captures the coordinate; each of these edges,
one in the seek and one in a stop before the capture (log 14), sets the no-mark distance to 0, and the observed one too
unless OBSERVE holds MARK_STALL, when one that has come to 96 is a test trip (log 17); MARK_STALL in DRIVE suppresses
the edge (R79, R80, R86 to R88, R93, R94, R173, R174). -/
def Obligations.MarkEdgeCountsAndCorrects : Prop :=
  ∀ (s u : State) (dir : Dir) (n : Nat) (stall : Bool) (cleared : State → State), Settled s →
    u = travel (min n (room s)) s →
    stall = (decide (s.engine.overlayMode = .observe) && s.engine.overlayInputs.getLsbD 4) →
    (∀ x : State,
      (stall = false → cleared x = { x with carriage := { x.carriage with noMark := 0, observedNoMark := 0 } }) ∧
      (stall = true → x.carriage.observedNoMark < 96 →
        cleared x = { x with carriage := { x.carriage with noMark := 0 } }) ∧
      (stall = true → 96 ≤ x.carriage.observedNoMark →
        cleared x =
          testTripFor .encoderLost { x with carriage := { x.carriage with noMark := 0, observedNoMark := 0 } })) →
    (s.engine.overlayMode = .drive → s.engine.overlayInputs.getLsbD 4 = true →
      exec (.markEdge dir n) s = .next u) ∧
    (s.engine.overlayMode ≠ .drive ∨ s.engine.overlayInputs.getLsbD 4 = false →
      (s.carriage.homed = true → ∀ k d : Int, k = s.carriage.markCount + (if dir = .forward then 1 else -1) →
        d = s.carriage.markPhase.getD 0 + 32 * k - u.carriage.position.getD 0 →
        ∀ v, v = cleared { u with carriage := { u.carriage with markCount := k } } →
        (param s .sliplim < (d.natAbs : Int) → exec (.markEdge dir n) s = .next (arise .carriageSlip v)) ∧
        ((d.natAbs : Int) ≤ param s .sliplim → ∀ g : Int → Int,
          (∀ x, g x = x + (16 * d - x).tdiv (2 ^ paramNat s .fdepth)) →
          exec (.markEdge dir n) s =
            .next { v with carriage := { v.carriage with
              devForward := if s.carriage.direction = some .forward then g s.carriage.devForward
                else s.carriage.devForward
              devReverse := if s.carriage.direction = some .reverse then g s.carriage.devReverse
                else s.carriage.devReverse } })) ∧
      (s.carriage.homed = false → s.carriage.phase = .seek ∨ s.carriage.phase = .stopping →
        exec (.markEdge dir n) s = .next (cleared u)) ∧
      (s.carriage.homed = false → s.carriage.phase = .park →
        exec (.markEdge dir n) s =
          .next (cleared { u with carriage := { u.carriage with
            markPhase := u.carriage.position, markCount := 0, devForward := 0, devReverse := 0, homed := true } })) ∧
      (s.carriage.homed = false → s.carriage.phase ≠ .seek → s.carriage.phase ≠ .park →
        s.carriage.phase ≠ .stopping → exec (.markEdge dir n) s = .next u))

/-- HOME ends the seek at −4608 ticks and starts the park move; elsewhere its level alone changes; the park move that
arrives with the coordinate captured leads to the load: READY with HOMED raised when there is nothing to load, otherwise
the load feeds, the preload first on FANFOLD, which the model holds as a feed move (log 26); PARK_END brings the
position to its place (log 5), and with no captured park move, or out of reach of the no-mark limit, changes nothing
(log 4) (R79, R80, R94, R139, R157, R158). -/
def Obligations.HomingParksAndLoads : Prop :=
  ∀ s : State,
    (Settled s → exec .homeSensorInactive s = .next { s with lines := { s.lines with home := false } }) ∧
    (Settled s → s.carriage.phase ≠ .seek →
      exec .homeSensorActive s = .next { s with lines := { s.lines with home := true } }) ∧
    (Settled s → s.carriage.phase = .seek →
      exec .homeSensorActive s =
        .next { s with
          lines := { s.lines with home := true }
          engine := s.engine.motionStarted
          carriage := { s.carriage with
            position := some (-4608), phase := .park, direction := some .forward, noMark := 0, observedNoMark := 0
            seekTravel := 0
            profile := some ⟨-4608, -3200, -4608, -3200, paramNat s .slew, paramNat s .accel⟩ } }) ∧
    (Settled s → s.carriage.phase ≠ .park ∨ s.carriage.homed = false ∨ 96 ≤ s.carriage.noMark + legLeft s →
      exec .parkEnd s = .next s) ∧
    (∀ pf u, Settled s → s.carriage.profile = some pf → s.carriage.phase = .park → s.carriage.homed = true →
      s.carriage.noMark + legLeft s < 96 → u = endMotion (reach pf.target s) → exec .parkEnd s = .next (load u)) ∧
    (∀ ready : State → State,
      (∀ x, ready x = raise .homed { x with engine := { x.engine with
        state := .ready, holdTimer := some (paramNat x .holddly) } }) →
      (s.paper.state = .out → sensorPresent s = false → load s = ready s) ∧
      (s.paper.state = .loaded → load s = ready { s with holds := { s.holds with paperOut := false } }) ∧
      (s.paper.state = .ending → load s = ready s) ∧
      (s.paper.state = .out → sensorPresent s = true → ∀ u,
        u = { s with paper := { s.paper with unpulsed := 0, observedUnpulsed := 0 } } →
        (param s .path = 0 → 1 ≤ param s .preload →
          load s = startFeed (.preload (paramNat s .loaddist)) .forward (paramNat s .preload) u) ∧
        (param s .path ≠ 0 ∨ param s .preload ≤ 0 →
          (1 ≤ param s .loaddist → load s = startFeed .load .forward (paramNat s .loaddist) u) ∧
          (param s .loaddist ≤ 0 → load s = ready (loadSucceeds u)))))

/-! ## Trips (R95, R138, R152, R163 to R166, R171, R174) -/

/-- The six causes: the encoder lost at 96 ticks, the seek that has travelled 3,900 columns with HOME inactive, a jam at
the last step (log 6), a level that becomes asserted; each arises, and then joins the further causes of a part already
TRIPPED, or trips the part, where a cause other than a jam first takes the end that the last feed step brought to the
feed move, which is the model's choice (log 39); a level already asserted or going quiet changes its line alone; the
travel or feed step that makes a check true on the view of OBSERVE alone makes a test trip and stops nothing. The place
or count of a cause is reached with the command that reports it (log 27), and a command whose cause cannot come about so
changes nothing (log 4) (R79, R94, R151, R163, R164, R166, R174). -/
def Obligations.CausesTripThePart : Prop :=
  ∀ s : State,
    (Settled s →
    (s.carriage.phase ≠ .stopped → 96 ≤ s.carriage.noMark + legLeft s →
      exec .encoderLost s = .next (arise .encoderLost (travel (96 - s.carriage.noMark) s))) ∧
    (s.carriage.phase = .stopped ∨ s.carriage.noMark + legLeft s < 96 → exec .encoderLost s = .next s) ∧
    (∀ n, n = 62400 - s.carriage.seekTravel →
      (s.carriage.phase = .seek → homeActive s = false → s.carriage.noMark + n ≤ 96 →
        exec .homeFail s = .next (arise .homeFail (travel n s))) ∧
      (s.carriage.phase ≠ .seek ∨ homeActive s = true ∨ 96 < s.carriage.noMark + n →
        exec .homeFail s = .next s)) ∧
    (s.paper.jamDue = true → exec .paperJam s = .next (arise .paperJam s)) ∧
    (s.paper.jamDue = false → exec .paperJam s = .next s) ∧
    (∀ u, u = { s with lines := { s.lines with headHot := true } } →
      (headHotLevel s = false → exec .headHotAsserted s = .next (arise .headHot u)) ∧
      (headHotLevel s = true → exec .headHotAsserted s = .next u)) ∧
    (∀ u, u = { s with lines := { s.lines with driverFault := true } } →
      (driverFaultLevel s = false → exec .driverFaultAsserted s = .next (arise .driverFault u)) ∧
      (driverFaultLevel s = true → exec .driverFaultAsserted s = .next u)) ∧
    exec .headHotQuiet s = .next { s with lines := { s.lines with headHot := false } } ∧
    exec .driverFaultQuiet s = .next { s with lines := { s.lines with driverFault := false } } ∧
    (s.engine.overlayMode ≠ .observe → ∀ c, exec (.testTrip c) s = .next s) ∧
    (∀ c, c ≠ .encoderLost → c ≠ .paperJam → exec (.testTrip c) s = .next s) ∧
    (∀ jams : Prop, (jams ↔ s.engine.overlayMode = .observe ∧
        param s .jamlim ≤ (min 240 (s.paper.observedUnpulsed + 1) : Nat) ∧
        (min 240 (s.paper.unpulsed + 1) : Nat) < param s .jamlim) →
      (jams → exec (.testTrip .paperJam) s = exec .feedStep s) ∧
      (¬ jams → exec (.testTrip .paperJam) s = .next s)) ∧
    (s.engine.overlayMode = .observe → ∀ k, k = 96 - s.carriage.observedNoMark →
      (s.carriage.phase ≠ .stopped → s.carriage.noMark < s.carriage.observedNoMark → k ≤ legLeft s →
        exec (.testTrip .encoderLost) s = .next (travel k s)) ∧
      (s.carriage.phase = .stopped ∨ s.carriage.observedNoMark ≤ s.carriage.noMark ∨ legLeft s < k →
        exec (.testTrip .encoderLost) s = .next s))) ∧
    (s.engine.state ≠ .tripped → arise .paperJam s = trip .paperJam s) ∧
    (∀ c, s.engine.state ≠ .tripped → c ≠ .paperJam → arise c s = trip c (settleFeed s)) ∧
    (∀ c, s.engine.state = .tripped →
      arise c s = { s with engine := { s.engine with
        further := s.engine.further ||| BitVec.twoPow 6 (causeIndex c) } }) ∧
    (∀ c, testTripFor c s =
      raiseIf (!s.engine.testTrips.getLsbD (causeIndex c)) .testTrip
        { s with engine := { s.engine with testTrips := s.engine.testTrips ||| BitVec.twoPow 6 (causeIndex c) } })

/-- A trip is one step: the engine TRIPPED with the first-fault record of the state it found, the carriage record
cleared, pulses, group and feed move ended, the outputs named in TRIPMASK and the ribbon off and the lamp on, a jam
unloading the paper, HALTED added, TRIP raised and counted, and the ACTIVE entry retired with cause TRIP, or HALTED if
it had already failed so; the further-cause set holds the mechanism causes that had come about with it and were not yet
taken, and nothing else (R109, R138, R151, R152, R164 to R166, R171; that a jam waits for its own command is log 6, and
that the plan-time inhibit set is emptied also by a trip in an ERST's stop, with no entry ACTIVE, is log 40). -/
def Obligations.TripIsOneStep : Prop :=
  ∀ (c : TripCause) (s : State), ∀ t, t = trip c s →
    t.engine.state = .tripped ∧ t.engine.resetPending = false ∧
    (∀ x : TripCause, t.engine.further.getLsbD (causeIndex x) = true ↔ x ≠ c ∧
      ((x = .paperJam ∧ s.paper.jamDue = true) ∨
       (x = .encoderLost ∧ s.carriage.phase ≠ .stopped ∧ 96 ≤ s.carriage.noMark) ∨
       (x = .homeFail ∧ s.carriage.phase = .seek ∧ 62400 ≤ s.carriage.seekTravel ∧ homeActive s = false))) ∧
    t.engine.holdTimer = none ∧ t.engine.warmTimer = none ∧ t.engine.restOrigin = none ∧ t.engine.wakeTarget = none ∧
    t.engine.firstFault = some
      { cause := c, engine := s.engine.state, exec := s.exec.state, tag := (activeEntry s).map (fun e => e.tag)
        position := if s.carriage.homed then s.carriage.position else none, y := s.paper.y, form := s.paper.form } ∧
    (∀ i : Fin 8, t.engine.outputs.getLsbD i =
      (if i.val = 7 then true else if i.val = 6 then false
       else s.engine.outputs.getLsbD i && !(BitVec.ofNat 8 (paramNat s .tripmask)).getLsbD i)) ∧
    t.engine.overlayMode = s.engine.overlayMode ∧ t.engine.overlayInputs = s.engine.overlayInputs ∧
    t.engine.testTrips = s.engine.testTrips ∧
    t.carriage = ⟨none, .stopped, none, false, none, 0, 0, 0, 0, 0, 0, none⟩ ∧
    t.fire = { s.fire with driving := 0#24, planInhibit := 0#24, due := none } ∧
    t.paper.move = none ∧ t.paper.active = s.paper.active ∧ t.paper.next = s.paper.next ∧
    t.paper.form = s.paper.form ∧ t.paper.unpulsed = 0 ∧
    (c ≠ .paperJam → t.paper.state = s.paper.state ∧ t.paper.y = s.paper.y ∧ t.paper.remaining = s.paper.remaining ∧
      t.paper.tearPresented = s.paper.tearPresented ∧ t.paper.tearDistance = s.paper.tearDistance) ∧
    (c = .paperJam → t.paper.state = .out ∧ t.paper.y = 0 ∧ t.paper.remaining = 0 ∧
      t.paper.tearPresented = false ∧ t.paper.tearDistance = 0) ∧
    t.holds.halted = true ∧ t.holds.paperOut = s.holds.paperOut ∧ t.link.events.getLsbD 4 = true ∧
    t.counters.live.general[(8 : Fin 10)] = min (s.counters.live.general[(8 : Fin 10)] + 1) 65535 ∧
    t.heat.h = s.heat.h ∧ t.heat.latch = s.heat.latch ∧ t.heat.band = s.heat.band ∧ t.params = s.params ∧
    t.lines = s.lines ∧ t.pending = s.pending ∧
    (hasActive s = false → t.queue = s.queue ∧ t.slots = s.slots ∧ t.completions = s.completions) ∧
    (∀ e rest, s.queue = e :: rest → e.active = true →
      t.queue = rest ∧ t.exec = ⟨.idle, none, none, none, false⟩ ∧
      ∃ r, t.completions = s.completions ++ [r] ∧ r.tag = e.tag ∧
        r.outcome = (if s.exec.failing then .failedHalted else .failedTrip) ∧
        ∀ f, e.kind = .line f → t.slots = s.slots.set f.slot { s.slots[f.slot] with state := .sealed })

/-! ## The paper (R40, R134 to R142, R149 to R152) -/

/-- FEED_STEP, when the move makes another step: y and the form number change while a form is loaded, wrapping at the
active length and counting a forward crossing; the feed-steps counter rises; the unpulsed steps rise and are judged
against JAMLIM; a forward step in ENDING lowers the remaining distance; a presentation or retract moves the tear
distance; the line-feed motor is stepped once, and on FANFOLD the tractor with it; observed unpulsed steps that alone
reach JAMLIM in OBSERVE make a test trip and return to 0 (R134 to R137, R142, R147, R148, R151, R174). With no further
step to make nothing changes (log 4), nor while a jam is due, which the mark jamDue remembers (log 6); an eject makes
none with its L steps made and the sensor present, nor once a return to LOADED has ended it (R149, log 38); a move in a
controlled stop makes the step in progress, if one is left to it, and no other (R138, log 23). That the observed steps
follow the real ones outside OBSERVE is the model's choice (log 17). -/
def Obligations.FeedStepMovesThePaper : Prop :=
  ∀ (s : State) (m : FeedMove), s.paper.move = some m → ∀ t, t = feedOne m s →
    (Settled s →
    (m.stopping = false → s.paper.jamDue = false → ¬ (s.paper.state = .ending ∧ s.paper.remaining = 0) →
      (m.purpose = .load ∨ m.purpose = .retract ∨ m.purpose = .perfSkip ∨ (∃ b, m.purpose = .feed b) ∨
        m.purpose = .skip ∨ m.purpose = .present ∨ m.purpose = .feedAfter →
        (1 ≤ m.left → exec .feedStep s = .next t) ∧ (m.left = 0 → exec .feedStep s = .next s)) ∧
      (∀ k, m.purpose = .eject k →
        (m.ended = false → m.made < k ∨ s.paper.state ≠ .loaded → exec .feedStep s = .next t) ∧
        (m.ended = true ∨ (k ≤ m.made ∧ s.paper.state = .loaded) → exec .feedStep s = .next s)) ∧
      (∀ k, m.purpose = .preload k → exec .feedStep s = .next s)) ∧
    (m.stopping = true → s.paper.jamDue = false → ¬ (s.paper.state = .ending ∧ s.paper.remaining = 0) →
      (∀ k, m.purpose ≠ .preload k) →
      (1 ≤ m.left →
        (∀ k, m.purpose = .eject k → m.ended = false ∧ (m.made < k ∨ s.paper.state ≠ .loaded)) →
        exec .feedStep s = .next t) ∧
      (m.left = 0 ∨ (∃ k, m.purpose = .eject k ∧ (m.ended = true ∨ (k ≤ m.made ∧ s.paper.state = .loaded))) →
        exec .feedStep s = .next s)) ∧
    (s.paper.jamDue = true ∨ (s.paper.state = .ending ∧ s.paper.remaining = 0) → exec .feedStep s = .next s)) ∧
    t.motorStep = some ⟨true, decide (param s .path = 0), m.dir⟩ ∧
    (∀ test : Bool, test = (decide (s.engine.overlayMode = .observe) &&
        decide (param s .jamlim ≤ (min 240 (s.paper.observedUnpulsed + 1) : Nat)) &&
        !decide (param s .jamlim ≤ (min 240 (s.paper.unpulsed + 1) : Nat))) →
      (test = true → t.paper.observedUnpulsed = 0 ∧
        t.engine = { s.engine with testTrips := s.engine.testTrips ||| 0x08#6 } ∧
        (s.engine.testTrips.getLsbD 3 = false → t.link.events.getLsbD 5 = true)) ∧
      (test = false → t.paper.observedUnpulsed = min 240 (s.paper.observedUnpulsed + 1) ∧ t.engine = s.engine)) ∧
    t.paper.move = some { m with left := m.left - 1, made := m.made + 1 } ∧
    (s.paper.state = .out → t.paper.y = s.paper.y ∧ t.paper.form = s.paper.form) ∧
    (s.paper.state ≠ .out → m.dir = .forward → s.paper.y + 1 < s.paper.active.length →
      t.paper.y = s.paper.y + 1 ∧ t.paper.form = s.paper.form ∧ t.paper.active = s.paper.active ∧
      t.paper.next = s.paper.next) ∧
    (s.paper.state ≠ .out → m.dir = .forward → s.paper.y + 1 = s.paper.active.length →
      t.paper.y = 0 ∧ t.paper.form = s.paper.form + 1#16 ∧
      t.counters.live.general[(4 : Fin 10)] = min (s.counters.live.general[(4 : Fin 10)] + 1) 4294967295 ∧
      (m.purpose = .present → t.paper.active = s.paper.active ∧ t.paper.next = s.paper.next) ∧
      (m.purpose ≠ .present → t.paper.next = none ∧
        (∀ d, s.paper.next = some d → t.paper.active = d ∧ t.link.events.getLsbD 11 = true) ∧
        (s.paper.next = none → t.paper.active = s.paper.active))) ∧
    (s.paper.state ≠ .out → m.dir = .reverse → 1 ≤ s.paper.y →
      t.paper.y = s.paper.y - 1 ∧ t.paper.form = s.paper.form ∧ t.paper.active = s.paper.active) ∧
    (s.paper.state ≠ .out → m.dir = .reverse → s.paper.y = 0 →
      t.paper.y = s.paper.active.length - 1 ∧ t.paper.form = s.paper.form - 1#16 ∧
      t.paper.active = s.paper.active ∧ t.paper.next = s.paper.next ∧
      t.counters.live.general[(4 : Fin 10)] = s.counters.live.general[(4 : Fin 10)]) ∧
    t.counters.live.general[(3 : Fin 10)] = min (s.counters.live.general[(3 : Fin 10)] + 1) 4294967295 ∧
    t.paper.unpulsed = min 240 (s.paper.unpulsed + 1) ∧
    (t.paper.jamDue = true ↔ param s .jamlim ≤ (min 240 (s.paper.unpulsed + 1) : Nat)) ∧
    t.paper.state = s.paper.state ∧
    t.paper.remaining = (if s.paper.state = .ending ∧ m.dir = .forward then s.paper.remaining - 1
      else s.paper.remaining) ∧
    t.paper.tearDistance = (if m.purpose = .present then s.paper.tearDistance + 1
      else if m.purpose = .retract then s.paper.tearDistance - 1 else s.paper.tearDistance) ∧
    (t.paper.tearPresented = true ↔
      s.paper.tearPresented = true ∧ (m.purpose = .retract → 1 < s.paper.tearDistance)) ∧
    (∀ g : General, g ≠ .feedSteps → g ≠ .formsCrossed →
      t.counters.live.general[g.index] = s.counters.live.general[g.index]) ∧
    (s.paper.state = .out ∨ s.paper.y + 1 < s.paper.active.length →
      t.counters.live.general[(4 : Fin 10)] = s.counters.live.general[(4 : Fin 10)]) ∧
    t.counters.live.strikes = s.counters.live.strikes ∧ t.counters.snapshot = s.counters.snapshot ∧
    { t with
      paper := s.paper, counters := s.counters, link := s.link, engine := s.engine, motorStep := s.motorStep } = s

/-- The ends of feed moves: paper end unloads, adds PAPER_OUT and fails the entry; an eject that has made its L steps
with paper present, or has come back to LOADED past them (log 38), fails, and one that reaches the end unloads and is
done; every other move that has made its last step goes on as its purpose says, with the end reported to the Engine
Supervisor; a preload, which the model holds as a feed move (log 26) whose motor field is its own (log 35), begins the
load feed when it is done (R40, R41, R47, R137, R139, R140, R142, R144 to R150). Each end is a command of its own after
the step that makes it due (log 6), and one that is not due changes nothing (log 4); a trip that comes between takes the
end first (log 39). A move in a controlled stop ends by paper end or at rest alone, and its entry keeps the cause HALTED
when it has failed with it (R48, R138, R142, log 22). -/
def Obligations.FeedMovesEndByTheirPurpose : Prop :=
  (∀ s : State, s.paper.move = none → settleFeed s = s) ∧
  (∀ (s : State) (due : Bool),
    settleFeed { s with paper := { s.paper with jamDue := due } } =
      { settleFeed s with paper := { (settleFeed s).paper with jamDue := due } }) ∧
  (∀ (m : FeedMove) (st : PaperState), m.over st = true ↔
    ∃ k, m.purpose = .eject k ∧ (m.ended = true ∨ (k ≤ m.made ∧ st = .loaded))) ∧
  ∀ (s u : State) (m : FeedMove) (unloaded : Paper), Settled s → s.paper.move = some m → s.paper.jamDue = false →
    u = { s with
      paper := { s.paper with move := none }
      engine := { s.engine with
        holdTimer := if s.engine.state = .ready then some (paramNat s .holddly) else s.engine.holdTimer } } →
    unloaded = { u.paper with
      state := .out, y := 0, remaining := 0, tearPresented := false, tearDistance := 0, unpulsed := 0
      observedUnpulsed := 0 } →
    (m.stopping = true → exec .ejectFail s = .next s ∧ exec .feedMoveEnd s = .next s ∧
      exec .preloadComplete s = .next s) ∧
    ((∀ k, m.purpose ≠ .eject k) → s.paper.state = .ending → s.paper.remaining = 0 →
      s.engine.resetPending = false →
      exec .paperEnd s =
        .next (failActive .failedPaperOut
          (raise .paperOut { u with paper := unloaded, holds := { s.holds with paperOut := true } }))) ∧
    (s.paper.state ≠ .ending ∨ s.paper.remaining ≠ 0 → exec .paperEnd s = .next s) ∧
    (s.paper.state = .ending → s.paper.remaining = 0 →
      ((∀ k, m.purpose ≠ .eject k) → exec .paperEnd s = .next (settleFeed s)) ∧
      (m.stopping = false → (∃ k, m.purpose = .eject k) → exec .feedMoveEnd s = .next (settleFeed s)) ∧
      (m.stopping = true → (∃ k, m.purpose = .eject k) →
        settleFeed s = { s with paper := { unloaded with move := some m } })) ∧
    (s.paper.state ≠ .ending ∨ s.paper.remaining ≠ 0 →
      (m.over s.paper.state = true → m.stopping = false → exec .ejectFail s = .next (settleFeed s)) ∧
      (m.over s.paper.state = false ∨ m.stopping = true → settleFeed s = s)) ∧
    (m.stopping = false → ∀ k, m.purpose = .eject k →
      (m.ended = true ∨ (k ≤ m.made ∧ s.paper.state = .loaded) →
        exec .ejectFail s = .next (retire .failedEject u)) ∧
      (m.ended = false → m.made < k ∨ s.paper.state ≠ .loaded → exec .ejectFail s = .next s) ∧
      (s.paper.state = .ending → s.paper.remaining = 0 →
        exec .feedMoveEnd s = .next (retire .done { u with paper := unloaded })) ∧
      (s.paper.state ≠ .ending ∨ s.paper.remaining ≠ 0 → exec .feedMoveEnd s = .next s)) ∧
    (1 ≤ m.left → (∀ k, m.purpose ≠ .eject k) → exec .feedMoveEnd s = .next s) ∧
    (m.stopping = false → m.left = 0 → s.paper.state ≠ .ending ∨ s.paper.remaining ≠ 0 →
      (∀ b, m.purpose = .feed b →
        exec .feedMoveEnd s = .next (retire (if b then .clampedReverse else .done) u)) ∧
      (m.purpose = .skip ∨ m.purpose = .present → exec .feedMoveEnd s = .next (retire .done u)) ∧
      (m.purpose = .feedAfter →
        exec .feedMoveEnd s =
          .next (retire (if (s.exec.plan.map (fun p => p.clamped)).getD false then .clampedPulse else .done) u)) ∧
      (m.purpose = .load → sensorPresent s = true → ∀ v, v = loadSucceeds u →
        exec .feedMoveEnd s =
          .next (raise .homed { v with engine := { v.engine with
            state := .ready, holdTimer := some (paramNat s .holddly) } })) ∧
      (m.purpose = .load → sensorPresent s = false → ∀ v, v = raise .paperOut u →
        exec .feedMoveEnd s =
          .next (raise .homed { v with engine := { v.engine with
            state := .ready, holdTimer := some (paramNat s .holddly) } })) ∧
      (m.purpose = .retract ∨ m.purpose = .perfSkip → ∀ e, activeEntry s = some e →
        (s.exec.pendingHalt = some .pass →
          exec .feedMoveEnd s =
            .next { u with
              holds := { s.holds with halted := true }
              exec := { s.exec with
                state := .idle, pendingHalt := none
                resume := some (match e.kind with
                  | .line _ => .staging
                  | .feed _ | .skip _ | .tear => .motion) } }) ∧
        (s.exec.pendingHalt ≠ some .pass → s.paper.tearPresented = false →
          s.exec.state = .prepare → s.exec.resume = none → (m.purpose = .perfSkip → ∃ f, e.kind = .line f) →
          exec .feedMoveEnd s = .next (prepare e.kind u)))) ∧
    (m.stopping = false → ∀ n, m.purpose = .preload n → ∀ v, v = { u with motorStep := some ⟨false, true, .forward⟩ } →
      ∀ ready : State → State, (∀ x, ready x = raise .homed { x with engine := { x.engine with
        state := .ready, holdTimer := some (paramNat x .holddly) } }) →
      (1 ≤ n → exec .preloadComplete s = .next (startFeed .load .forward n v)) ∧
      (n = 0 → exec .preloadComplete s =
        .next (ready (if sensorPresent s then loadSucceeds v else raise .paperOut v)))) ∧
    ((∀ n, m.purpose ≠ .preload n) → exec .preloadComplete s = .next s) ∧
    loadSucceeds s =
      raiseIf s.paper.next.isSome .formApplied
        { s with
          paper := { s.paper with
            y := 0, form := 0#16, state := .loaded, remaining := 0, active := s.paper.next.getD s.paper.active
            next := none }
          holds := { s.holds with paperOut := false } }

/-- STOP_AT_REST: a controlled stop of the carriage, which waits for no pulse, or of the feed move is at rest: the
motion's end is reported, the ribbon is off, an entry failed by HALT in NOW mode retires, and a waiting ERST clears the
carriage and Fire Unit records, the plan-time inhibit set when no pulse runs, and enters UNREADY. A stop whose place
lies beyond the no-mark limit is not reached, and with no controlled stop in progress nothing changes (log 4). A stopped
feed move may rest with the step left to it not made (log 23), a preload's too, where an ERST completes (log 26), and
does not while a jam is due (log 6). One whose last step is the paper's end unloads an eject's paper; the end of any
other is PAPER_END's, which fails the entry and completes a waiting ERST in the same way (log 22) (R48, R94, R96, R97,
R99, R110, R111, R138, R142, R149, R168). -/
def Obligations.ControlledStopComesToRest : Prop :=
  ∀ s : State, Settled s →
    (s.carriage.phase ≠ .stopping → (∀ m, s.paper.move = some m → m.stopping = false) →
      exec .stopAtRest s = .next s) ∧
    (s.carriage.phase = .stopping → 96 ≤ s.carriage.noMark + legLeft s → exec .stopAtRest s = .next s) ∧
    (∀ rest : State → State,
      (∀ x, rest x = (if x.engine.resetPending then
          { x with
            carriage := ⟨none, .stopped, none, false, none, 0, 0, 0, 0, 0, 0, none⟩
            fire := { x.fire with
              planInhibit := if x.fire.driving = 0#24 then 0#24 else x.fire.planInhibit, due := none }
            engine := { x.engine with
              state := .unready, holdTimer := none, resetPending := false
              outputs := x.engine.outputs &&& 0xBF#8 } }
        else x)) →
      (∀ pf u, s.carriage.phase = .stopping → s.carriage.noMark + legLeft s < 96 → s.carriage.profile = some pf →
        u = setRibbon false (endMotion (reach pf.target s)) →
        (s.exec.failing = true → exec .stopAtRest s = .next (rest (retire .failedHalted u))) ∧
        (s.exec.failing = false → exec .stopAtRest s = .next (rest u))) ∧
      (∀ m u, s.paper.move = some m → (∀ k, m.purpose ≠ .eject k) → s.paper.jamDue = false →
        s.paper.state = .ending → s.paper.remaining = 0 →
        u = { s with
          holds := { s.holds with paperOut := true }
          paper := { s.paper with
            state := .out, y := 0, remaining := 0, tearPresented := false, tearDistance := 0, unpulsed := 0
            observedUnpulsed := 0, move := none }
          engine := { s.engine with
            holdTimer := if s.engine.state = .ready then some (paramNat s .holddly) else s.engine.holdTimer } } →
        exec .paperEnd s = .next (rest (failActive .failedPaperOut (raise .paperOut u)))) ∧
      (∀ m, s.carriage.phase ≠ .stopping → s.paper.move = some m → m.stopping = true →
        (s.paper.jamDue = true → exec .stopAtRest s = .next s) ∧
        (s.paper.jamDue = false → s.paper.state = .ending → s.paper.remaining = 0 →
          (∀ k, m.purpose ≠ .eject k) → exec .stopAtRest s = .next s) ∧
        (∀ ended u : State,
          (ended = s ∧ (s.paper.state ≠ .ending ∨ s.paper.remaining ≠ 0)) ∨
          (ended = { s with paper := { s.paper with
              state := .out, y := 0, remaining := 0, tearPresented := false, tearDistance := 0, unpulsed := 0
              observedUnpulsed := 0 } } ∧
            s.paper.state = .ending ∧ s.paper.remaining = 0 ∧ ∃ k, m.purpose = .eject k) →
          s.paper.jamDue = false →
          u = { ended with
            paper := { ended.paper with move := none }
            engine := { s.engine with
              holdTimer := if s.engine.state = .ready then some (paramNat s .holddly) else s.engine.holdTimer } } →
          (s.exec.failing = true → exec .stopAtRest s = .next (rest (retire .failedHalted u))) ∧
          (s.exec.failing = false → exec .stopAtRest s = .next (rest u)))))

/-! ## Sensors, timers and the cooling tick (R118, R141, R151, R158, R162) -/

/-- A wheel pulse sets the unpulsed steps to 0 unless MOTION_STALL in DRIVE suppresses it; the paper sensor as seen
takes LOADED to ENDING with ENDDIST and ENDING back to LOADED, and does nothing to an OUT; its presence may wake the
part (R141, R142, R151, R161, R173, R174). The timers and the cooling tick: the hold delay takes a READY part at rest to
HOLD; the warm-up ends in the wake target with WAKE raised, starting the homing when that is HOMING; a tick takes max(1,
floor(H / 2^COOLSHIFT)) from H, judges band and latch anew and tests a waiting pass again (R118 to R120, R122, R158,
R162). An expiry with its timer not running changes nothing (log 4), one with its timer running is taken whatever time
the timer shows (log 27), and a pulse does not withdraw a jam that is due (log 6). A return to LOADED ends an eject that
has made its L steps (R149, log 38). That a pulse sets the observed steps to 0 outside OBSERVE is the model's choice
(log 17). -/
def Obligations.SensorsAndTimersAct : Prop :=
  (∀ (s u v : State), Settled s →
     u = { s with lines := { s.lines with paper := false } } → v = { s with lines := { s.lines with paper := true } } →
     (s.engine.overlayMode ≠ .drive ∨ s.engine.overlayInputs.getLsbD 5 = false → s.paper.jamDue = false →
       exec .paperMotionPulse s =
         .next (if s.engine.overlayMode = .observe ∧ s.engine.overlayInputs.getLsbD 5 = true then
             { s with paper := { s.paper with unpulsed := 0 } }
           else { s with paper := { s.paper with unpulsed := 0, observedUnpulsed := 0 } })) ∧
     (s.paper.jamDue = true → exec .paperMotionPulse s = .next s) ∧
     (s.engine.overlayMode = .drive → s.engine.overlayInputs.getLsbD 5 = true →
       exec .paperMotionPulse s = .next s) ∧
     (s.lines.paper = false ∨ (s.engine.overlayMode = .drive ∧ s.engine.overlayInputs.getLsbD 2 = true) →
       exec .paperSensorAbsent s = .next u) ∧
     (s.lines.paper = true ∨ (s.engine.overlayMode = .drive ∧ s.engine.overlayInputs.getLsbD 2 = true) →
       exec .paperSensorPresent s = .next v) ∧
     (s.engine.overlayMode ≠ .drive ∨ s.engine.overlayInputs.getLsbD 2 = false →
       (s.lines.paper = true →
         (s.paper.state = .loaded →
           exec .paperSensorAbsent s =
             .next { u with paper := { s.paper with state := .ending, remaining := paramNat s .enddist } }) ∧
         (s.paper.state ≠ .loaded → exec .paperSensorAbsent s = .next u)) ∧
       (s.lines.paper = false →
         (s.paper.state = .ending → s.paper.remaining ≠ 0 →
           exec .paperSensorPresent s =
             .next (wakeIfDue { v with paper := { s.paper with
               state := .loaded, remaining := 0
               move := s.paper.move.map (fun m => { m with ended := m.over .loaded }) } })) ∧
         (s.paper.state ≠ .ending ∨ s.paper.remaining = 0 →
           exec .paperSensorPresent s = .next (wakeIfDue v))))) ∧
  (∀ s : State, Settled s →
     (s.engine.state = .ready → s.engine.holdTimer ≠ none → inMotion s = false →
       exec .holdTimerExpiry s = .next { s with engine := { s.engine with state := .hold, holdTimer := none } }) ∧
     (s.engine.state ≠ .ready ∨ s.engine.holdTimer = none ∨ inMotion s = true →
       exec .holdTimerExpiry s = .next s) ∧
     (s.engine.state = .warming → s.engine.warmTimer ≠ none →
       ∀ u, u = { s with engine := { s.engine with wakeTarget := none, warmTimer := none } } →
       (s.engine.wakeTarget = some .homing → exec .warmupExpiry s = .next (raise .wake (enterHoming u))) ∧
       (s.engine.wakeTarget ≠ some .homing →
         exec .warmupExpiry s =
           .next (raise .wake { u with engine := { u.engine with state := .unready } }))) ∧
     (s.engine.state ≠ .warming ∨ s.engine.warmTimer = none → exec .warmupExpiry s = .next s) ∧
     (∀ h : Nat, (s.heat.h = 0 → h = 0) →
       (1 ≤ s.heat.h → h + max 1 (s.heat.h / 2 ^ paramNat s .coolshift) = s.heat.h) →
       exec .coolingTick s =
         .next (retest { s with heat := { s.heat with
           h := h
           band := if h < paramNat s .warmth then .cool else .warm
           latch := if paramNat s .hotth ≤ h then true else if h ≤ paramNat s .resume then false
             else s.heat.latch } })))

/-! ## Planning, fire groups, tables and layouts (R54 to R72, R89 to R100, R155, R193 to R196) -/

/-- The planning step takes the pending energy table (R56), plans with it, copies the inhibit list (R99) and adds the
excluded dots to the dropped dots (R59), and changes nothing else. The plan's ply is the entry's override or the active
form's, its band what H gives, its width the table's for them and its cap 2 at most when WARM (R57, R58); the class
choice is made on the line's adjacent dots and dots two apart (R60), at the planning step's speeds, and gives the class,
the width, the speed and the clamp (R65); f is the choice's, doubled while a subset's heat exceeds CEILING − RESUME
(R68); the lead is the flight in ticks rounded (R66); the passes run as the entry says, or alternate from the start
point nearer the carriage (R71, R72). -/
def Obligations.PlanningStepBuildsThePlan : Prop :=
  ∀ (f : LineFields) (s u : State) (plan : Plan) (left : Nat) (columns : List Column) (targets : List Nat)
    (kept : Column → Fin 24 → Bool),
    u = { s with fire := { s.fire with table := s.fire.pendingTable.getD s.fire.table, pendingTable := none } } →
    plan = buildPlan f u → columns = s.slots[f.slot].cols → left = s.slots[f.slot].left →
    (∀ c r, kept c r = (c.getLsbD r && s.fire.pinMap[r].enabled && !s.fire.inhibit.getLsbD s.fire.pinMap[r].pin)) →
    targets = columns.zipIdx.flatMap (fun ci =>
      ((List.finRange 24).filter (kept ci.1)).map (fun _ => left + ci.2)) →
    planned f s = count .droppedDots plan.dropped
      { s with
        exec := { s.exec with plan := some plan }
        fire := { u.fire with planInhibit := s.fire.inhibit } } ∧
    (∀ (ply w q : Nat) (band : Band) (adjacent twoApart : Bool) (choice : Choice),
      (∀ n, f.ply = some n → ply = n) → (f.ply = none → ply = s.paper.active.ply) →
      band = (if s.heat.h < paramNat s .warmth then .cool else .warm) →
      (∀ i : Fin 6, i.val + 1 = ply →
        w = (if band = .cool then u.fire.table.cool[i] else u.fire.table.warm[i])) →
      1 ≤ ply → ply ≤ 6 → q = (if band = .cool then f.cls else min f.cls 2) →
      (adjacent = true ↔ ∃ k a b r, columns[k]? = some a ∧ columns[k + 1]? = some b ∧
        kept a r = true ∧ kept b r = true) →
      (twoApart = true ↔ ∃ k a b r, columns[k]? = some a ∧ columns[k + 2]? = some b ∧
        kept a r = true ∧ kept b r = true) →
      choice = chooseClass (cruise s) adjacent twoApart (paramNat s .recovery) q w →
      plan.cls = choice.cls ∧ plan.width = choice.width ∧ plan.speed = cruise s choice.cls ∧
      (plan.clamped = true ↔ choice.unfit = true ∧ plan.passes ≠ []) ∧
      choice.shingle ≤ plan.shingle ∧
      (∀ g, g = 1 ∨ g = 2 → choice.shingle ≤ g → g < plan.shingle →
        ∃ j, paramNat s .ceiling - paramNat s .resume <
          (targets.filter (fun c => decide (c % g = j))).length * (plan.width / 16))) ∧
    cruise s 0 = paramNat s .cruise0 ∧ cruise s 1 = paramNat s .cruise1 ∧ cruise s 2 = paramNat s .cruise2 ∧
    cruise s 3 = paramNat s .cruise3 ∧
    plan.lead = min 63 ((plan.speed * paramNat s .flight * 16 + 500000) / 1000000) ∧
    (f.direction = .forward → ∀ r ∈ plan.passes, r.dir = .forward) ∧
    (f.direction = .reverse → ∀ r ∈ plan.passes, r.dir = .reverse) ∧
    (f.direction = .auto →
      (∀ k a b, plan.passes[k]? = some a → plan.passes[k + 1]? = some b → a.dir ≠ b.dir) ∧
      (∀ (r : PassRec) (p R : Int), plan.passes.head? = some r → s.carriage.position = some p →
        R = ((plan.speed * plan.speed - 40000 + (2 * paramNat s .accel - 1)) / (2 * paramNat s .accel) : Nat) →
        (r.dir = .forward ↔ (16 * (r.lo - 12 - R) - p).natAbs ≤ (16 * (r.hi + 12 + R) - p).natAbs)))

/-- The correction is the filter over 16 to the nearest integer, halves away from zero, within ±CLIMIT (R89); the fire
position is 16 (c + o) less the lead in the direction of travel, plus the reverse trim of the plan's class in a reverse
pass, less the correction (R90). The work in hand is the first pass not done of the ACTIVE line's plan; a group holds
the pass's rows with a dot at its reference column (R100); the next group due is the first in the direction of travel
after the one fired, or of all, with the fire position of this moment, and there is none when no group is left (R91). -/
def Obligations.FireGroupsFallDueInOrder : Prop :=
  (∀ (s : State) (d : Dir) (x k : Int),
    x = (match d with
      | .forward => s.carriage.devForward
      | .reverse => s.carriage.devReverse) →
    (0 ≤ x → 16 * k ≤ x + 8 ∧ x + 8 < 16 * k + 16) → (x < 0 → -16 * k ≤ 8 - x ∧ 8 - x < 16 - 16 * k) →
    correction s d = max (-(param s .climit)) (min (param s .climit) k)) ∧
  (∀ (s : State) (plan : Plan) (ref : Nat),
    firePosition s plan .forward ref = 16 * ref - plan.lead - correction s .forward ∧
    (∀ id, (plan.cls = 0 ∧ id = .rtrim0) ∨ (plan.cls = 1 ∧ id = .rtrim1) ∨ (plan.cls = 2 ∧ id = .rtrim2) ∨
        (plan.cls = 3 ∧ id = .rtrim3) →
      firePosition s plan .reverse ref = 16 * ref + plan.lead + param s id - correction s .reverse)) ∧
  (∀ (s : State) (slot : Slot) (plan : Plan) (r : PassRec), working s = some (slot, plan, r) →
    (∃ e rest f before after, s.queue = e :: rest ∧ e.active = true ∧ e.kind = .line f ∧ slot = s.slots[f.slot] ∧
      s.exec.plan = some plan ∧ plan.passes = before ++ r :: after ∧ (∀ q ∈ before, q.done = true) ∧
      r.done = false) ∧
    (∀ (ref : Nat) (row : Fin 24), row ∈ groupRows s slot plan.shingle r ref ↔
      ∃ c, c + s.fire.pinMap[row].offset.val = ref ∧ slot.left ≤ c ∧
        (∃ col, slot.cols[c - slot.left]? = some col ∧ col.getLsbD row = true) ∧
        s.fire.pinMap[row].enabled = true ∧ s.fire.planInhibit.getLsbD s.fire.pinMap[row].pin = false ∧
        (∀ j, r.subset = some j → c % plan.shingle = j)) ∧
    (∀ ref, (groupRows s slot plan.shingle r ref).Nodup) ∧
    (∀ (last : Option Nat) (todo : Nat → Prop),
      (∀ c, last = some c → r.lo ≤ c ∧ c ≤ r.hi) →
      (∀ c, todo c ↔ r.lo ≤ c ∧ c ≤ r.hi ∧ groupRows s slot plan.shingle r c ≠ [] ∧
        (∀ x, last = some x → (r.dir = .forward → x < c) ∧ (r.dir = .reverse → c < x))) →
      (∀ g, nextDue s last = some g ↔ todo g.column ∧ g.firePos = firePosition s plan r.dir g.column ∧
        ∀ c, todo c → (r.dir = .forward → g.column ≤ c) ∧ (r.dir = .reverse → c ≤ g.column)) ∧
      (nextDue s last = none ↔ ∀ c, ¬ todo c) ∧
      setDue last s = { s with fire := { s.fire with due := nextDue s last } }))

/-- The thirty-two rows of the parameter table: id, range, default, class and idle-only mark, and no other id names a
parameter (R196); and the energy of the motor drivers and the head supply in each engine state (R155). -/
def Obligations.ParameterAndEnergyTables : Prop :=
  (∀ rows : List (Nat × ParamId × Int × Int × Int × ParamClass × Bool),
    rows =
      [(1, .cruise0, 300, 3000, 600, .tune, true), (2, .cruise1, 300, 3000, 1200, .tune, true),
       (3, .cruise2, 300, 3000, 1800, .tune, true), (4, .cruise3, 300, 3000, 2400, .tune, true),
       (5, .accel, 20000, 200000, 60000, .tune, true), (6, .slew, 400, 3000, 2000, .tune, true),
       (7, .flight, 100, 800, 350, .tune, false), (8, .rtrim0, -32, 31, 0, .tune, false)] ++
      [(9, .rtrim1, -32, 31, 0, .tune, false), (10, .rtrim2, -32, 31, 0, .tune, false),
       (11, .rtrim3, -32, 31, 0, .tune, false), (12, .fdepth, 0, 4, 3, .tune, false),
       (13, .climit, 0, 63, 24, .tune, false), (14, .sliplim, 32, 255, 64, .tune, false),
       (15, .recovery, 200, 1000, 380, .tune, true), (16, .openlim, 0, 32, 8, .tune, false)] ++
      [(17, .coolshift, 6, 14, 11, .tune, false), (18, .warmth, 1, 16777215, 400000, .order, false),
       (19, .hotth, 1, 16777215, 800000, .order, false), (20, .resume, 1, 16777215, 300000, .order, false),
       (21, .ceiling, 1, 16777215, 1200000, .order, false), (22, .path, 0, 1, 0, .geom, true),
       (23, .loaddist, 0, 2160, 720, .geom, false), (24, .enddist, 360, 2160, 1080, .geom, false)] ++
      [(25, .jamlim, 12, 240, 48, .tune, false), (26, .preload, 0, 48, 12, .tune, false),
       (27, .feedrate, 500, 3000, 1800, .tune, false), (28, .revlim, 0, 720, 360, .tune, false),
       (29, .holddly, 50, 5000, 500, .tune, false), (30, .warmup, 10, 500, 80, .tune, false),
       (31, .wakeins, 0, 1, 0, .geom, false), (32, .tripmask, 0, 63, 63, .geom, false)] →
    (∀ r ∈ rows, (paramIndex r.2.1).val + 1 = r.1 ∧ paramOfId (BitVec.ofNat 8 r.1) = some r.2.1 ∧
      paramLow r.2.1 = r.2.2.1 ∧ paramHigh r.2.1 = r.2.2.2.1 ∧ paramDefault r.2.1 = r.2.2.2.2.1 ∧
      paramClass r.2.1 = r.2.2.2.2.2.1 ∧ idleOnly r.2.1 = r.2.2.2.2.2.2) ∧
    (∀ b : Byte, b = 0#8 ∨ 32 < b.toNat → paramOfId b = none)) ∧
  (∀ e : EngineState,
    driverEnergy e = (match e with
      | .homing | .ready => .full
      | .hold => .low
      | .unready | .rest | .warming | .tripped => .off) ∧
    headSupply e = (match e with
      | .unready | .homing | .ready | .hold => .on
      | .warming => .comingUp
      | .rest | .tripped => .off))

/-- The replies that other statements name, byte by byte: the slot reply (section 11.7), the PMAP and ETAB replies
(11.9), the FORM reply with its definitions (11.10), the CLRF reply with its thirteen-byte record and the TOVL reply
(11.11), and the two counter replies (11.12). -/
def Obligations.RepliesCarryTheirLayouts : Prop :=
  ∀ (s : State) (res : Result) (p : List Byte),
    (∀ i : Fin 8, p = slotReply res i s →
      p.length = 9 ∧ byteAt p 0 = res.code ∧ byteAt p 1 = BitVec.ofNat 8 i.val ∧ byteAt p 2 = s.slots[i].state.code ∧
      word16At p 3 = BitVec.ofNat 16 s.slots[i].left ∧ word16At p 5 = BitVec.ofNat 16 s.slots[i].length ∧
      word16At p 7 = BitVec.ofNat 16 s.slots[i].cols.length) ∧
    (p = pmapReply res s →
      p.length = 73 ∧ byteAt p 0 = res.code ∧
      ∀ r : Fin 24, byteAt p (1 + 3 * r.val) = BitVec.ofNat 8 s.fire.pinMap[r].pin.val ∧
        byteAt p (2 + 3 * r.val) = BitVec.ofNat 8 s.fire.pinMap[r].offset.val ∧
        byteAt p (3 + 3 * r.val) = (if s.fire.pinMap[r].enabled then 1#8 else 0#8)) ∧
    (p = etabReply res s →
      p.length = 50 ∧ byteAt p 0 = res.code ∧
      byteAt p 1 = (if s.fire.pendingTable.isSome then 1#8 else 0#8) ∧
      (∀ i : Fin 6, word16At p (2 + 2 * i.val) = BitVec.ofNat 16 s.fire.table.cool[i] ∧
        word16At p (14 + 2 * i.val) = BitVec.ofNat 16 s.fire.table.warm[i]) ∧
      (∀ t, s.fire.pendingTable = some t → ∀ i : Fin 6,
        word16At p (26 + 2 * i.val) = BitVec.ofNat 16 t.cool[i] ∧
        word16At p (38 + 2 * i.val) = BitVec.ofNat 16 t.warm[i]) ∧
      (s.fire.pendingTable = none → ∀ k, 26 ≤ k → k < 50 → byteAt p k = 0#8)) ∧
    (∀ layout : FormDef → List Byte → Prop,
      (∀ d q, layout d q ↔ q.length = 10 + 4 * d.stops.length ∧ word16At q 0 = BitVec.ofNat 16 d.length ∧
        byteAt q 2 = BitVec.ofNat 8 d.ply ∧ word16At q 3 = BitVec.ofNat 16 d.tear ∧
        word16At q 5 = BitVec.ofNat 16 d.skipTop ∧ word16At q 7 = BitVec.ofNat 16 d.skipBottom ∧
        byteAt q 9 = BitVec.ofNat 8 d.stops.length ∧
        ∀ k x, d.stops[k]? = some x → word16At q (10 + 4 * k) = BitVec.ofNat 16 x.position ∧
          word16At q (12 + 4 * k) = x.channels) →
      ∃ active next : List Byte,
        formReply res s = [res.code, if s.paper.next.isSome then 1#8 else 0#8] ++ active ++ next ∧
        layout s.paper.active active ∧ (s.paper.next = none → next = []) ∧
        (∀ d, s.paper.next = some d → layout d next)) ∧
    (p = clrfReply res s →
      p.length = 15 ∧ byteAt p 0 = res.code ∧ byteAt p 14 = s.engine.further.setWidth 8 ∧
      (s.engine.firstFault = none → ∀ k, 1 ≤ k → k < 14 → byteAt p k = 0#8) ∧
      (∀ f, s.engine.firstFault = some f →
        byteAt p 1 = causeCode f.cause ∧ byteAt p 2 = f.engine.code ∧ byteAt p 3 = f.exec.code ∧
        byteAt p 4 = (if f.tag.isSome then 1#8 else 0#8) ||| (if f.position.isSome then 2#8 else 0#8) ∧
        (∀ t, f.tag = some t → byteAt p 5 = t) ∧ (f.tag = none → byteAt p 5 = 0#8) ∧
        (∀ x, f.position = some x → word32At p 6 = BitVec.ofInt 32 x) ∧ (f.position = none → word32At p 6 = 0#32) ∧
        word16At p 10 = BitVec.ofNat 16 f.y ∧ word16At p 12 = f.form)) ∧
    (∀ arrived : CauseSet, p = tovlReply res arrived s →
      p.length = 4 ∧ byteAt p 0 = res.code ∧ byteAt p 1 = s.engine.overlayMode.code ∧
      byteAt p 2 = s.engine.overlayInputs.setWidth 8 ∧ byteAt p 3 = arrived.setWidth 8) ∧
    (∀ v : Vector Nat 10, v = s.counters.snapshot.general → p = generalReply s →
      p.length = 34 ∧ byteAt p 0 = 0x00#8 ∧ byteAt p 1 = 0#8 ∧
      word16At p 2 = s.counters.snapshot.generalHalf.setWidth 16 ∧
      word32At p 4 = BitVec.ofNat 32 v[0] ∧ word16At p 8 = BitVec.ofNat 16 v[1] ∧
      word32At p 10 = BitVec.ofNat 32 v[2] ∧ word32At p 14 = BitVec.ofNat 32 v[3] ∧
      word32At p 18 = BitVec.ofNat 32 v[4] ∧ word32At p 22 = BitVec.ofNat 32 v[5] ∧
      word16At p 26 = BitVec.ofNat 16 v[6] ∧ word16At p 28 = BitVec.ofNat 16 v[7] ∧
      word16At p 30 = BitVec.ofNat 16 v[8] ∧ word16At p 32 = BitVec.ofNat 16 v[9]) ∧
    (p = pinsReply s →
      p.length = 101 ∧ byteAt p 0 = 0x00#8 ∧ byteAt p 1 = 1#8 ∧ word24At p 2 = s.counters.snapshot.strikesHalf ∧
      ∀ q : Fin 24, word32At p (5 + 4 * q.val) = BitVec.ofNat 32 s.counters.snapshot.strikes[q])

/-! ## What every step keeps -/

/-- Every step keeps the parameters in their ranges and order, H, band and latch as the thresholds give them, failed
pins inhibited, the pin map one-to-one, the widths within 100..600 and the counters within their maximums (R3, R9, R10,
R112, R117, R119, R120, R125, R190, R196). -/
def Obligations.StepKeepsTablesInRange : Prop :=
  ∀ s t : State, step s = .next t → ParamsInv s → HeatInv s → HeadInv s → CountersInv s →
    ParamsInv t ∧ HeatInv t ∧ HeadInv t ∧ CountersInv t

/-- Every step keeps the form definitions in range, y below the form length and 0 with no form loaded, the remaining
distance within ENDING, the unpulsed steps and the tear distance in range, and the deviation filters within ±4080 and
the no-mark distances within 0..96 (R75, R88, R94, R128, R129, R147, R174). -/
def Obligations.StepKeepsPaperAndFilters : Prop :=
  ∀ s t : State, step s = .next t → ParamsInv s → PaperInv s → CarriageInv s → PaperInv t ∧ CarriageInv t

/-- Every step keeps at most 16 entries of which only the oldest may be ACTIVE, room for the record of an ACTIVE entry,
every BOUND or PRINTING slot named by exactly one LINE entry, and the Link Unit's places and notice (R24, R32, R43,
R180, R181, R183, R187). -/
def Obligations.StepKeepsQueuesAndSlots : Prop :=
  ∀ s t : State, step s = .next t → QueueInv s → SlotsInv s → LinkInv s → QueueInv t ∧ SlotsInv t ∧ LinkInv t

/-- Every step keeps what may move in which engine and executor state, what a hold or a failed entry leaves to the
executor, where pulses may run and a pass may wait, and TRIPPED, the first-fault record and the fault lamp together
(R36, R37, R45, R48, R84, R103, R109, R110, R122, R123, R137, R155, R157, R164, R166, R168, R171). That no pulse runs in
RAMP_DOWN rests on CRUISE waiting for the last (log 8), and that a load feed includes the preload on log 26. -/
def Obligations.StepKeepsMotionAndTripState : Prop :=
  ∀ s t : State, step s = .next t → MotionInv s → TripInv s → MotionInv t ∧ TripInv t

/-- The state after reset has all of these, and every request can be decoded in it. -/
def Obligations.ResetStateIsSound : Prop :=
  ParamsInv State.reset ∧ HeatInv State.reset ∧ HeadInv State.reset ∧ CountersInv State.reset ∧
    PaperInv State.reset ∧ CarriageInv State.reset ∧ QueueInv State.reset ∧ SlotsInv State.reset ∧
    LinkInv State.reset ∧ MotionInv State.reset ∧ TripInv State.reset ∧
    ∀ f, Decodable f State.reset

/-- Only CLRF, ERST, power-on and the RESET line take the part out of TRIPPED; until then the first-fault record stands
and no further cause leaves its set (R154, R165 to R168). -/
def Obligations.TrippedLastsUntilItIsCleared : Prop :=
  ∀ (c : Instr) (s t : State), exec c s = .next t → MotionInv s → s.engine.state = .tripped →
    (∀ tag req, c ≠ .clrf tag req) → (∀ tag req, c ≠ .erst tag req) → (∀ r, c ≠ .powerOn r) →
    (∀ r, c ≠ .resetLine r) →
    t.engine.state = .tripped ∧ t.engine.firstFault = s.engine.firstFault ∧
      s.engine.further &&& ~~~t.engine.further = 0#6

/-- Power-on and the RESET line apart, the parameters change only by SETP, the pin map by PMAP, the event mask by EMSK,
the overlay by TOVL and the counters' snapshot by CNTR SNAP, and a pin leaves the failed-pin set only by PINH (R7, R9,
R172, R185, R186, R192). -/
def Obligations.TablesChangeOnlyByTheirRequests : Prop :=
  ∀ (c : Instr) (s t : State), exec c s = .next t → (∀ r, c ≠ .powerOn r) → (∀ r, c ≠ .resetLine r) →
    ((∀ tag req, c ≠ .setp tag req) → t.params = s.params) ∧
    ((∀ tag req, c ≠ .pmap tag req) → t.fire.pinMap = s.fire.pinMap) ∧
    ((∀ tag req, c ≠ .emsk tag req) → t.link.mask = s.link.mask) ∧
    ((∀ tag req, c ≠ .tovl tag req) →
      t.engine.overlayMode = s.engine.overlayMode ∧ t.engine.overlayInputs = s.engine.overlayInputs) ∧
    ((∀ tag req, c ≠ .pinh tag req) → s.fire.failed &&& ~~~t.fire.failed = 0#24) ∧
    ((∀ tag req, c ≠ .cntrSnap tag req) → t.counters.snapshot = s.counters.snapshot)
end

