-- ==== Sys2Proof/Laws/State.lean ====
section
/-! SUPPORT. What each update of a record and each update of the state leaves unchanged, field by field, for simp. -/

namespace Sys2Proof.Machine

/-- What noticeTest leaves unchanged. -/
@[simp] theorem noticeTest_frame (l : Link) : (noticeTest l).mode = l.mode ∧ (noticeTest l).rate = l.rate ∧
    (noticeTest l).received = l.received ∧ (noticeTest l).replies = l.replies ∧ (noticeTest l).mask = l.mask ∧
    (noticeTest l).tx = l.tx := by
  unfold noticeTest
  split <;> simp

/-- What Heat.withH leaves unchanged. -/
@[simp] theorem Heat.withH_frame (w ht re h : Nat) (l : Heat) : (Heat.withH l w ht re h).waiting = l.waiting := by
  simp [Heat.withH]

/-- What Engine.motionStarted leaves unchanged. -/
@[simp] theorem Engine.motionStarted_frame (l : Engine) : (Engine.motionStarted l).restOrigin = l.restOrigin ∧
    (Engine.motionStarted l).wakeTarget = l.wakeTarget ∧ (Engine.motionStarted l).warmTimer = l.warmTimer ∧
    (Engine.motionStarted l).resetPending = l.resetPending ∧ (Engine.motionStarted l).firstFault = l.firstFault
    ∧ (Engine.motionStarted l).further = l.further ∧ (Engine.motionStarted l).overlayMode = l.overlayMode ∧
    (Engine.motionStarted l).overlayInputs = l.overlayInputs ∧ (Engine.motionStarted l).testTrips = l.testTrips
    ∧ (Engine.motionStarted l).outputs = l.outputs := by
  simp [Engine.motionStarted]

/-- What Engine.motionEnded leaves unchanged. -/
@[simp] theorem Engine.motionEnded_frame (k : Nat) (l : Engine) : (Engine.motionEnded l k).state = l.state ∧
    (Engine.motionEnded l k).restOrigin = l.restOrigin ∧ (Engine.motionEnded l k).wakeTarget = l.wakeTarget ∧
    (Engine.motionEnded l k).warmTimer = l.warmTimer ∧ (Engine.motionEnded l k).resetPending = l.resetPending ∧
    (Engine.motionEnded l k).firstFault = l.firstFault ∧ (Engine.motionEnded l k).further = l.further ∧
    (Engine.motionEnded l k).overlayMode = l.overlayMode ∧ (Engine.motionEnded l k).overlayInputs =
    l.overlayInputs ∧ (Engine.motionEnded l k).testTrips = l.testTrips ∧ (Engine.motionEnded l k).outputs =
    l.outputs := by
  simp [Engine.motionEnded]

/-- What Engine.setOutput leaves unchanged. -/
@[simp] theorem Engine.setOutput_frame (i : Nat) (on : Bool) (l : Engine) : (Engine.setOutput l i on).state =
    l.state ∧ (Engine.setOutput l i on).restOrigin = l.restOrigin ∧ (Engine.setOutput l i on).wakeTarget =
    l.wakeTarget ∧ (Engine.setOutput l i on).holdTimer = l.holdTimer ∧ (Engine.setOutput l i on).warmTimer =
    l.warmTimer ∧ (Engine.setOutput l i on).resetPending = l.resetPending ∧ (Engine.setOutput l i on).firstFault
    = l.firstFault ∧ (Engine.setOutput l i on).further = l.further ∧ (Engine.setOutput l i on).overlayMode =
    l.overlayMode ∧ (Engine.setOutput l i on).overlayInputs = l.overlayInputs ∧ (Engine.setOutput l i
    on).testTrips = l.testTrips := by
  simp [Engine.setOutput]

/-- What Paper.unload leaves unchanged. -/
@[simp] theorem Paper.unload_frame (l : Paper) : (Paper.unload l).active = l.active ∧ (Paper.unload l).next =
    l.next ∧ (Paper.unload l).form = l.form ∧ (Paper.unload l).move = l.move ∧ (Paper.unload l).jamDue =
    l.jamDue := by
  simp [Paper.unload]

/-- What Paper.applyNext leaves unchanged. -/
@[simp] theorem Paper.applyNext_frame (l : Paper) : (Paper.applyNext l).state = l.state ∧ (Paper.applyNext l).y
    = l.y ∧ (Paper.applyNext l).form = l.form ∧ (Paper.applyNext l).remaining = l.remaining ∧ (Paper.applyNext
    l).tearPresented = l.tearPresented ∧ (Paper.applyNext l).tearDistance = l.tearDistance ∧ (Paper.applyNext
    l).unpulsed = l.unpulsed ∧ (Paper.applyNext l).observedUnpulsed = l.observedUnpulsed ∧ (Paper.applyNext
    l).move = l.move ∧ (Paper.applyNext l).jamDue = l.jamDue := by
  simp [Paper.applyNext]

/-- What Paper.takeForm leaves unchanged. -/
@[simp] theorem Paper.takeForm_frame (d : FormDef) (b : Bool) (l : Paper) : (Paper.takeForm l d b).state =
    l.state ∧ (Paper.takeForm l d b).y = l.y ∧ (Paper.takeForm l d b).form = l.form ∧ (Paper.takeForm l d
    b).remaining = l.remaining ∧ (Paper.takeForm l d b).tearPresented = l.tearPresented ∧ (Paper.takeForm l d
    b).tearDistance = l.tearDistance ∧ (Paper.takeForm l d b).unpulsed = l.unpulsed ∧ (Paper.takeForm l d
    b).observedUnpulsed = l.observedUnpulsed ∧ (Paper.takeForm l d b).move = l.move ∧ (Paper.takeForm l d
    b).jamDue = l.jamDue := by
  unfold Paper.takeForm
  split <;> simp

/-- What Paper.stepTear leaves unchanged. -/
@[simp] theorem Paper.stepTear_frame (u : Purpose) (l : Paper) : (Paper.stepTear l u).active = l.active ∧
    (Paper.stepTear l u).next = l.next ∧ (Paper.stepTear l u).state = l.state ∧ (Paper.stepTear l u).y = l.y ∧
    (Paper.stepTear l u).form = l.form ∧ (Paper.stepTear l u).remaining = l.remaining ∧ (Paper.stepTear l
    u).unpulsed = l.unpulsed ∧ (Paper.stepTear l u).observedUnpulsed = l.observedUnpulsed ∧ (Paper.stepTear l
    u).move = l.move ∧ (Paper.stepTear l u).jamDue = l.jamDue := by
  unfold Paper.stepTear
  split <;> simp

/-- What Paper.stepUnpulsed leaves unchanged. -/
@[simp] theorem Paper.stepUnpulsed_frame (j : Nat) (b : Bool) (l : Paper) : (Paper.stepUnpulsed l j b).active =
    l.active ∧ (Paper.stepUnpulsed l j b).next = l.next ∧ (Paper.stepUnpulsed l j b).state = l.state ∧
    (Paper.stepUnpulsed l j b).y = l.y ∧ (Paper.stepUnpulsed l j b).form = l.form ∧ (Paper.stepUnpulsed l j
    b).remaining = l.remaining ∧ (Paper.stepUnpulsed l j b).tearPresented = l.tearPresented ∧
    (Paper.stepUnpulsed l j b).tearDistance = l.tearDistance ∧ (Paper.stepUnpulsed l j b).move = l.move := by
  simp [Paper.stepUnpulsed]

/-- What Paper.stepRemaining leaves unchanged. -/
@[simp] theorem Paper.stepRemaining_frame (d : Dir) (l : Paper) : (Paper.stepRemaining l d).active = l.active ∧
    (Paper.stepRemaining l d).next = l.next ∧ (Paper.stepRemaining l d).state = l.state ∧ (Paper.stepRemaining l
    d).y = l.y ∧ (Paper.stepRemaining l d).form = l.form ∧ (Paper.stepRemaining l d).tearPresented =
    l.tearPresented ∧ (Paper.stepRemaining l d).tearDistance = l.tearDistance ∧ (Paper.stepRemaining l
    d).unpulsed = l.unpulsed ∧ (Paper.stepRemaining l d).observedUnpulsed = l.observedUnpulsed ∧
    (Paper.stepRemaining l d).move = l.move ∧ (Paper.stepRemaining l d).jamDue = l.jamDue := by
  unfold Paper.stepRemaining
  (repeat' split) <;> simp

/-- What Fire.cutOff leaves unchanged. -/
@[simp] theorem Fire.cutOff_frame (l : Fire) : (Fire.cutOff l).pinMap = l.pinMap ∧ (Fire.cutOff l).inhibit =
    l.inhibit ∧ (Fire.cutOff l).failed = l.failed ∧ (Fire.cutOff l).openCounts = l.openCounts ∧ (Fire.cutOff
    l).table = l.table ∧ (Fire.cutOff l).pendingTable = l.pendingTable := by
  simp [Fire.cutOff]

/-- What Fire.settle leaves unchanged. -/
@[simp] theorem Fire.settle_frame (l : Fire) : (Fire.settle l).pinMap = l.pinMap ∧ (Fire.settle l).inhibit =
    l.inhibit ∧ (Fire.settle l).failed = l.failed ∧ (Fire.settle l).openCounts = l.openCounts ∧ (Fire.settle
    l).table = l.table ∧ (Fire.settle l).pendingTable = l.pendingTable ∧ (Fire.settle l).driving = l.driving := by
  simp [Fire.settle]

/-- What Fire.takeTable leaves unchanged. -/
@[simp] theorem Fire.takeTable_frame (l : Fire) : (Fire.takeTable l).pinMap = l.pinMap ∧ (Fire.takeTable
    l).inhibit = l.inhibit ∧ (Fire.takeTable l).failed = l.failed ∧ (Fire.takeTable l).openCounts = l.openCounts
    ∧ (Fire.takeTable l).planInhibit = l.planInhibit ∧ (Fire.takeTable l).driving = l.driving ∧ (Fire.takeTable
    l).due = l.due := by
  simp [Fire.takeTable]

/-- What Fire.clearPins leaves unchanged. -/
@[simp] theorem Fire.clearPins_frame (m : PinSet) (l : Fire) : (Fire.clearPins l m).pinMap = l.pinMap ∧
    (Fire.clearPins l m).table = l.table ∧ (Fire.clearPins l m).pendingTable = l.pendingTable ∧ (Fire.clearPins
    l m).planInhibit = l.planInhibit ∧ (Fire.clearPins l m).driving = l.driving ∧ (Fire.clearPins l m).due =
    l.due := by
  simp [Fire.clearPins]

/-- What Fire.setPins leaves unchanged. -/
@[simp] theorem Fire.setPins_frame (m : PinSet) (l : Fire) : (Fire.setPins l m).pinMap = l.pinMap ∧
    (Fire.setPins l m).failed = l.failed ∧ (Fire.setPins l m).openCounts = l.openCounts ∧ (Fire.setPins l
    m).table = l.table ∧ (Fire.setPins l m).pendingTable = l.pendingTable ∧ (Fire.setPins l m).planInhibit =
    l.planInhibit ∧ (Fire.setPins l m).driving = l.driving ∧ (Fire.setPins l m).due = l.due := by
  simp [Fire.setPins]

/-- What Fire.drive leaves unchanged. -/
@[simp] theorem Fire.drive_frame (p : Fin 24) (on : Bool) (l : Fire) : (Fire.drive l p on).pinMap = l.pinMap ∧
    (Fire.drive l p on).inhibit = l.inhibit ∧ (Fire.drive l p on).failed = l.failed ∧ (Fire.drive l p
    on).openCounts = l.openCounts ∧ (Fire.drive l p on).table = l.table ∧ (Fire.drive l p on).pendingTable =
    l.pendingTable ∧ (Fire.drive l p on).planInhibit = l.planInhibit ∧ (Fire.drive l p on).due = l.due := by
  simp [Fire.drive]

/-- What Fire.condemn leaves unchanged. -/
@[simp] theorem Fire.condemn_frame (p : Fin 24) (l : Fire) : (Fire.condemn l p).pinMap = l.pinMap ∧
    (Fire.condemn l p).openCounts = l.openCounts ∧ (Fire.condemn l p).table = l.table ∧ (Fire.condemn l
    p).pendingTable = l.pendingTable ∧ (Fire.condemn l p).planInhibit = l.planInhibit ∧ (Fire.condemn l
    p).driving = l.driving ∧ (Fire.condemn l p).due = l.due := by
  simp [Fire.condemn]

/-- What Carriage.travel leaves unchanged. -/
@[simp] theorem Carriage.travel_frame (n : Nat) (l : Carriage) : (Carriage.travel l n).phase = l.phase ∧
    (Carriage.travel l n).direction = l.direction ∧ (Carriage.travel l n).homed = l.homed ∧ (Carriage.travel l
    n).markPhase = l.markPhase ∧ (Carriage.travel l n).markCount = l.markCount ∧ (Carriage.travel l
    n).devForward = l.devForward ∧ (Carriage.travel l n).devReverse = l.devReverse ∧ (Carriage.travel l
    n).profile = l.profile := by
  unfold Carriage.travel
  split <;> simp

/-- What Carriage.updateDev leaves unchanged. -/
@[simp] theorem Carriage.updateDev_frame (k : Nat) (d : Dir) (x : Int) (l : Carriage) : (Carriage.updateDev l k
    d x).position = l.position ∧ (Carriage.updateDev l k d x).phase = l.phase ∧ (Carriage.updateDev l k d
    x).direction = l.direction ∧ (Carriage.updateDev l k d x).homed = l.homed ∧ (Carriage.updateDev l k d
    x).markPhase = l.markPhase ∧ (Carriage.updateDev l k d x).markCount = l.markCount ∧ (Carriage.updateDev l k
    d x).noMark = l.noMark ∧ (Carriage.updateDev l k d x).observedNoMark = l.observedNoMark ∧
    (Carriage.updateDev l k d x).seekTravel = l.seekTravel ∧ (Carriage.updateDev l k d x).profile = l.profile := by
  unfold Carriage.updateDev
  split <;> simp

/-- What Carriage.stop leaves unchanged. -/
@[simp] theorem Carriage.stop_frame (b : Bool) (l : Carriage) : (Carriage.stop l b).position = l.position ∧
    (Carriage.stop l b).direction = l.direction ∧ (Carriage.stop l b).homed = l.homed ∧ (Carriage.stop l
    b).markPhase = l.markPhase ∧ (Carriage.stop l b).markCount = l.markCount ∧ (Carriage.stop l b).devForward =
    l.devForward ∧ (Carriage.stop l b).devReverse = l.devReverse ∧ (Carriage.stop l b).noMark = l.noMark ∧
    (Carriage.stop l b).observedNoMark = l.observedNoMark ∧ (Carriage.stop l b).seekTravel = l.seekTravel := by
  unfold Carriage.stop
  split <;> simp

/-- What Carriage.countMark leaves unchanged. -/
@[simp] theorem Carriage.countMark_frame (d : Dir) (l : Carriage) : (Carriage.countMark l d).position =
    l.position ∧ (Carriage.countMark l d).phase = l.phase ∧ (Carriage.countMark l d).direction = l.direction ∧
    (Carriage.countMark l d).homed = l.homed ∧ (Carriage.countMark l d).markPhase = l.markPhase ∧
    (Carriage.countMark l d).devForward = l.devForward ∧ (Carriage.countMark l d).devReverse = l.devReverse ∧
    (Carriage.countMark l d).noMark = l.noMark ∧ (Carriage.countMark l d).observedNoMark = l.observedNoMark ∧
    (Carriage.countMark l d).seekTravel = l.seekTravel ∧ (Carriage.countMark l d).profile = l.profile := by
  simp [Carriage.countMark]

/-- What Executor.passDone leaves unchanged. -/
@[simp] theorem Executor.passDone_frame (l : Executor) : (Executor.passDone l).state = l.state ∧
    (Executor.passDone l).resume = l.resume ∧ (Executor.passDone l).pendingHalt = l.pendingHalt ∧
    (Executor.passDone l).failing = l.failing := by
  simp [Executor.passDone]

/-- What Link.raise leaves unchanged. -/
@[simp] theorem Link.raise_frame (e : Event) (l : Link) : (Link.raise l e).mode = l.mode ∧ (Link.raise l e).rate
    = l.rate ∧ (Link.raise l e).received = l.received ∧ (Link.raise l e).replies = l.replies ∧ (Link.raise l
    e).mask = l.mask ∧ (Link.raise l e).tx = l.tx := by
  simp [Link.raise]

/-- What Paper.trip leaves unchanged. -/
@[simp] theorem Paper.trip_frame (c : TripCause) (l : Paper) : (Paper.trip c l).active = l.active ∧ (Paper.trip
    c l).next = l.next ∧ (Paper.trip c l).form = l.form := by
  unfold Paper.trip
  split <;> simp

/-- What Carriage.filter leaves unchanged. -/
@[simp] theorem Carriage.filter_frame (k : Nat) (x : Int) (l : Carriage) : (Carriage.filter l k x).position =
    l.position ∧ (Carriage.filter l k x).phase = l.phase ∧ (Carriage.filter l k x).direction = l.direction ∧
    (Carriage.filter l k x).homed = l.homed ∧ (Carriage.filter l k x).markPhase = l.markPhase ∧ (Carriage.filter
    l k x).markCount = l.markCount ∧ (Carriage.filter l k x).noMark = l.noMark ∧ (Carriage.filter l k
    x).observedNoMark = l.observedNoMark ∧ (Carriage.filter l k x).seekTravel = l.seekTravel ∧ (Carriage.filter
    l k x).profile = l.profile := by
  unfold Carriage.filter
  split <;> simp

/-- What Link.raiseIf leaves unchanged. -/
@[simp] theorem Link.raiseIf_frame (b : Bool) (e : Event) (l : Link) : (Link.raiseIf l b e).mode = l.mode ∧
    (Link.raiseIf l b e).rate = l.rate ∧ (Link.raiseIf l b e).received = l.received ∧ (Link.raiseIf l b
    e).replies = l.replies ∧ (Link.raiseIf l b e).mask = l.mask ∧ (Link.raiseIf l b e).tx = l.tx := by
  unfold Link.raiseIf
  split <;> simp

/-- What tripEngine leaves unchanged. -/
@[simp] theorem tripEngine_frame (c : TripCause) (s : State) : (tripEngine c s).overlayMode =
    s.engine.overlayMode ∧ (tripEngine c s).overlayInputs = s.engine.overlayInputs ∧ (tripEngine c s).testTrips
    = s.engine.testTrips := by
  simp [tripEngine]

/-- What setParam leaves unchanged. -/
@[simp] theorem setParam_frame (id : ParamId) (v : Int) (s : State) : (setParam s id v).link = s.link ∧
    (setParam s id v).slots = s.slots ∧ (setParam s id v).queue = s.queue ∧ (setParam s id v).completions =
    s.completions ∧ (setParam s id v).holds = s.holds ∧ (setParam s id v).exec = s.exec ∧ (setParam s id
    v).carriage = s.carriage ∧ (setParam s id v).fire = s.fire ∧ (setParam s id v).heat = s.heat ∧ (setParam s
    id v).paper = s.paper ∧ (setParam s id v).engine = s.engine ∧ (setParam s id v).counters = s.counters ∧
    (setParam s id v).lines = s.lines ∧ (setParam s id v).txLine = s.txLine ∧ (setParam s id v).motorStep =
    s.motorStep ∧ (setParam s id v).freeCount = s.freeCount ∧ (setParam s id v).pending = s.pending := by
  simp [setParam]

/-- What raise leaves unchanged. -/
@[simp] theorem raise_frame (e : Event) (s : State) : (raise e s).slots = s.slots ∧ (raise e s).queue = s.queue
    ∧ (raise e s).completions = s.completions ∧ (raise e s).holds = s.holds ∧ (raise e s).exec = s.exec ∧ (raise
    e s).carriage = s.carriage ∧ (raise e s).fire = s.fire ∧ (raise e s).heat = s.heat ∧ (raise e s).paper =
    s.paper ∧ (raise e s).engine = s.engine ∧ (raise e s).counters = s.counters ∧ (raise e s).params = s.params
    ∧ (raise e s).lines = s.lines ∧ (raise e s).txLine = s.txLine ∧ (raise e s).motorStep = s.motorStep ∧ (raise
    e s).freeCount = s.freeCount ∧ (raise e s).pending = s.pending ∧ (raise e s).link.mode = s.link.mode ∧
    (raise e s).link.received = s.link.received ∧ (raise e s).link.replies = s.link.replies ∧ (raise e
    s).link.mask = s.link.mask ∧ (raise e s).link.tx = s.link.tx := by
  simp [raise]

/-- What raiseIf leaves unchanged. -/
@[simp] theorem raiseIf_frame (b : Bool) (e : Event) (s : State) : (raiseIf b e s).slots = s.slots ∧ (raiseIf b
    e s).queue = s.queue ∧ (raiseIf b e s).completions = s.completions ∧ (raiseIf b e s).holds = s.holds ∧
    (raiseIf b e s).exec = s.exec ∧ (raiseIf b e s).carriage = s.carriage ∧ (raiseIf b e s).fire = s.fire ∧
    (raiseIf b e s).heat = s.heat ∧ (raiseIf b e s).paper = s.paper ∧ (raiseIf b e s).engine = s.engine ∧
    (raiseIf b e s).counters = s.counters ∧ (raiseIf b e s).params = s.params ∧ (raiseIf b e s).lines = s.lines
    ∧ (raiseIf b e s).txLine = s.txLine ∧ (raiseIf b e s).motorStep = s.motorStep ∧ (raiseIf b e s).freeCount =
    s.freeCount ∧ (raiseIf b e s).pending = s.pending ∧ (raiseIf b e s).link.mode = s.link.mode ∧ (raiseIf b e
    s).link.received = s.link.received ∧ (raiseIf b e s).link.replies = s.link.replies ∧ (raiseIf b e
    s).link.mask = s.link.mask ∧ (raiseIf b e s).link.tx = s.link.tx := by
  simp [raiseIf]

/-- What count leaves unchanged. -/
@[simp] theorem count_frame (c : General) (k : Nat) (s : State) : (count c k s).slots = s.slots ∧ (count c k
    s).queue = s.queue ∧ (count c k s).completions = s.completions ∧ (count c k s).holds = s.holds ∧ (count c k
    s).exec = s.exec ∧ (count c k s).carriage = s.carriage ∧ (count c k s).fire = s.fire ∧ (count c k s).heat =
    s.heat ∧ (count c k s).paper = s.paper ∧ (count c k s).engine = s.engine ∧ (count c k s).params = s.params ∧
    (count c k s).lines = s.lines ∧ (count c k s).txLine = s.txLine ∧ (count c k s).motorStep = s.motorStep ∧
    (count c k s).freeCount = s.freeCount ∧ (count c k s).pending = s.pending ∧ (count c k s).link.mode =
    s.link.mode ∧ (count c k s).link.received = s.link.received ∧ (count c k s).link.replies = s.link.replies ∧
    (count c k s).link.mask = s.link.mask ∧ (count c k s).link.tx = s.link.tx ∧ (count c k s).counters.snapshot
    = s.counters.snapshot := by
  simp [count]

/-- What countStrike leaves unchanged. -/
@[simp] theorem countStrike_frame (p : Fin 24) (s : State) : (countStrike p s).slots = s.slots ∧ (countStrike p
    s).queue = s.queue ∧ (countStrike p s).completions = s.completions ∧ (countStrike p s).holds = s.holds ∧
    (countStrike p s).exec = s.exec ∧ (countStrike p s).carriage = s.carriage ∧ (countStrike p s).fire = s.fire
    ∧ (countStrike p s).heat = s.heat ∧ (countStrike p s).paper = s.paper ∧ (countStrike p s).engine = s.engine
    ∧ (countStrike p s).params = s.params ∧ (countStrike p s).lines = s.lines ∧ (countStrike p s).txLine =
    s.txLine ∧ (countStrike p s).motorStep = s.motorStep ∧ (countStrike p s).freeCount = s.freeCount ∧
    (countStrike p s).pending = s.pending ∧ (countStrike p s).link.mode = s.link.mode ∧ (countStrike p
    s).link.received = s.link.received ∧ (countStrike p s).link.replies = s.link.replies ∧ (countStrike p
    s).link.mask = s.link.mask ∧ (countStrike p s).link.tx = s.link.tx ∧ (countStrike p s).counters.snapshot =
    s.counters.snapshot := by
  simp [countStrike]

/-- What setHeat leaves unchanged. -/
@[simp] theorem setHeat_frame (h : Nat) (s : State) : (setHeat h s).link = s.link ∧ (setHeat h s).slots =
    s.slots ∧ (setHeat h s).queue = s.queue ∧ (setHeat h s).completions = s.completions ∧ (setHeat h s).holds =
    s.holds ∧ (setHeat h s).exec = s.exec ∧ (setHeat h s).carriage = s.carriage ∧ (setHeat h s).fire = s.fire ∧
    (setHeat h s).paper = s.paper ∧ (setHeat h s).engine = s.engine ∧ (setHeat h s).counters = s.counters ∧
    (setHeat h s).params = s.params ∧ (setHeat h s).lines = s.lines ∧ (setHeat h s).txLine = s.txLine ∧ (setHeat
    h s).motorStep = s.motorStep ∧ (setHeat h s).freeCount = s.freeCount ∧ (setHeat h s).pending = s.pending := by
  simp [setHeat]

/-- What setRibbon leaves unchanged. -/
@[simp] theorem setRibbon_frame (on : Bool) (s : State) : (setRibbon on s).link = s.link ∧ (setRibbon on
    s).slots = s.slots ∧ (setRibbon on s).queue = s.queue ∧ (setRibbon on s).completions = s.completions ∧
    (setRibbon on s).holds = s.holds ∧ (setRibbon on s).exec = s.exec ∧ (setRibbon on s).carriage = s.carriage ∧
    (setRibbon on s).fire = s.fire ∧ (setRibbon on s).heat = s.heat ∧ (setRibbon on s).paper = s.paper ∧
    (setRibbon on s).counters = s.counters ∧ (setRibbon on s).params = s.params ∧ (setRibbon on s).lines =
    s.lines ∧ (setRibbon on s).txLine = s.txLine ∧ (setRibbon on s).motorStep = s.motorStep ∧ (setRibbon on
    s).freeCount = s.freeCount ∧ (setRibbon on s).pending = s.pending ∧ (setRibbon on s).engine.state =
    s.engine.state ∧ (setRibbon on s).engine.resetPending = s.engine.resetPending ∧ (setRibbon on
    s).engine.firstFault = s.engine.firstFault ∧ (setRibbon on s).engine.further = s.engine.further ∧ (setRibbon
    on s).engine.overlayMode = s.engine.overlayMode ∧ (setRibbon on s).engine.overlayInputs =
    s.engine.overlayInputs := by
  simp [setRibbon]

/-- What addHalted leaves unchanged. -/
@[simp] theorem addHalted_frame (s : State) : (addHalted s).link = s.link ∧ (addHalted s).slots = s.slots ∧
    (addHalted s).queue = s.queue ∧ (addHalted s).completions = s.completions ∧ (addHalted s).exec = s.exec ∧
    (addHalted s).carriage = s.carriage ∧ (addHalted s).fire = s.fire ∧ (addHalted s).heat = s.heat ∧ (addHalted
    s).paper = s.paper ∧ (addHalted s).engine = s.engine ∧ (addHalted s).counters = s.counters ∧ (addHalted
    s).params = s.params ∧ (addHalted s).lines = s.lines ∧ (addHalted s).txLine = s.txLine ∧ (addHalted
    s).motorStep = s.motorStep ∧ (addHalted s).freeCount = s.freeCount ∧ (addHalted s).pending = s.pending ∧
    (addHalted s).holds.paperOut = s.holds.paperOut := by
  simp [addHalted]

/-- What setSlot leaves unchanged. -/
@[simp] theorem setSlot_frame (i : Fin 8) (x : Slot) (s : State) : (setSlot i x s).link = s.link ∧ (setSlot i x
    s).queue = s.queue ∧ (setSlot i x s).completions = s.completions ∧ (setSlot i x s).holds = s.holds ∧
    (setSlot i x s).exec = s.exec ∧ (setSlot i x s).carriage = s.carriage ∧ (setSlot i x s).fire = s.fire ∧
    (setSlot i x s).heat = s.heat ∧ (setSlot i x s).paper = s.paper ∧ (setSlot i x s).engine = s.engine ∧
    (setSlot i x s).counters = s.counters ∧ (setSlot i x s).params = s.params ∧ (setSlot i x s).lines = s.lines
    ∧ (setSlot i x s).txLine = s.txLine ∧ (setSlot i x s).motorStep = s.motorStep ∧ (setSlot i x s).freeCount =
    s.freeCount ∧ (setSlot i x s).pending = s.pending := by
  simp [setSlot]

/-- What holdAt leaves unchanged. -/
@[simp] theorem holdAt_frame (r : Resume) (s : State) : (holdAt r s).link = s.link ∧ (holdAt r s).slots =
    s.slots ∧ (holdAt r s).queue = s.queue ∧ (holdAt r s).completions = s.completions ∧ (holdAt r s).carriage =
    s.carriage ∧ (holdAt r s).fire = s.fire ∧ (holdAt r s).heat = s.heat ∧ (holdAt r s).paper = s.paper ∧
    (holdAt r s).engine = s.engine ∧ (holdAt r s).counters = s.counters ∧ (holdAt r s).params = s.params ∧
    (holdAt r s).lines = s.lines ∧ (holdAt r s).txLine = s.txLine ∧ (holdAt r s).motorStep = s.motorStep ∧
    (holdAt r s).freeCount = s.freeCount ∧ (holdAt r s).pending = s.pending ∧ (holdAt r s).holds.paperOut =
    s.holds.paperOut ∧ (holdAt r s).exec.failing = s.exec.failing := by
  simp [holdAt]

/-- What leaveQueue leaves unchanged. -/
@[simp] theorem leaveQueue_frame (e : Entry) (rest : List Entry) (out : EntryOutcome) (s : State) : (leaveQueue
    e rest out s).link = s.link ∧ (leaveQueue e rest out s).carriage = s.carriage ∧ (leaveQueue e rest out
    s).paper = s.paper ∧ (leaveQueue e rest out s).engine = s.engine ∧ (leaveQueue e rest out s).counters =
    s.counters ∧ (leaveQueue e rest out s).params = s.params ∧ (leaveQueue e rest out s).lines = s.lines ∧
    (leaveQueue e rest out s).txLine = s.txLine ∧ (leaveQueue e rest out s).motorStep = s.motorStep ∧
    (leaveQueue e rest out s).freeCount = s.freeCount ∧ (leaveQueue e rest out s).pending = s.pending ∧
    (leaveQueue e rest out s).holds.paperOut = s.holds.paperOut ∧ (leaveQueue e rest out s).fire.pinMap =
    s.fire.pinMap ∧ (leaveQueue e rest out s).fire.inhibit = s.fire.inhibit ∧ (leaveQueue e rest out
    s).fire.failed = s.fire.failed ∧ (leaveQueue e rest out s).fire.openCounts = s.fire.openCounts ∧ (leaveQueue
    e rest out s).fire.table = s.fire.table ∧ (leaveQueue e rest out s).fire.pendingTable = s.fire.pendingTable
    ∧ (leaveQueue e rest out s).fire.driving = s.fire.driving ∧ (leaveQueue e rest out s).heat.h = s.heat.h := by
  simp [leaveQueue]

/-- What startMotion leaves unchanged. -/
@[simp] theorem startMotion_frame (ph : MotionPhase) (d : Dir) (pf : Option Profile) (s : State) : (startMotion
    ph d pf s).link = s.link ∧ (startMotion ph d pf s).slots = s.slots ∧ (startMotion ph d pf s).queue = s.queue
    ∧ (startMotion ph d pf s).completions = s.completions ∧ (startMotion ph d pf s).holds = s.holds ∧
    (startMotion ph d pf s).exec = s.exec ∧ (startMotion ph d pf s).fire = s.fire ∧ (startMotion ph d pf s).heat
    = s.heat ∧ (startMotion ph d pf s).paper = s.paper ∧ (startMotion ph d pf s).counters = s.counters ∧
    (startMotion ph d pf s).params = s.params ∧ (startMotion ph d pf s).lines = s.lines ∧ (startMotion ph d pf
    s).txLine = s.txLine ∧ (startMotion ph d pf s).motorStep = s.motorStep ∧ (startMotion ph d pf s).freeCount =
    s.freeCount ∧ (startMotion ph d pf s).pending = s.pending ∧ (startMotion ph d pf s).carriage.homed =
    s.carriage.homed ∧ (startMotion ph d pf s).engine.resetPending = s.engine.resetPending ∧ (startMotion ph d
    pf s).engine.firstFault = s.engine.firstFault ∧ (startMotion ph d pf s).engine.further = s.engine.further ∧
    (startMotion ph d pf s).engine.overlayMode = s.engine.overlayMode ∧ (startMotion ph d pf
    s).engine.overlayInputs = s.engine.overlayInputs ∧ (startMotion ph d pf s).engine.outputs = s.engine.outputs
    := by
  simp [startMotion]

/-- What endMotion leaves unchanged. -/
@[simp] theorem endMotion_frame (s : State) : (endMotion s).link = s.link ∧ (endMotion s).slots = s.slots ∧
    (endMotion s).queue = s.queue ∧ (endMotion s).completions = s.completions ∧ (endMotion s).holds = s.holds ∧
    (endMotion s).exec = s.exec ∧ (endMotion s).fire = s.fire ∧ (endMotion s).heat = s.heat ∧ (endMotion
    s).paper = s.paper ∧ (endMotion s).counters = s.counters ∧ (endMotion s).params = s.params ∧ (endMotion
    s).lines = s.lines ∧ (endMotion s).txLine = s.txLine ∧ (endMotion s).motorStep = s.motorStep ∧ (endMotion
    s).freeCount = s.freeCount ∧ (endMotion s).pending = s.pending ∧ (endMotion s).carriage.homed =
    s.carriage.homed ∧ (endMotion s).engine.state = s.engine.state ∧ (endMotion s).engine.resetPending =
    s.engine.resetPending ∧ (endMotion s).engine.firstFault = s.engine.firstFault ∧ (endMotion s).engine.further
    = s.engine.further ∧ (endMotion s).engine.overlayMode = s.engine.overlayMode ∧ (endMotion
    s).engine.overlayInputs = s.engine.overlayInputs ∧ (endMotion s).engine.outputs = s.engine.outputs := by
  simp [endMotion]

/-- What endFeed leaves unchanged. -/
@[simp] theorem endFeed_frame (s : State) : (endFeed s).link = s.link ∧ (endFeed s).slots = s.slots ∧ (endFeed
    s).queue = s.queue ∧ (endFeed s).completions = s.completions ∧ (endFeed s).holds = s.holds ∧ (endFeed
    s).exec = s.exec ∧ (endFeed s).carriage = s.carriage ∧ (endFeed s).fire = s.fire ∧ (endFeed s).heat = s.heat
    ∧ (endFeed s).counters = s.counters ∧ (endFeed s).params = s.params ∧ (endFeed s).lines = s.lines ∧ (endFeed
    s).txLine = s.txLine ∧ (endFeed s).motorStep = s.motorStep ∧ (endFeed s).freeCount = s.freeCount ∧ (endFeed
    s).pending = s.pending ∧ (endFeed s).paper.active = s.paper.active ∧ (endFeed s).paper.next = s.paper.next ∧
    (endFeed s).paper.state = s.paper.state ∧ (endFeed s).paper.y = s.paper.y ∧ (endFeed s).paper.jamDue =
    s.paper.jamDue ∧ (endFeed s).engine.state = s.engine.state ∧ (endFeed s).engine.resetPending =
    s.engine.resetPending ∧ (endFeed s).engine.firstFault = s.engine.firstFault ∧ (endFeed s).engine.further =
    s.engine.further ∧ (endFeed s).engine.overlayMode = s.engine.overlayMode ∧ (endFeed s).engine.overlayInputs
    = s.engine.overlayInputs ∧ (endFeed s).engine.outputs = s.engine.outputs := by
  simp [endFeed]

/-- What startFeed leaves unchanged. -/
@[simp] theorem startFeed_frame (u : Purpose) (d : Dir) (n : Nat) (s : State) : (startFeed u d n s).link =
    s.link ∧ (startFeed u d n s).slots = s.slots ∧ (startFeed u d n s).queue = s.queue ∧ (startFeed u d n
    s).completions = s.completions ∧ (startFeed u d n s).holds = s.holds ∧ (startFeed u d n s).exec = s.exec ∧
    (startFeed u d n s).carriage = s.carriage ∧ (startFeed u d n s).fire = s.fire ∧ (startFeed u d n s).heat =
    s.heat ∧ (startFeed u d n s).counters = s.counters ∧ (startFeed u d n s).params = s.params ∧ (startFeed u d
    n s).lines = s.lines ∧ (startFeed u d n s).txLine = s.txLine ∧ (startFeed u d n s).motorStep = s.motorStep ∧
    (startFeed u d n s).freeCount = s.freeCount ∧ (startFeed u d n s).pending = s.pending ∧ (startFeed u d n
    s).paper.active = s.paper.active ∧ (startFeed u d n s).paper.next = s.paper.next ∧ (startFeed u d n
    s).paper.state = s.paper.state ∧ (startFeed u d n s).paper.y = s.paper.y ∧ (startFeed u d n s).paper.jamDue
    = s.paper.jamDue ∧ (startFeed u d n s).engine.resetPending = s.engine.resetPending ∧ (startFeed u d n
    s).engine.firstFault = s.engine.firstFault ∧ (startFeed u d n s).engine.further = s.engine.further ∧
    (startFeed u d n s).engine.overlayMode = s.engine.overlayMode ∧ (startFeed u d n s).engine.overlayInputs =
    s.engine.overlayInputs ∧ (startFeed u d n s).engine.outputs = s.engine.outputs := by
  simp [startFeed]

/-- What stopFeed leaves unchanged. -/
@[simp] theorem stopFeed_frame (s : State) : (stopFeed s).link = s.link ∧ (stopFeed s).slots = s.slots ∧
    (stopFeed s).queue = s.queue ∧ (stopFeed s).completions = s.completions ∧ (stopFeed s).holds = s.holds ∧
    (stopFeed s).exec = s.exec ∧ (stopFeed s).carriage = s.carriage ∧ (stopFeed s).fire = s.fire ∧ (stopFeed
    s).heat = s.heat ∧ (stopFeed s).engine = s.engine ∧ (stopFeed s).counters = s.counters ∧ (stopFeed s).params
    = s.params ∧ (stopFeed s).lines = s.lines ∧ (stopFeed s).txLine = s.txLine ∧ (stopFeed s).motorStep =
    s.motorStep ∧ (stopFeed s).freeCount = s.freeCount ∧ (stopFeed s).pending = s.pending ∧ (stopFeed
    s).paper.active = s.paper.active ∧ (stopFeed s).paper.next = s.paper.next ∧ (stopFeed s).paper.state =
    s.paper.state ∧ (stopFeed s).paper.y = s.paper.y ∧ (stopFeed s).paper.jamDue = s.paper.jamDue := by
  simp [stopFeed]

/-- What setDue leaves unchanged. -/
@[simp] theorem setDue_frame (ref : Option Nat) (s : State) : (setDue ref s).link = s.link ∧ (setDue ref
    s).slots = s.slots ∧ (setDue ref s).queue = s.queue ∧ (setDue ref s).completions = s.completions ∧ (setDue
    ref s).holds = s.holds ∧ (setDue ref s).exec = s.exec ∧ (setDue ref s).carriage = s.carriage ∧ (setDue ref
    s).heat = s.heat ∧ (setDue ref s).paper = s.paper ∧ (setDue ref s).engine = s.engine ∧ (setDue ref
    s).counters = s.counters ∧ (setDue ref s).params = s.params ∧ (setDue ref s).lines = s.lines ∧ (setDue ref
    s).txLine = s.txLine ∧ (setDue ref s).motorStep = s.motorStep ∧ (setDue ref s).freeCount = s.freeCount ∧
    (setDue ref s).pending = s.pending ∧ (setDue ref s).fire.pinMap = s.fire.pinMap ∧ (setDue ref
    s).fire.inhibit = s.fire.inhibit ∧ (setDue ref s).fire.failed = s.fire.failed ∧ (setDue ref
    s).fire.openCounts = s.fire.openCounts ∧ (setDue ref s).fire.table = s.fire.table ∧ (setDue ref
    s).fire.pendingTable = s.fire.pendingTable ∧ (setDue ref s).fire.driving = s.fire.driving := by
  simp [setDue]

/-- What beginWake leaves unchanged. -/
@[simp] theorem beginWake_frame (t : WakeTarget) (s : State) : (beginWake t s).link = s.link ∧ (beginWake t
    s).slots = s.slots ∧ (beginWake t s).queue = s.queue ∧ (beginWake t s).completions = s.completions ∧
    (beginWake t s).holds = s.holds ∧ (beginWake t s).exec = s.exec ∧ (beginWake t s).carriage = s.carriage ∧
    (beginWake t s).fire = s.fire ∧ (beginWake t s).heat = s.heat ∧ (beginWake t s).paper = s.paper ∧ (beginWake
    t s).counters = s.counters ∧ (beginWake t s).params = s.params ∧ (beginWake t s).lines = s.lines ∧
    (beginWake t s).txLine = s.txLine ∧ (beginWake t s).motorStep = s.motorStep ∧ (beginWake t s).freeCount =
    s.freeCount ∧ (beginWake t s).pending = s.pending ∧ (beginWake t s).engine.resetPending =
    s.engine.resetPending ∧ (beginWake t s).engine.firstFault = s.engine.firstFault ∧ (beginWake t
    s).engine.further = s.engine.further ∧ (beginWake t s).engine.overlayMode = s.engine.overlayMode ∧
    (beginWake t s).engine.overlayInputs = s.engine.overlayInputs ∧ (beginWake t s).engine.outputs =
    s.engine.outputs := by
  simp [beginWake]

/-- What enterUnready leaves unchanged. -/
@[simp] theorem enterUnready_frame (s : State) : (enterUnready s).link = s.link ∧ (enterUnready s).slots =
    s.slots ∧ (enterUnready s).queue = s.queue ∧ (enterUnready s).completions = s.completions ∧ (enterUnready
    s).holds = s.holds ∧ (enterUnready s).exec = s.exec ∧ (enterUnready s).carriage = s.carriage ∧ (enterUnready
    s).fire = s.fire ∧ (enterUnready s).heat = s.heat ∧ (enterUnready s).paper = s.paper ∧ (enterUnready
    s).counters = s.counters ∧ (enterUnready s).params = s.params ∧ (enterUnready s).lines = s.lines ∧
    (enterUnready s).txLine = s.txLine ∧ (enterUnready s).motorStep = s.motorStep ∧ (enterUnready s).freeCount =
    s.freeCount ∧ (enterUnready s).pending = s.pending ∧ (enterUnready s).engine.firstFault =
    s.engine.firstFault ∧ (enterUnready s).engine.further = s.engine.further ∧ (enterUnready
    s).engine.overlayMode = s.engine.overlayMode ∧ (enterUnready s).engine.overlayInputs =
    s.engine.overlayInputs ∧ (enterUnready s).engine.outputs = s.engine.outputs := by
  simp [enterUnready]

/-- What applyNext leaves unchanged. -/
@[simp] theorem applyNext_frame (s : State) : (applyNext s).slots = s.slots ∧ (applyNext s).queue = s.queue ∧
    (applyNext s).completions = s.completions ∧ (applyNext s).holds = s.holds ∧ (applyNext s).exec = s.exec ∧
    (applyNext s).carriage = s.carriage ∧ (applyNext s).fire = s.fire ∧ (applyNext s).heat = s.heat ∧ (applyNext
    s).engine = s.engine ∧ (applyNext s).counters = s.counters ∧ (applyNext s).params = s.params ∧ (applyNext
    s).lines = s.lines ∧ (applyNext s).txLine = s.txLine ∧ (applyNext s).motorStep = s.motorStep ∧ (applyNext
    s).freeCount = s.freeCount ∧ (applyNext s).pending = s.pending ∧ (applyNext s).link.mode = s.link.mode ∧
    (applyNext s).link.received = s.link.received ∧ (applyNext s).link.replies = s.link.replies ∧ (applyNext
    s).link.mask = s.link.mask ∧ (applyNext s).link.tx = s.link.tx ∧ (applyNext s).paper.state = s.paper.state ∧
    (applyNext s).paper.y = s.paper.y ∧ (applyNext s).paper.move = s.paper.move ∧ (applyNext s).paper.jamDue =
    s.paper.jamDue := by
  simp [applyNext]

/-- What sensorLost leaves unchanged. -/
@[simp] theorem sensorLost_frame (s : State) : (sensorLost s).link = s.link ∧ (sensorLost s).slots = s.slots ∧
    (sensorLost s).queue = s.queue ∧ (sensorLost s).completions = s.completions ∧ (sensorLost s).holds = s.holds
    ∧ (sensorLost s).exec = s.exec ∧ (sensorLost s).carriage = s.carriage ∧ (sensorLost s).fire = s.fire ∧
    (sensorLost s).heat = s.heat ∧ (sensorLost s).engine = s.engine ∧ (sensorLost s).counters = s.counters ∧
    (sensorLost s).params = s.params ∧ (sensorLost s).lines = s.lines ∧ (sensorLost s).txLine = s.txLine ∧
    (sensorLost s).motorStep = s.motorStep ∧ (sensorLost s).freeCount = s.freeCount ∧ (sensorLost s).pending =
    s.pending ∧ (sensorLost s).paper.active = s.paper.active ∧ (sensorLost s).paper.next = s.paper.next ∧
    (sensorLost s).paper.y = s.paper.y ∧ (sensorLost s).paper.move = s.paper.move ∧ (sensorLost s).paper.jamDue
    = s.paper.jamDue := by
  unfold sensorLost
  split <;> simp

/-- What dropOldest leaves unchanged. -/
@[simp] theorem dropOldest_frame (s : State) : (dropOldest s).slots = s.slots ∧ (dropOldest s).queue = s.queue ∧
    (dropOldest s).completions = s.completions ∧ (dropOldest s).holds = s.holds ∧ (dropOldest s).exec = s.exec ∧
    (dropOldest s).carriage = s.carriage ∧ (dropOldest s).fire = s.fire ∧ (dropOldest s).heat = s.heat ∧
    (dropOldest s).paper = s.paper ∧ (dropOldest s).engine = s.engine ∧ (dropOldest s).counters = s.counters ∧
    (dropOldest s).params = s.params ∧ (dropOldest s).lines = s.lines ∧ (dropOldest s).txLine = s.txLine ∧
    (dropOldest s).motorStep = s.motorStep ∧ (dropOldest s).freeCount = s.freeCount ∧ (dropOldest s).pending =
    s.pending ∧ (dropOldest s).link.mode = s.link.mode ∧ (dropOldest s).link.replies = s.link.replies ∧
    (dropOldest s).link.mask = s.link.mask ∧ (dropOldest s).link.tx = s.link.tx := by
  simp [dropOldest]

/-- What pushReply leaves unchanged. -/
@[simp] theorem pushReply_frame (r : Frame) (s : State) : (pushReply r s).slots = s.slots ∧ (pushReply r
    s).queue = s.queue ∧ (pushReply r s).completions = s.completions ∧ (pushReply r s).holds = s.holds ∧
    (pushReply r s).exec = s.exec ∧ (pushReply r s).carriage = s.carriage ∧ (pushReply r s).fire = s.fire ∧
    (pushReply r s).heat = s.heat ∧ (pushReply r s).paper = s.paper ∧ (pushReply r s).engine = s.engine ∧
    (pushReply r s).counters = s.counters ∧ (pushReply r s).params = s.params ∧ (pushReply r s).lines = s.lines
    ∧ (pushReply r s).txLine = s.txLine ∧ (pushReply r s).motorStep = s.motorStep ∧ (pushReply r s).freeCount =
    s.freeCount ∧ (pushReply r s).pending = s.pending ∧ (pushReply r s).link.mode = s.link.mode ∧ (pushReply r
    s).link.received = s.link.received ∧ (pushReply r s).link.mask = s.link.mask ∧ (pushReply r s).link.tx =
    s.link.tx := by
  simp [pushReply]

/-- What setMode leaves unchanged. -/
@[simp] theorem setMode_frame (m : RxMode) (s : State) : (setMode m s).slots = s.slots ∧ (setMode m s).queue =
    s.queue ∧ (setMode m s).completions = s.completions ∧ (setMode m s).holds = s.holds ∧ (setMode m s).exec =
    s.exec ∧ (setMode m s).carriage = s.carriage ∧ (setMode m s).fire = s.fire ∧ (setMode m s).heat = s.heat ∧
    (setMode m s).paper = s.paper ∧ (setMode m s).engine = s.engine ∧ (setMode m s).counters = s.counters ∧
    (setMode m s).params = s.params ∧ (setMode m s).lines = s.lines ∧ (setMode m s).txLine = s.txLine ∧ (setMode
    m s).motorStep = s.motorStep ∧ (setMode m s).freeCount = s.freeCount ∧ (setMode m s).pending = s.pending ∧
    (setMode m s).link.received = s.link.received ∧ (setMode m s).link.replies = s.link.replies ∧ (setMode m
    s).link.mask = s.link.mask ∧ (setMode m s).link.tx = s.link.tx := by
  simp [setMode]

/-- What setMask leaves unchanged. -/
@[simp] theorem setMask_frame (m : EventSet) (s : State) : (setMask m s).slots = s.slots ∧ (setMask m s).queue =
    s.queue ∧ (setMask m s).completions = s.completions ∧ (setMask m s).holds = s.holds ∧ (setMask m s).exec =
    s.exec ∧ (setMask m s).carriage = s.carriage ∧ (setMask m s).fire = s.fire ∧ (setMask m s).heat = s.heat ∧
    (setMask m s).paper = s.paper ∧ (setMask m s).engine = s.engine ∧ (setMask m s).counters = s.counters ∧
    (setMask m s).params = s.params ∧ (setMask m s).lines = s.lines ∧ (setMask m s).txLine = s.txLine ∧ (setMask
    m s).motorStep = s.motorStep ∧ (setMask m s).freeCount = s.freeCount ∧ (setMask m s).pending = s.pending ∧
    (setMask m s).link.mode = s.link.mode ∧ (setMask m s).link.received = s.link.received ∧ (setMask m
    s).link.replies = s.link.replies ∧ (setMask m s).link.tx = s.link.tx := by
  simp [setMask]

/-- What judgeBand leaves unchanged. -/
@[simp] theorem judgeBand_frame (s : State) : (judgeBand s).link = s.link ∧ (judgeBand s).slots = s.slots ∧
    (judgeBand s).queue = s.queue ∧ (judgeBand s).completions = s.completions ∧ (judgeBand s).holds = s.holds ∧
    (judgeBand s).exec = s.exec ∧ (judgeBand s).carriage = s.carriage ∧ (judgeBand s).fire = s.fire ∧ (judgeBand
    s).paper = s.paper ∧ (judgeBand s).engine = s.engine ∧ (judgeBand s).counters = s.counters ∧ (judgeBand
    s).params = s.params ∧ (judgeBand s).lines = s.lines ∧ (judgeBand s).txLine = s.txLine ∧ (judgeBand
    s).motorStep = s.motorStep ∧ (judgeBand s).freeCount = s.freeCount ∧ (judgeBand s).pending = s.pending ∧
    (judgeBand s).heat.h = s.heat.h := by
  simp [judgeBand]

/-- What judgeLatch leaves unchanged. -/
@[simp] theorem judgeLatch_frame (s : State) : (judgeLatch s).link = s.link ∧ (judgeLatch s).slots = s.slots ∧
    (judgeLatch s).queue = s.queue ∧ (judgeLatch s).completions = s.completions ∧ (judgeLatch s).holds = s.holds
    ∧ (judgeLatch s).exec = s.exec ∧ (judgeLatch s).carriage = s.carriage ∧ (judgeLatch s).fire = s.fire ∧
    (judgeLatch s).paper = s.paper ∧ (judgeLatch s).engine = s.engine ∧ (judgeLatch s).counters = s.counters ∧
    (judgeLatch s).params = s.params ∧ (judgeLatch s).lines = s.lines ∧ (judgeLatch s).txLine = s.txLine ∧
    (judgeLatch s).motorStep = s.motorStep ∧ (judgeLatch s).freeCount = s.freeCount ∧ (judgeLatch s).pending =
    s.pending ∧ (judgeLatch s).heat.h = s.heat.h := by
  simp [judgeLatch]

/-- What setPhase leaves unchanged. -/
@[simp] theorem setPhase_frame (ph : MotionPhase) (s : State) : (setPhase ph s).link = s.link ∧ (setPhase ph
    s).slots = s.slots ∧ (setPhase ph s).queue = s.queue ∧ (setPhase ph s).completions = s.completions ∧
    (setPhase ph s).holds = s.holds ∧ (setPhase ph s).exec = s.exec ∧ (setPhase ph s).fire = s.fire ∧ (setPhase
    ph s).heat = s.heat ∧ (setPhase ph s).paper = s.paper ∧ (setPhase ph s).engine = s.engine ∧ (setPhase ph
    s).counters = s.counters ∧ (setPhase ph s).params = s.params ∧ (setPhase ph s).lines = s.lines ∧ (setPhase
    ph s).txLine = s.txLine ∧ (setPhase ph s).motorStep = s.motorStep ∧ (setPhase ph s).freeCount = s.freeCount
    ∧ (setPhase ph s).pending = s.pending ∧ (setPhase ph s).carriage.direction = s.carriage.direction ∧
    (setPhase ph s).carriage.homed = s.carriage.homed := by
  simp [setPhase]

/-- What settlePulses leaves unchanged. -/
@[simp] theorem settlePulses_frame (s : State) : (settlePulses s).link = s.link ∧ (settlePulses s).slots =
    s.slots ∧ (settlePulses s).queue = s.queue ∧ (settlePulses s).completions = s.completions ∧ (settlePulses
    s).holds = s.holds ∧ (settlePulses s).exec = s.exec ∧ (settlePulses s).carriage = s.carriage ∧ (settlePulses
    s).heat = s.heat ∧ (settlePulses s).paper = s.paper ∧ (settlePulses s).engine = s.engine ∧ (settlePulses
    s).counters = s.counters ∧ (settlePulses s).params = s.params ∧ (settlePulses s).lines = s.lines ∧
    (settlePulses s).txLine = s.txLine ∧ (settlePulses s).motorStep = s.motorStep ∧ (settlePulses s).freeCount =
    s.freeCount ∧ (settlePulses s).pending = s.pending ∧ (settlePulses s).fire.pinMap = s.fire.pinMap ∧
    (settlePulses s).fire.inhibit = s.fire.inhibit ∧ (settlePulses s).fire.failed = s.fire.failed ∧
    (settlePulses s).fire.openCounts = s.fire.openCounts ∧ (settlePulses s).fire.table = s.fire.table ∧
    (settlePulses s).fire.pendingTable = s.fire.pendingTable ∧ (settlePulses s).fire.driving = s.fire.driving := by
  unfold settlePulses
  split <;> simp

/-- What emptyTestTrips leaves unchanged. -/
@[simp] theorem emptyTestTrips_frame (s : State) : (emptyTestTrips s).link = s.link ∧ (emptyTestTrips s).slots =
    s.slots ∧ (emptyTestTrips s).queue = s.queue ∧ (emptyTestTrips s).completions = s.completions ∧
    (emptyTestTrips s).holds = s.holds ∧ (emptyTestTrips s).exec = s.exec ∧ (emptyTestTrips s).carriage =
    s.carriage ∧ (emptyTestTrips s).fire = s.fire ∧ (emptyTestTrips s).heat = s.heat ∧ (emptyTestTrips s).paper
    = s.paper ∧ (emptyTestTrips s).counters = s.counters ∧ (emptyTestTrips s).params = s.params ∧
    (emptyTestTrips s).lines = s.lines ∧ (emptyTestTrips s).txLine = s.txLine ∧ (emptyTestTrips s).motorStep =
    s.motorStep ∧ (emptyTestTrips s).freeCount = s.freeCount ∧ (emptyTestTrips s).pending = s.pending ∧
    (emptyTestTrips s).engine.state = s.engine.state ∧ (emptyTestTrips s).engine.resetPending =
    s.engine.resetPending ∧ (emptyTestTrips s).engine.firstFault = s.engine.firstFault ∧ (emptyTestTrips
    s).engine.further = s.engine.further ∧ (emptyTestTrips s).engine.overlayMode = s.engine.overlayMode ∧
    (emptyTestTrips s).engine.overlayInputs = s.engine.overlayInputs ∧ (emptyTestTrips s).engine.outputs =
    s.engine.outputs := by
  simp [emptyTestTrips]

/-- What enterRest leaves unchanged. -/
@[simp] theorem enterRest_frame (r : RestOrigin) (s : State) : (enterRest r s).link = s.link ∧ (enterRest r
    s).slots = s.slots ∧ (enterRest r s).queue = s.queue ∧ (enterRest r s).completions = s.completions ∧
    (enterRest r s).holds = s.holds ∧ (enterRest r s).exec = s.exec ∧ (enterRest r s).fire = s.fire ∧ (enterRest
    r s).heat = s.heat ∧ (enterRest r s).paper = s.paper ∧ (enterRest r s).counters = s.counters ∧ (enterRest r
    s).params = s.params ∧ (enterRest r s).lines = s.lines ∧ (enterRest r s).txLine = s.txLine ∧ (enterRest r
    s).motorStep = s.motorStep ∧ (enterRest r s).freeCount = s.freeCount ∧ (enterRest r s).pending = s.pending ∧
    (enterRest r s).carriage.phase = s.carriage.phase ∧ (enterRest r s).carriage.direction =
    s.carriage.direction ∧ (enterRest r s).engine.resetPending = s.engine.resetPending ∧ (enterRest r
    s).engine.firstFault = s.engine.firstFault ∧ (enterRest r s).engine.further = s.engine.further ∧ (enterRest
    r s).engine.overlayMode = s.engine.overlayMode ∧ (enterRest r s).engine.overlayInputs =
    s.engine.overlayInputs ∧ (enterRest r s).engine.outputs = s.engine.outputs := by
  simp [enterRest]

/-- What clearTrip leaves unchanged. -/
@[simp] theorem clearTrip_frame (s : State) : (clearTrip s).link = s.link ∧ (clearTrip s).slots = s.slots ∧
    (clearTrip s).queue = s.queue ∧ (clearTrip s).completions = s.completions ∧ (clearTrip s).holds = s.holds ∧
    (clearTrip s).exec = s.exec ∧ (clearTrip s).carriage = s.carriage ∧ (clearTrip s).fire = s.fire ∧ (clearTrip
    s).heat = s.heat ∧ (clearTrip s).paper = s.paper ∧ (clearTrip s).counters = s.counters ∧ (clearTrip
    s).params = s.params ∧ (clearTrip s).lines = s.lines ∧ (clearTrip s).txLine = s.txLine ∧ (clearTrip
    s).motorStep = s.motorStep ∧ (clearTrip s).freeCount = s.freeCount ∧ (clearTrip s).pending = s.pending ∧
    (clearTrip s).engine.resetPending = s.engine.resetPending ∧ (clearTrip s).engine.overlayMode =
    s.engine.overlayMode ∧ (clearTrip s).engine.overlayInputs = s.engine.overlayInputs := by
  simp [clearTrip]

/-- What setOverlay leaves unchanged. -/
@[simp] theorem setOverlay_frame (m : OverlayMode) (inputs : BitVec 6) (s : State) : (setOverlay m inputs
    s).link = s.link ∧ (setOverlay m inputs s).slots = s.slots ∧ (setOverlay m inputs s).queue = s.queue ∧
    (setOverlay m inputs s).completions = s.completions ∧ (setOverlay m inputs s).holds = s.holds ∧ (setOverlay
    m inputs s).exec = s.exec ∧ (setOverlay m inputs s).carriage = s.carriage ∧ (setOverlay m inputs s).fire =
    s.fire ∧ (setOverlay m inputs s).heat = s.heat ∧ (setOverlay m inputs s).paper = s.paper ∧ (setOverlay m
    inputs s).counters = s.counters ∧ (setOverlay m inputs s).params = s.params ∧ (setOverlay m inputs s).lines
    = s.lines ∧ (setOverlay m inputs s).txLine = s.txLine ∧ (setOverlay m inputs s).motorStep = s.motorStep ∧
    (setOverlay m inputs s).freeCount = s.freeCount ∧ (setOverlay m inputs s).pending = s.pending ∧ (setOverlay
    m inputs s).engine.state = s.engine.state ∧ (setOverlay m inputs s).engine.resetPending =
    s.engine.resetPending ∧ (setOverlay m inputs s).engine.firstFault = s.engine.firstFault ∧ (setOverlay m
    inputs s).engine.further = s.engine.further ∧ (setOverlay m inputs s).engine.outputs = s.engine.outputs := by
  simp [setOverlay]

/-- What syncObserved leaves unchanged. -/
@[simp] theorem syncObserved_frame (s : State) : (syncObserved s).link = s.link ∧ (syncObserved s).slots =
    s.slots ∧ (syncObserved s).queue = s.queue ∧ (syncObserved s).completions = s.completions ∧ (syncObserved
    s).holds = s.holds ∧ (syncObserved s).exec = s.exec ∧ (syncObserved s).fire = s.fire ∧ (syncObserved s).heat
    = s.heat ∧ (syncObserved s).engine = s.engine ∧ (syncObserved s).counters = s.counters ∧ (syncObserved
    s).params = s.params ∧ (syncObserved s).lines = s.lines ∧ (syncObserved s).txLine = s.txLine ∧ (syncObserved
    s).motorStep = s.motorStep ∧ (syncObserved s).freeCount = s.freeCount ∧ (syncObserved s).pending = s.pending
    ∧ (syncObserved s).carriage.phase = s.carriage.phase ∧ (syncObserved s).carriage.direction =
    s.carriage.direction ∧ (syncObserved s).carriage.homed = s.carriage.homed ∧ (syncObserved s).paper.active =
    s.paper.active ∧ (syncObserved s).paper.next = s.paper.next ∧ (syncObserved s).paper.state = s.paper.state ∧
    (syncObserved s).paper.y = s.paper.y ∧ (syncObserved s).paper.move = s.paper.move ∧ (syncObserved
    s).paper.jamDue = s.paper.jamDue := by
  unfold syncObserved
  split <;> simp

/-- What setMap leaves unchanged. -/
@[simp] theorem setMap_frame (m : Vector MapRow 24) (s : State) : (setMap m s).link = s.link ∧ (setMap m
    s).slots = s.slots ∧ (setMap m s).queue = s.queue ∧ (setMap m s).completions = s.completions ∧ (setMap m
    s).holds = s.holds ∧ (setMap m s).exec = s.exec ∧ (setMap m s).carriage = s.carriage ∧ (setMap m s).heat =
    s.heat ∧ (setMap m s).paper = s.paper ∧ (setMap m s).engine = s.engine ∧ (setMap m s).counters = s.counters
    ∧ (setMap m s).params = s.params ∧ (setMap m s).lines = s.lines ∧ (setMap m s).txLine = s.txLine ∧ (setMap m
    s).motorStep = s.motorStep ∧ (setMap m s).freeCount = s.freeCount ∧ (setMap m s).pending = s.pending ∧
    (setMap m s).fire.inhibit = s.fire.inhibit ∧ (setMap m s).fire.failed = s.fire.failed ∧ (setMap m
    s).fire.openCounts = s.fire.openCounts ∧ (setMap m s).fire.table = s.fire.table ∧ (setMap m
    s).fire.pendingTable = s.fire.pendingTable ∧ (setMap m s).fire.driving = s.fire.driving := by
  simp [setMap]

end Sys2Proof.Machine
end

