-- ==== Sys2Proof/Laws/Frames.lean ====
section
/-! SUPPORT. What each shared operation leaves unchanged, field by field, for simp. -/

namespace Sys2Proof.Machine

/-- What clearIfStanding leaves unchanged. -/
@[simp] theorem clearIfStanding_frame (s : State) : (clearIfStanding s).link = s.link ∧ (clearIfStanding
    s).slots = s.slots ∧ (clearIfStanding s).queue = s.queue ∧ (clearIfStanding s).completions = s.completions ∧
    (clearIfStanding s).holds = s.holds ∧ (clearIfStanding s).exec = s.exec ∧ (clearIfStanding s).fire = s.fire
    ∧ (clearIfStanding s).heat = s.heat ∧ (clearIfStanding s).paper = s.paper ∧ (clearIfStanding s).engine =
    s.engine ∧ (clearIfStanding s).counters = s.counters ∧ (clearIfStanding s).params = s.params ∧
    (clearIfStanding s).lines = s.lines ∧ (clearIfStanding s).txLine = s.txLine ∧ (clearIfStanding s).motorStep
    = s.motorStep ∧ (clearIfStanding s).freeCount = s.freeCount ∧ (clearIfStanding s).pending = s.pending := by
  unfold clearIfStanding
  split <;> simp

/-- What beginSending leaves unchanged. -/
@[simp] theorem beginSending_frame (s : State) : (beginSending s).slots = s.slots ∧ (beginSending s).queue =
    s.queue ∧ (beginSending s).completions = s.completions ∧ (beginSending s).holds = s.holds ∧ (beginSending
    s).exec = s.exec ∧ (beginSending s).carriage = s.carriage ∧ (beginSending s).fire = s.fire ∧ (beginSending
    s).heat = s.heat ∧ (beginSending s).paper = s.paper ∧ (beginSending s).engine = s.engine ∧ (beginSending
    s).counters = s.counters ∧ (beginSending s).params = s.params ∧ (beginSending s).lines = s.lines ∧
    (beginSending s).txLine = s.txLine ∧ (beginSending s).motorStep = s.motorStep ∧ (beginSending s).freeCount =
    s.freeCount ∧ (beginSending s).pending = s.pending ∧ (beginSending s).link.mode = s.link.mode ∧
    (beginSending s).link.received = s.link.received ∧ (beginSending s).link.replies = s.link.replies ∧
    (beginSending s).link.mask = s.link.mask := by
  unfold beginSending
  (repeat' split) <;> simp

/-- What addHeat leaves unchanged. -/
@[simp] theorem addHeat_frame (k : Nat) (s : State) : (addHeat k s).link = s.link ∧ (addHeat k s).slots =
    s.slots ∧ (addHeat k s).queue = s.queue ∧ (addHeat k s).completions = s.completions ∧ (addHeat k s).holds =
    s.holds ∧ (addHeat k s).exec = s.exec ∧ (addHeat k s).carriage = s.carriage ∧ (addHeat k s).fire = s.fire ∧
    (addHeat k s).paper = s.paper ∧ (addHeat k s).engine = s.engine ∧ (addHeat k s).counters = s.counters ∧
    (addHeat k s).params = s.params ∧ (addHeat k s).lines = s.lines ∧ (addHeat k s).txLine = s.txLine ∧ (addHeat
    k s).motorStep = s.motorStep ∧ (addHeat k s).freeCount = s.freeCount ∧ (addHeat k s).pending = s.pending := by
  simp [addHeat]

/-- What moveSlot leaves unchanged. -/
@[simp] theorem moveSlot_frame (i : Fin 8) (st : SlotState) (s : State) : (moveSlot i st s).link = s.link ∧
    (moveSlot i st s).queue = s.queue ∧ (moveSlot i st s).completions = s.completions ∧ (moveSlot i st s).holds
    = s.holds ∧ (moveSlot i st s).exec = s.exec ∧ (moveSlot i st s).carriage = s.carriage ∧ (moveSlot i st
    s).fire = s.fire ∧ (moveSlot i st s).heat = s.heat ∧ (moveSlot i st s).paper = s.paper ∧ (moveSlot i st
    s).engine = s.engine ∧ (moveSlot i st s).counters = s.counters ∧ (moveSlot i st s).params = s.params ∧
    (moveSlot i st s).lines = s.lines ∧ (moveSlot i st s).txLine = s.txLine ∧ (moveSlot i st s).motorStep =
    s.motorStep ∧ (moveSlot i st s).freeCount = s.freeCount ∧ (moveSlot i st s).pending = s.pending := by
  simp [moveSlot]

/-- What countLine leaves unchanged. -/
@[simp] theorem countLine_frame (e : Entry) (out : EntryOutcome) (s : State) : (countLine e out s).slots =
    s.slots ∧ (countLine e out s).queue = s.queue ∧ (countLine e out s).completions = s.completions ∧ (countLine
    e out s).holds = s.holds ∧ (countLine e out s).exec = s.exec ∧ (countLine e out s).carriage = s.carriage ∧
    (countLine e out s).fire = s.fire ∧ (countLine e out s).heat = s.heat ∧ (countLine e out s).paper = s.paper
    ∧ (countLine e out s).engine = s.engine ∧ (countLine e out s).params = s.params ∧ (countLine e out s).lines
    = s.lines ∧ (countLine e out s).txLine = s.txLine ∧ (countLine e out s).motorStep = s.motorStep ∧ (countLine
    e out s).freeCount = s.freeCount ∧ (countLine e out s).pending = s.pending ∧ (countLine e out s).link.mode =
    s.link.mode ∧ (countLine e out s).link.received = s.link.received ∧ (countLine e out s).link.replies =
    s.link.replies ∧ (countLine e out s).link.mask = s.link.mask ∧ (countLine e out s).link.tx = s.link.tx ∧
    (countLine e out s).counters.snapshot = s.counters.snapshot := by
  unfold countLine
  split <;> simp

/-- What addPaperOut leaves unchanged. -/
@[simp] theorem addPaperOut_frame (s : State) : (addPaperOut s).slots = s.slots ∧ (addPaperOut s).queue =
    s.queue ∧ (addPaperOut s).completions = s.completions ∧ (addPaperOut s).exec = s.exec ∧ (addPaperOut
    s).carriage = s.carriage ∧ (addPaperOut s).fire = s.fire ∧ (addPaperOut s).heat = s.heat ∧ (addPaperOut
    s).paper = s.paper ∧ (addPaperOut s).engine = s.engine ∧ (addPaperOut s).counters = s.counters ∧
    (addPaperOut s).params = s.params ∧ (addPaperOut s).lines = s.lines ∧ (addPaperOut s).txLine = s.txLine ∧
    (addPaperOut s).motorStep = s.motorStep ∧ (addPaperOut s).freeCount = s.freeCount ∧ (addPaperOut s).pending
    = s.pending ∧ (addPaperOut s).link.mode = s.link.mode ∧ (addPaperOut s).link.received = s.link.received ∧
    (addPaperOut s).link.replies = s.link.replies ∧ (addPaperOut s).link.mask = s.link.mask ∧ (addPaperOut
    s).link.tx = s.link.tx := by
  simp [addPaperOut]

/-- What testTripFor leaves unchanged. -/
@[simp] theorem testTripFor_frame (c : TripCause) (s : State) : (testTripFor c s).slots = s.slots ∧ (testTripFor
    c s).queue = s.queue ∧ (testTripFor c s).completions = s.completions ∧ (testTripFor c s).holds = s.holds ∧
    (testTripFor c s).exec = s.exec ∧ (testTripFor c s).carriage = s.carriage ∧ (testTripFor c s).fire = s.fire
    ∧ (testTripFor c s).heat = s.heat ∧ (testTripFor c s).paper = s.paper ∧ (testTripFor c s).counters =
    s.counters ∧ (testTripFor c s).params = s.params ∧ (testTripFor c s).lines = s.lines ∧ (testTripFor c
    s).txLine = s.txLine ∧ (testTripFor c s).motorStep = s.motorStep ∧ (testTripFor c s).freeCount = s.freeCount
    ∧ (testTripFor c s).pending = s.pending ∧ (testTripFor c s).link.mode = s.link.mode ∧ (testTripFor c
    s).link.received = s.link.received ∧ (testTripFor c s).link.replies = s.link.replies ∧ (testTripFor c
    s).link.mask = s.link.mask ∧ (testTripFor c s).link.tx = s.link.tx ∧ (testTripFor c s).engine.state =
    s.engine.state ∧ (testTripFor c s).engine.resetPending = s.engine.resetPending ∧ (testTripFor c
    s).engine.firstFault = s.engine.firstFault ∧ (testTripFor c s).engine.further = s.engine.further ∧
    (testTripFor c s).engine.overlayMode = s.engine.overlayMode ∧ (testTripFor c s).engine.overlayInputs =
    s.engine.overlayInputs ∧ (testTripFor c s).engine.outputs = s.engine.outputs := by
  simp [testTripFor]

/-- What homeReached leaves unchanged. -/
@[simp] theorem homeReached_frame (s : State) : (homeReached s).link = s.link ∧ (homeReached s).slots = s.slots
    ∧ (homeReached s).queue = s.queue ∧ (homeReached s).completions = s.completions ∧ (homeReached s).holds =
    s.holds ∧ (homeReached s).exec = s.exec ∧ (homeReached s).fire = s.fire ∧ (homeReached s).heat = s.heat ∧
    (homeReached s).paper = s.paper ∧ (homeReached s).counters = s.counters ∧ (homeReached s).params = s.params
    ∧ (homeReached s).lines = s.lines ∧ (homeReached s).txLine = s.txLine ∧ (homeReached s).motorStep =
    s.motorStep ∧ (homeReached s).freeCount = s.freeCount ∧ (homeReached s).pending = s.pending ∧ (homeReached
    s).carriage.homed = s.carriage.homed ∧ (homeReached s).engine.resetPending = s.engine.resetPending ∧
    (homeReached s).engine.firstFault = s.engine.firstFault ∧ (homeReached s).engine.further = s.engine.further
    ∧ (homeReached s).engine.overlayMode = s.engine.overlayMode ∧ (homeReached s).engine.overlayInputs =
    s.engine.overlayInputs ∧ (homeReached s).engine.outputs = s.engine.outputs := by
  simp [homeReached]

/-- What stopCarriage leaves unchanged. -/
@[simp] theorem stopCarriage_frame (s : State) : (stopCarriage s).link = s.link ∧ (stopCarriage s).slots =
    s.slots ∧ (stopCarriage s).queue = s.queue ∧ (stopCarriage s).completions = s.completions ∧ (stopCarriage
    s).holds = s.holds ∧ (stopCarriage s).exec = s.exec ∧ (stopCarriage s).heat = s.heat ∧ (stopCarriage
    s).paper = s.paper ∧ (stopCarriage s).engine = s.engine ∧ (stopCarriage s).counters = s.counters ∧
    (stopCarriage s).params = s.params ∧ (stopCarriage s).lines = s.lines ∧ (stopCarriage s).txLine = s.txLine ∧
    (stopCarriage s).motorStep = s.motorStep ∧ (stopCarriage s).pending = s.pending ∧ (stopCarriage
    s).carriage.direction = s.carriage.direction ∧ (stopCarriage s).carriage.homed = s.carriage.homed ∧
    (stopCarriage s).fire.pinMap = s.fire.pinMap ∧ (stopCarriage s).fire.inhibit = s.fire.inhibit ∧
    (stopCarriage s).fire.failed = s.fire.failed ∧ (stopCarriage s).fire.openCounts = s.fire.openCounts ∧
    (stopCarriage s).fire.table = s.fire.table ∧ (stopCarriage s).fire.pendingTable = s.fire.pendingTable ∧
    (stopCarriage s).fire.driving = s.fire.driving := by
  unfold stopCarriage
  split <;> simp

/-- What planned leaves unchanged. -/
@[simp] theorem planned_frame (f : LineFields) (s : State) : (planned f s).slots = s.slots ∧ (planned f s).queue
    = s.queue ∧ (planned f s).completions = s.completions ∧ (planned f s).holds = s.holds ∧ (planned f
    s).carriage = s.carriage ∧ (planned f s).heat = s.heat ∧ (planned f s).paper = s.paper ∧ (planned f
    s).engine = s.engine ∧ (planned f s).params = s.params ∧ (planned f s).lines = s.lines ∧ (planned f
    s).txLine = s.txLine ∧ (planned f s).motorStep = s.motorStep ∧ (planned f s).freeCount = s.freeCount ∧
    (planned f s).pending = s.pending ∧ (planned f s).link.mode = s.link.mode ∧ (planned f s).link.received =
    s.link.received ∧ (planned f s).link.replies = s.link.replies ∧ (planned f s).link.mask = s.link.mask ∧
    (planned f s).link.tx = s.link.tx ∧ (planned f s).exec.state = s.exec.state ∧ (planned f s).exec.failing =
    s.exec.failing ∧ (planned f s).fire.pinMap = s.fire.pinMap ∧ (planned f s).fire.inhibit = s.fire.inhibit ∧
    (planned f s).fire.failed = s.fire.failed ∧ (planned f s).fire.openCounts = s.fire.openCounts ∧ (planned f
    s).fire.driving = s.fire.driving ∧ (planned f s).counters.snapshot = s.counters.snapshot := by
  simp [planned]

/-- What wakeIfDue leaves unchanged. -/
@[simp] theorem wakeIfDue_frame (s : State) : (wakeIfDue s).link = s.link ∧ (wakeIfDue s).slots = s.slots ∧
    (wakeIfDue s).queue = s.queue ∧ (wakeIfDue s).completions = s.completions ∧ (wakeIfDue s).holds = s.holds ∧
    (wakeIfDue s).exec = s.exec ∧ (wakeIfDue s).carriage = s.carriage ∧ (wakeIfDue s).fire = s.fire ∧ (wakeIfDue
    s).heat = s.heat ∧ (wakeIfDue s).paper = s.paper ∧ (wakeIfDue s).counters = s.counters ∧ (wakeIfDue
    s).params = s.params ∧ (wakeIfDue s).lines = s.lines ∧ (wakeIfDue s).txLine = s.txLine ∧ (wakeIfDue
    s).motorStep = s.motorStep ∧ (wakeIfDue s).freeCount = s.freeCount ∧ (wakeIfDue s).pending = s.pending ∧
    (wakeIfDue s).engine.resetPending = s.engine.resetPending ∧ (wakeIfDue s).engine.firstFault =
    s.engine.firstFault ∧ (wakeIfDue s).engine.further = s.engine.further ∧ (wakeIfDue s).engine.overlayMode =
    s.engine.overlayMode ∧ (wakeIfDue s).engine.overlayInputs = s.engine.overlayInputs ∧ (wakeIfDue
    s).engine.outputs = s.engine.outputs := by
  unfold wakeIfDue
  split <;> simp

/-- What finishHoming leaves unchanged. -/
@[simp] theorem finishHoming_frame (s : State) : (finishHoming s).slots = s.slots ∧ (finishHoming s).queue =
    s.queue ∧ (finishHoming s).completions = s.completions ∧ (finishHoming s).holds = s.holds ∧ (finishHoming
    s).exec = s.exec ∧ (finishHoming s).carriage = s.carriage ∧ (finishHoming s).fire = s.fire ∧ (finishHoming
    s).heat = s.heat ∧ (finishHoming s).paper = s.paper ∧ (finishHoming s).counters = s.counters ∧ (finishHoming
    s).params = s.params ∧ (finishHoming s).lines = s.lines ∧ (finishHoming s).txLine = s.txLine ∧ (finishHoming
    s).motorStep = s.motorStep ∧ (finishHoming s).freeCount = s.freeCount ∧ (finishHoming s).pending = s.pending
    ∧ (finishHoming s).link.mode = s.link.mode ∧ (finishHoming s).link.received = s.link.received ∧
    (finishHoming s).link.replies = s.link.replies ∧ (finishHoming s).link.mask = s.link.mask ∧ (finishHoming
    s).link.tx = s.link.tx ∧ (finishHoming s).engine.resetPending = s.engine.resetPending ∧ (finishHoming
    s).engine.firstFault = s.engine.firstFault ∧ (finishHoming s).engine.further = s.engine.further ∧
    (finishHoming s).engine.overlayMode = s.engine.overlayMode ∧ (finishHoming s).engine.overlayInputs =
    s.engine.overlayInputs ∧ (finishHoming s).engine.outputs = s.engine.outputs := by
  simp [finishHoming]

/-- What clearAtRest leaves unchanged. -/
@[simp] theorem clearAtRest_frame (s : State) : (clearAtRest s).link = s.link ∧ (clearAtRest s).slots = s.slots
    ∧ (clearAtRest s).queue = s.queue ∧ (clearAtRest s).completions = s.completions ∧ (clearAtRest s).holds =
    s.holds ∧ (clearAtRest s).exec = s.exec ∧ (clearAtRest s).heat = s.heat ∧ (clearAtRest s).paper = s.paper ∧
    (clearAtRest s).counters = s.counters ∧ (clearAtRest s).params = s.params ∧ (clearAtRest s).lines = s.lines
    ∧ (clearAtRest s).txLine = s.txLine ∧ (clearAtRest s).motorStep = s.motorStep ∧ (clearAtRest s).freeCount =
    s.freeCount ∧ (clearAtRest s).pending = s.pending ∧ (clearAtRest s).fire.pinMap = s.fire.pinMap ∧
    (clearAtRest s).fire.inhibit = s.fire.inhibit ∧ (clearAtRest s).fire.failed = s.fire.failed ∧ (clearAtRest
    s).fire.openCounts = s.fire.openCounts ∧ (clearAtRest s).fire.table = s.fire.table ∧ (clearAtRest
    s).fire.pendingTable = s.fire.pendingTable ∧ (clearAtRest s).fire.driving = s.fire.driving ∧ (clearAtRest
    s).engine.state = s.engine.state ∧ (clearAtRest s).engine.resetPending = s.engine.resetPending ∧
    (clearAtRest s).engine.firstFault = s.engine.firstFault ∧ (clearAtRest s).engine.further = s.engine.further
    ∧ (clearAtRest s).engine.overlayMode = s.engine.overlayMode ∧ (clearAtRest s).engine.overlayInputs =
    s.engine.overlayInputs := by
  simp [clearAtRest]

/-- What resetWork leaves unchanged. -/
@[simp] theorem resetWork_frame (s : State) : (resetWork s).carriage = s.carriage ∧ (resetWork s).fire = s.fire
    ∧ (resetWork s).paper = s.paper ∧ (resetWork s).engine = s.engine ∧ (resetWork s).counters = s.counters ∧
    (resetWork s).params = s.params ∧ (resetWork s).lines = s.lines ∧ (resetWork s).txLine = s.txLine ∧
    (resetWork s).motorStep = s.motorStep ∧ (resetWork s).freeCount = s.freeCount ∧ (resetWork s).pending =
    s.pending ∧ (resetWork s).link.mode = s.link.mode ∧ (resetWork s).link.received = s.link.received ∧
    (resetWork s).link.replies = s.link.replies ∧ (resetWork s).link.mask = s.link.mask ∧ (resetWork s).link.tx
    = s.link.tx ∧ (resetWork s).heat.h = s.heat.h := by
  simp [resetWork]

/-- What rejectFrame leaves unchanged. -/
@[simp] theorem rejectFrame_frame (s : State) : (rejectFrame s).slots = s.slots ∧ (rejectFrame s).queue =
    s.queue ∧ (rejectFrame s).completions = s.completions ∧ (rejectFrame s).holds = s.holds ∧ (rejectFrame
    s).exec = s.exec ∧ (rejectFrame s).carriage = s.carriage ∧ (rejectFrame s).fire = s.fire ∧ (rejectFrame
    s).heat = s.heat ∧ (rejectFrame s).paper = s.paper ∧ (rejectFrame s).engine = s.engine ∧ (rejectFrame
    s).params = s.params ∧ (rejectFrame s).lines = s.lines ∧ (rejectFrame s).txLine = s.txLine ∧ (rejectFrame
    s).motorStep = s.motorStep ∧ (rejectFrame s).freeCount = s.freeCount ∧ (rejectFrame s).pending = s.pending ∧
    (rejectFrame s).link.received = s.link.received ∧ (rejectFrame s).link.replies = s.link.replies ∧
    (rejectFrame s).link.mask = s.link.mask ∧ (rejectFrame s).link.tx = s.link.tx ∧ (rejectFrame
    s).counters.snapshot = s.counters.snapshot := by
  simp [rejectFrame]

/-- What overrun leaves unchanged. -/
@[simp] theorem overrun_frame (s : State) : (overrun s).slots = s.slots ∧ (overrun s).queue = s.queue ∧ (overrun
    s).completions = s.completions ∧ (overrun s).holds = s.holds ∧ (overrun s).exec = s.exec ∧ (overrun
    s).carriage = s.carriage ∧ (overrun s).fire = s.fire ∧ (overrun s).heat = s.heat ∧ (overrun s).paper =
    s.paper ∧ (overrun s).engine = s.engine ∧ (overrun s).params = s.params ∧ (overrun s).lines = s.lines ∧
    (overrun s).txLine = s.txLine ∧ (overrun s).motorStep = s.motorStep ∧ (overrun s).freeCount = s.freeCount ∧
    (overrun s).pending = s.pending ∧ (overrun s).link.mode = s.link.mode ∧ (overrun s).link.received =
    s.link.received ∧ (overrun s).link.replies = s.link.replies ∧ (overrun s).link.mask = s.link.mask ∧ (overrun
    s).link.tx = s.link.tx ∧ (overrun s).counters.snapshot = s.counters.snapshot := by
  simp [overrun]

/-- What loadSucceeds leaves unchanged. -/
@[simp] theorem loadSucceeds_frame (s : State) : (loadSucceeds s).slots = s.slots ∧ (loadSucceeds s).queue =
    s.queue ∧ (loadSucceeds s).completions = s.completions ∧ (loadSucceeds s).exec = s.exec ∧ (loadSucceeds
    s).carriage = s.carriage ∧ (loadSucceeds s).fire = s.fire ∧ (loadSucceeds s).heat = s.heat ∧ (loadSucceeds
    s).engine = s.engine ∧ (loadSucceeds s).counters = s.counters ∧ (loadSucceeds s).params = s.params ∧
    (loadSucceeds s).lines = s.lines ∧ (loadSucceeds s).txLine = s.txLine ∧ (loadSucceeds s).motorStep =
    s.motorStep ∧ (loadSucceeds s).freeCount = s.freeCount ∧ (loadSucceeds s).pending = s.pending ∧
    (loadSucceeds s).link.mode = s.link.mode ∧ (loadSucceeds s).link.received = s.link.received ∧ (loadSucceeds
    s).link.replies = s.link.replies ∧ (loadSucceeds s).link.mask = s.link.mask ∧ (loadSucceeds s).link.tx =
    s.link.tx ∧ (loadSucceeds s).paper.move = s.paper.move ∧ (loadSucceeds s).paper.jamDue = s.paper.jamDue := by
  simp [loadSucceeds]

/-- What travel leaves unchanged. -/
@[simp] theorem travel_frame (n : Nat) (s : State) : (travel n s).slots = s.slots ∧ (travel n s).queue = s.queue
    ∧ (travel n s).completions = s.completions ∧ (travel n s).holds = s.holds ∧ (travel n s).exec = s.exec ∧
    (travel n s).fire = s.fire ∧ (travel n s).heat = s.heat ∧ (travel n s).paper = s.paper ∧ (travel n
    s).counters = s.counters ∧ (travel n s).params = s.params ∧ (travel n s).lines = s.lines ∧ (travel n
    s).txLine = s.txLine ∧ (travel n s).motorStep = s.motorStep ∧ (travel n s).freeCount = s.freeCount ∧ (travel
    n s).pending = s.pending ∧ (travel n s).link.mode = s.link.mode ∧ (travel n s).link.received =
    s.link.received ∧ (travel n s).link.replies = s.link.replies ∧ (travel n s).link.mask = s.link.mask ∧
    (travel n s).link.tx = s.link.tx ∧ (travel n s).carriage.phase = s.carriage.phase ∧ (travel n
    s).carriage.direction = s.carriage.direction ∧ (travel n s).carriage.homed = s.carriage.homed ∧ (travel n
    s).engine.state = s.engine.state ∧ (travel n s).engine.resetPending = s.engine.resetPending ∧ (travel n
    s).engine.firstFault = s.engine.firstFault ∧ (travel n s).engine.further = s.engine.further ∧ (travel n
    s).engine.overlayMode = s.engine.overlayMode ∧ (travel n s).engine.overlayInputs = s.engine.overlayInputs ∧
    (travel n s).engine.outputs = s.engine.outputs := by
  unfold travel
  split <;> simp

/-- What clearNoMark leaves unchanged. -/
@[simp] theorem clearNoMark_frame (s : State) : (clearNoMark s).slots = s.slots ∧ (clearNoMark s).queue =
    s.queue ∧ (clearNoMark s).completions = s.completions ∧ (clearNoMark s).holds = s.holds ∧ (clearNoMark
    s).exec = s.exec ∧ (clearNoMark s).fire = s.fire ∧ (clearNoMark s).heat = s.heat ∧ (clearNoMark s).paper =
    s.paper ∧ (clearNoMark s).counters = s.counters ∧ (clearNoMark s).params = s.params ∧ (clearNoMark s).lines
    = s.lines ∧ (clearNoMark s).txLine = s.txLine ∧ (clearNoMark s).motorStep = s.motorStep ∧ (clearNoMark
    s).freeCount = s.freeCount ∧ (clearNoMark s).pending = s.pending ∧ (clearNoMark s).link.mode = s.link.mode ∧
    (clearNoMark s).link.received = s.link.received ∧ (clearNoMark s).link.replies = s.link.replies ∧
    (clearNoMark s).link.mask = s.link.mask ∧ (clearNoMark s).link.tx = s.link.tx ∧ (clearNoMark
    s).carriage.phase = s.carriage.phase ∧ (clearNoMark s).carriage.direction = s.carriage.direction ∧
    (clearNoMark s).carriage.homed = s.carriage.homed ∧ (clearNoMark s).engine.state = s.engine.state ∧
    (clearNoMark s).engine.resetPending = s.engine.resetPending ∧ (clearNoMark s).engine.firstFault =
    s.engine.firstFault ∧ (clearNoMark s).engine.further = s.engine.further ∧ (clearNoMark s).engine.overlayMode
    = s.engine.overlayMode ∧ (clearNoMark s).engine.overlayInputs = s.engine.overlayInputs ∧ (clearNoMark
    s).engine.outputs = s.engine.outputs := by
  unfold clearNoMark
  (repeat' split) <;> simp

/-- What retire leaves unchanged. -/
@[simp] theorem retire_frame (out : EntryOutcome) (s : State) : (retire out s).carriage = s.carriage ∧ (retire
    out s).paper = s.paper ∧ (retire out s).engine = s.engine ∧ (retire out s).params = s.params ∧ (retire out
    s).lines = s.lines ∧ (retire out s).txLine = s.txLine ∧ (retire out s).motorStep = s.motorStep ∧ (retire out
    s).freeCount = s.freeCount ∧ (retire out s).pending = s.pending ∧ (retire out s).link.mode = s.link.mode ∧
    (retire out s).link.received = s.link.received ∧ (retire out s).link.replies = s.link.replies ∧ (retire out
    s).link.mask = s.link.mask ∧ (retire out s).link.tx = s.link.tx ∧ (retire out s).holds.paperOut =
    s.holds.paperOut ∧ (retire out s).fire.pinMap = s.fire.pinMap ∧ (retire out s).fire.inhibit = s.fire.inhibit
    ∧ (retire out s).fire.failed = s.fire.failed ∧ (retire out s).fire.openCounts = s.fire.openCounts ∧ (retire
    out s).fire.table = s.fire.table ∧ (retire out s).fire.pendingTable = s.fire.pendingTable ∧ (retire out
    s).fire.driving = s.fire.driving ∧ (retire out s).heat.h = s.heat.h ∧ (retire out s).counters.snapshot =
    s.counters.snapshot := by
  unfold retire
  (repeat' split) <;> simp

/-- What testTripIf leaves unchanged. -/
@[simp] theorem testTripIf_frame (b : Bool) (c : TripCause) (s : State) : (testTripIf b c s).slots = s.slots ∧
    (testTripIf b c s).queue = s.queue ∧ (testTripIf b c s).completions = s.completions ∧ (testTripIf b c
    s).holds = s.holds ∧ (testTripIf b c s).exec = s.exec ∧ (testTripIf b c s).carriage = s.carriage ∧
    (testTripIf b c s).fire = s.fire ∧ (testTripIf b c s).heat = s.heat ∧ (testTripIf b c s).paper = s.paper ∧
    (testTripIf b c s).counters = s.counters ∧ (testTripIf b c s).params = s.params ∧ (testTripIf b c s).lines =
    s.lines ∧ (testTripIf b c s).txLine = s.txLine ∧ (testTripIf b c s).motorStep = s.motorStep ∧ (testTripIf b
    c s).freeCount = s.freeCount ∧ (testTripIf b c s).pending = s.pending ∧ (testTripIf b c s).link.mode =
    s.link.mode ∧ (testTripIf b c s).link.received = s.link.received ∧ (testTripIf b c s).link.replies =
    s.link.replies ∧ (testTripIf b c s).link.mask = s.link.mask ∧ (testTripIf b c s).link.tx = s.link.tx ∧
    (testTripIf b c s).engine.state = s.engine.state ∧ (testTripIf b c s).engine.resetPending =
    s.engine.resetPending ∧ (testTripIf b c s).engine.firstFault = s.engine.firstFault ∧ (testTripIf b c
    s).engine.further = s.engine.further ∧ (testTripIf b c s).engine.overlayMode = s.engine.overlayMode ∧
    (testTripIf b c s).engine.overlayInputs = s.engine.overlayInputs ∧ (testTripIf b c s).engine.outputs =
    s.engine.outputs := by
  unfold testTripIf
  split <;> simp

/-- What startSeek leaves unchanged. -/
@[simp] theorem startSeek_frame (s : State) : (startSeek s).link = s.link ∧ (startSeek s).slots = s.slots ∧
    (startSeek s).queue = s.queue ∧ (startSeek s).completions = s.completions ∧ (startSeek s).holds = s.holds ∧
    (startSeek s).exec = s.exec ∧ (startSeek s).fire = s.fire ∧ (startSeek s).heat = s.heat ∧ (startSeek
    s).paper = s.paper ∧ (startSeek s).counters = s.counters ∧ (startSeek s).params = s.params ∧ (startSeek
    s).lines = s.lines ∧ (startSeek s).txLine = s.txLine ∧ (startSeek s).motorStep = s.motorStep ∧ (startSeek
    s).freeCount = s.freeCount ∧ (startSeek s).pending = s.pending ∧ (startSeek s).engine.resetPending =
    s.engine.resetPending ∧ (startSeek s).engine.firstFault = s.engine.firstFault ∧ (startSeek s).engine.further
    = s.engine.further ∧ (startSeek s).engine.overlayMode = s.engine.overlayMode ∧ (startSeek
    s).engine.overlayInputs = s.engine.overlayInputs ∧ (startSeek s).engine.outputs = s.engine.outputs := by
  unfold startSeek
  dsimp only
  split <;> simp

/-- What controlledStop leaves unchanged. -/
@[simp] theorem controlledStop_frame (s : State) : (controlledStop s).link = s.link ∧ (controlledStop s).slots =
    s.slots ∧ (controlledStop s).queue = s.queue ∧ (controlledStop s).completions = s.completions ∧
    (controlledStop s).holds = s.holds ∧ (controlledStop s).exec = s.exec ∧ (controlledStop s).heat = s.heat ∧
    (controlledStop s).engine = s.engine ∧ (controlledStop s).counters = s.counters ∧ (controlledStop s).params
    = s.params ∧ (controlledStop s).lines = s.lines ∧ (controlledStop s).txLine = s.txLine ∧ (controlledStop
    s).motorStep = s.motorStep ∧ (controlledStop s).pending = s.pending ∧ (controlledStop s).carriage.direction
    = s.carriage.direction ∧ (controlledStop s).carriage.homed = s.carriage.homed ∧ (controlledStop
    s).fire.pinMap = s.fire.pinMap ∧ (controlledStop s).fire.inhibit = s.fire.inhibit ∧ (controlledStop
    s).fire.failed = s.fire.failed ∧ (controlledStop s).fire.openCounts = s.fire.openCounts ∧ (controlledStop
    s).fire.table = s.fire.table ∧ (controlledStop s).fire.pendingTable = s.fire.pendingTable ∧ (controlledStop
    s).fire.driving = s.fire.driving ∧ (controlledStop s).paper.active = s.paper.active ∧ (controlledStop
    s).paper.next = s.paper.next ∧ (controlledStop s).paper.state = s.paper.state ∧ (controlledStop s).paper.y =
    s.paper.y ∧ (controlledStop s).paper.jamDue = s.paper.jamDue := by
  unfold controlledStop
  split <;> simp

/-- What startPass leaves unchanged. -/
@[simp] theorem startPass_frame (plan : Plan) (r : PassRec) (s : State) : (startPass plan r s).link = s.link ∧
    (startPass plan r s).slots = s.slots ∧ (startPass plan r s).queue = s.queue ∧ (startPass plan r
    s).completions = s.completions ∧ (startPass plan r s).holds = s.holds ∧ (startPass plan r s).fire = s.fire ∧
    (startPass plan r s).heat = s.heat ∧ (startPass plan r s).paper = s.paper ∧ (startPass plan r s).counters =
    s.counters ∧ (startPass plan r s).params = s.params ∧ (startPass plan r s).lines = s.lines ∧ (startPass plan
    r s).txLine = s.txLine ∧ (startPass plan r s).motorStep = s.motorStep ∧ (startPass plan r s).freeCount =
    s.freeCount ∧ (startPass plan r s).pending = s.pending ∧ (startPass plan r s).exec.failing = s.exec.failing
    ∧ (startPass plan r s).carriage.homed = s.carriage.homed ∧ (startPass plan r s).engine.resetPending =
    s.engine.resetPending ∧ (startPass plan r s).engine.firstFault = s.engine.firstFault ∧ (startPass plan r
    s).engine.further = s.engine.further ∧ (startPass plan r s).engine.overlayMode = s.engine.overlayMode ∧
    (startPass plan r s).engine.overlayInputs = s.engine.overlayInputs := by
  simp [startPass]

/-- What beginWait leaves unchanged. -/
@[simp] theorem beginWait_frame (r : PassRec) (s : State) : (beginWait r s).slots = s.slots ∧ (beginWait r
    s).queue = s.queue ∧ (beginWait r s).completions = s.completions ∧ (beginWait r s).holds = s.holds ∧
    (beginWait r s).carriage = s.carriage ∧ (beginWait r s).fire = s.fire ∧ (beginWait r s).paper = s.paper ∧
    (beginWait r s).engine = s.engine ∧ (beginWait r s).params = s.params ∧ (beginWait r s).lines = s.lines ∧
    (beginWait r s).txLine = s.txLine ∧ (beginWait r s).motorStep = s.motorStep ∧ (beginWait r s).freeCount =
    s.freeCount ∧ (beginWait r s).pending = s.pending ∧ (beginWait r s).link.mode = s.link.mode ∧ (beginWait r
    s).link.received = s.link.received ∧ (beginWait r s).link.replies = s.link.replies ∧ (beginWait r
    s).link.mask = s.link.mask ∧ (beginWait r s).link.tx = s.link.tx ∧ (beginWait r s).exec.failing =
    s.exec.failing ∧ (beginWait r s).heat.h = s.heat.h ∧ (beginWait r s).counters.snapshot = s.counters.snapshot
    := by
  simp [beginWait]

/-- What erstAtRest leaves unchanged. -/
@[simp] theorem erstAtRest_frame (s : State) : (erstAtRest s).link = s.link ∧ (erstAtRest s).slots = s.slots ∧
    (erstAtRest s).queue = s.queue ∧ (erstAtRest s).completions = s.completions ∧ (erstAtRest s).holds = s.holds
    ∧ (erstAtRest s).exec = s.exec ∧ (erstAtRest s).heat = s.heat ∧ (erstAtRest s).paper = s.paper ∧ (erstAtRest
    s).counters = s.counters ∧ (erstAtRest s).params = s.params ∧ (erstAtRest s).lines = s.lines ∧ (erstAtRest
    s).txLine = s.txLine ∧ (erstAtRest s).motorStep = s.motorStep ∧ (erstAtRest s).freeCount = s.freeCount ∧
    (erstAtRest s).pending = s.pending ∧ (erstAtRest s).fire.pinMap = s.fire.pinMap ∧ (erstAtRest
    s).fire.inhibit = s.fire.inhibit ∧ (erstAtRest s).fire.failed = s.fire.failed ∧ (erstAtRest
    s).fire.openCounts = s.fire.openCounts ∧ (erstAtRest s).fire.table = s.fire.table ∧ (erstAtRest
    s).fire.pendingTable = s.fire.pendingTable ∧ (erstAtRest s).fire.driving = s.fire.driving ∧ (erstAtRest
    s).engine.firstFault = s.engine.firstFault ∧ (erstAtRest s).engine.further = s.engine.further ∧ (erstAtRest
    s).engine.overlayMode = s.engine.overlayMode ∧ (erstAtRest s).engine.overlayInputs = s.engine.overlayInputs
    := by
  simp [erstAtRest]

/-- What finishLoad leaves unchanged. -/
@[simp] theorem finishLoad_frame (s : State) : (finishLoad s).slots = s.slots ∧ (finishLoad s).queue = s.queue ∧
    (finishLoad s).completions = s.completions ∧ (finishLoad s).exec = s.exec ∧ (finishLoad s).carriage =
    s.carriage ∧ (finishLoad s).fire = s.fire ∧ (finishLoad s).heat = s.heat ∧ (finishLoad s).counters =
    s.counters ∧ (finishLoad s).params = s.params ∧ (finishLoad s).lines = s.lines ∧ (finishLoad s).txLine =
    s.txLine ∧ (finishLoad s).motorStep = s.motorStep ∧ (finishLoad s).freeCount = s.freeCount ∧ (finishLoad
    s).pending = s.pending ∧ (finishLoad s).link.mode = s.link.mode ∧ (finishLoad s).link.received =
    s.link.received ∧ (finishLoad s).link.replies = s.link.replies ∧ (finishLoad s).link.mask = s.link.mask ∧
    (finishLoad s).link.tx = s.link.tx ∧ (finishLoad s).paper.move = s.paper.move ∧ (finishLoad s).paper.jamDue
    = s.paper.jamDue ∧ (finishLoad s).engine.resetPending = s.engine.resetPending ∧ (finishLoad
    s).engine.firstFault = s.engine.firstFault ∧ (finishLoad s).engine.further = s.engine.further ∧ (finishLoad
    s).engine.overlayMode = s.engine.overlayMode ∧ (finishLoad s).engine.overlayInputs = s.engine.overlayInputs
    ∧ (finishLoad s).engine.outputs = s.engine.outputs := by
  unfold finishLoad
  split <;> simp

/-- What sensorFound leaves unchanged. -/
@[simp] theorem sensorFound_frame (s : State) : (sensorFound s).link = s.link ∧ (sensorFound s).slots = s.slots
    ∧ (sensorFound s).queue = s.queue ∧ (sensorFound s).completions = s.completions ∧ (sensorFound s).holds =
    s.holds ∧ (sensorFound s).exec = s.exec ∧ (sensorFound s).carriage = s.carriage ∧ (sensorFound s).fire =
    s.fire ∧ (sensorFound s).heat = s.heat ∧ (sensorFound s).counters = s.counters ∧ (sensorFound s).params =
    s.params ∧ (sensorFound s).lines = s.lines ∧ (sensorFound s).txLine = s.txLine ∧ (sensorFound s).motorStep =
    s.motorStep ∧ (sensorFound s).freeCount = s.freeCount ∧ (sensorFound s).pending = s.pending ∧ (sensorFound
    s).paper.active = s.paper.active ∧ (sensorFound s).paper.next = s.paper.next ∧ (sensorFound s).paper.y =
    s.paper.y ∧ (sensorFound s).paper.jamDue = s.paper.jamDue ∧ (sensorFound s).engine.resetPending =
    s.engine.resetPending ∧ (sensorFound s).engine.firstFault = s.engine.firstFault ∧ (sensorFound
    s).engine.further = s.engine.further ∧ (sensorFound s).engine.overlayMode = s.engine.overlayMode ∧
    (sensorFound s).engine.overlayInputs = s.engine.overlayInputs ∧ (sensorFound s).engine.outputs =
    s.engine.outputs := by
  unfold sensorFound
  split <;> simp

/-- What arrive leaves unchanged. -/
@[simp] theorem arrive_frame (f : Frame) (s : State) : (arrive f s).slots = s.slots ∧ (arrive f s).queue =
    s.queue ∧ (arrive f s).completions = s.completions ∧ (arrive f s).holds = s.holds ∧ (arrive f s).exec =
    s.exec ∧ (arrive f s).carriage = s.carriage ∧ (arrive f s).fire = s.fire ∧ (arrive f s).heat = s.heat ∧
    (arrive f s).paper = s.paper ∧ (arrive f s).engine = s.engine ∧ (arrive f s).params = s.params ∧ (arrive f
    s).lines = s.lines ∧ (arrive f s).txLine = s.txLine ∧ (arrive f s).motorStep = s.motorStep ∧ (arrive f
    s).freeCount = s.freeCount ∧ (arrive f s).pending = s.pending ∧ (arrive f s).link.mode = s.link.mode ∧
    (arrive f s).link.replies = s.link.replies ∧ (arrive f s).link.mask = s.link.mask ∧ (arrive f s).link.tx =
    s.link.tx ∧ (arrive f s).counters.snapshot = s.counters.snapshot := by
  unfold arrive
  split <;> simp

/-- What enqueue leaves unchanged. -/
@[simp] theorem enqueue_frame (tag : Byte) (k : EntryKind) (s : State) : (enqueue tag k s).link = s.link ∧
    (enqueue tag k s).slots = s.slots ∧ (enqueue tag k s).completions = s.completions ∧ (enqueue tag k s).holds
    = s.holds ∧ (enqueue tag k s).exec = s.exec ∧ (enqueue tag k s).carriage = s.carriage ∧ (enqueue tag k
    s).fire = s.fire ∧ (enqueue tag k s).heat = s.heat ∧ (enqueue tag k s).paper = s.paper ∧ (enqueue tag k
    s).counters = s.counters ∧ (enqueue tag k s).params = s.params ∧ (enqueue tag k s).lines = s.lines ∧
    (enqueue tag k s).txLine = s.txLine ∧ (enqueue tag k s).motorStep = s.motorStep ∧ (enqueue tag k
    s).freeCount = s.freeCount ∧ (enqueue tag k s).pending = s.pending ∧ (enqueue tag k s).engine.resetPending =
    s.engine.resetPending ∧ (enqueue tag k s).engine.firstFault = s.engine.firstFault ∧ (enqueue tag k
    s).engine.further = s.engine.further ∧ (enqueue tag k s).engine.overlayMode = s.engine.overlayMode ∧
    (enqueue tag k s).engine.overlayInputs = s.engine.overlayInputs ∧ (enqueue tag k s).engine.outputs =
    s.engine.outputs := by
  simp [enqueue]

/-- What crossForward leaves unchanged. -/
@[simp] theorem crossForward_frame (u : Purpose) (s : State) : (crossForward u s).slots = s.slots ∧
    (crossForward u s).queue = s.queue ∧ (crossForward u s).completions = s.completions ∧ (crossForward u
    s).holds = s.holds ∧ (crossForward u s).exec = s.exec ∧ (crossForward u s).carriage = s.carriage ∧
    (crossForward u s).fire = s.fire ∧ (crossForward u s).heat = s.heat ∧ (crossForward u s).engine = s.engine ∧
    (crossForward u s).params = s.params ∧ (crossForward u s).lines = s.lines ∧ (crossForward u s).txLine =
    s.txLine ∧ (crossForward u s).motorStep = s.motorStep ∧ (crossForward u s).freeCount = s.freeCount ∧
    (crossForward u s).pending = s.pending ∧ (crossForward u s).link.mode = s.link.mode ∧ (crossForward u
    s).link.received = s.link.received ∧ (crossForward u s).link.replies = s.link.replies ∧ (crossForward u
    s).link.mask = s.link.mask ∧ (crossForward u s).link.tx = s.link.tx ∧ (crossForward u s).paper.state =
    s.paper.state ∧ (crossForward u s).paper.move = s.paper.move ∧ (crossForward u s).paper.jamDue =
    s.paper.jamDue ∧ (crossForward u s).counters.snapshot = s.counters.snapshot := by
  unfold crossForward
  split <;> simp

/-- What startPulse leaves unchanged. -/
@[simp] theorem startPulse_frame (w : Nat) (p : Fin 24) (s : State) : (startPulse w p s).slots = s.slots ∧
    (startPulse w p s).queue = s.queue ∧ (startPulse w p s).completions = s.completions ∧ (startPulse w p
    s).holds = s.holds ∧ (startPulse w p s).exec = s.exec ∧ (startPulse w p s).carriage = s.carriage ∧
    (startPulse w p s).paper = s.paper ∧ (startPulse w p s).engine = s.engine ∧ (startPulse w p s).params =
    s.params ∧ (startPulse w p s).lines = s.lines ∧ (startPulse w p s).txLine = s.txLine ∧ (startPulse w p
    s).motorStep = s.motorStep ∧ (startPulse w p s).freeCount = s.freeCount ∧ (startPulse w p s).pending =
    s.pending ∧ (startPulse w p s).link.mode = s.link.mode ∧ (startPulse w p s).link.received = s.link.received
    ∧ (startPulse w p s).link.replies = s.link.replies ∧ (startPulse w p s).link.mask = s.link.mask ∧
    (startPulse w p s).link.tx = s.link.tx ∧ (startPulse w p s).fire.pinMap = s.fire.pinMap ∧ (startPulse w p
    s).fire.inhibit = s.fire.inhibit ∧ (startPulse w p s).fire.failed = s.fire.failed ∧ (startPulse w p
    s).fire.openCounts = s.fire.openCounts ∧ (startPulse w p s).fire.table = s.fire.table ∧ (startPulse w p
    s).fire.pendingTable = s.fire.pendingTable ∧ (startPulse w p s).counters.snapshot = s.counters.snapshot := by
  simp [startPulse]

/-- What applySense leaves unchanged. -/
@[simp] theorem applySense_frame (p : Fin 24) (isOpen : Bool) (s : State) : (applySense p isOpen s).slots =
    s.slots ∧ (applySense p isOpen s).queue = s.queue ∧ (applySense p isOpen s).completions = s.completions ∧
    (applySense p isOpen s).holds = s.holds ∧ (applySense p isOpen s).exec = s.exec ∧ (applySense p isOpen
    s).carriage = s.carriage ∧ (applySense p isOpen s).heat = s.heat ∧ (applySense p isOpen s).paper = s.paper ∧
    (applySense p isOpen s).engine = s.engine ∧ (applySense p isOpen s).counters = s.counters ∧ (applySense p
    isOpen s).params = s.params ∧ (applySense p isOpen s).lines = s.lines ∧ (applySense p isOpen s).txLine =
    s.txLine ∧ (applySense p isOpen s).motorStep = s.motorStep ∧ (applySense p isOpen s).freeCount = s.freeCount
    ∧ (applySense p isOpen s).pending = s.pending ∧ (applySense p isOpen s).link.mode = s.link.mode ∧
    (applySense p isOpen s).link.received = s.link.received ∧ (applySense p isOpen s).link.replies =
    s.link.replies ∧ (applySense p isOpen s).link.mask = s.link.mask ∧ (applySense p isOpen s).link.tx =
    s.link.tx ∧ (applySense p isOpen s).fire.pinMap = s.fire.pinMap ∧ (applySense p isOpen s).fire.table =
    s.fire.table ∧ (applySense p isOpen s).fire.pendingTable = s.fire.pendingTable ∧ (applySense p isOpen
    s).fire.driving = s.fire.driving := by
  unfold applySense
  dsimp only
  split <;> simp

/-- What rxHunt leaves unchanged. -/
@[simp] theorem rxHunt_frame (b : LineByte) (s : State) : (rxHunt b s).slots = s.slots ∧ (rxHunt b s).queue =
    s.queue ∧ (rxHunt b s).completions = s.completions ∧ (rxHunt b s).holds = s.holds ∧ (rxHunt b s).exec =
    s.exec ∧ (rxHunt b s).carriage = s.carriage ∧ (rxHunt b s).fire = s.fire ∧ (rxHunt b s).heat = s.heat ∧
    (rxHunt b s).paper = s.paper ∧ (rxHunt b s).engine = s.engine ∧ (rxHunt b s).params = s.params ∧ (rxHunt b
    s).lines = s.lines ∧ (rxHunt b s).txLine = s.txLine ∧ (rxHunt b s).motorStep = s.motorStep ∧ (rxHunt b
    s).freeCount = s.freeCount ∧ (rxHunt b s).pending = s.pending ∧ (rxHunt b s).link.received = s.link.received
    ∧ (rxHunt b s).link.replies = s.link.replies ∧ (rxHunt b s).link.mask = s.link.mask ∧ (rxHunt b s).link.tx =
    s.link.tx ∧ (rxHunt b s).counters.snapshot = s.counters.snapshot := by
  unfold rxHunt
  (repeat' split) <;> simp

/-- What rxFrameBytes leaves unchanged. -/
@[simp] theorem rxFrameBytes_frame (bytes : List Byte) (s : State) : (rxFrameBytes bytes s).slots = s.slots ∧
    (rxFrameBytes bytes s).queue = s.queue ∧ (rxFrameBytes bytes s).completions = s.completions ∧ (rxFrameBytes
    bytes s).holds = s.holds ∧ (rxFrameBytes bytes s).exec = s.exec ∧ (rxFrameBytes bytes s).carriage =
    s.carriage ∧ (rxFrameBytes bytes s).fire = s.fire ∧ (rxFrameBytes bytes s).heat = s.heat ∧ (rxFrameBytes
    bytes s).paper = s.paper ∧ (rxFrameBytes bytes s).engine = s.engine ∧ (rxFrameBytes bytes s).params =
    s.params ∧ (rxFrameBytes bytes s).lines = s.lines ∧ (rxFrameBytes bytes s).txLine = s.txLine ∧ (rxFrameBytes
    bytes s).motorStep = s.motorStep ∧ (rxFrameBytes bytes s).freeCount = s.freeCount ∧ (rxFrameBytes bytes
    s).pending = s.pending ∧ (rxFrameBytes bytes s).link.replies = s.link.replies ∧ (rxFrameBytes bytes
    s).link.mask = s.link.mask ∧ (rxFrameBytes bytes s).link.tx = s.link.tx ∧ (rxFrameBytes bytes
    s).counters.snapshot = s.counters.snapshot := by
  unfold rxFrameBytes
  (repeat' split) <;> simp

/-- What reach leaves unchanged. -/
@[simp] theorem reach_frame (q : Int) (s : State) : (reach q s).slots = s.slots ∧ (reach q s).queue = s.queue ∧
    (reach q s).completions = s.completions ∧ (reach q s).holds = s.holds ∧ (reach q s).exec = s.exec ∧ (reach q
    s).fire = s.fire ∧ (reach q s).heat = s.heat ∧ (reach q s).paper = s.paper ∧ (reach q s).counters =
    s.counters ∧ (reach q s).params = s.params ∧ (reach q s).lines = s.lines ∧ (reach q s).txLine = s.txLine ∧
    (reach q s).motorStep = s.motorStep ∧ (reach q s).freeCount = s.freeCount ∧ (reach q s).pending = s.pending
    ∧ (reach q s).link.mode = s.link.mode ∧ (reach q s).link.received = s.link.received ∧ (reach q
    s).link.replies = s.link.replies ∧ (reach q s).link.mask = s.link.mask ∧ (reach q s).link.tx = s.link.tx ∧
    (reach q s).carriage.phase = s.carriage.phase ∧ (reach q s).carriage.direction = s.carriage.direction ∧
    (reach q s).carriage.homed = s.carriage.homed ∧ (reach q s).engine.state = s.engine.state ∧ (reach q
    s).engine.resetPending = s.engine.resetPending ∧ (reach q s).engine.firstFault = s.engine.firstFault ∧
    (reach q s).engine.further = s.engine.further ∧ (reach q s).engine.overlayMode = s.engine.overlayMode ∧
    (reach q s).engine.overlayInputs = s.engine.overlayInputs ∧ (reach q s).engine.outputs = s.engine.outputs := by
  unfold reach
  split <;> simp

/-- What capture leaves unchanged. -/
@[simp] theorem capture_frame (s : State) : (capture s).slots = s.slots ∧ (capture s).queue = s.queue ∧ (capture
    s).completions = s.completions ∧ (capture s).holds = s.holds ∧ (capture s).exec = s.exec ∧ (capture s).fire
    = s.fire ∧ (capture s).heat = s.heat ∧ (capture s).paper = s.paper ∧ (capture s).counters = s.counters ∧
    (capture s).params = s.params ∧ (capture s).lines = s.lines ∧ (capture s).txLine = s.txLine ∧ (capture
    s).motorStep = s.motorStep ∧ (capture s).freeCount = s.freeCount ∧ (capture s).pending = s.pending ∧
    (capture s).link.mode = s.link.mode ∧ (capture s).link.received = s.link.received ∧ (capture s).link.replies
    = s.link.replies ∧ (capture s).link.mask = s.link.mask ∧ (capture s).link.tx = s.link.tx ∧ (capture
    s).carriage.phase = s.carriage.phase ∧ (capture s).carriage.direction = s.carriage.direction ∧ (capture
    s).engine.state = s.engine.state ∧ (capture s).engine.resetPending = s.engine.resetPending ∧ (capture
    s).engine.firstFault = s.engine.firstFault ∧ (capture s).engine.further = s.engine.further ∧ (capture
    s).engine.overlayMode = s.engine.overlayMode ∧ (capture s).engine.overlayInputs = s.engine.overlayInputs ∧
    (capture s).engine.outputs = s.engine.outputs := by
  simp [capture]

/-- What failActive leaves unchanged. -/
@[simp] theorem failActive_frame (out : EntryOutcome) (s : State) : (failActive out s).carriage = s.carriage ∧
    (failActive out s).paper = s.paper ∧ (failActive out s).engine = s.engine ∧ (failActive out s).params =
    s.params ∧ (failActive out s).lines = s.lines ∧ (failActive out s).txLine = s.txLine ∧ (failActive out
    s).motorStep = s.motorStep ∧ (failActive out s).freeCount = s.freeCount ∧ (failActive out s).pending =
    s.pending ∧ (failActive out s).link.mode = s.link.mode ∧ (failActive out s).link.received = s.link.received
    ∧ (failActive out s).link.replies = s.link.replies ∧ (failActive out s).link.mask = s.link.mask ∧
    (failActive out s).link.tx = s.link.tx ∧ (failActive out s).holds.paperOut = s.holds.paperOut ∧ (failActive
    out s).fire.pinMap = s.fire.pinMap ∧ (failActive out s).fire.inhibit = s.fire.inhibit ∧ (failActive out
    s).fire.failed = s.fire.failed ∧ (failActive out s).fire.openCounts = s.fire.openCounts ∧ (failActive out
    s).fire.table = s.fire.table ∧ (failActive out s).fire.pendingTable = s.fire.pendingTable ∧ (failActive out
    s).fire.driving = s.fire.driving ∧ (failActive out s).heat.h = s.heat.h ∧ (failActive out
    s).counters.snapshot = s.counters.snapshot := by
  simp [failActive]

/-- What enterHoming leaves unchanged. -/
@[simp] theorem enterHoming_frame (s : State) : (enterHoming s).link = s.link ∧ (enterHoming s).slots = s.slots
    ∧ (enterHoming s).queue = s.queue ∧ (enterHoming s).completions = s.completions ∧ (enterHoming s).holds =
    s.holds ∧ (enterHoming s).exec = s.exec ∧ (enterHoming s).fire = s.fire ∧ (enterHoming s).heat = s.heat ∧
    (enterHoming s).paper = s.paper ∧ (enterHoming s).counters = s.counters ∧ (enterHoming s).params = s.params
    ∧ (enterHoming s).lines = s.lines ∧ (enterHoming s).txLine = s.txLine ∧ (enterHoming s).motorStep =
    s.motorStep ∧ (enterHoming s).freeCount = s.freeCount ∧ (enterHoming s).pending = s.pending ∧ (enterHoming
    s).engine.resetPending = s.engine.resetPending ∧ (enterHoming s).engine.firstFault = s.engine.firstFault ∧
    (enterHoming s).engine.further = s.engine.further ∧ (enterHoming s).engine.overlayMode =
    s.engine.overlayMode ∧ (enterHoming s).engine.overlayInputs = s.engine.overlayInputs ∧ (enterHoming
    s).engine.outputs = s.engine.outputs := by
  simp [enterHoming]

/-- What goPosition leaves unchanged. -/
@[simp] theorem goPosition_frame (plan : Plan) (r : PassRec) (s : State) : (goPosition plan r s).link = s.link ∧
    (goPosition plan r s).slots = s.slots ∧ (goPosition plan r s).queue = s.queue ∧ (goPosition plan r
    s).completions = s.completions ∧ (goPosition plan r s).holds = s.holds ∧ (goPosition plan r s).fire = s.fire
    ∧ (goPosition plan r s).paper = s.paper ∧ (goPosition plan r s).counters = s.counters ∧ (goPosition plan r
    s).params = s.params ∧ (goPosition plan r s).lines = s.lines ∧ (goPosition plan r s).txLine = s.txLine ∧
    (goPosition plan r s).motorStep = s.motorStep ∧ (goPosition plan r s).freeCount = s.freeCount ∧ (goPosition
    plan r s).pending = s.pending ∧ (goPosition plan r s).exec.failing = s.exec.failing ∧ (goPosition plan r
    s).carriage.homed = s.carriage.homed ∧ (goPosition plan r s).heat.h = s.heat.h ∧ (goPosition plan r
    s).engine.resetPending = s.engine.resetPending ∧ (goPosition plan r s).engine.firstFault =
    s.engine.firstFault ∧ (goPosition plan r s).engine.further = s.engine.further ∧ (goPosition plan r
    s).engine.overlayMode = s.engine.overlayMode ∧ (goPosition plan r s).engine.overlayInputs =
    s.engine.overlayInputs := by
  unfold goPosition
  dsimp only
  split <;> simp

/-- What completeLine leaves unchanged. -/
@[simp] theorem completeLine_frame (s : State) : (completeLine s).carriage = s.carriage ∧ (completeLine s).paper
    = s.paper ∧ (completeLine s).engine = s.engine ∧ (completeLine s).params = s.params ∧ (completeLine s).lines
    = s.lines ∧ (completeLine s).txLine = s.txLine ∧ (completeLine s).motorStep = s.motorStep ∧ (completeLine
    s).freeCount = s.freeCount ∧ (completeLine s).pending = s.pending ∧ (completeLine s).link.mode = s.link.mode
    ∧ (completeLine s).link.received = s.link.received ∧ (completeLine s).link.replies = s.link.replies ∧
    (completeLine s).link.mask = s.link.mask ∧ (completeLine s).link.tx = s.link.tx ∧ (completeLine
    s).holds.paperOut = s.holds.paperOut ∧ (completeLine s).fire.pinMap = s.fire.pinMap ∧ (completeLine
    s).fire.inhibit = s.fire.inhibit ∧ (completeLine s).fire.failed = s.fire.failed ∧ (completeLine
    s).fire.openCounts = s.fire.openCounts ∧ (completeLine s).fire.table = s.fire.table ∧ (completeLine
    s).fire.pendingTable = s.fire.pendingTable ∧ (completeLine s).fire.driving = s.fire.driving ∧ (completeLine
    s).heat.h = s.heat.h ∧ (completeLine s).counters.snapshot = s.counters.snapshot := by
  simp [completeLine]

/-- What loadFeed leaves unchanged. -/
@[simp] theorem loadFeed_frame (n : Nat) (s : State) : (loadFeed n s).slots = s.slots ∧ (loadFeed n s).queue =
    s.queue ∧ (loadFeed n s).completions = s.completions ∧ (loadFeed n s).exec = s.exec ∧ (loadFeed n
    s).carriage = s.carriage ∧ (loadFeed n s).fire = s.fire ∧ (loadFeed n s).heat = s.heat ∧ (loadFeed n
    s).counters = s.counters ∧ (loadFeed n s).params = s.params ∧ (loadFeed n s).lines = s.lines ∧ (loadFeed n
    s).txLine = s.txLine ∧ (loadFeed n s).motorStep = s.motorStep ∧ (loadFeed n s).freeCount = s.freeCount ∧
    (loadFeed n s).pending = s.pending ∧ (loadFeed n s).link.mode = s.link.mode ∧ (loadFeed n s).link.received =
    s.link.received ∧ (loadFeed n s).link.replies = s.link.replies ∧ (loadFeed n s).link.mask = s.link.mask ∧
    (loadFeed n s).link.tx = s.link.tx ∧ (loadFeed n s).paper.jamDue = s.paper.jamDue ∧ (loadFeed n
    s).engine.resetPending = s.engine.resetPending ∧ (loadFeed n s).engine.firstFault = s.engine.firstFault ∧
    (loadFeed n s).engine.further = s.engine.further ∧ (loadFeed n s).engine.overlayMode = s.engine.overlayMode
    ∧ (loadFeed n s).engine.overlayInputs = s.engine.overlayInputs ∧ (loadFeed n s).engine.outputs =
    s.engine.outputs := by
  unfold loadFeed
  split <;> simp

/-- What finishReset leaves unchanged. -/
@[simp] theorem finishReset_frame (s : State) : (finishReset s).link = s.link ∧ (finishReset s).slots = s.slots
    ∧ (finishReset s).queue = s.queue ∧ (finishReset s).completions = s.completions ∧ (finishReset s).holds =
    s.holds ∧ (finishReset s).exec = s.exec ∧ (finishReset s).heat = s.heat ∧ (finishReset s).paper = s.paper ∧
    (finishReset s).counters = s.counters ∧ (finishReset s).params = s.params ∧ (finishReset s).lines = s.lines
    ∧ (finishReset s).txLine = s.txLine ∧ (finishReset s).motorStep = s.motorStep ∧ (finishReset s).freeCount =
    s.freeCount ∧ (finishReset s).pending = s.pending ∧ (finishReset s).fire.pinMap = s.fire.pinMap ∧
    (finishReset s).fire.inhibit = s.fire.inhibit ∧ (finishReset s).fire.failed = s.fire.failed ∧ (finishReset
    s).fire.openCounts = s.fire.openCounts ∧ (finishReset s).fire.table = s.fire.table ∧ (finishReset
    s).fire.pendingTable = s.fire.pendingTable ∧ (finishReset s).fire.driving = s.fire.driving ∧ (finishReset
    s).engine.firstFault = s.engine.firstFault ∧ (finishReset s).engine.further = s.engine.further ∧
    (finishReset s).engine.overlayMode = s.engine.overlayMode ∧ (finishReset s).engine.overlayInputs =
    s.engine.overlayInputs := by
  unfold finishReset
  split <;> simp

/-- What sensorChange leaves unchanged. -/
@[simp] theorem sensorChange_frame (before : Bool) (s : State) : (sensorChange before s).link = s.link ∧
    (sensorChange before s).slots = s.slots ∧ (sensorChange before s).queue = s.queue ∧ (sensorChange before
    s).completions = s.completions ∧ (sensorChange before s).holds = s.holds ∧ (sensorChange before s).exec =
    s.exec ∧ (sensorChange before s).carriage = s.carriage ∧ (sensorChange before s).fire = s.fire ∧
    (sensorChange before s).heat = s.heat ∧ (sensorChange before s).counters = s.counters ∧ (sensorChange before
    s).params = s.params ∧ (sensorChange before s).lines = s.lines ∧ (sensorChange before s).txLine = s.txLine ∧
    (sensorChange before s).motorStep = s.motorStep ∧ (sensorChange before s).freeCount = s.freeCount ∧
    (sensorChange before s).pending = s.pending ∧ (sensorChange before s).paper.active = s.paper.active ∧
    (sensorChange before s).paper.next = s.paper.next ∧ (sensorChange before s).paper.y = s.paper.y ∧
    (sensorChange before s).paper.jamDue = s.paper.jamDue ∧ (sensorChange before s).engine.resetPending =
    s.engine.resetPending ∧ (sensorChange before s).engine.firstFault = s.engine.firstFault ∧ (sensorChange
    before s).engine.further = s.engine.further ∧ (sensorChange before s).engine.overlayMode =
    s.engine.overlayMode ∧ (sensorChange before s).engine.overlayInputs = s.engine.overlayInputs ∧ (sensorChange
    before s).engine.outputs = s.engine.outputs := by
  unfold sensorChange
  (repeat' split) <;> simp

/-- What moveFeed leaves unchanged. -/
@[simp] theorem moveFeed_frame (d : Int) (s : State) : (moveFeed d s).carriage = s.carriage ∧ (moveFeed d
    s).params = s.params ∧ (moveFeed d s).lines = s.lines ∧ (moveFeed d s).txLine = s.txLine ∧ (moveFeed d
    s).motorStep = s.motorStep ∧ (moveFeed d s).freeCount = s.freeCount ∧ (moveFeed d s).pending = s.pending ∧
    (moveFeed d s).link.mode = s.link.mode ∧ (moveFeed d s).link.received = s.link.received ∧ (moveFeed d
    s).link.replies = s.link.replies ∧ (moveFeed d s).link.mask = s.link.mask ∧ (moveFeed d s).link.tx =
    s.link.tx ∧ (moveFeed d s).holds.paperOut = s.holds.paperOut ∧ (moveFeed d s).fire.pinMap = s.fire.pinMap ∧
    (moveFeed d s).fire.inhibit = s.fire.inhibit ∧ (moveFeed d s).fire.failed = s.fire.failed ∧ (moveFeed d
    s).fire.openCounts = s.fire.openCounts ∧ (moveFeed d s).fire.table = s.fire.table ∧ (moveFeed d
    s).fire.pendingTable = s.fire.pendingTable ∧ (moveFeed d s).fire.driving = s.fire.driving ∧ (moveFeed d
    s).heat.h = s.heat.h ∧ (moveFeed d s).paper.active = s.paper.active ∧ (moveFeed d s).paper.next =
    s.paper.next ∧ (moveFeed d s).paper.state = s.paper.state ∧ (moveFeed d s).paper.y = s.paper.y ∧ (moveFeed d
    s).paper.jamDue = s.paper.jamDue ∧ (moveFeed d s).engine.resetPending = s.engine.resetPending ∧ (moveFeed d
    s).engine.firstFault = s.engine.firstFault ∧ (moveFeed d s).engine.further = s.engine.further ∧ (moveFeed d
    s).engine.overlayMode = s.engine.overlayMode ∧ (moveFeed d s).engine.overlayInputs = s.engine.overlayInputs
    ∧ (moveFeed d s).engine.outputs = s.engine.outputs ∧ (moveFeed d s).counters.snapshot = s.counters.snapshot
    := by
  unfold moveFeed
  split <;> (try split) <;> (try dsimp only) <;> (try split) <;> simp

/-- What moveSkip leaves unchanged. -/
@[simp] theorem moveSkip_frame (n : Nat) (s : State) : (moveSkip n s).carriage = s.carriage ∧ (moveSkip n
    s).params = s.params ∧ (moveSkip n s).lines = s.lines ∧ (moveSkip n s).txLine = s.txLine ∧ (moveSkip n
    s).motorStep = s.motorStep ∧ (moveSkip n s).freeCount = s.freeCount ∧ (moveSkip n s).pending = s.pending ∧
    (moveSkip n s).link.mode = s.link.mode ∧ (moveSkip n s).link.received = s.link.received ∧ (moveSkip n
    s).link.replies = s.link.replies ∧ (moveSkip n s).link.mask = s.link.mask ∧ (moveSkip n s).link.tx =
    s.link.tx ∧ (moveSkip n s).holds.paperOut = s.holds.paperOut ∧ (moveSkip n s).fire.pinMap = s.fire.pinMap ∧
    (moveSkip n s).fire.inhibit = s.fire.inhibit ∧ (moveSkip n s).fire.failed = s.fire.failed ∧ (moveSkip n
    s).fire.openCounts = s.fire.openCounts ∧ (moveSkip n s).fire.table = s.fire.table ∧ (moveSkip n
    s).fire.pendingTable = s.fire.pendingTable ∧ (moveSkip n s).fire.driving = s.fire.driving ∧ (moveSkip n
    s).heat.h = s.heat.h ∧ (moveSkip n s).paper.active = s.paper.active ∧ (moveSkip n s).paper.next =
    s.paper.next ∧ (moveSkip n s).paper.state = s.paper.state ∧ (moveSkip n s).paper.y = s.paper.y ∧ (moveSkip n
    s).paper.jamDue = s.paper.jamDue ∧ (moveSkip n s).engine.resetPending = s.engine.resetPending ∧ (moveSkip n
    s).engine.firstFault = s.engine.firstFault ∧ (moveSkip n s).engine.further = s.engine.further ∧ (moveSkip n
    s).engine.overlayMode = s.engine.overlayMode ∧ (moveSkip n s).engine.overlayInputs = s.engine.overlayInputs
    ∧ (moveSkip n s).engine.outputs = s.engine.outputs ∧ (moveSkip n s).counters.snapshot = s.counters.snapshot
    := by
  unfold moveSkip
  split <;> simp

/-- What moveTear leaves unchanged. -/
@[simp] theorem moveTear_frame (s : State) : (moveTear s).carriage = s.carriage ∧ (moveTear s).params = s.params
    ∧ (moveTear s).lines = s.lines ∧ (moveTear s).txLine = s.txLine ∧ (moveTear s).motorStep = s.motorStep ∧
    (moveTear s).freeCount = s.freeCount ∧ (moveTear s).pending = s.pending ∧ (moveTear s).link.mode =
    s.link.mode ∧ (moveTear s).link.received = s.link.received ∧ (moveTear s).link.replies = s.link.replies ∧
    (moveTear s).link.mask = s.link.mask ∧ (moveTear s).link.tx = s.link.tx ∧ (moveTear s).holds.paperOut =
    s.holds.paperOut ∧ (moveTear s).fire.pinMap = s.fire.pinMap ∧ (moveTear s).fire.inhibit = s.fire.inhibit ∧
    (moveTear s).fire.failed = s.fire.failed ∧ (moveTear s).fire.openCounts = s.fire.openCounts ∧ (moveTear
    s).fire.table = s.fire.table ∧ (moveTear s).fire.pendingTable = s.fire.pendingTable ∧ (moveTear
    s).fire.driving = s.fire.driving ∧ (moveTear s).heat.h = s.heat.h ∧ (moveTear s).paper.active =
    s.paper.active ∧ (moveTear s).paper.next = s.paper.next ∧ (moveTear s).paper.state = s.paper.state ∧
    (moveTear s).paper.y = s.paper.y ∧ (moveTear s).paper.jamDue = s.paper.jamDue ∧ (moveTear
    s).engine.resetPending = s.engine.resetPending ∧ (moveTear s).engine.firstFault = s.engine.firstFault ∧
    (moveTear s).engine.further = s.engine.further ∧ (moveTear s).engine.overlayMode = s.engine.overlayMode ∧
    (moveTear s).engine.overlayInputs = s.engine.overlayInputs ∧ (moveTear s).engine.outputs = s.engine.outputs
    ∧ (moveTear s).counters.snapshot = s.counters.snapshot := by
  unfold moveTear
  (repeat' split) <;> simp

/-- What stepPosition leaves unchanged. -/
@[simp] theorem stepPosition_frame (m : FeedMove) (s : State) : (stepPosition m s).slots = s.slots ∧
    (stepPosition m s).queue = s.queue ∧ (stepPosition m s).completions = s.completions ∧ (stepPosition m
    s).holds = s.holds ∧ (stepPosition m s).exec = s.exec ∧ (stepPosition m s).carriage = s.carriage ∧
    (stepPosition m s).fire = s.fire ∧ (stepPosition m s).heat = s.heat ∧ (stepPosition m s).engine = s.engine ∧
    (stepPosition m s).params = s.params ∧ (stepPosition m s).lines = s.lines ∧ (stepPosition m s).txLine =
    s.txLine ∧ (stepPosition m s).motorStep = s.motorStep ∧ (stepPosition m s).freeCount = s.freeCount ∧
    (stepPosition m s).pending = s.pending ∧ (stepPosition m s).link.mode = s.link.mode ∧ (stepPosition m
    s).link.received = s.link.received ∧ (stepPosition m s).link.replies = s.link.replies ∧ (stepPosition m
    s).link.mask = s.link.mask ∧ (stepPosition m s).link.tx = s.link.tx ∧ (stepPosition m s).paper.state =
    s.paper.state ∧ (stepPosition m s).paper.move = s.paper.move ∧ (stepPosition m s).paper.jamDue =
    s.paper.jamDue ∧ (stepPosition m s).counters.snapshot = s.counters.snapshot := by
  unfold stepPosition
  (repeat' split) <;> simp

/-- What fireDot leaves unchanged. -/
@[simp] theorem fireDot_frame (w : Nat) (row : Fin 24) (s : State) : (fireDot w s row).slots = s.slots ∧
    (fireDot w s row).queue = s.queue ∧ (fireDot w s row).completions = s.completions ∧ (fireDot w s row).holds
    = s.holds ∧ (fireDot w s row).exec = s.exec ∧ (fireDot w s row).carriage = s.carriage ∧ (fireDot w s
    row).paper = s.paper ∧ (fireDot w s row).engine = s.engine ∧ (fireDot w s row).params = s.params ∧ (fireDot
    w s row).lines = s.lines ∧ (fireDot w s row).txLine = s.txLine ∧ (fireDot w s row).motorStep = s.motorStep ∧
    (fireDot w s row).freeCount = s.freeCount ∧ (fireDot w s row).pending = s.pending ∧ (fireDot w s
    row).link.mode = s.link.mode ∧ (fireDot w s row).link.received = s.link.received ∧ (fireDot w s
    row).link.replies = s.link.replies ∧ (fireDot w s row).link.mask = s.link.mask ∧ (fireDot w s row).link.tx =
    s.link.tx ∧ (fireDot w s row).fire.pinMap = s.fire.pinMap ∧ (fireDot w s row).fire.inhibit = s.fire.inhibit
    ∧ (fireDot w s row).fire.failed = s.fire.failed ∧ (fireDot w s row).fire.openCounts = s.fire.openCounts ∧
    (fireDot w s row).fire.table = s.fire.table ∧ (fireDot w s row).fire.pendingTable = s.fire.pendingTable ∧
    (fireDot w s row).counters.snapshot = s.counters.snapshot := by
  unfold fireDot
  dsimp only
  split <;> simp

/-- What rxFrame leaves unchanged. -/
@[simp] theorem rxFrame_frame (got : List Byte) (b : LineByte) (s : State) : (rxFrame got b s).slots = s.slots ∧
    (rxFrame got b s).queue = s.queue ∧ (rxFrame got b s).completions = s.completions ∧ (rxFrame got b s).holds
    = s.holds ∧ (rxFrame got b s).exec = s.exec ∧ (rxFrame got b s).carriage = s.carriage ∧ (rxFrame got b
    s).fire = s.fire ∧ (rxFrame got b s).heat = s.heat ∧ (rxFrame got b s).paper = s.paper ∧ (rxFrame got b
    s).engine = s.engine ∧ (rxFrame got b s).params = s.params ∧ (rxFrame got b s).lines = s.lines ∧ (rxFrame
    got b s).txLine = s.txLine ∧ (rxFrame got b s).motorStep = s.motorStep ∧ (rxFrame got b s).freeCount =
    s.freeCount ∧ (rxFrame got b s).pending = s.pending ∧ (rxFrame got b s).link.replies = s.link.replies ∧
    (rxFrame got b s).link.mask = s.link.mask ∧ (rxFrame got b s).link.tx = s.link.tx ∧ (rxFrame got b
    s).counters.snapshot = s.counters.snapshot := by
  unfold rxFrame
  split <;> simp

/-- What endPass leaves unchanged. -/
@[simp] theorem endPass_frame (pf : Profile) (s : State) : (endPass pf s).slots = s.slots ∧ (endPass pf s).queue
    = s.queue ∧ (endPass pf s).completions = s.completions ∧ (endPass pf s).holds = s.holds ∧ (endPass pf
    s).fire = s.fire ∧ (endPass pf s).heat = s.heat ∧ (endPass pf s).paper = s.paper ∧ (endPass pf s).params =
    s.params ∧ (endPass pf s).lines = s.lines ∧ (endPass pf s).txLine = s.txLine ∧ (endPass pf s).motorStep =
    s.motorStep ∧ (endPass pf s).freeCount = s.freeCount ∧ (endPass pf s).pending = s.pending ∧ (endPass pf
    s).link.mode = s.link.mode ∧ (endPass pf s).link.received = s.link.received ∧ (endPass pf s).link.replies =
    s.link.replies ∧ (endPass pf s).link.mask = s.link.mask ∧ (endPass pf s).link.tx = s.link.tx ∧ (endPass pf
    s).exec.state = s.exec.state ∧ (endPass pf s).exec.failing = s.exec.failing ∧ (endPass pf s).carriage.homed
    = s.carriage.homed ∧ (endPass pf s).engine.state = s.engine.state ∧ (endPass pf s).engine.resetPending =
    s.engine.resetPending ∧ (endPass pf s).engine.firstFault = s.engine.firstFault ∧ (endPass pf
    s).engine.further = s.engine.further ∧ (endPass pf s).engine.overlayMode = s.engine.overlayMode ∧ (endPass
    pf s).engine.overlayInputs = s.engine.overlayInputs ∧ (endPass pf s).counters.snapshot = s.counters.snapshot
    := by
  simp [endPass]

/-- What trip leaves unchanged. -/
@[simp] theorem trip_frame (c : TripCause) (s : State) : (trip c s).params = s.params ∧ (trip c s).lines =
    s.lines ∧ (trip c s).txLine = s.txLine ∧ (trip c s).motorStep = s.motorStep ∧ (trip c s).freeCount =
    s.freeCount ∧ (trip c s).pending = s.pending ∧ (trip c s).link.mode = s.link.mode ∧ (trip c s).link.received
    = s.link.received ∧ (trip c s).link.replies = s.link.replies ∧ (trip c s).link.mask = s.link.mask ∧ (trip c
    s).link.tx = s.link.tx ∧ (trip c s).holds.paperOut = s.holds.paperOut ∧ (trip c s).fire.pinMap =
    s.fire.pinMap ∧ (trip c s).fire.inhibit = s.fire.inhibit ∧ (trip c s).fire.failed = s.fire.failed ∧ (trip c
    s).fire.openCounts = s.fire.openCounts ∧ (trip c s).fire.table = s.fire.table ∧ (trip c s).fire.pendingTable
    = s.fire.pendingTable ∧ (trip c s).heat.h = s.heat.h ∧ (trip c s).paper.active = s.paper.active ∧ (trip c
    s).paper.next = s.paper.next ∧ (trip c s).engine.overlayMode = s.engine.overlayMode ∧ (trip c
    s).engine.overlayInputs = s.engine.overlayInputs ∧ (trip c s).counters.snapshot = s.counters.snapshot := by
  simp [trip]

/-- What submit leaves unchanged. -/
@[simp] theorem submit_frame (plan : Plan) (r : PassRec) (s : State) : (submit plan r s).slots = s.slots ∧
    (submit plan r s).queue = s.queue ∧ (submit plan r s).completions = s.completions ∧ (submit plan r s).holds
    = s.holds ∧ (submit plan r s).fire = s.fire ∧ (submit plan r s).paper = s.paper ∧ (submit plan r s).params =
    s.params ∧ (submit plan r s).lines = s.lines ∧ (submit plan r s).txLine = s.txLine ∧ (submit plan r
    s).motorStep = s.motorStep ∧ (submit plan r s).freeCount = s.freeCount ∧ (submit plan r s).pending =
    s.pending ∧ (submit plan r s).link.mode = s.link.mode ∧ (submit plan r s).link.received = s.link.received ∧
    (submit plan r s).link.replies = s.link.replies ∧ (submit plan r s).link.mask = s.link.mask ∧ (submit plan r
    s).link.tx = s.link.tx ∧ (submit plan r s).exec.failing = s.exec.failing ∧ (submit plan r s).carriage.homed
    = s.carriage.homed ∧ (submit plan r s).heat.h = s.heat.h ∧ (submit plan r s).engine.resetPending =
    s.engine.resetPending ∧ (submit plan r s).engine.firstFault = s.engine.firstFault ∧ (submit plan r
    s).engine.further = s.engine.further ∧ (submit plan r s).engine.overlayMode = s.engine.overlayMode ∧ (submit
    plan r s).engine.overlayInputs = s.engine.overlayInputs ∧ (submit plan r s).counters.snapshot =
    s.counters.snapshot := by
  unfold submit
  split <;> simp

/-- What retest leaves unchanged. -/
@[simp] theorem retest_frame (s : State) : (retest s).link = s.link ∧ (retest s).slots = s.slots ∧ (retest
    s).queue = s.queue ∧ (retest s).completions = s.completions ∧ (retest s).holds = s.holds ∧ (retest s).fire =
    s.fire ∧ (retest s).paper = s.paper ∧ (retest s).counters = s.counters ∧ (retest s).params = s.params ∧
    (retest s).lines = s.lines ∧ (retest s).txLine = s.txLine ∧ (retest s).motorStep = s.motorStep ∧ (retest
    s).freeCount = s.freeCount ∧ (retest s).pending = s.pending ∧ (retest s).exec.failing = s.exec.failing ∧
    (retest s).carriage.homed = s.carriage.homed ∧ (retest s).heat.h = s.heat.h ∧ (retest s).engine.resetPending
    = s.engine.resetPending ∧ (retest s).engine.firstFault = s.engine.firstFault ∧ (retest s).engine.further =
    s.engine.further ∧ (retest s).engine.overlayMode = s.engine.overlayMode ∧ (retest s).engine.overlayInputs =
    s.engine.overlayInputs := by
  unfold retest
  (repeat' split) <;> simp

/-- What beginFeedAfter leaves unchanged. -/
@[simp] theorem beginFeedAfter_frame (s : State) : (beginFeedAfter s).carriage = s.carriage ∧ (beginFeedAfter
    s).params = s.params ∧ (beginFeedAfter s).lines = s.lines ∧ (beginFeedAfter s).txLine = s.txLine ∧
    (beginFeedAfter s).motorStep = s.motorStep ∧ (beginFeedAfter s).freeCount = s.freeCount ∧ (beginFeedAfter
    s).pending = s.pending ∧ (beginFeedAfter s).link.mode = s.link.mode ∧ (beginFeedAfter s).link.received =
    s.link.received ∧ (beginFeedAfter s).link.replies = s.link.replies ∧ (beginFeedAfter s).link.mask =
    s.link.mask ∧ (beginFeedAfter s).link.tx = s.link.tx ∧ (beginFeedAfter s).holds.paperOut = s.holds.paperOut
    ∧ (beginFeedAfter s).fire.pinMap = s.fire.pinMap ∧ (beginFeedAfter s).fire.inhibit = s.fire.inhibit ∧
    (beginFeedAfter s).fire.failed = s.fire.failed ∧ (beginFeedAfter s).fire.openCounts = s.fire.openCounts ∧
    (beginFeedAfter s).fire.table = s.fire.table ∧ (beginFeedAfter s).fire.pendingTable = s.fire.pendingTable ∧
    (beginFeedAfter s).fire.driving = s.fire.driving ∧ (beginFeedAfter s).heat.h = s.heat.h ∧ (beginFeedAfter
    s).paper.active = s.paper.active ∧ (beginFeedAfter s).paper.next = s.paper.next ∧ (beginFeedAfter
    s).paper.state = s.paper.state ∧ (beginFeedAfter s).paper.y = s.paper.y ∧ (beginFeedAfter s).paper.jamDue =
    s.paper.jamDue ∧ (beginFeedAfter s).engine.resetPending = s.engine.resetPending ∧ (beginFeedAfter
    s).engine.firstFault = s.engine.firstFault ∧ (beginFeedAfter s).engine.further = s.engine.further ∧
    (beginFeedAfter s).engine.overlayMode = s.engine.overlayMode ∧ (beginFeedAfter s).engine.overlayInputs =
    s.engine.overlayInputs ∧ (beginFeedAfter s).engine.outputs = s.engine.outputs ∧ (beginFeedAfter
    s).counters.snapshot = s.counters.snapshot := by
  unfold beginFeedAfter
  (repeat' split) <;> simp

/-- What beginMove leaves unchanged. -/
@[simp] theorem beginMove_frame (k : EntryKind) (s : State) : (beginMove k s).carriage = s.carriage ∧ (beginMove
    k s).params = s.params ∧ (beginMove k s).lines = s.lines ∧ (beginMove k s).txLine = s.txLine ∧ (beginMove k
    s).motorStep = s.motorStep ∧ (beginMove k s).freeCount = s.freeCount ∧ (beginMove k s).pending = s.pending ∧
    (beginMove k s).link.mode = s.link.mode ∧ (beginMove k s).link.received = s.link.received ∧ (beginMove k
    s).link.replies = s.link.replies ∧ (beginMove k s).link.mask = s.link.mask ∧ (beginMove k s).link.tx =
    s.link.tx ∧ (beginMove k s).holds.paperOut = s.holds.paperOut ∧ (beginMove k s).fire.pinMap = s.fire.pinMap
    ∧ (beginMove k s).fire.inhibit = s.fire.inhibit ∧ (beginMove k s).fire.failed = s.fire.failed ∧ (beginMove k
    s).fire.openCounts = s.fire.openCounts ∧ (beginMove k s).fire.table = s.fire.table ∧ (beginMove k
    s).fire.pendingTable = s.fire.pendingTable ∧ (beginMove k s).fire.driving = s.fire.driving ∧ (beginMove k
    s).heat.h = s.heat.h ∧ (beginMove k s).paper.active = s.paper.active ∧ (beginMove k s).paper.next =
    s.paper.next ∧ (beginMove k s).paper.state = s.paper.state ∧ (beginMove k s).paper.y = s.paper.y ∧
    (beginMove k s).paper.jamDue = s.paper.jamDue ∧ (beginMove k s).engine.resetPending = s.engine.resetPending
    ∧ (beginMove k s).engine.firstFault = s.engine.firstFault ∧ (beginMove k s).engine.further =
    s.engine.further ∧ (beginMove k s).engine.overlayMode = s.engine.overlayMode ∧ (beginMove k
    s).engine.overlayInputs = s.engine.overlayInputs ∧ (beginMove k s).engine.outputs = s.engine.outputs ∧
    (beginMove k s).counters.snapshot = s.counters.snapshot := by
  unfold beginMove
  split <;> simp

/-- What beginLoad leaves unchanged. -/
@[simp] theorem beginLoad_frame (s : State) : (beginLoad s).slots = s.slots ∧ (beginLoad s).queue = s.queue ∧
    (beginLoad s).completions = s.completions ∧ (beginLoad s).exec = s.exec ∧ (beginLoad s).carriage =
    s.carriage ∧ (beginLoad s).fire = s.fire ∧ (beginLoad s).heat = s.heat ∧ (beginLoad s).counters = s.counters
    ∧ (beginLoad s).params = s.params ∧ (beginLoad s).lines = s.lines ∧ (beginLoad s).txLine = s.txLine ∧
    (beginLoad s).motorStep = s.motorStep ∧ (beginLoad s).freeCount = s.freeCount ∧ (beginLoad s).pending =
    s.pending ∧ (beginLoad s).link.mode = s.link.mode ∧ (beginLoad s).link.received = s.link.received ∧
    (beginLoad s).link.replies = s.link.replies ∧ (beginLoad s).link.mask = s.link.mask ∧ (beginLoad s).link.tx
    = s.link.tx ∧ (beginLoad s).paper.jamDue = s.paper.jamDue ∧ (beginLoad s).engine.resetPending =
    s.engine.resetPending ∧ (beginLoad s).engine.firstFault = s.engine.firstFault ∧ (beginLoad s).engine.further
    = s.engine.further ∧ (beginLoad s).engine.overlayMode = s.engine.overlayMode ∧ (beginLoad
    s).engine.overlayInputs = s.engine.overlayInputs ∧ (beginLoad s).engine.outputs = s.engine.outputs := by
  unfold beginLoad
  (repeat' split) <;> simp

/-- What feedOne leaves unchanged. -/
@[simp] theorem feedOne_frame (m : FeedMove) (s : State) : (feedOne m s).slots = s.slots ∧ (feedOne m s).queue =
    s.queue ∧ (feedOne m s).completions = s.completions ∧ (feedOne m s).holds = s.holds ∧ (feedOne m s).exec =
    s.exec ∧ (feedOne m s).carriage = s.carriage ∧ (feedOne m s).fire = s.fire ∧ (feedOne m s).heat = s.heat ∧
    (feedOne m s).params = s.params ∧ (feedOne m s).lines = s.lines ∧ (feedOne m s).txLine = s.txLine ∧ (feedOne
    m s).freeCount = s.freeCount ∧ (feedOne m s).pending = s.pending ∧ (feedOne m s).link.mode = s.link.mode ∧
    (feedOne m s).link.received = s.link.received ∧ (feedOne m s).link.replies = s.link.replies ∧ (feedOne m
    s).link.mask = s.link.mask ∧ (feedOne m s).link.tx = s.link.tx ∧ (feedOne m s).paper.state = s.paper.state ∧
    (feedOne m s).engine.state = s.engine.state ∧ (feedOne m s).engine.resetPending = s.engine.resetPending ∧
    (feedOne m s).engine.firstFault = s.engine.firstFault ∧ (feedOne m s).engine.further = s.engine.further ∧
    (feedOne m s).engine.overlayMode = s.engine.overlayMode ∧ (feedOne m s).engine.overlayInputs =
    s.engine.overlayInputs ∧ (feedOne m s).engine.outputs = s.engine.outputs ∧ (feedOne m s).counters.snapshot =
    s.counters.snapshot := by
  simp [feedOne]

/-- What rxByte leaves unchanged. -/
@[simp] theorem rxByte_frame (b : LineByte) (s : State) : (rxByte s b).slots = s.slots ∧ (rxByte s b).queue =
    s.queue ∧ (rxByte s b).completions = s.completions ∧ (rxByte s b).holds = s.holds ∧ (rxByte s b).exec =
    s.exec ∧ (rxByte s b).carriage = s.carriage ∧ (rxByte s b).fire = s.fire ∧ (rxByte s b).heat = s.heat ∧
    (rxByte s b).paper = s.paper ∧ (rxByte s b).engine = s.engine ∧ (rxByte s b).params = s.params ∧ (rxByte s
    b).lines = s.lines ∧ (rxByte s b).txLine = s.txLine ∧ (rxByte s b).motorStep = s.motorStep ∧ (rxByte s
    b).freeCount = s.freeCount ∧ (rxByte s b).pending = s.pending ∧ (rxByte s b).link.replies = s.link.replies ∧
    (rxByte s b).link.mask = s.link.mask ∧ (rxByte s b).link.tx = s.link.tx ∧ (rxByte s b).counters.snapshot =
    s.counters.snapshot := by
  unfold rxByte
  split <;> simp

/-- What afterRest leaves unchanged. -/
@[simp] theorem afterRest_frame (s : State) : (afterRest s).paper = s.paper ∧ (afterRest s).params = s.params ∧
    (afterRest s).lines = s.lines ∧ (afterRest s).txLine = s.txLine ∧ (afterRest s).motorStep = s.motorStep ∧
    (afterRest s).freeCount = s.freeCount ∧ (afterRest s).pending = s.pending ∧ (afterRest s).link.mode =
    s.link.mode ∧ (afterRest s).link.received = s.link.received ∧ (afterRest s).link.replies = s.link.replies ∧
    (afterRest s).link.mask = s.link.mask ∧ (afterRest s).link.tx = s.link.tx ∧ (afterRest s).holds.paperOut =
    s.holds.paperOut ∧ (afterRest s).fire.pinMap = s.fire.pinMap ∧ (afterRest s).fire.inhibit = s.fire.inhibit ∧
    (afterRest s).fire.failed = s.fire.failed ∧ (afterRest s).fire.openCounts = s.fire.openCounts ∧ (afterRest
    s).fire.table = s.fire.table ∧ (afterRest s).fire.pendingTable = s.fire.pendingTable ∧ (afterRest
    s).fire.driving = s.fire.driving ∧ (afterRest s).heat.h = s.heat.h ∧ (afterRest s).engine.firstFault =
    s.engine.firstFault ∧ (afterRest s).engine.further = s.engine.further ∧ (afterRest s).engine.overlayMode =
    s.engine.overlayMode ∧ (afterRest s).engine.overlayInputs = s.engine.overlayInputs ∧ (afterRest
    s).counters.snapshot = s.counters.snapshot := by
  unfold afterRest
  split <;> simp

/-- What paperEnds leaves unchanged. -/
@[simp] theorem paperEnds_frame (s : State) : (paperEnds s).params = s.params ∧ (paperEnds s).lines = s.lines ∧
    (paperEnds s).txLine = s.txLine ∧ (paperEnds s).motorStep = s.motorStep ∧ (paperEnds s).freeCount =
    s.freeCount ∧ (paperEnds s).pending = s.pending ∧ (paperEnds s).link.mode = s.link.mode ∧ (paperEnds
    s).link.received = s.link.received ∧ (paperEnds s).link.replies = s.link.replies ∧ (paperEnds s).link.mask =
    s.link.mask ∧ (paperEnds s).link.tx = s.link.tx ∧ (paperEnds s).fire.pinMap = s.fire.pinMap ∧ (paperEnds
    s).fire.inhibit = s.fire.inhibit ∧ (paperEnds s).fire.failed = s.fire.failed ∧ (paperEnds s).fire.openCounts
    = s.fire.openCounts ∧ (paperEnds s).fire.table = s.fire.table ∧ (paperEnds s).fire.pendingTable =
    s.fire.pendingTable ∧ (paperEnds s).fire.driving = s.fire.driving ∧ (paperEnds s).heat.h = s.heat.h ∧
    (paperEnds s).paper.active = s.paper.active ∧ (paperEnds s).paper.next = s.paper.next ∧ (paperEnds
    s).paper.jamDue = s.paper.jamDue ∧ (paperEnds s).engine.firstFault = s.engine.firstFault ∧ (paperEnds
    s).engine.further = s.engine.further ∧ (paperEnds s).engine.overlayMode = s.engine.overlayMode ∧ (paperEnds
    s).engine.overlayInputs = s.engine.overlayInputs ∧ (paperEnds s).counters.snapshot = s.counters.snapshot := by
  simp [paperEnds]

/-- What settleFeed leaves unchanged. -/
@[simp] theorem settleFeed_frame (s : State) : (settleFeed s).params = s.params ∧ (settleFeed s).lines = s.lines
    ∧ (settleFeed s).txLine = s.txLine ∧ (settleFeed s).motorStep = s.motorStep ∧ (settleFeed s).freeCount =
    s.freeCount ∧ (settleFeed s).pending = s.pending ∧ (settleFeed s).link.mode = s.link.mode ∧ (settleFeed
    s).link.received = s.link.received ∧ (settleFeed s).link.replies = s.link.replies ∧ (settleFeed s).link.mask
    = s.link.mask ∧ (settleFeed s).link.tx = s.link.tx ∧ (settleFeed s).fire.pinMap = s.fire.pinMap ∧
    (settleFeed s).fire.inhibit = s.fire.inhibit ∧ (settleFeed s).fire.failed = s.fire.failed ∧ (settleFeed
    s).fire.openCounts = s.fire.openCounts ∧ (settleFeed s).fire.table = s.fire.table ∧ (settleFeed
    s).fire.pendingTable = s.fire.pendingTable ∧ (settleFeed s).fire.driving = s.fire.driving ∧ (settleFeed
    s).heat.h = s.heat.h ∧ (settleFeed s).paper.active = s.paper.active ∧ (settleFeed s).paper.next =
    s.paper.next ∧ (settleFeed s).paper.jamDue = s.paper.jamDue ∧ (settleFeed s).engine.firstFault =
    s.engine.firstFault ∧ (settleFeed s).engine.further = s.engine.further ∧ (settleFeed s).engine.overlayMode =
    s.engine.overlayMode ∧ (settleFeed s).engine.overlayInputs = s.engine.overlayInputs ∧ (settleFeed
    s).counters.snapshot = s.counters.snapshot := by
  unfold settleFeed
  (repeat' split) <;> simp

/-- What arise leaves unchanged. -/
@[simp] theorem arise_frame (c : TripCause) (s : State) : (arise c s).params = s.params ∧ (arise c s).lines =
    s.lines ∧ (arise c s).txLine = s.txLine ∧ (arise c s).motorStep = s.motorStep ∧ (arise c s).freeCount =
    s.freeCount ∧ (arise c s).pending = s.pending ∧ (arise c s).link.mode = s.link.mode ∧ (arise c
    s).link.received = s.link.received ∧ (arise c s).link.replies = s.link.replies ∧ (arise c s).link.mask =
    s.link.mask ∧ (arise c s).link.tx = s.link.tx ∧ (arise c s).fire.pinMap = s.fire.pinMap ∧ (arise c
    s).fire.inhibit = s.fire.inhibit ∧ (arise c s).fire.failed = s.fire.failed ∧ (arise c s).fire.openCounts =
    s.fire.openCounts ∧ (arise c s).fire.table = s.fire.table ∧ (arise c s).fire.pendingTable =
    s.fire.pendingTable ∧ (arise c s).heat.h = s.heat.h ∧ (arise c s).paper.active = s.paper.active ∧ (arise c
    s).paper.next = s.paper.next ∧ (arise c s).engine.overlayMode = s.engine.overlayMode ∧ (arise c
    s).engine.overlayInputs = s.engine.overlayInputs ∧ (arise c s).counters.snapshot = s.counters.snapshot := by
  unfold arise
  (repeat' split) <;> simp

/-- What nextWork leaves unchanged. -/
@[simp] theorem nextWork_frame (s : State) : (nextWork s).params = s.params ∧ (nextWork s).lines = s.lines ∧
    (nextWork s).txLine = s.txLine ∧ (nextWork s).motorStep = s.motorStep ∧ (nextWork s).freeCount = s.freeCount
    ∧ (nextWork s).pending = s.pending ∧ (nextWork s).link.mode = s.link.mode ∧ (nextWork s).link.received =
    s.link.received ∧ (nextWork s).link.replies = s.link.replies ∧ (nextWork s).link.mask = s.link.mask ∧
    (nextWork s).link.tx = s.link.tx ∧ (nextWork s).holds.paperOut = s.holds.paperOut ∧ (nextWork
    s).carriage.homed = s.carriage.homed ∧ (nextWork s).fire.pinMap = s.fire.pinMap ∧ (nextWork s).fire.inhibit
    = s.fire.inhibit ∧ (nextWork s).fire.failed = s.fire.failed ∧ (nextWork s).fire.openCounts =
    s.fire.openCounts ∧ (nextWork s).fire.table = s.fire.table ∧ (nextWork s).fire.pendingTable =
    s.fire.pendingTable ∧ (nextWork s).fire.driving = s.fire.driving ∧ (nextWork s).heat.h = s.heat.h ∧
    (nextWork s).paper.active = s.paper.active ∧ (nextWork s).paper.next = s.paper.next ∧ (nextWork
    s).paper.state = s.paper.state ∧ (nextWork s).paper.y = s.paper.y ∧ (nextWork s).paper.jamDue =
    s.paper.jamDue ∧ (nextWork s).engine.resetPending = s.engine.resetPending ∧ (nextWork s).engine.firstFault =
    s.engine.firstFault ∧ (nextWork s).engine.further = s.engine.further ∧ (nextWork s).engine.overlayMode =
    s.engine.overlayMode ∧ (nextWork s).engine.overlayInputs = s.engine.overlayInputs ∧ (nextWork
    s).counters.snapshot = s.counters.snapshot := by
  unfold nextWork
  (repeat' split) <;> simp

/-- What load leaves unchanged. -/
@[simp] theorem load_frame (s : State) : (load s).slots = s.slots ∧ (load s).queue = s.queue ∧ (load
    s).completions = s.completions ∧ (load s).exec = s.exec ∧ (load s).carriage = s.carriage ∧ (load s).fire =
    s.fire ∧ (load s).heat = s.heat ∧ (load s).counters = s.counters ∧ (load s).params = s.params ∧ (load
    s).lines = s.lines ∧ (load s).txLine = s.txLine ∧ (load s).motorStep = s.motorStep ∧ (load s).freeCount =
    s.freeCount ∧ (load s).pending = s.pending ∧ (load s).link.mode = s.link.mode ∧ (load s).link.received =
    s.link.received ∧ (load s).link.replies = s.link.replies ∧ (load s).link.mask = s.link.mask ∧ (load
    s).link.tx = s.link.tx ∧ (load s).paper.jamDue = s.paper.jamDue ∧ (load s).engine.resetPending =
    s.engine.resetPending ∧ (load s).engine.firstFault = s.engine.firstFault ∧ (load s).engine.further =
    s.engine.further ∧ (load s).engine.overlayMode = s.engine.overlayMode ∧ (load s).engine.overlayInputs =
    s.engine.overlayInputs ∧ (load s).engine.outputs = s.engine.outputs := by
  unfold load
  (repeat' split) <;> simp

/-- What carriageRest leaves unchanged. -/
@[simp] theorem carriageRest_frame (s : State) : (carriageRest s).paper = s.paper ∧ (carriageRest s).params =
    s.params ∧ (carriageRest s).lines = s.lines ∧ (carriageRest s).txLine = s.txLine ∧ (carriageRest
    s).motorStep = s.motorStep ∧ (carriageRest s).freeCount = s.freeCount ∧ (carriageRest s).pending = s.pending
    ∧ (carriageRest s).link.mode = s.link.mode ∧ (carriageRest s).link.received = s.link.received ∧
    (carriageRest s).link.replies = s.link.replies ∧ (carriageRest s).link.mask = s.link.mask ∧ (carriageRest
    s).link.tx = s.link.tx ∧ (carriageRest s).holds.paperOut = s.holds.paperOut ∧ (carriageRest s).fire.pinMap =
    s.fire.pinMap ∧ (carriageRest s).fire.inhibit = s.fire.inhibit ∧ (carriageRest s).fire.failed =
    s.fire.failed ∧ (carriageRest s).fire.openCounts = s.fire.openCounts ∧ (carriageRest s).fire.table =
    s.fire.table ∧ (carriageRest s).fire.pendingTable = s.fire.pendingTable ∧ (carriageRest s).fire.driving =
    s.fire.driving ∧ (carriageRest s).heat.h = s.heat.h ∧ (carriageRest s).engine.firstFault =
    s.engine.firstFault ∧ (carriageRest s).engine.further = s.engine.further ∧ (carriageRest
    s).engine.overlayMode = s.engine.overlayMode ∧ (carriageRest s).engine.overlayInputs =
    s.engine.overlayInputs ∧ (carriageRest s).counters.snapshot = s.counters.snapshot := by
  unfold carriageRest
  split <;> simp

/-- What feedRest leaves unchanged. -/
@[simp] theorem feedRest_frame (m : FeedMove) (s : State) : (feedRest m s).params = s.params ∧ (feedRest m
    s).lines = s.lines ∧ (feedRest m s).txLine = s.txLine ∧ (feedRest m s).motorStep = s.motorStep ∧ (feedRest m
    s).freeCount = s.freeCount ∧ (feedRest m s).pending = s.pending ∧ (feedRest m s).link.mode = s.link.mode ∧
    (feedRest m s).link.received = s.link.received ∧ (feedRest m s).link.replies = s.link.replies ∧ (feedRest m
    s).link.mask = s.link.mask ∧ (feedRest m s).link.tx = s.link.tx ∧ (feedRest m s).holds.paperOut =
    s.holds.paperOut ∧ (feedRest m s).fire.pinMap = s.fire.pinMap ∧ (feedRest m s).fire.inhibit = s.fire.inhibit
    ∧ (feedRest m s).fire.failed = s.fire.failed ∧ (feedRest m s).fire.openCounts = s.fire.openCounts ∧
    (feedRest m s).fire.table = s.fire.table ∧ (feedRest m s).fire.pendingTable = s.fire.pendingTable ∧
    (feedRest m s).fire.driving = s.fire.driving ∧ (feedRest m s).heat.h = s.heat.h ∧ (feedRest m
    s).paper.active = s.paper.active ∧ (feedRest m s).paper.next = s.paper.next ∧ (feedRest m s).paper.jamDue =
    s.paper.jamDue ∧ (feedRest m s).engine.firstFault = s.engine.firstFault ∧ (feedRest m s).engine.further =
    s.engine.further ∧ (feedRest m s).engine.overlayMode = s.engine.overlayMode ∧ (feedRest m
    s).engine.overlayInputs = s.engine.overlayInputs ∧ (feedRest m s).counters.snapshot = s.counters.snapshot := by
  unfold feedRest
  (repeat' split) <;> simp

/-- What afterSetp leaves unchanged. -/
@[simp] theorem afterSetp_frame (id : ParamId) (s : State) : (afterSetp id s).link = s.link ∧ (afterSetp id
    s).slots = s.slots ∧ (afterSetp id s).queue = s.queue ∧ (afterSetp id s).completions = s.completions ∧
    (afterSetp id s).holds = s.holds ∧ (afterSetp id s).fire = s.fire ∧ (afterSetp id s).paper = s.paper ∧
    (afterSetp id s).counters = s.counters ∧ (afterSetp id s).params = s.params ∧ (afterSetp id s).lines =
    s.lines ∧ (afterSetp id s).txLine = s.txLine ∧ (afterSetp id s).motorStep = s.motorStep ∧ (afterSetp id
    s).freeCount = s.freeCount ∧ (afterSetp id s).pending = s.pending ∧ (afterSetp id s).exec.failing =
    s.exec.failing ∧ (afterSetp id s).carriage.homed = s.carriage.homed ∧ (afterSetp id s).heat.h = s.heat.h ∧
    (afterSetp id s).engine.resetPending = s.engine.resetPending ∧ (afterSetp id s).engine.firstFault =
    s.engine.firstFault ∧ (afterSetp id s).engine.further = s.engine.further ∧ (afterSetp id
    s).engine.overlayMode = s.engine.overlayMode ∧ (afterSetp id s).engine.overlayInputs =
    s.engine.overlayInputs := by
  unfold afterSetp
  split <;> simp

/-- What ariseIf leaves unchanged. -/
@[simp] theorem ariseIf_frame (b : Bool) (c : TripCause) (s : State) : (ariseIf b c s).params = s.params ∧
    (ariseIf b c s).lines = s.lines ∧ (ariseIf b c s).txLine = s.txLine ∧ (ariseIf b c s).motorStep =
    s.motorStep ∧ (ariseIf b c s).freeCount = s.freeCount ∧ (ariseIf b c s).pending = s.pending ∧ (ariseIf b c
    s).link.mode = s.link.mode ∧ (ariseIf b c s).link.received = s.link.received ∧ (ariseIf b c s).link.replies
    = s.link.replies ∧ (ariseIf b c s).link.mask = s.link.mask ∧ (ariseIf b c s).link.tx = s.link.tx ∧ (ariseIf
    b c s).fire.pinMap = s.fire.pinMap ∧ (ariseIf b c s).fire.inhibit = s.fire.inhibit ∧ (ariseIf b c
    s).fire.failed = s.fire.failed ∧ (ariseIf b c s).fire.openCounts = s.fire.openCounts ∧ (ariseIf b c
    s).fire.table = s.fire.table ∧ (ariseIf b c s).fire.pendingTable = s.fire.pendingTable ∧ (ariseIf b c
    s).heat.h = s.heat.h ∧ (ariseIf b c s).paper.active = s.paper.active ∧ (ariseIf b c s).paper.next =
    s.paper.next ∧ (ariseIf b c s).engine.overlayMode = s.engine.overlayMode ∧ (ariseIf b c
    s).engine.overlayInputs = s.engine.overlayInputs ∧ (ariseIf b c s).counters.snapshot = s.counters.snapshot
    := by
  unfold ariseIf
  split <;> simp

/-- What planAndGo leaves unchanged. -/
@[simp] theorem planAndGo_frame (f : LineFields) (s : State) : (planAndGo f s).params = s.params ∧ (planAndGo f
    s).lines = s.lines ∧ (planAndGo f s).txLine = s.txLine ∧ (planAndGo f s).motorStep = s.motorStep ∧
    (planAndGo f s).freeCount = s.freeCount ∧ (planAndGo f s).pending = s.pending ∧ (planAndGo f s).link.mode =
    s.link.mode ∧ (planAndGo f s).link.received = s.link.received ∧ (planAndGo f s).link.replies =
    s.link.replies ∧ (planAndGo f s).link.mask = s.link.mask ∧ (planAndGo f s).link.tx = s.link.tx ∧ (planAndGo
    f s).holds.paperOut = s.holds.paperOut ∧ (planAndGo f s).carriage.homed = s.carriage.homed ∧ (planAndGo f
    s).fire.pinMap = s.fire.pinMap ∧ (planAndGo f s).fire.inhibit = s.fire.inhibit ∧ (planAndGo f s).fire.failed
    = s.fire.failed ∧ (planAndGo f s).fire.openCounts = s.fire.openCounts ∧ (planAndGo f s).fire.driving =
    s.fire.driving ∧ (planAndGo f s).heat.h = s.heat.h ∧ (planAndGo f s).paper.active = s.paper.active ∧
    (planAndGo f s).paper.next = s.paper.next ∧ (planAndGo f s).paper.state = s.paper.state ∧ (planAndGo f
    s).paper.y = s.paper.y ∧ (planAndGo f s).paper.jamDue = s.paper.jamDue ∧ (planAndGo f s).engine.resetPending
    = s.engine.resetPending ∧ (planAndGo f s).engine.firstFault = s.engine.firstFault ∧ (planAndGo f
    s).engine.further = s.engine.further ∧ (planAndGo f s).engine.overlayMode = s.engine.overlayMode ∧
    (planAndGo f s).engine.overlayInputs = s.engine.overlayInputs ∧ (planAndGo f s).counters.snapshot =
    s.counters.snapshot := by
  simp [planAndGo]

/-- What afterPass leaves unchanged. -/
@[simp] theorem afterPass_frame (s : State) : (afterPass s).params = s.params ∧ (afterPass s).lines = s.lines ∧
    (afterPass s).txLine = s.txLine ∧ (afterPass s).motorStep = s.motorStep ∧ (afterPass s).freeCount =
    s.freeCount ∧ (afterPass s).pending = s.pending ∧ (afterPass s).link.mode = s.link.mode ∧ (afterPass
    s).link.received = s.link.received ∧ (afterPass s).link.replies = s.link.replies ∧ (afterPass s).link.mask =
    s.link.mask ∧ (afterPass s).link.tx = s.link.tx ∧ (afterPass s).holds.paperOut = s.holds.paperOut ∧
    (afterPass s).carriage.homed = s.carriage.homed ∧ (afterPass s).fire.pinMap = s.fire.pinMap ∧ (afterPass
    s).fire.inhibit = s.fire.inhibit ∧ (afterPass s).fire.failed = s.fire.failed ∧ (afterPass s).fire.openCounts
    = s.fire.openCounts ∧ (afterPass s).fire.table = s.fire.table ∧ (afterPass s).fire.pendingTable =
    s.fire.pendingTable ∧ (afterPass s).fire.driving = s.fire.driving ∧ (afterPass s).heat.h = s.heat.h ∧
    (afterPass s).paper.active = s.paper.active ∧ (afterPass s).paper.next = s.paper.next ∧ (afterPass
    s).paper.state = s.paper.state ∧ (afterPass s).paper.y = s.paper.y ∧ (afterPass s).paper.jamDue =
    s.paper.jamDue ∧ (afterPass s).engine.resetPending = s.engine.resetPending ∧ (afterPass s).engine.firstFault
    = s.engine.firstFault ∧ (afterPass s).engine.further = s.engine.further ∧ (afterPass s).engine.overlayMode =
    s.engine.overlayMode ∧ (afterPass s).engine.overlayInputs = s.engine.overlayInputs ∧ (afterPass
    s).counters.snapshot = s.counters.snapshot := by
  unfold afterPass
  split <;> simp

/-- What edgeHomed leaves unchanged. -/
@[simp] theorem edgeHomed_frame (dir : Dir) (s : State) : (edgeHomed dir s).params = s.params ∧ (edgeHomed dir
    s).lines = s.lines ∧ (edgeHomed dir s).txLine = s.txLine ∧ (edgeHomed dir s).motorStep = s.motorStep ∧
    (edgeHomed dir s).freeCount = s.freeCount ∧ (edgeHomed dir s).pending = s.pending ∧ (edgeHomed dir
    s).link.mode = s.link.mode ∧ (edgeHomed dir s).link.received = s.link.received ∧ (edgeHomed dir
    s).link.replies = s.link.replies ∧ (edgeHomed dir s).link.mask = s.link.mask ∧ (edgeHomed dir s).link.tx =
    s.link.tx ∧ (edgeHomed dir s).fire.pinMap = s.fire.pinMap ∧ (edgeHomed dir s).fire.inhibit = s.fire.inhibit
    ∧ (edgeHomed dir s).fire.failed = s.fire.failed ∧ (edgeHomed dir s).fire.openCounts = s.fire.openCounts ∧
    (edgeHomed dir s).fire.table = s.fire.table ∧ (edgeHomed dir s).fire.pendingTable = s.fire.pendingTable ∧
    (edgeHomed dir s).heat.h = s.heat.h ∧ (edgeHomed dir s).paper.active = s.paper.active ∧ (edgeHomed dir
    s).paper.next = s.paper.next ∧ (edgeHomed dir s).engine.overlayMode = s.engine.overlayMode ∧ (edgeHomed dir
    s).engine.overlayInputs = s.engine.overlayInputs ∧ (edgeHomed dir s).counters.snapshot = s.counters.snapshot
    := by
  unfold edgeHomed
  dsimp only
  split <;> simp

/-- What ariseLevels leaves unchanged. -/
@[simp] theorem ariseLevels_frame (hot fault : Bool) (s : State) : (ariseLevels hot fault s).params = s.params ∧
    (ariseLevels hot fault s).lines = s.lines ∧ (ariseLevels hot fault s).txLine = s.txLine ∧ (ariseLevels hot
    fault s).motorStep = s.motorStep ∧ (ariseLevels hot fault s).pending = s.pending ∧ (ariseLevels hot fault
    s).link.mode = s.link.mode ∧ (ariseLevels hot fault s).link.received = s.link.received ∧ (ariseLevels hot
    fault s).link.replies = s.link.replies ∧ (ariseLevels hot fault s).link.mask = s.link.mask ∧ (ariseLevels
    hot fault s).link.tx = s.link.tx ∧ (ariseLevels hot fault s).fire.pinMap = s.fire.pinMap ∧ (ariseLevels hot
    fault s).fire.inhibit = s.fire.inhibit ∧ (ariseLevels hot fault s).fire.failed = s.fire.failed ∧
    (ariseLevels hot fault s).fire.openCounts = s.fire.openCounts ∧ (ariseLevels hot fault s).fire.table =
    s.fire.table ∧ (ariseLevels hot fault s).fire.pendingTable = s.fire.pendingTable ∧ (ariseLevels hot fault
    s).heat.h = s.heat.h ∧ (ariseLevels hot fault s).paper.active = s.paper.active ∧ (ariseLevels hot fault
    s).paper.next = s.paper.next ∧ (ariseLevels hot fault s).engine.overlayMode = s.engine.overlayMode ∧
    (ariseLevels hot fault s).engine.overlayInputs = s.engine.overlayInputs ∧ (ariseLevels hot fault
    s).counters.snapshot = s.counters.snapshot := by
  unfold ariseLevels
  (repeat' split) <;> simp

/-- What stageLine leaves unchanged. -/
@[simp] theorem stageLine_frame (f : LineFields) (s : State) : (stageLine f s).params = s.params ∧ (stageLine f
    s).lines = s.lines ∧ (stageLine f s).txLine = s.txLine ∧ (stageLine f s).motorStep = s.motorStep ∧
    (stageLine f s).freeCount = s.freeCount ∧ (stageLine f s).pending = s.pending ∧ (stageLine f s).link.mode =
    s.link.mode ∧ (stageLine f s).link.received = s.link.received ∧ (stageLine f s).link.replies =
    s.link.replies ∧ (stageLine f s).link.mask = s.link.mask ∧ (stageLine f s).link.tx = s.link.tx ∧ (stageLine
    f s).holds.paperOut = s.holds.paperOut ∧ (stageLine f s).carriage.homed = s.carriage.homed ∧ (stageLine f
    s).fire.pinMap = s.fire.pinMap ∧ (stageLine f s).fire.inhibit = s.fire.inhibit ∧ (stageLine f s).fire.failed
    = s.fire.failed ∧ (stageLine f s).fire.openCounts = s.fire.openCounts ∧ (stageLine f s).fire.driving =
    s.fire.driving ∧ (stageLine f s).heat.h = s.heat.h ∧ (stageLine f s).paper.active = s.paper.active ∧
    (stageLine f s).paper.next = s.paper.next ∧ (stageLine f s).paper.state = s.paper.state ∧ (stageLine f
    s).paper.y = s.paper.y ∧ (stageLine f s).paper.jamDue = s.paper.jamDue ∧ (stageLine f s).engine.resetPending
    = s.engine.resetPending ∧ (stageLine f s).engine.firstFault = s.engine.firstFault ∧ (stageLine f
    s).engine.further = s.engine.further ∧ (stageLine f s).engine.overlayMode = s.engine.overlayMode ∧
    (stageLine f s).engine.overlayInputs = s.engine.overlayInputs ∧ (stageLine f s).counters.snapshot =
    s.counters.snapshot := by
  unfold stageLine
  split <;> simp

/-- What edge leaves unchanged. -/
@[simp] theorem edge_frame (dir : Dir) (s : State) : (edge dir s).params = s.params ∧ (edge dir s).lines =
    s.lines ∧ (edge dir s).txLine = s.txLine ∧ (edge dir s).motorStep = s.motorStep ∧ (edge dir s).freeCount =
    s.freeCount ∧ (edge dir s).pending = s.pending ∧ (edge dir s).link.mode = s.link.mode ∧ (edge dir
    s).link.received = s.link.received ∧ (edge dir s).link.replies = s.link.replies ∧ (edge dir s).link.mask =
    s.link.mask ∧ (edge dir s).link.tx = s.link.tx ∧ (edge dir s).fire.pinMap = s.fire.pinMap ∧ (edge dir
    s).fire.inhibit = s.fire.inhibit ∧ (edge dir s).fire.failed = s.fire.failed ∧ (edge dir s).fire.openCounts =
    s.fire.openCounts ∧ (edge dir s).fire.table = s.fire.table ∧ (edge dir s).fire.pendingTable =
    s.fire.pendingTable ∧ (edge dir s).heat.h = s.heat.h ∧ (edge dir s).paper.active = s.paper.active ∧ (edge
    dir s).paper.next = s.paper.next ∧ (edge dir s).engine.overlayMode = s.engine.overlayMode ∧ (edge dir
    s).engine.overlayInputs = s.engine.overlayInputs ∧ (edge dir s).counters.snapshot = s.counters.snapshot := by
  unfold edge
  (repeat' split) <;> simp

/-- What afterRetract leaves unchanged. -/
@[simp] theorem afterRetract_frame (k : EntryKind) (s : State) : (afterRetract k s).params = s.params ∧
    (afterRetract k s).lines = s.lines ∧ (afterRetract k s).txLine = s.txLine ∧ (afterRetract k s).motorStep =
    s.motorStep ∧ (afterRetract k s).freeCount = s.freeCount ∧ (afterRetract k s).pending = s.pending ∧
    (afterRetract k s).link.mode = s.link.mode ∧ (afterRetract k s).link.received = s.link.received ∧
    (afterRetract k s).link.replies = s.link.replies ∧ (afterRetract k s).link.mask = s.link.mask ∧
    (afterRetract k s).link.tx = s.link.tx ∧ (afterRetract k s).holds.paperOut = s.holds.paperOut ∧
    (afterRetract k s).carriage.homed = s.carriage.homed ∧ (afterRetract k s).fire.pinMap = s.fire.pinMap ∧
    (afterRetract k s).fire.inhibit = s.fire.inhibit ∧ (afterRetract k s).fire.failed = s.fire.failed ∧
    (afterRetract k s).fire.openCounts = s.fire.openCounts ∧ (afterRetract k s).fire.driving = s.fire.driving ∧
    (afterRetract k s).heat.h = s.heat.h ∧ (afterRetract k s).paper.active = s.paper.active ∧ (afterRetract k
    s).paper.next = s.paper.next ∧ (afterRetract k s).paper.state = s.paper.state ∧ (afterRetract k s).paper.y =
    s.paper.y ∧ (afterRetract k s).paper.jamDue = s.paper.jamDue ∧ (afterRetract k s).engine.resetPending =
    s.engine.resetPending ∧ (afterRetract k s).engine.firstFault = s.engine.firstFault ∧ (afterRetract k
    s).engine.further = s.engine.further ∧ (afterRetract k s).engine.overlayMode = s.engine.overlayMode ∧
    (afterRetract k s).engine.overlayInputs = s.engine.overlayInputs ∧ (afterRetract k s).counters.snapshot =
    s.counters.snapshot := by
  unfold afterRetract
  split <;> simp

/-- What overlayEffects leaves unchanged. -/
@[simp] theorem overlayEffects_frame (before : State) (s : State) : (overlayEffects before s).params = s.params
    ∧ (overlayEffects before s).lines = s.lines ∧ (overlayEffects before s).txLine = s.txLine ∧ (overlayEffects
    before s).motorStep = s.motorStep ∧ (overlayEffects before s).pending = s.pending ∧ (overlayEffects before
    s).link.mode = s.link.mode ∧ (overlayEffects before s).link.received = s.link.received ∧ (overlayEffects
    before s).link.replies = s.link.replies ∧ (overlayEffects before s).link.mask = s.link.mask ∧
    (overlayEffects before s).link.tx = s.link.tx ∧ (overlayEffects before s).fire.pinMap = s.fire.pinMap ∧
    (overlayEffects before s).fire.inhibit = s.fire.inhibit ∧ (overlayEffects before s).fire.failed =
    s.fire.failed ∧ (overlayEffects before s).fire.openCounts = s.fire.openCounts ∧ (overlayEffects before
    s).fire.table = s.fire.table ∧ (overlayEffects before s).fire.pendingTable = s.fire.pendingTable ∧
    (overlayEffects before s).heat.h = s.heat.h ∧ (overlayEffects before s).paper.active = s.paper.active ∧
    (overlayEffects before s).paper.next = s.paper.next ∧ (overlayEffects before s).engine.overlayMode =
    s.engine.overlayMode ∧ (overlayEffects before s).engine.overlayInputs = s.engine.overlayInputs ∧
    (overlayEffects before s).counters.snapshot = s.counters.snapshot := by
  simp [overlayEffects]

/-- What stagingGoesOn leaves unchanged. -/
@[simp] theorem stagingGoesOn_frame (k : EntryKind) (s : State) : (stagingGoesOn k s).params = s.params ∧
    (stagingGoesOn k s).lines = s.lines ∧ (stagingGoesOn k s).txLine = s.txLine ∧ (stagingGoesOn k s).motorStep
    = s.motorStep ∧ (stagingGoesOn k s).freeCount = s.freeCount ∧ (stagingGoesOn k s).pending = s.pending ∧
    (stagingGoesOn k s).link.mode = s.link.mode ∧ (stagingGoesOn k s).link.received = s.link.received ∧
    (stagingGoesOn k s).link.replies = s.link.replies ∧ (stagingGoesOn k s).link.mask = s.link.mask ∧
    (stagingGoesOn k s).link.tx = s.link.tx ∧ (stagingGoesOn k s).holds.paperOut = s.holds.paperOut ∧
    (stagingGoesOn k s).carriage.homed = s.carriage.homed ∧ (stagingGoesOn k s).fire.pinMap = s.fire.pinMap ∧
    (stagingGoesOn k s).fire.inhibit = s.fire.inhibit ∧ (stagingGoesOn k s).fire.failed = s.fire.failed ∧
    (stagingGoesOn k s).fire.openCounts = s.fire.openCounts ∧ (stagingGoesOn k s).fire.driving = s.fire.driving
    ∧ (stagingGoesOn k s).heat.h = s.heat.h ∧ (stagingGoesOn k s).paper.active = s.paper.active ∧ (stagingGoesOn
    k s).paper.next = s.paper.next ∧ (stagingGoesOn k s).paper.state = s.paper.state ∧ (stagingGoesOn k
    s).paper.y = s.paper.y ∧ (stagingGoesOn k s).paper.jamDue = s.paper.jamDue ∧ (stagingGoesOn k
    s).engine.resetPending = s.engine.resetPending ∧ (stagingGoesOn k s).engine.firstFault = s.engine.firstFault
    ∧ (stagingGoesOn k s).engine.further = s.engine.further ∧ (stagingGoesOn k s).engine.overlayMode =
    s.engine.overlayMode ∧ (stagingGoesOn k s).engine.overlayInputs = s.engine.overlayInputs ∧ (stagingGoesOn k
    s).counters.snapshot = s.counters.snapshot := by
  unfold stagingGoesOn
  split <;> simp

/-- What prepare leaves unchanged. -/
@[simp] theorem prepare_frame (k : EntryKind) (s : State) : (prepare k s).params = s.params ∧ (prepare k
    s).lines = s.lines ∧ (prepare k s).txLine = s.txLine ∧ (prepare k s).motorStep = s.motorStep ∧ (prepare k
    s).freeCount = s.freeCount ∧ (prepare k s).pending = s.pending ∧ (prepare k s).link.mode = s.link.mode ∧
    (prepare k s).link.received = s.link.received ∧ (prepare k s).link.replies = s.link.replies ∧ (prepare k
    s).link.mask = s.link.mask ∧ (prepare k s).link.tx = s.link.tx ∧ (prepare k s).holds.paperOut =
    s.holds.paperOut ∧ (prepare k s).carriage.homed = s.carriage.homed ∧ (prepare k s).fire.pinMap =
    s.fire.pinMap ∧ (prepare k s).fire.inhibit = s.fire.inhibit ∧ (prepare k s).fire.failed = s.fire.failed ∧
    (prepare k s).fire.openCounts = s.fire.openCounts ∧ (prepare k s).fire.driving = s.fire.driving ∧ (prepare k
    s).heat.h = s.heat.h ∧ (prepare k s).paper.active = s.paper.active ∧ (prepare k s).paper.next = s.paper.next
    ∧ (prepare k s).paper.state = s.paper.state ∧ (prepare k s).paper.y = s.paper.y ∧ (prepare k s).paper.jamDue
    = s.paper.jamDue ∧ (prepare k s).engine.resetPending = s.engine.resetPending ∧ (prepare k
    s).engine.firstFault = s.engine.firstFault ∧ (prepare k s).engine.further = s.engine.further ∧ (prepare k
    s).engine.overlayMode = s.engine.overlayMode ∧ (prepare k s).engine.overlayInputs = s.engine.overlayInputs ∧
    (prepare k s).counters.snapshot = s.counters.snapshot := by
  unfold prepare
  (repeat' split) <;> simp

/-- What resumeEntry leaves unchanged. -/
@[simp] theorem resumeEntry_frame (e : Entry) (s : State) : (resumeEntry e s).params = s.params ∧ (resumeEntry e
    s).lines = s.lines ∧ (resumeEntry e s).txLine = s.txLine ∧ (resumeEntry e s).motorStep = s.motorStep ∧
    (resumeEntry e s).freeCount = s.freeCount ∧ (resumeEntry e s).pending = s.pending ∧ (resumeEntry e
    s).link.mode = s.link.mode ∧ (resumeEntry e s).link.received = s.link.received ∧ (resumeEntry e
    s).link.replies = s.link.replies ∧ (resumeEntry e s).link.mask = s.link.mask ∧ (resumeEntry e s).link.tx =
    s.link.tx ∧ (resumeEntry e s).holds.paperOut = s.holds.paperOut ∧ (resumeEntry e s).carriage.homed =
    s.carriage.homed ∧ (resumeEntry e s).fire.pinMap = s.fire.pinMap ∧ (resumeEntry e s).fire.inhibit =
    s.fire.inhibit ∧ (resumeEntry e s).fire.failed = s.fire.failed ∧ (resumeEntry e s).fire.openCounts =
    s.fire.openCounts ∧ (resumeEntry e s).fire.driving = s.fire.driving ∧ (resumeEntry e s).heat.h = s.heat.h ∧
    (resumeEntry e s).paper.active = s.paper.active ∧ (resumeEntry e s).paper.next = s.paper.next ∧ (resumeEntry
    e s).paper.state = s.paper.state ∧ (resumeEntry e s).paper.y = s.paper.y ∧ (resumeEntry e s).paper.jamDue =
    s.paper.jamDue ∧ (resumeEntry e s).engine.resetPending = s.engine.resetPending ∧ (resumeEntry e
    s).engine.firstFault = s.engine.firstFault ∧ (resumeEntry e s).engine.further = s.engine.further ∧
    (resumeEntry e s).engine.overlayMode = s.engine.overlayMode ∧ (resumeEntry e s).engine.overlayInputs =
    s.engine.overlayInputs ∧ (resumeEntry e s).counters.snapshot = s.counters.snapshot := by
  unfold resumeEntry
  split <;> simp

/-- What activate leaves unchanged. -/
@[simp] theorem activate_frame (e : Entry) (rest : List Entry) (s : State) : (activate e rest s).params =
    s.params ∧ (activate e rest s).lines = s.lines ∧ (activate e rest s).txLine = s.txLine ∧ (activate e rest
    s).motorStep = s.motorStep ∧ (activate e rest s).freeCount = s.freeCount ∧ (activate e rest s).pending =
    s.pending ∧ (activate e rest s).link.mode = s.link.mode ∧ (activate e rest s).link.received =
    s.link.received ∧ (activate e rest s).link.replies = s.link.replies ∧ (activate e rest s).link.mask =
    s.link.mask ∧ (activate e rest s).link.tx = s.link.tx ∧ (activate e rest s).holds.paperOut =
    s.holds.paperOut ∧ (activate e rest s).carriage.homed = s.carriage.homed ∧ (activate e rest s).fire.pinMap =
    s.fire.pinMap ∧ (activate e rest s).fire.inhibit = s.fire.inhibit ∧ (activate e rest s).fire.failed =
    s.fire.failed ∧ (activate e rest s).fire.openCounts = s.fire.openCounts ∧ (activate e rest s).fire.driving =
    s.fire.driving ∧ (activate e rest s).heat.h = s.heat.h ∧ (activate e rest s).paper.active = s.paper.active ∧
    (activate e rest s).paper.next = s.paper.next ∧ (activate e rest s).paper.state = s.paper.state ∧ (activate
    e rest s).paper.y = s.paper.y ∧ (activate e rest s).paper.jamDue = s.paper.jamDue ∧ (activate e rest
    s).engine.resetPending = s.engine.resetPending ∧ (activate e rest s).engine.firstFault = s.engine.firstFault
    ∧ (activate e rest s).engine.further = s.engine.further ∧ (activate e rest s).engine.overlayMode =
    s.engine.overlayMode ∧ (activate e rest s).engine.overlayInputs = s.engine.overlayInputs ∧ (activate e rest
    s).counters.snapshot = s.counters.snapshot := by
  simp [activate]

/-- What resumeIfHeld leaves unchanged. -/
@[simp] theorem resumeIfHeld_frame (s : State) : (resumeIfHeld s).params = s.params ∧ (resumeIfHeld s).lines =
    s.lines ∧ (resumeIfHeld s).txLine = s.txLine ∧ (resumeIfHeld s).motorStep = s.motorStep ∧ (resumeIfHeld
    s).freeCount = s.freeCount ∧ (resumeIfHeld s).pending = s.pending ∧ (resumeIfHeld s).link.mode = s.link.mode
    ∧ (resumeIfHeld s).link.received = s.link.received ∧ (resumeIfHeld s).link.replies = s.link.replies ∧
    (resumeIfHeld s).link.mask = s.link.mask ∧ (resumeIfHeld s).link.tx = s.link.tx ∧ (resumeIfHeld
    s).holds.paperOut = s.holds.paperOut ∧ (resumeIfHeld s).carriage.homed = s.carriage.homed ∧ (resumeIfHeld
    s).fire.pinMap = s.fire.pinMap ∧ (resumeIfHeld s).fire.inhibit = s.fire.inhibit ∧ (resumeIfHeld
    s).fire.failed = s.fire.failed ∧ (resumeIfHeld s).fire.openCounts = s.fire.openCounts ∧ (resumeIfHeld
    s).fire.driving = s.fire.driving ∧ (resumeIfHeld s).heat.h = s.heat.h ∧ (resumeIfHeld s).paper.active =
    s.paper.active ∧ (resumeIfHeld s).paper.next = s.paper.next ∧ (resumeIfHeld s).paper.state = s.paper.state ∧
    (resumeIfHeld s).paper.y = s.paper.y ∧ (resumeIfHeld s).paper.jamDue = s.paper.jamDue ∧ (resumeIfHeld
    s).engine.resetPending = s.engine.resetPending ∧ (resumeIfHeld s).engine.firstFault = s.engine.firstFault ∧
    (resumeIfHeld s).engine.further = s.engine.further ∧ (resumeIfHeld s).engine.overlayMode =
    s.engine.overlayMode ∧ (resumeIfHeld s).engine.overlayInputs = s.engine.overlayInputs ∧ (resumeIfHeld
    s).counters.snapshot = s.counters.snapshot := by
  unfold resumeIfHeld
  (repeat' split) <;> simp

/-- What startWork leaves unchanged. -/
@[simp] theorem startWork_frame (s : State) : (startWork s).params = s.params ∧ (startWork s).lines = s.lines ∧
    (startWork s).txLine = s.txLine ∧ (startWork s).motorStep = s.motorStep ∧ (startWork s).freeCount =
    s.freeCount ∧ (startWork s).pending = s.pending ∧ (startWork s).link.mode = s.link.mode ∧ (startWork
    s).link.received = s.link.received ∧ (startWork s).link.replies = s.link.replies ∧ (startWork s).link.mask =
    s.link.mask ∧ (startWork s).link.tx = s.link.tx ∧ (startWork s).carriage.homed = s.carriage.homed ∧
    (startWork s).fire.pinMap = s.fire.pinMap ∧ (startWork s).fire.inhibit = s.fire.inhibit ∧ (startWork
    s).fire.failed = s.fire.failed ∧ (startWork s).fire.openCounts = s.fire.openCounts ∧ (startWork
    s).fire.driving = s.fire.driving ∧ (startWork s).heat.h = s.heat.h ∧ (startWork s).paper.active =
    s.paper.active ∧ (startWork s).paper.next = s.paper.next ∧ (startWork s).paper.state = s.paper.state ∧
    (startWork s).paper.y = s.paper.y ∧ (startWork s).paper.jamDue = s.paper.jamDue ∧ (startWork
    s).engine.resetPending = s.engine.resetPending ∧ (startWork s).engine.firstFault = s.engine.firstFault ∧
    (startWork s).engine.further = s.engine.further ∧ (startWork s).engine.overlayMode = s.engine.overlayMode ∧
    (startWork s).engine.overlayInputs = s.engine.overlayInputs ∧ (startWork s).counters.snapshot =
    s.counters.snapshot := by
  unfold startWork
  (repeat' split) <;> simp

/-- What haltInPass leaves unchanged. -/
@[simp] theorem haltInPass_frame (s : State) : (haltInPass s).link = s.link ∧ (haltInPass s).slots = s.slots ∧
    (haltInPass s).queue = s.queue ∧ (haltInPass s).completions = s.completions ∧ (haltInPass s).carriage =
    s.carriage ∧ (haltInPass s).fire = s.fire ∧ (haltInPass s).paper = s.paper ∧ (haltInPass s).engine =
    s.engine ∧ (haltInPass s).counters = s.counters ∧ (haltInPass s).params = s.params ∧ (haltInPass s).lines =
    s.lines ∧ (haltInPass s).txLine = s.txLine ∧ (haltInPass s).motorStep = s.motorStep ∧ (haltInPass
    s).freeCount = s.freeCount ∧ (haltInPass s).pending = s.pending ∧ (haltInPass s).holds.paperOut =
    s.holds.paperOut ∧ (haltInPass s).exec.failing = s.exec.failing ∧ (haltInPass s).heat.h = s.heat.h := by
  unfold haltInPass
  (repeat' split) <;> simp

/-- What haltAtOnce leaves unchanged. -/
@[simp] theorem haltAtOnce_frame (s : State) : (haltAtOnce s).engine = s.engine ∧ (haltAtOnce s).params =
    s.params ∧ (haltAtOnce s).lines = s.lines ∧ (haltAtOnce s).txLine = s.txLine ∧ (haltAtOnce s).motorStep =
    s.motorStep ∧ (haltAtOnce s).pending = s.pending ∧ (haltAtOnce s).link.mode = s.link.mode ∧ (haltAtOnce
    s).link.received = s.link.received ∧ (haltAtOnce s).link.replies = s.link.replies ∧ (haltAtOnce s).link.mask
    = s.link.mask ∧ (haltAtOnce s).link.tx = s.link.tx ∧ (haltAtOnce s).holds.paperOut = s.holds.paperOut ∧
    (haltAtOnce s).carriage.direction = s.carriage.direction ∧ (haltAtOnce s).carriage.homed = s.carriage.homed
    ∧ (haltAtOnce s).fire.pinMap = s.fire.pinMap ∧ (haltAtOnce s).fire.inhibit = s.fire.inhibit ∧ (haltAtOnce
    s).fire.failed = s.fire.failed ∧ (haltAtOnce s).fire.openCounts = s.fire.openCounts ∧ (haltAtOnce
    s).fire.table = s.fire.table ∧ (haltAtOnce s).fire.pendingTable = s.fire.pendingTable ∧ (haltAtOnce
    s).fire.driving = s.fire.driving ∧ (haltAtOnce s).heat.h = s.heat.h ∧ (haltAtOnce s).paper.active =
    s.paper.active ∧ (haltAtOnce s).paper.next = s.paper.next ∧ (haltAtOnce s).paper.state = s.paper.state ∧
    (haltAtOnce s).paper.y = s.paper.y ∧ (haltAtOnce s).paper.jamDue = s.paper.jamDue ∧ (haltAtOnce
    s).counters.snapshot = s.counters.snapshot := by
  unfold haltAtOnce
  (repeat' split) <;> simp

/-- What haltInLine leaves unchanged. -/
@[simp] theorem haltInLine_frame (s : State) : (haltInLine s).link = s.link ∧ (haltInLine s).slots = s.slots ∧
    (haltInLine s).queue = s.queue ∧ (haltInLine s).completions = s.completions ∧ (haltInLine s).carriage =
    s.carriage ∧ (haltInLine s).fire = s.fire ∧ (haltInLine s).heat = s.heat ∧ (haltInLine s).paper = s.paper ∧
    (haltInLine s).engine = s.engine ∧ (haltInLine s).counters = s.counters ∧ (haltInLine s).params = s.params ∧
    (haltInLine s).lines = s.lines ∧ (haltInLine s).txLine = s.txLine ∧ (haltInLine s).motorStep = s.motorStep ∧
    (haltInLine s).freeCount = s.freeCount ∧ (haltInLine s).pending = s.pending ∧ (haltInLine s).holds.paperOut
    = s.holds.paperOut ∧ (haltInLine s).exec.state = s.exec.state ∧ (haltInLine s).exec.failing = s.exec.failing
    := by
  unfold haltInLine
  (repeat' split) <;> simp

end Sys2Proof.Machine
end

