-- ==== Sys2Proof/Laws/PerInstr.lean ====
section
/-! SUPPORT. What holds of every command, one lemma for each constructor of Instr: the frame of a well-formed request
carries a payload that fits the link (section 11.2). -/

namespace Sys2Proof.Laws

/-- The frame of a well-formed command, if it has one, carries at most 1,024 payload bytes (section 11.2). -/
def Encoding.Statement (c : Instr) : Prop :=
  ∀ f, encodeFrame c = some f → WellFormed c = true → f.payload.length ≤ 1024

/-- A well-formed wrong-length payload fits a frame. -/
theorem wrongLengthOk_length {k : RequestKind} {p : List Byte} (h : wrongLengthOk k p = true) : p.length ≤ 1024 := by
  simp only [wrongLengthOk, Bool.and_eq_true, decide_eq_true_eq] at h
  exact h.1

/-- A well-formed payload fits a frame when the bytes of its fields do. -/
theorem wireBytes_length {α : Type} {k : RequestKind} {w : Wire α} {ok : α → Bool} {g : α → List Byte}
    (h : wireOk k w ok = true) (hg : ∀ x, ok x = true → (g x).length ≤ 1024) :
    (wireBytes w g).length ≤ 1024 := by
  cases w with
  | fields x => exact hg x h
  | wrongLength p => exact wrongLengthOk_length h

/-- The statement for a request whose payload a Wire holds. -/
theorem Encoding.ofWire {c : Instr} {α : Type} {k : RequestKind} {tag : Byte} {w : Wire α} {ok : α → Bool}
    {g : α → List Byte} (he : encodeFrame c = some (frameOf k tag (wireBytes w g)))
    (hw : WellFormed c = true → wireOk k w ok = true) (hg : ∀ x, ok x = true → (g x).length ≤ 1024) :
    Encoding.Statement c := by
  intro f hf h
  obtain rfl := Option.some.inj (he.symm.trans hf)
  exact wireBytes_length (hw h) hg

/-- The statement for a command that has no frame. -/
theorem Encoding.ofNone {c : Instr} (he : encodeFrame c = none) : Encoding.Statement c :=
  fun _ hf => nomatch he.symm.trans hf

/-- powerOn has no frame. -/
theorem Encoding.powerOn (strap : LinkRate) : Encoding.Statement (.powerOn strap) :=
  Encoding.ofNone rfl

/-- resetLine has no frame. -/
theorem Encoding.resetLine (strap : LinkRate) : Encoding.Statement (.resetLine strap) :=
  Encoding.ofNone rfl

/-- frameReceived has no frame. -/
theorem Encoding.frameReceived (bytes : List LineByte) : Encoding.Statement (.frameReceived bytes) :=
  Encoding.ofNone rfl

/-- byteGapTimeout has no frame. -/
theorem Encoding.byteGapTimeout : Encoding.Statement .byteGapTimeout :=
  Encoding.ofNone rfl

/-- receiveOverrun has no frame. -/
theorem Encoding.receiveOverrun : Encoding.Statement .receiveOverrun :=
  Encoding.ofNone rfl

/-- unknownKind keeps its payload within a frame. -/
theorem Encoding.unknownKind (kind tag : Byte) (payload : List Byte) :
    Encoding.Statement (.unknownKind kind tag payload) := by
  intro f hf h
  obtain rfl := Option.some.inj hf
  simp only [WellFormed, Bool.and_eq_true, decide_eq_true_eq] at h
  exact h.2

/-- replySent has no frame. -/
theorem Encoding.replySent : Encoding.Statement .replySent :=
  Encoding.ofNone rfl

/-- noticeSent has no frame. -/
theorem Encoding.noticeSent : Encoding.Statement .noticeSent :=
  Encoding.ofNone rfl

/-- stat keeps its payload within a frame. -/
theorem Encoding.stat (tag : Byte) (req : Wire Unit) : Encoding.Statement (.stat tag req) :=
  Encoding.ofWire rfl id (fun _ _ => by simp)

/-- evnt keeps its payload within a frame. -/
theorem Encoding.evnt (tag : Byte) (req : Wire Unit) : Encoding.Statement (.evnt tag req) :=
  Encoding.ofWire rfl id (fun _ _ => by simp)

/-- emsk keeps its payload within a frame. -/
theorem Encoding.emsk (tag : Byte) (req : Wire (Option (BitVec 16))) : Encoding.Statement (.emsk tag req) :=
  Encoding.ofWire rfl id (by rintro (_ | x) - <;> simp [optionalBytes, le16])

/-- setp keeps its payload within a frame. -/
theorem Encoding.setp (tag : Byte) (req : Wire SetpReq) : Encoding.Statement (.setp tag req) :=
  Encoding.ofWire rfl id (fun _ _ => by simp [le32])

/-- getp keeps its payload within a frame. -/
theorem Encoding.getp (tag : Byte) (req : Wire Byte) : Encoding.Statement (.getp tag req) :=
  Encoding.ofWire rfl id (fun _ _ => by simp)

/-- cntrSnap keeps its payload within a frame. -/
theorem Encoding.cntrSnap (tag : Byte) (req : SnapForm) : Encoding.Statement (.cntrSnap tag req) := by
  intro f hf h
  obtain rfl := Option.some.inj hf
  cases req <;> first | exact wrongLengthOk_length h | simp [frameOf]

/-- cntrRead keeps its payload within a frame. -/
theorem Encoding.cntrRead (tag group : Byte) : Encoding.Statement (.cntrRead tag group) := by
  intro f hf _
  obtain rfl := Option.some.inj hf
  simp [frameOf]

/-- cntrClear keeps its payload within a frame. -/
theorem Encoding.cntrClear (tag mask : Byte) : Encoding.Statement (.cntrClear tag mask) := by
  intro f hf _
  obtain rfl := Option.some.inj hf
  simp [frameOf]

/-- slotOpen keeps its payload within a frame. -/
theorem Encoding.slotOpen (tag : Byte) (req : Wire OpenReq) : Encoding.Statement (.slotOpen tag req) :=
  Encoding.ofWire rfl id (fun _ _ => by simp [le16])

/-- slotData keeps its payload within a frame. -/
theorem Encoding.slotData (tag : Byte) (req : Wire DataReq) : Encoding.Statement (.slotData tag req) :=
  Encoding.ofWire rfl id (fun r h => by
    have := of_decide_eq_true h
    simp [le16, payloadMax] at this ⊢
    omega)

/-- slotSeal keeps its payload within a frame. -/
theorem Encoding.slotSeal (tag : Byte) (req : Wire Byte) : Encoding.Statement (.slotSeal tag req) :=
  Encoding.ofWire rfl id (fun _ _ => by simp)

/-- slotDrop keeps its payload within a frame. -/
theorem Encoding.slotDrop (tag : Byte) (req : Wire Byte) : Encoding.Statement (.slotDrop tag req) :=
  Encoding.ofWire rfl id (fun _ _ => by simp)

/-- line keeps its payload within a frame. -/
theorem Encoding.line (tag : Byte) (req : Wire LineReq) : Encoding.Statement (.line tag req) :=
  Encoding.ofWire rfl id (fun _ _ => by simp [le16])

/-- feed keeps its payload within a frame. -/
theorem Encoding.feed (tag : Byte) (req : Wire (BitVec 16)) : Encoding.Statement (.feed tag req) :=
  Encoding.ofWire rfl id (fun _ _ => by simp [le16])

/-- skip keeps its payload within a frame. -/
theorem Encoding.skip (tag : Byte) (req : Wire Byte) : Encoding.Statement (.skip tag req) :=
  Encoding.ofWire rfl id (fun _ _ => by simp)

/-- tear keeps its payload within a frame. -/
theorem Encoding.tear (tag : Byte) (req : Wire Unit) : Encoding.Statement (.tear tag req) :=
  Encoding.ofWire rfl id (fun _ _ => by simp)

/-- haltLine keeps its payload within a frame. -/
theorem Encoding.haltLine (tag : Byte) (req : HaltForm) : Encoding.Statement (.haltLine tag req) := by
  intro f hf h
  obtain rfl := Option.some.inj hf
  cases req <;> first | exact wrongLengthOk_length h | simp [frameOf]

/-- haltPass keeps its payload within a frame. -/
theorem Encoding.haltPass (tag : Byte) : Encoding.Statement (.haltPass tag) := by
  intro f hf _
  obtain rfl := Option.some.inj hf
  simp [frameOf]

/-- haltNow keeps its payload within a frame. -/
theorem Encoding.haltNow (tag : Byte) : Encoding.Statement (.haltNow tag) := by
  intro f hf _
  obtain rfl := Option.some.inj hf
  simp [frameOf]

/-- go keeps its payload within a frame. -/
theorem Encoding.go (tag : Byte) (req : Wire Unit) : Encoding.Statement (.go tag req) :=
  Encoding.ofWire rfl id (fun _ _ => by simp)

/-- flsh keeps its payload within a frame. -/
theorem Encoding.flsh (tag : Byte) (req : Wire Unit) : Encoding.Statement (.flsh tag req) :=
  Encoding.ofWire rfl id (fun _ _ => by simp)

/-- cmpl keeps its payload within a frame. -/
theorem Encoding.cmpl (tag : Byte) (req : Wire Byte) : Encoding.Statement (.cmpl tag req) :=
  Encoding.ofWire rfl id (fun _ _ => by simp)

/-- pmap keeps its payload within a frame. -/
theorem Encoding.pmap (tag : Byte) (req : Wire (Option (Vector RowReq 24))) : Encoding.Statement (.pmap tag req) :=
  Encoding.ofWire rfl id (by
    rintro (_ | x) - <;> simp [optionalBytes, List.length_flatMap])

/-- pinh keeps its payload within a frame. -/
theorem Encoding.pinh (tag : Byte) (req : Wire PinhReq) : Encoding.Statement (.pinh tag req) :=
  Encoding.ofWire rfl id (fun _ _ => by simp [le24])

/-- etab keeps its payload within a frame. -/
theorem Encoding.etab (tag : Byte) (req : Wire (Option EtabReq)) : Encoding.Statement (.etab tag req) :=
  Encoding.ofWire rfl id (by
    rintro (_ | x) - <;> simp [optionalBytes, le16, List.length_flatMap])

/-- form keeps its payload within a frame. -/
theorem Encoding.form (tag : Byte) (req : Wire (Option FormReq)) : Encoding.Statement (.form tag req) :=
  Encoding.ofWire rfl id (by
    rintro (_ | x) h
    · simp [optionalBytes]
    · have := of_decide_eq_true h
      simp [optionalBytes, formBytes, le16, List.length_flatMap, payloadMax] at this ⊢
      omega)

/-- enga keeps its payload within a frame. -/
theorem Encoding.enga (tag : Byte) (req : Wire Unit) : Encoding.Statement (.enga tag req) :=
  Encoding.ofWire rfl id (fun _ _ => by simp)

/-- rest keeps its payload within a frame. -/
theorem Encoding.rest (tag : Byte) (req : Wire Unit) : Encoding.Statement (.rest tag req) :=
  Encoding.ofWire rfl id (fun _ _ => by simp)

/-- wake keeps its payload within a frame. -/
theorem Encoding.wake (tag : Byte) (req : Wire Unit) : Encoding.Statement (.wake tag req) :=
  Encoding.ofWire rfl id (fun _ _ => by simp)

/-- clrf keeps its payload within a frame. -/
theorem Encoding.clrf (tag : Byte) (req : Wire Unit) : Encoding.Statement (.clrf tag req) :=
  Encoding.ofWire rfl id (fun _ _ => by simp)

/-- erst keeps its payload within a frame. -/
theorem Encoding.erst (tag : Byte) (req : Wire Unit) : Encoding.Statement (.erst tag req) :=
  Encoding.ofWire rfl id (fun _ _ => by simp)

/-- dout keeps its payload within a frame. -/
theorem Encoding.dout (tag : Byte) (req : Wire DoutReq) : Encoding.Statement (.dout tag req) :=
  Encoding.ofWire rfl id (fun _ _ => by simp)

/-- tovl keeps its payload within a frame. -/
theorem Encoding.tovl (tag : Byte) (req : Wire (Option TovlReq)) : Encoding.Statement (.tovl tag req) :=
  Encoding.ofWire rfl id (by rintro (_ | x) - <;> simp [optionalBytes])

/-- executorStart has no frame. -/
theorem Encoding.executorStart : Encoding.Statement .executorStart :=
  Encoding.ofNone rfl

/-- repositionEnd has no frame. -/
theorem Encoding.repositionEnd : Encoding.Statement .repositionEnd :=
  Encoding.ofNone rfl

/-- cruiseStart has no frame. -/
theorem Encoding.cruiseStart : Encoding.Statement .cruiseStart :=
  Encoding.ofNone rfl

/-- cruiseEnd has no frame. -/
theorem Encoding.cruiseEnd : Encoding.Statement .cruiseEnd :=
  Encoding.ofNone rfl

/-- passEnd has no frame. -/
theorem Encoding.passEnd : Encoding.Statement .passEnd :=
  Encoding.ofNone rfl

/-- fireGroupTaken has no frame. -/
theorem Encoding.fireGroupTaken : Encoding.Statement .fireGroupTaken :=
  Encoding.ofNone rfl

/-- pulseEnd has no frame. -/
theorem Encoding.pulseEnd (pin : Fin 24) (isOpen : Bool) : Encoding.Statement (.pulseEnd pin isOpen) :=
  Encoding.ofNone rfl

/-- markEdge has no frame. -/
theorem Encoding.markEdge (dir : Dir) (travel : Nat) : Encoding.Statement (.markEdge dir travel) :=
  Encoding.ofNone rfl

/-- encoderLost has no frame. -/
theorem Encoding.encoderLost : Encoding.Statement .encoderLost :=
  Encoding.ofNone rfl

/-- homeSensorActive has no frame. -/
theorem Encoding.homeSensorActive : Encoding.Statement .homeSensorActive :=
  Encoding.ofNone rfl

/-- homeFail has no frame. -/
theorem Encoding.homeFail : Encoding.Statement .homeFail :=
  Encoding.ofNone rfl

/-- parkEnd has no frame. -/
theorem Encoding.parkEnd : Encoding.Statement .parkEnd :=
  Encoding.ofNone rfl

/-- feedStep has no frame. -/
theorem Encoding.feedStep : Encoding.Statement .feedStep :=
  Encoding.ofNone rfl

/-- paperEnd has no frame. -/
theorem Encoding.paperEnd : Encoding.Statement .paperEnd :=
  Encoding.ofNone rfl

/-- paperJam has no frame. -/
theorem Encoding.paperJam : Encoding.Statement .paperJam :=
  Encoding.ofNone rfl

/-- ejectFail has no frame. -/
theorem Encoding.ejectFail : Encoding.Statement .ejectFail :=
  Encoding.ofNone rfl

/-- feedMoveEnd has no frame. -/
theorem Encoding.feedMoveEnd : Encoding.Statement .feedMoveEnd :=
  Encoding.ofNone rfl

/-- stopAtRest has no frame. -/
theorem Encoding.stopAtRest : Encoding.Statement .stopAtRest :=
  Encoding.ofNone rfl

/-- paperMotionPulse has no frame. -/
theorem Encoding.paperMotionPulse : Encoding.Statement .paperMotionPulse :=
  Encoding.ofNone rfl

/-- paperSensorAbsent has no frame. -/
theorem Encoding.paperSensorAbsent : Encoding.Statement .paperSensorAbsent :=
  Encoding.ofNone rfl

/-- paperSensorPresent has no frame. -/
theorem Encoding.paperSensorPresent : Encoding.Statement .paperSensorPresent :=
  Encoding.ofNone rfl

/-- headHotAsserted has no frame. -/
theorem Encoding.headHotAsserted : Encoding.Statement .headHotAsserted :=
  Encoding.ofNone rfl

/-- driverFaultAsserted has no frame. -/
theorem Encoding.driverFaultAsserted : Encoding.Statement .driverFaultAsserted :=
  Encoding.ofNone rfl

/-- testTrip has no frame. -/
theorem Encoding.testTrip (cause : TripCause) : Encoding.Statement (.testTrip cause) :=
  Encoding.ofNone rfl

/-- holdTimerExpiry has no frame. -/
theorem Encoding.holdTimerExpiry : Encoding.Statement .holdTimerExpiry :=
  Encoding.ofNone rfl

/-- warmupExpiry has no frame. -/
theorem Encoding.warmupExpiry : Encoding.Statement .warmupExpiry :=
  Encoding.ofNone rfl

/-- coolingTick has no frame. -/
theorem Encoding.coolingTick : Encoding.Statement .coolingTick :=
  Encoding.ofNone rfl

/-- headHotQuiet has no frame. -/
theorem Encoding.headHotQuiet : Encoding.Statement .headHotQuiet :=
  Encoding.ofNone rfl

/-- driverFaultQuiet has no frame. -/
theorem Encoding.driverFaultQuiet : Encoding.Statement .driverFaultQuiet :=
  Encoding.ofNone rfl

/-- homeSensorInactive has no frame. -/
theorem Encoding.homeSensorInactive : Encoding.Statement .homeSensorInactive :=
  Encoding.ofNone rfl

/-- discardedFramePassedOver has no frame. -/
theorem Encoding.discardedFramePassedOver : Encoding.Statement .discardedFramePassedOver :=
  Encoding.ofNone rfl

/-- preloadComplete has no frame. -/
theorem Encoding.preloadComplete : Encoding.Statement .preloadComplete :=
  Encoding.ofNone rfl

end Sys2Proof.Laws
end

