-- ==== Sys2Proof/Laws/Requests.lean ====
section
/-! SUPPORT. One lemma for each shared operation that says all it can do: the transmitter, taking in and answering
a request, travel, parameters, retirement, causes, and the whole of exec. -/

namespace Sys2Proof.Machine

/-! ## The transmitter (R183) -/

/-- A transmitter begins the oldest reply, begins the notice with no reply waiting, or stays as it is. -/
theorem beginSending_cases (s : State) :
    (s.link.tx = .free ∧ s.link.replies ≠ [] ∧ beginSending s = { s with link := { s.link with tx := .reply } }) ∨
      (s.link.tx = .free ∧ s.link.replies = [] ∧ s.link.notice = true ∧
        beginSending s = { s with link := { s.link with tx := .notice s.link.events, notice := false } }) ∨
      ((s.link.tx ≠ .free ∨ (s.link.replies = [] ∧ s.link.notice = false)) ∧ beginSending s = s) := by
  cases ht : s.link.tx with
  | free =>
    by_cases hr : s.link.replies = []
    · by_cases hn : s.link.notice = true
      · exact .inr (.inl ⟨rfl, hr, hn, by simp [beginSending, ht, hr, hn]⟩)
      · exact .inr (.inr ⟨.inr ⟨hr, by simpa using hn⟩, by simp [beginSending, ht, hr, hn]⟩)
    · exact .inl ⟨rfl, hr, by simp [beginSending, ht, hr]⟩
  | reply => exact .inr (.inr ⟨.inl nofun, by simp [beginSending, ht]⟩)
  | notice e => exact .inr (.inr ⟨.inl nofun, by simp [beginSending, ht]⟩)

/-- A transmitter that is busy, or for which no frame waits, begins nothing. -/
theorem Settled.beginSending {s : State} (h : Settled s) : beginSending s = s := by
  rcases beginSending_cases s with ⟨ht, hr, -⟩ | ⟨ht, -, hn, -⟩ | ⟨-, e⟩
  · exact absurd (h ht).1 hr
  · simp [(h ht).2] at hn
  · exact e

/-- Once the transmitter has begun what waits for it, it is settled. -/
theorem beginSending_settled (s : State) : Settled (beginSending s) := by
  rcases beginSending_cases s with ⟨-, -, e⟩ | ⟨-, -, -, e⟩ | ⟨h, e⟩ <;> rw [e]
  · exact nofun
  · exact nofun
  · exact fun ht => h.resolve_left (fun hn => hn ht)

/-- A command acts on a settled state as it stands. -/
theorem Settled.acting {s : State} (h : Settled s) (f : State → State) : acting f s = .next (f s) := by
  rw [Machine.acting, h.beginSending]

/-! ## Requests (R180 to R182) -/

/-- A request leaves the state alone, keeps or takes a receive place, or is answered; nothing else. -/
theorem serve_cases (f : Frame) (h : State → Answer) (s : State) :
    serve f h s = s ∨ serve f h s = arrive f s ∨ serve f h s = answer f h s ∨
      serve f h s = answer f h (dropOldest s) := by
  unfold serve
  split
  · split
    · simp
    · split <;> simp
  · split <;> simp

/-- With no frame waiting there is no oldest one to take. -/
theorem dropOldest_of_nil {s : State} (h : s.link.received = []) : dropOldest s = s := by
  simp only [dropOldest, h, List.tail_nil]
  rw [← h]

/-- A request that can be decoded is answered, its frame taken from its receive place. -/
theorem Ready.serve {c : Instr} {s : State} {f : Frame} (hr : Ready c s) (he : encodeFrame c = some f)
    (h : State → Answer) : serve f h s = answer f h (dropOldest s) := by
  obtain ⟨-, g, hg, h1, h2⟩ := hr
  obtain rfl := Option.some.inj (hg.symm.trans he)
  unfold Machine.serve
  rw [if_pos (by simpa [Config.replyPlaces] using h1)]
  rcases h2 with h2 | h2
  · rw [h2, dropOldest_of_nil h2]
  · cases hl : s.link.received with
    | nil => simp [hl] at h2
    | cons a l =>
      simp [hl] at h2
      simp [h2]

/-- A request row that can be decoded: the new state and the reply its block makes. -/
theorem Ready.request {c : Instr} {s : State} {f : Frame} (hr : Ready c s) (he : encodeFrame c = some f)
    (h : State → Answer) :
    request c h s = .next (pushReply (replyFrame f (h (dropOldest s)).2) (h (dropOldest s)).1) := by
  simp only [Machine.request, he]
  rw [hr.1.acting, hr.serve he]
  rfl

/-- What survives arriving, decoding and replying, and the block's own answer, survives serving. -/
theorem serve_keeps {P : State → Prop} (arr : ∀ f s, P s → P (arrive f s)) (drop : ∀ s, P s → P (dropOldest s))
    (push : ∀ r s, P s → P (pushReply r s)) {f : Frame} {h : State → Answer} (hh : ∀ s, P s → P (h s).1) {s : State}
    (hs : P s) : P (serve f h s) := by
  rcases serve_cases f h s with e | e | e | e <;> rw [e]
  · exact hs
  · exact arr _ _ hs
  · exact push _ _ (hh _ hs)
  · exact push _ _ (hh _ (drop _ hs))

/-- What the handling of the fields keeps, the length check keeps. -/
theorem onFields_keeps {P : State → Prop} {α : Type} {w : Wire α} {h : α → State → Answer} {s : State} (hs : P s)
    (hh : ∀ a s, P s → P (h a s).1) : P (onFields w h s).1 := by
  cases w <;> simp [onFields, bare, hs, hh]

/-- What each item of a fold keeps, the fold keeps. -/
theorem foldl_keeps {α : Type} {P : State → Prop} {f : State → α → State} (hf : ∀ s a, P s → P (f s a)) :
    ∀ (l : List α) (s : State), P s → P (l.foldl f s)
  | [], _, h => h
  | a :: l, s, h => foldl_keeps hf l _ (hf s a h)

/-! ## Travel and stops (R76, R94, R96, R138, R174) -/

/-- Travel moves the carriage, or moves it and makes the test trip of the encoder (R174). -/
theorem travel_cases (n : Nat) (s : State) :
    (observedLost n s = false ∧ travel n s = { s with carriage := s.carriage.travel n }) ∨
      (observedLost n s = true ∧ travel n s = testTripFor .encoderLost { s with carriage := { s.carriage.travel n with
        observedNoMark := s.carriage.observedNoMark + n - Config.noMarkLimit } }) := by
  unfold travel
  cases h : observedLost n s <;> simp

/-- A place is reached by travel, or not at all by a carriage without a motion or a coordinate. -/
theorem reach_cases (q : Int) (s : State) : (∃ n, reach q s = travel n s) ∨ reach q s = s := by
  unfold reach
  split
  · exact .inl ⟨_, rfl⟩
  · exact .inr rfl

/-- A feed step's check for a jam: the unpulsed steps rise, and the observed ones that make a test trip return to 0. -/
@[simp] theorem Paper.stepUnpulsed_unpulsed (p : Paper) (j : Nat) (b : Bool) :
    (p.stepUnpulsed j b).unpulsed = oneMore p.unpulsed ∧
      (p.stepUnpulsed j b).observedUnpulsed = (if b then 0 else oneMore p.observedUnpulsed) ∧
      (p.stepUnpulsed j b).jamDue = decide (j ≤ oneMore p.unpulsed) := by
  simp [Paper.stepUnpulsed]

/-- The further-cause set of a trip: the mechanism causes that are due, its own cause apart (R166). -/
theorem trip_further (c : TripCause) (s : State) : (trip c s).engine.further = dueCauses s &&& ~~~causeBit c := by
  simp [trip, tripEngine]

/-! ## The whole of exec -/

/-- The next state of a command. -/
def after (c : Instr) (s : State) : State :=
  match exec c s with
  | .next t => t
  | .fault _ => s
  | .refused _ => s

/-- Every command answers a next state in every state: none faults and none is refused. -/
theorem exec_after (c : Instr) (s : State) : exec c s = .next (after c s) := by
  cases c <;> try rfl
  all_goals (simp only [after, exec, execUnknownKind]; split <;> rfl)

/-! ## Parameters (R184) -/

/-- No two parameters share a place. -/
theorem paramIndex_inj {a b : ParamId} (h : paramIndex a = paramIndex b) : a = b := by
  cases a <;> cases b <;> first | rfl | (exfalso; revert h; decide)

/-- A parameter that is set reads as it was set. -/
@[simp] theorem param_setParam_same (s : State) (id : ParamId) (v : Int) : param (setParam s id v) id = v := by
  simp [param, setParam]

/-- Setting a parameter leaves every other one. -/
theorem param_setParam_ne (s : State) {id id' : ParamId} (v : Int) (h : id ≠ id') :
    param (setParam s id v) id' = param s id' := by
  have hi : paramIndex id ≠ paramIndex id' := fun e => h (paramIndex_inj e)
  simp only [param, setParam]
  rw [Fin.getElem_fin, Vector.getElem_set_ne]
  · rfl
  · exact fun e => hi (Fin.ext e)

/-- Parameters are read from their record alone. -/
theorem param_eq {s t : State} (h : t.params = s.params) (id : ParamId) : param t id = param s id := by
  simp [param, h]

/-! ## Retirement and causes (R42, R164, R166) -/

/-- Retirement of an ACTIVE entry. -/
theorem retire_active {o : EntryOutcome} {s : State} {e : Entry} {rest : List Entry} (hq : s.queue = e :: rest)
    (ha : e.active = true) :
    retire o s = countLine e o (raiseIf (decide (s.queue.length = 16)) .queueRoom
      (raise (if o.failed then .entryFailed else .entryDone) (leaveQueue e rest o s))) := by
  simp [retire, hq, ha, Config.queueMax]

/-- With no ACTIVE entry nothing retires. -/
theorem retire_none {o : EntryOutcome} {s : State} (h : hasActive s = false) : retire o s = s := by
  unfold retire
  split
  · rfl
  · next e rest hq =>
    simp only [hasActive, activeEntry, hq] at h
    split at h <;> simp_all

/-- A cause trips the part, a feed move that is over first taking its end unless it is a jam, or joins the
further-cause set in TRIPPED. -/
theorem arise_cases (c : TripCause) (s : State) :
    (s.engine.state ≠ .tripped ∧ arise c s = trip c (if c = .paperJam then s else settleFeed s)) ∨
      (s.engine.state = .tripped ∧
        arise c s = { s with engine := { s.engine with further := s.engine.further ||| causeBit c } }) := by
  unfold arise
  split
  · next h => exact .inr ⟨h, rfl⟩
  · next h => exact .inl ⟨h, rfl⟩

/-- A feed move that is over takes its end: paper end, the end of an eject or its failure; otherwise nothing. -/
theorem settleFeed_cases (s : State) :
    settleFeed s = s ∨ ∃ m, s.paper.move = some m ∧
      ((atPaperEnd s = true ∧ m.purpose.isEject = false ∧ settleFeed s = paperEnds s) ∨
        (atPaperEnd s = true ∧ m.purpose.isEject = true ∧ m.stopping = true ∧
          settleFeed s = { s with paper := s.paper.unload }) ∨
        (atPaperEnd s = true ∧ m.purpose.isEject = true ∧ m.stopping = false ∧
          settleFeed s = retire .done (endFeed { s with paper := s.paper.unload })) ∨
        (atPaperEnd s = false ∧ m.over s.paper.state = true ∧ m.stopping = false ∧
          settleFeed s = retire .failedEject (endFeed s))) := by
  unfold settleFeed
  split
  · next m hm =>
    cases he : atPaperEnd s <;> cases hj : m.purpose.isEject <;> cases ht : m.stopping <;>
      cases ho : m.over s.paper.state <;> simp [hm, ht, ho, hj]
  · exact .inl rfl

/-- A PMAP request leaves the state alone or sets a map whose rows are valid and whose pins are distinct (R6). -/
theorem doPmap_cases (o : Option (Vector RowReq 24)) (s : State) :
    (doPmap o s).1 = s ∨ ∃ rows, rowsValid rows = true ∧ pinsDistinct (mapOf rows) = true ∧
      (doPmap o s).1 = setMap (mapOf rows) s := by
  unfold doPmap
  split
  · simp
  · split
    · simp
    · split
      · simp
      · split
        · simp
        · refine .inr ⟨_, ?_, ?_, rfl⟩ <;> simp_all

/-- An UNKNOWN_KIND row whose KIND is defined does nothing; any other is served. -/
theorem after_unknownKind (k t : Byte) (p : List Byte) (s : State) :
    after (.unknownKind k t p) s = beginSending s ∨
      after (.unknownKind k t p) s = serve ⟨k, t, p⟩ (bare .unknownKind) (beginSending s) := by
  by_cases hk : (RequestKind.ofCode k).isSome = true
  · exact .inl (by simp [after, exec, execUnknownKind, hk, acting])
  · exact .inr (by simp [after, exec, execUnknownKind, hk, request, encodeFrame, acting])

end Sys2Proof.Machine
end

