-- ==== Sys2Proof/Tests/Slice0.lean ====
section
/-! SUPPORT. Tests: an ill-formed term for every check of WellFormed, facts worked out in the spec, and for every
statement with hypotheses a state and operands that meet them. -/

-- One theorem after another: elaborated at once they hold a waiting thread each.
set_option Elab.async false

namespace Sys2Proof.Tests

open Sys2Proof.Machine

/-! ## Small states -/

/-- The state after reset with the engine in a state. -/
def inEngine (e : EngineState) : State := { State.reset with engine := { resetEngine with state := e } }

/-- A READY part with a form loaded at step y, homed, the carriage at its park position. -/
def readyAt (y : Nat) : State :=
  { inEngine .ready with
    paper := { resetPaper with state := .loaded, y := y }
    carriage := { clearedCarriage with homed := true, position := some (-3200), markPhase := some (-4600) } }

/-- A LINE in slot 0: one ply, class 3. -/
def someLine (mode : LineMode) (feedAfter : Nat) : LineFields := ⟨0, mode, .auto, 3, feedAfter, none⟩

/-- The small image: a dot in row 0 at column 100 and one in row 1 at column 151. -/
def smallImage (st : SlotState) : Slot := ⟨st, 100, 52, 1#24 :: (List.replicate 50 0#24 ++ [2#24])⟩

/-- A state with a queue and a slot 0. -/
def withQueue (q : List Entry) (x : Slot) (s : State) : State :=
  { s with queue := q, slots := s.slots.set 0 x }

/-- A READY part with the small image in slot 0, a LINE ACTIVE and the executor in a state. -/
def lineActiveIn (x : ExecState) : State :=
  { withQueue [⟨7#8, .line (someLine .double 0), true⟩] (smallImage .printing) (readyAt 0) with
    exec := { idleExecutor with state := x } }

/-- A pass over 100..157. -/
def somePass (d : Dir) (done : Bool) : PassRec := ⟨d, none, 2, 24, 100, 157, done⟩

/-- A plan with two passes. -/
def somePlan (done0 : Bool) : Plan := ⟨200, 3, 2400, 13, 1, false, 0, [somePass .forward done0, somePass .reverse false]⟩

/-- The part in a forward pass, the carriage at a place in a phase. -/
def inPass (ph : MotionPhase) (p : Int) : State :=
  { lineActiveIn .pass with
    exec := { idleExecutor with state := .pass, plan := some (somePlan false) }
    carriage := { clearedCarriage with
      homed := true, position := some p, phase := ph, direction := some .forward, markPhase := some (-4600)
      markCount := 193, profile := some ⟨640, 3472, 1408, 2704, 2400, 60000⟩ } }

/-- A part with a feed move in progress for an ACTIVE entry. -/
def feedingFor (k : EntryKind) (x : ExecState) (m : FeedMove) : State :=
  { withQueue [⟨7#8, k, true⟩] freeSlot (readyAt 100) with
    exec := { idleExecutor with state := x }
    paper := { resetPaper with state := .loaded, y := 100, move := some m } }

/-- A part in an overlay mode with overlay inputs. -/
def overlaid (m : OverlayMode) (i : BitVec 6) (s : State) : State :=
  { s with engine := { s.engine with overlayMode := m, overlayInputs := i } }

/-- Whether a command answers a next state with a property. -/
def goesTo (o : Host.Outcome State Fault Refusal) (p : State → Bool) : Bool :=
  match o with
  | .next t => p t
  | .fault _ => false
  | .refused _ => false

/-- With no reply and no notice waiting the transmitter has nothing to take. -/
theorem settled_of {s : State} (hr : s.link.replies = []) (hn : s.link.notice = false) : Settled s := fun _ => ⟨hr, hn⟩

/-- In a state with no frame, no reply and no notice waiting every request can be decoded. -/
theorem ready_of {c : Instr} {s : State} (h : (encodeFrame c).isSome = true) (hr : s.link.replies = [])
    (hq : s.link.received = []) (hn : s.link.notice = false := by rfl) : Ready c s := by
  obtain ⟨f, hf⟩ := Option.isSome_iff_exists.mp h
  exact ⟨settled_of hr hn, f, hf, by simp [hr], .inl hq⟩

/-! ## WellFormed refuses ill-formed terms -/

theorem test_wf_frame_needs_a_start_byte :
    WellFormed (.frameReceived []) = false ∧ WellFormed (.frameReceived [⟨0x5A#8, true⟩]) = false ∧
      WellFormed (.frameReceived [⟨0xA5#8, false⟩]) = false := by decide

theorem test_wf_unknownKind_is_unknown : WellFormed (.unknownKind 0x01#8 0#8 []) = false := by decide

theorem test_wf_unknownKind_fits : WellFormed (.unknownKind 0x7E#8 0#8 (List.replicate 1025 0#8)) = false := by
  decide +kernel

theorem test_wf_wrong_length_is_wrong :
    WellFormed (.stat 0#8 (.wrongLength [])) = false ∧ WellFormed (.emsk 0#8 (.wrongLength [0#8, 0#8])) = false ∧
      WellFormed (.cntrSnap 0#8 (.wrongLength [0#8, 0#8])) = false ∧
      WellFormed (.haltLine 0#8 (.wrongLength [0#8])) = false ∧
      WellFormed (.stat 0#8 (.wrongLength [0#8])) = true := by decide

theorem test_wf_wrong_length_fits : WellFormed (.stat 0#8 (.wrongLength (List.replicate 1025 0#8))) = false := by
  decide +kernel

theorem test_wf_defined_operations_have_their_own_rows :
    WellFormed (.cntrSnap 0#8 (.undefinedOp 2#8 0#8)) = false ∧
      WellFormed (.haltLine 0#8 (.undefinedMode 2#8)) = false := by decide

theorem test_wf_data_fits : WellFormed (.slotData 0#8 (.fields ⟨0#8, 0#16, List.replicate 1022 0#8⟩)) = false := by
  decide +kernel

theorem test_wf_form_fits :
    WellFormed (.form 0#8 (.fields (some ⟨360#16, 1#8, 0#16, 0#16, 0#16, List.replicate 254 ⟨0#16, 0#16⟩⟩))) = false := by
  decide +kernel

theorem test_wf_testTrip_needs_an_overlaid_check :
    WellFormed (.testTrip .homeFail) = false ∧ WellFormed (.testTrip .carriageSlip) = false ∧
      WellFormed (.testTrip .paperJam) = true := by decide

/-! ## The wire (chapter 11) -/

/-- The check value of the CRC-16 that R178 describes, over the digits 1 to 9 (a published value, not the spec's). -/
theorem test_crc_check_value :
    crc16 [0x31#8, 0x32#8, 0x33#8, 0x34#8, 0x35#8, 0x36#8, 0x37#8, 0x38#8, 0x39#8] = 0x29B1#16 := by decide +kernel

/-- A HALT frame is one of three rows by its mode byte (section 11.4). -/
theorem test_halt_rows :
    decodeFrame ⟨0x24#8, 5#8, [0#8]⟩ = .haltLine 5#8 .lineMode ∧ decodeFrame ⟨0x24#8, 5#8, [1#8]⟩ = .haltPass 5#8 ∧
      decodeFrame ⟨0x24#8, 5#8, [2#8]⟩ = .haltNow 5#8 := by decide

/-- A CNTR frame is one of three rows by its operation byte (section 11.12). -/
theorem test_cntr_rows :
    decodeFrame ⟨0x06#8, 5#8, [0#8, 9#8]⟩ = .cntrSnap 5#8 (.snap 9#8) ∧
      decodeFrame ⟨0x06#8, 5#8, [1#8, 1#8]⟩ = .cntrRead 5#8 1#8 ∧
      decodeFrame ⟨0x06#8, 5#8, [2#8, 3#8]⟩ = .cntrClear 5#8 3#8 := by decide

/-- OPEN, SETP and LINE, their fields least significant byte first (sections 11.7, 11.8, 11.12, R193). -/
theorem test_fields_are_little_endian :
    decodeFrame ⟨0x10#8, 1#8, [3#8, 0x64#8, 0x00#8, 0x34#8, 0x00#8]⟩ =
        .slotOpen 1#8 (.fields ⟨3#8, 100#16, 52#16⟩) ∧
      decodeFrame ⟨0x04#8, 1#8, [18#8, 0x80#8, 0x1A#8, 0x06#8, 0x00#8]⟩ = .setp 1#8 (.fields ⟨18#8, 400000#32⟩) ∧
      decodeFrame ⟨0x20#8, 1#8, [3#8, 1#8, 0#8, 3#8, 0x30#8, 0x00#8, 0#8]⟩ =
        .line 1#8 (.fields ⟨3#8, 1#8, 0#8, 3#8, 48#16, 0#8⟩) := by decide

/-- Row 0 is bit 7 of a column's first byte and row 23 bit 0 of its last (section 11.6). -/
theorem test_column_bytes : columnOf 0x80#8 0#8 0#8 = 1#24 ∧ columnOf 0#8 0#8 0x01#8 = 0x800000#24 := by decide

/-- The lengths of the reply layouts: STAT 49, PINH 31, ETAB 50, counters 34 and 101, CLRF 15 (chapter 11). -/
theorem test_reply_lengths :
    (statReply State.reset).length = 49 ∧ (pinhReply .ok State.reset).length = 31 ∧
      (etabReply .ok State.reset).length = 50 ∧ (generalReply State.reset).length = 34 ∧
      (pinsReply State.reset).length = 101 ∧ (clrfReply .ok State.reset).length = 15 := by decide +kernel

/-! ## Planning (sections 4.7 to 4.9) -/

/-- The class choices worked in section 4.9: six plies, a clamped pulse, slow pins. -/
theorem test_class_choices :
    chooseClass (fun k => 600 * (k + 1)) true true 380 3 330 = ⟨2, 1, 330, false⟩ ∧
      chooseClass (fun k => 1500 + 300 * k) true true 380 3 560 = ⟨0, 1, 500, true⟩ ∧
      chooseClass (fun k => [1200, 1500, 1800, 2400].getD k 0) true true 900 3 200 = ⟨2, 2, 200, false⟩ ∧
      chooseClass (fun k => [1200, 1500, 1800, 2400].getD k 0) true false 900 3 200 = ⟨3, 2, 200, false⟩ := by
  decide +kernel

/-- The leads worked in chapter 4. -/
theorem test_leads : leadOf 2400 350 = 13 ∧ leadOf 1800 350 = 10 ∧ leadOf 1500 350 = 8 := by decide

/-- The ramps worked in chapters 4 and 5. -/
theorem test_ramps : rampColumns 2400 60000 = 48 ∧ rampColumns 1800 60000 = 27 := by decide

/-- The points of section 5.11, in both directions. -/
theorem test_pass_points :
    passProfile (somePass .forward false) 2400 60000 = ⟨640, 3472, 1408, 2704, 2400, 60000⟩ ∧
      passProfile (somePass .reverse false) 2400 60000 = ⟨3472, 640, 2704, 1408, 2400, 60000⟩ := by decide +kernel

/-- The spans and directions of section 4.8: pass 0 FORWARD from −3200, pass 1 REVERSE, 100..157, class 3, lead 13. -/
theorem test_short_line_struck_twice :
    let p := buildPlan (someLine .double 0) (lineActiveIn .prepare)
    p.cls = 3 ∧ p.speed = 2400 ∧ p.lead = 13 ∧ p.shingle = 1 ∧ p.dropped = 0 ∧
      p.passes.map (fun r => (r.dir, r.lo, r.hi, r.dots)) = [(.forward, 100, 157, 2), (.reverse, 100, 157, 2)] := by
  decide +kernel

/-- The fire positions of section 5.10: RTRIM3 −4, C(+) 3, C(−) −2. -/
theorem test_fire_positions :
    let s := setParam
      { readyAt 0 with carriage := { clearedCarriage with devForward := 48, devReverse := -32 } } .rtrim3 (-4)
    firePosition s (somePlan false) .forward 100 = 1584 ∧ firePosition s (somePlan false) .forward 106 = 1680 ∧
      firePosition s (somePlan false) .reverse 100 = 1611 ∧ firePosition s (somePlan false) .reverse 106 = 1707 := by
  decide +kernel

/-! ## Registration (section 5.9) -/

/-- The filter steps of the four marks, and the corrections after the first and the fourth. -/
theorem test_filter_over_four_marks :
    filterStep 3 0 4 = 8 ∧ filterStep 3 8 4 = 15 ∧ filterStep 3 15 3 = 19 ∧ filterStep 3 19 5 = 26 ∧
      roundSixteenth 8 = 1 ∧ roundSixteenth 26 = 2 ∧ roundSixteenth (-8) = -1 := by decide

/-- The steady deviations: a filter rests at 9 for 1, at −9 for −1 and at 57 for 4. -/
theorem test_filter_rests : filterStep 3 9 1 = 9 ∧ filterStep 3 (-9) (-1) = -9 ∧ filterStep 3 57 4 = 57 := by decide

/-- Edge 1 of section 5.9: K 194, d 4, D(+) 8. -/
theorem test_first_mark :
    goesTo (exec (.markEdge .forward 0) (inPass .cruise 1604)) (fun t =>
      t.carriage.markCount == 194 && t.carriage.devForward == 8 && t.carriage.noMark == 0) = true := by decide +kernel

/-- Section 5.10: with the filter on the brink an edge with d = 70 slips, the position 1675 in the record. -/
theorem test_slip_trips :
    let s := { inPass .cruise 1675 with carriage := { (inPass .cruise 1675).carriage with
      markPhase := some 1713, markCount := 0 } }
    goesTo (exec (.markEdge .forward 0) s) (fun t =>
      t.engine.state == .tripped &&
        t.engine.firstFault.map (fun f => (f.cause, f.position)) == some (.carriageSlip, some 1675)) = true := by
  decide +kernel

/-! ## Heat (chapter 7) -/

/-- The ticks of section 7.8, and heat at the top of the range. -/
theorem test_cooling :
    cooled 11 700000 = 699659 ∧ cooled 11 698295 = 697955 ∧ cooled 11 16777215 = 16769024 ∧ cooled 11 3 = 2 ∧
      cooled 11 0 = 0 := by decide

theorem test_heat_saturates : (addHeat 20 (setHeat 16777200 State.reset)).heat.h = 16777215 := by decide +kernel

/-- The gate of sections 4.7 and 7.9: 626,688 enters at 450,000 and at 573,312, and waits at 700,000. -/
theorem test_gate :
    gateAdmits (setHeat 450000 State.reset) 626688 = true ∧ gateAdmits (setHeat 573312 State.reset) 626688 = true ∧
      gateAdmits (setHeat 700000 State.reset) 626688 = false := by decide +kernel

/-- The SETPs of section 7.10: CEILING 400,000 first is refused, after the other three it is accepted. -/
theorem test_order_of_thresholds :
    let put := fun (id : Byte) (v : Nat) (s : State) =>
      (doSetp ⟨id, BitVec.ofNat 32 v⟩ s).1
    param (put 21#8 400000 State.reset) .ceiling = 1200000 ∧
      param (put 21#8 400000 (put 19#8 300000 (put 18#8 200000 (put 20#8 100000 State.reset)))) .ceiling = 400000 := by
  decide +kernel

/-! ## Counters (section 10, half warnings) -/

/-- The second failed LINE reaches half and raises COUNTER_HALF; a rejection at the maximum stays there. -/
theorem test_half_and_saturation :
    let s := { State.reset with counters := { State.reset.counters with live := { clearedBank with
      general := (clearedBank.general.set 1 32766).set 6 65535 } } }
    (count .linesFailed 1 s).link.events = 0#13 ∧
      (count .linesFailed 1 (count .linesFailed 1 s)).link.events.getLsbD 9 = true ∧
      (count .framesRejected 1 s).counters.live.general[(6 : Fin 10)] = 65535 := by decide +kernel

/-! ## States and operands that meet the hypotheses of the statements, clause by clause -/

theorem test_meets_StepRunsFrontCommand :
    { State.reset with pending := [.replySent, .feedStep] }.pending = .replySent :: [.feedStep] := rfl

theorem test_meets_EmptyQueueDecodesOrPassesTime :
    (let s := State.reset;
      s.pending = [] ∧ s.link.tx = .free ∧ s.link.replies = [] ∧ s.link.notice = false ∧ s.link.received = [] ∧
        s.carriage.phase = .stopped) ∧
      (let l := { State.reset.link with replies := [⟨0x81#8, 0#8, []⟩] }; l.tx = .free ∧ l.replies ≠ []) ∧
      (let l := { State.reset.link with notice := true, outstanding := true };
        l.tx = .free ∧ l.replies = [] ∧ l.notice = true) ∧
      (let l := { State.reset.link with
          received := [⟨1#8, 0#8, []⟩], replies := List.replicate 3 ⟨0x81#8, 0#8, []⟩, tx := .reply };
        l.tx ≠ .free ∧ l.replies.length < 4 ∧ l.received = ⟨1#8, 0#8, []⟩ :: []) ∧
      (4 ≤ (List.replicate 4 (⟨0x81#8, 0#8, []⟩ : Frame)).length) ∧
      (let s := inPass .cruise 1600;
        s.pending = [] ∧ s.link.received = [] ∧ s.carriage.phase ≠ .stopped ∧ 0 < room s) ∧
      (let s := inPass .cruise 2704; s.carriage.phase ≠ .stopped ∧ room s = 0) := by decide +kernel

theorem test_meets_DecodeAndEncodeAgree :
    (WellFormed (.cntrSnap 5#8 (.undefinedOp 3#8 0#8)) = true ∧
      encodeFrame (.cntrSnap 5#8 (.undefinedOp 3#8 0#8)) = some ⟨6#8, 5#8, [3#8, 0#8]⟩) ∧
      (⟨0x7E#8, 0#8, List.replicate 1024 0#8⟩ : Frame).payload.length ≤ 1024 := by decide +kernel

/-- The state after reset with frames in its receive places. -/
def receiving (n : Nat) : State :=
  { State.reset with link := { State.reset.link with received := List.replicate n ⟨1#8, 0#8, []⟩ } }

theorem test_meets_FramesAreReceivedOrRejected :
    (Settled (receiving 1) ∧ (receiving 1).link.mode = .hunt ∧ (receiving 1).link.received.length < 2) ∧
      (Settled (receiving 2) ∧ (receiving 2).link.mode = .hunt ∧ 2 ≤ (receiving 2).link.received.length) ∧
      (List.replicate 1024 (0#8 : Byte)).length ≤ 1024 ∧
      (0#16 ≠ crc16 (coveredBytes ⟨1#8, 0#8, []⟩)) ∧ (1#16).toNat < 2 ∧ 1026 < (1027#16).toNat ∧
      6 < (lineBytes ⟨1#8, 0#8, []⟩).length := by
  unfold Settled
  decide +kernel

/-- The state after reset with a reply that is being sent. -/
def sendingReply : State :=
  { State.reset with link := { State.reset.link with replies := [⟨0x81#8, 0#8, []⟩], tx := .reply } }

theorem test_meets_LinkEventsActByMode :
    ((receiving 2).link.mode = .hunt ∧ 2 ≤ (receiving 2).link.received.length) ∧
      (Settled (receiving 2) ∧ Settled State.reset ∧ Settled sendingReply ∧ sendingReply.link.tx ≠ .free ∧
        goesTo (exec .byteGapTimeout sendingReply) (fun t => t.link.tx == .reply) = true ∧
        Instr.byteGapTimeout ≠ .replySent) ∧
      (receiving 1).link.received.length < 2 ∧
      (let l := { State.reset.link with replies := [⟨0x81#8, 0#8, []⟩] };
        l.replies = ⟨0x81#8, 0#8, []⟩ :: [] ∧ l.tx = .free) ∧
      (let l := { State.reset.link with replies := [⟨0x81#8, 0#8, []⟩], tx := .reply };
        l.replies = ⟨0x81#8, 0#8, []⟩ :: [] ∧ l.tx = .reply) ∧
      (let l := { State.reset.link with replies := [⟨0x81#8, 0#8, []⟩], tx := .notice 2#13 }; l.tx = .notice 2#13) ∧
      (let l := { State.reset.link with notice := true, outstanding := true };
        l.tx = .free ∧ l.replies = [] ∧ l.notice = true) ∧
      (State.reset.link.replies = [] ∧ State.reset.link.tx = .free ∧ State.reset.link.notice = false) := by
  unfold Settled
  decide +kernel

/-- A reply made while the line is free and a notice waits does not overtake the notice (R183, R187). -/
theorem test_a_notice_begun_goes_first :
    (let s := raise .homed State.reset
     goesTo (exec (.stat 1#8 (.fields ())) s) (fun t =>
       t.link.tx == .notice s.link.events && t.link.replies.length == 1 &&
         goesTo (exec .replySent t) (fun v => v.txLine == []) &&
         goesTo (exec .noticeSent t) (fun v => v.txLine.length == 9 && v.link.replies.length == 1))) = true := by
  decide +kernel

theorem test_meets_EventsAndCountersSignalOnce :
    (State.reset.link.outstanding = false ∧
      (∃ n : Fin 13, (raise .homed State.reset).link.events.getLsbD n = true ∧
        State.reset.link.mask.getLsbD n = true)) ∧
      (let s := { State.reset with link := { State.reset.link with mask := 0#13 } };
        s.link.outstanding = false ∧
          ∀ n : Fin 13, (raise .homed s).link.events.getLsbD n = true → s.link.mask.getLsbD n = false) ∧
      ({ State.reset with link := { State.reset.link with outstanding := true } }.link.outstanding = true) ∧
      (General.trips ≠ General.passes) ∧
      (let g := State.reset.counters.live.general.set 1 32767;
        g[General.linesFailed.index] < 2 ^ (General.linesFailed.bits - 1) ∧
          2 ^ (General.linesFailed.bits - 1) ≤ g[General.linesFailed.index] + 1) ∧
      (State.reset.counters.live.general[General.linesFailed.index] + 1 < 2 ^ (General.linesFailed.bits - 1)) := by
  decide +kernel

theorem test_meets_RequestsWaitOrAreRefusedByTheLink :
    (let s := { State.reset with link := { State.reset.link with
        replies := List.replicate 4 ⟨0x81#8, 0#8, []⟩, tx := .reply } };
      WellFormed (.stat 1#8 (.fields ())) = true ∧ encodeFrame (.stat 1#8 (.fields ())) = some ⟨1#8, 1#8, []⟩ ∧
        Settled s ∧ ¬ Decodable ⟨1#8, 1#8, []⟩ s) ∧ Settled State.reset ∧
      (RequestKind.ofCode 1#8 = some .stat ∧ lengthAllowed .stat [0#8] = false ∧
        Decodable ⟨1#8, 0#8, [0#8]⟩ State.reset) ∧
      (RequestKind.ofCode 0x7F#8 = none ∧ Decodable ⟨0x7F#8, 0#8, []⟩ State.reset) ∧
      (2 < (3#8).toNat ∧ 1 < (2#8).toNat) ∧ Ready (.cntrSnap 1#8 (.undefinedOp 3#8 0#8)) State.reset ∧
      Ready (.cntrRead 1#8 2#8) State.reset :=
  ⟨⟨by decide, by decide, nofun, fun h => absurd h.1 (by decide)⟩, settled_of rfl rfl,
    ⟨by decide, by decide, by decide, .inl rfl⟩,
    ⟨by decide, by decide, .inl rfl⟩, by decide, ready_of rfl rfl rfl, ready_of rfl rfl rfl⟩

theorem test_meets_EveryRequestIsAnsweredOnce :
    WellFormed (.line 1#8 (.fields ⟨0#8, 0#8, 0#8, 3#8, 0#16, 0#8⟩)) = true ∧
      encodeFrame (.line 1#8 (.fields ⟨0#8, 0#8, 0#8, 3#8, 0#16, 0#8⟩)) =
        some ⟨0x20#8, 1#8, [0#8, 0#8, 0#8, 3#8, 0#8, 0#8, 0#8]⟩ ∧
      Settled State.reset ∧ Decodable ⟨0x20#8, 1#8, [0#8, 0#8, 0#8, 3#8, 0#8, 0#8, 0#8]⟩ State.reset :=
  ⟨by decide, by decide, settled_of rfl rfl, by decide, .inl rfl⟩

theorem test_meets_StatReportsTheState :
    Ready (.stat 1#8 (.fields ())) (lineActiveIn .cool) ∧
      (activeEntry (lineActiveIn .cool) = some ⟨7#8, .line (someLine .double 0), true⟩ ∧
        activeEntry State.reset = none ∧ State.reset.carriage.homed = false ∧
        (lineActiveIn .cool).carriage.homed = true ∧
        (lineActiveIn .cool).carriage.position = some (-3200) ∧ (lineActiveIn .cool).exec.state ≠ .idle) ∧
      (State.reset.exec.state = .idle ∧ State.reset.queue = []) ∧
      (let s := lineActiveIn .idle;
        s.exec.state = .idle ∧ s.queue ≠ [] ∧ s.holds.halted = false ∧ s.holds.paperOut = false ∧
          s.engine.state = .ready ∧ s.engine.resetPending = false ∧ hasActive s = true) ∧
      (let q : List Entry := [⟨7#8, .tear, false⟩]; let s := withQueue q freeSlot (inEngine .rest);
        s.exec.state = .idle ∧ s.queue ≠ [] ∧ s.engine.state ≠ .ready ∧ s.engine.state ≠ .hold ∧ hasActive s = false) ∧
      (32 ≤ (List.replicate 32 (⟨1#8, .tear, .done, none, 0, 0#16⟩ : Completion)).length) := by
  refine ⟨ready_of rfl rfl rfl, ?_⟩
  decide +kernel

theorem test_meets_EvntEmptiesAndEmskMasks :
    Ready (.evnt 1#8 (.fields ())) State.reset ∧ Ready (.emsk 1#8 (.fields none)) State.reset ∧
      Ready (.emsk 1#8 (.fields (some 0x2000#16))) State.reset ∧ 8192 ≤ (0x2000#16).toNat ∧
      Ready (.emsk 1#8 (.fields (some 0x1FFF#16))) State.reset ∧ (0x1FFF#16).toNat < 8192 :=
  ⟨ready_of rfl rfl rfl, ready_of rfl rfl rfl, ready_of rfl rfl rfl, by decide, ready_of rfl rfl rfl, by decide⟩

theorem test_meets_SetpJudgesAndGetpReads_refusals :
    Ready (.setp 1#8 (.fields ⟨33#8, 0#32⟩)) State.reset ∧ Ready (.setp 1#8 (.fields ⟨22#8, 1#32⟩)) (readyAt 0) ∧
      (32 < (33#8).toNat ∧ paramOfId 22#8 = some .path ∧ idleOnly .path = true ∧ (readyAt 0).paper.state ≠ .out ∧
        idleOnly .cruise0 = true ∧ lineActive (lineActiveIn .pass) = true ∧ paramClass .path ≠ .tune ∧
        paramHigh .path < (2#32).toInt) :=
  ⟨ready_of rfl rfl rfl, ready_of rfl rfl rfl, by decide +kernel⟩

theorem test_meets_SetpJudgesAndGetpReads_settings :
    (paramClass .flight = .tune ∧ paramLow .flight ≤ (100#32).toInt ∧ (800#32).toInt ≤ paramHigh .flight ∧
      (99#32).toInt < paramLow .flight ∧ paramHigh .flight < (801#32).toInt ∧ idleOnly .flight = false) ∧
      (paramClass .wakeins = .geom ∧ paramLow .wakeins ≤ (0#32).toInt ∧ (1#32).toInt ≤ paramHigh .wakeins) ∧
      (lineActive State.reset = false ∧ State.reset.engine.state ≠ .homing ∧ State.reset.carriage.phase = .stopped ∧
        State.reset.paper.state = .out) ∧
      (paramClass .ceiling = .order ∧ paramLow .ceiling ≤ (1#32).toInt ∧
        (16777215#32).toInt ≤ paramHigh .ceiling ∧
        (let u := setParam State.reset .ceiling 800000;
          ¬ (param u .hotth < param u .ceiling)) ∧
        (let u := setParam State.reset .ceiling 800001;
          param u .resume < param u .warmth ∧ param u .warmth < param u .hotth ∧ param u .hotth < param u .ceiling)) ∧
      ((32#8).toNat = (paramIndex .tripmask).val + 1) ∧ ParamId.cruise1 ≠ .cruise0 := by decide +kernel

theorem test_meets_SetpJudgesAndGetpReads_ready (id : Byte) (v : BitVec 32) :
    Ready (.setp 1#8 (.fields ⟨id, v⟩)) State.reset ∧ Ready (.getp 1#8 (.fields id)) State.reset :=
  ⟨ready_of rfl rfl rfl, ready_of rfl rfl rfl⟩

theorem test_meets_CntrSnapsReadsAndClears :
    (2 < (3#8).toNat ∧ 4 ≤ (4#8).toNat ∧ (3#8).toNat < 4) ∧
      Ready (.cntrSnap 1#8 (.snap 0#8)) State.reset ∧ Ready (.cntrSnap 1#8 (.undefinedOp 3#8 0#8)) State.reset ∧
      Ready (.cntrRead 1#8 1#8) State.reset ∧ Ready (.cntrClear 1#8 4#8) State.reset ∧
      Ready (.cntrClear 1#8 3#8) State.reset :=
  ⟨by decide, ready_of rfl rfl rfl, ready_of rfl rfl rfl, ready_of rfl rfl rfl, ready_of rfl rfl rfl,
    ready_of rfl rfl rfl⟩

theorem test_meets_OpenAndSealFrameAnImage :
    Ready (.slotOpen 1#8 (.fields ⟨0#8, 3263#16, 1#16⟩)) State.reset ∧
      Ready (.slotSeal 1#8 (.fields 0#8)) (withQueue [] (smallImage .filling) State.reset) ∧
      ((0#8).toNat = (0 : Fin 8).val ∧ State.reset.slots[(0 : Fin 8)].state = .free ∧ (3263#16).toNat ≤ 3263 ∧
        1 ≤ (1#16).toNat ∧ (3263#16).toNat + (1#16).toNat ≤ 3264 ∧ 3263 < (3264#16).toNat ∧
        3264 < (3263#16).toNat + (2#16).toNat) ∧
      ((withQueue [] (smallImage .filling) State.reset).slots[(0 : Fin 8)].state = .filling ∧
        (withQueue [] (smallImage .sealed) State.reset).slots[(0 : Fin 8)].state ≠ .filling ∧
        (withQueue [] (smallImage .sealed) State.reset).slots[(0 : Fin 8)].state ≠ .free) :=
  ⟨ready_of rfl rfl rfl, ready_of rfl rfl rfl, by decide +kernel, by decide +kernel⟩

theorem test_meets_DataStoresItsRuns :
    let x : Slot := ⟨.filling, 0, 128, []⟩
    let runs : List (Nat ⊕ List (Byte × Byte × Byte)) := [.inl 127, .inr [(0x80#8, 0#8, 0#8)]]
    (∀ r ∈ runs, 1 ≤ r.elim id List.length ∧ r.elim id List.length ≤ 127) ∧
      ([0xFF#8, 0x01#8, 0x80#8, 0x00#8, 0x00#8] : List Byte) = runs.flatMap (fun r => match r with
        | .inl n => [BitVec.ofNat 8 (128 + n)]
        | .inr l => BitVec.ofNat 8 l.length :: l.flatMap (fun c => [c.1, c.2.1, c.2.2])) ∧
      Ready (.slotData 1#8 (.fields ⟨0#8, 0#16, [0xFF#8, 0x01#8, 0x80#8, 0x00#8, 0x00#8]⟩)) (withQueue [] x State.reset) ∧
      (withQueue [] x State.reset).slots[(0 : Fin 8)].state = .filling ∧
      (0#16).toNat = (withQueue [] x State.reset).slots[(0 : Fin 8)].cols.length ∧
      (withQueue [] x State.reset).slots[(0 : Fin 8)].cols.length + 128 ≤
        (withQueue [] x State.reset).slots[(0 : Fin 8)].length :=
  ⟨by decide, by decide, ready_of rfl rfl rfl, by decide, by decide, by decide⟩

theorem test_meets_SlotRequestsAreChecked :
    Ready (.slotData 1#8 (.fields ⟨0#8, 0#16, [0x80#8]⟩)) (withQueue [] ⟨.filling, 0, 1, []⟩ State.reset) ∧
      (runsOf [0x01#8, 0x80#8] = none ∧ runsOf [0x80#8] = some [[]] ∧ runsOf [0x82#8] = some [[0#24, 0#24]]) ∧
      (let s := withQueue [] ⟨.filling, 0, 1, []⟩ State.reset;
        s.slots[(0 : Fin 8)].state = .filling ∧ (1#16).toNat ≠ s.slots[(0 : Fin 8)].cols.length ∧
          s.slots[(0 : Fin 8)].length < s.slots[(0 : Fin 8)].cols.length + ([[0#24, 0#24]].map List.length).sum) ∧
      State.reset.slots[(0 : Fin 8)].state ≠ .filling ∧ 8 ≤ (8#8).toNat ∧
      Ready (.slotOpen 1#8 (.fields ⟨8#8, 0#16, 1#16⟩)) State.reset ∧
      Ready (.slotData 1#8 (.fields ⟨8#8, 0#16, [0x81#8]⟩)) State.reset ∧
      Ready (.slotSeal 1#8 (.fields 8#8)) State.reset ∧ Ready (.slotDrop 1#8 (.fields 8#8)) State.reset :=
  ⟨ready_of rfl rfl rfl, by decide, by decide, by decide, by decide, ready_of rfl rfl rfl, ready_of rfl rfl rfl,
    ready_of rfl rfl rfl, ready_of rfl rfl rfl⟩

theorem test_meets_DropActsByTheSlotState :
    Ready (.slotDrop 1#8 (.fields 7#8)) State.reset ∧ (7#8).toNat = (7 : Fin 8).val :=
  ⟨ready_of rfl rfl rfl, by decide⟩

/-- A queue of sixteen moves. -/
def fullQueue : List Entry := List.replicate 16 ⟨1#8, .tear, false⟩

theorem test_meets_EntriesAreEnqueued_lines :
    let r : LineReq := ⟨0#8, 1#8, 2#8, 3#8, 7920#16, 6#8⟩
    let f : LineFields := ⟨0, .double, .reverse, 3, 7920, some 6⟩
    Ready (.line 1#8 (.fields r)) (withQueue [] (smallImage .sealed) (readyAt 0)) ∧
      Ready (.line 1#8 (.fields ⟨8#8, 0#8, 0#8, 0#8, 0#16, 0#8⟩)) State.reset ∧
      (8 ≤ (8#8).toNat ∧ 2 ≤ (2#8).toNat ∧ 3 ≤ (3#8).toNat ∧ 4 ≤ (4#8).toNat ∧ 7920 < (7921#16).toNat ∧
        7 ≤ (7#8).toNat) ∧
      (f.slot.val = r.slot.toNat ∧ r.mode = 1#8 ∧ f.mode = .double ∧ r.direction = 2#8 ∧ f.direction = .reverse ∧
        f.cls = r.cls.toNat ∧ f.cls ≤ 3 ∧ f.feedAfter = r.feedAfter.toNat ∧ f.feedAfter ≤ 7920 ∧ 1 ≤ r.ply.toNat ∧
        r.ply.toNat ≤ 6 ∧ f.ply = some r.ply.toNat) ∧
      ((withQueue [] (smallImage .sealed) (readyAt 0)).queue.length < 16 ∧
        (withQueue [] (smallImage .sealed) (readyAt 0)).slots[(0 : Fin 8)].state = .sealed ∧
        State.reset.slots[(0 : Fin 8)].state ≠ .sealed ∧ 16 ≤ fullQueue.length) :=
  ⟨ready_of rfl rfl rfl, ready_of rfl rfl rfl, by decide, by decide, by decide⟩

theorem test_meets_EntriesAreEnqueued_moves :
    Ready (.feed 1#8 (.fields 7920#16)) State.reset ∧ Ready (.skip 1#8 (.fields 12#8)) State.reset ∧
      Ready (.tear 1#8 (.fields ())) State.reset ∧
      ((0xFD30#16).toInt = -720 ∧ (7920#16).toInt ≤ 7920 ∧ (0xFD2F#16).toInt < -720 ∧ 7920 < (7921#16).toInt) ∧
      (1 ≤ (1#8).toNat ∧ (12#8).toNat ≤ 12 ∧ 12 < (13#8).toNat) ∧
      (16 ≤ fullQueue.length ∧ (List.replicate 15 (⟨1#8, .tear, false⟩ : Entry)).length < 16) :=
  ⟨ready_of rfl rfl rfl, ready_of rfl rfl rfl, ready_of rfl rfl rfl, by decide, by decide, by decide⟩

theorem test_meets_HaltHoldsOrPends :
    Ready (.haltLine 1#8 .lineMode) (lineActiveIn .pass) ∧ Ready (.haltPass 1#8) (lineActiveIn .cool) ∧
      Ready (.haltLine 1#8 (.undefinedMode 3#8)) State.reset ∧ 2 < (3#8).toNat ∧ hasActive State.reset = false ∧
      (∀ x : ExecState, hasActive (lineActiveIn x) = true ∧ (lineActiveIn x).exec.state = x ∧
        (lineActiveIn x).paper.move = none) ∧
      ((feedingFor .tear .prepare ⟨.retract, .reverse, 1, 0, false, false⟩).exec.state = .prepare ∧
        (feedingFor .tear .prepare ⟨.retract, .reverse, 1, 0, false, false⟩).paper.move ≠ none) := by
  refine ⟨ready_of rfl rfl rfl, ready_of rfl rfl rfl, ready_of rfl rfl rfl, by decide, by decide, ?_, by decide⟩
  intro x
  cases x <;> decide +kernel

theorem test_meets_HaltInNowModeFailsTheEntry :
    Ready (.haltNow 1#8) (inPass .cruise 2200) ∧ hasActive State.reset = false ∧
      (hasActive (lineActiveIn .cool) = true ∧ inMotion (lineActiveIn .cool) = false) ∧
      (hasActive (inPass .cruise 2200) = true ∧ (inPass .cruise 2200).exec.state ≠ .idle ∧
        inMotion (inPass .cruise 2200) = true ∧ (inPass .cruise 2200).carriage.phase ≠ .stopped ∧
        (inPass .cruise 2200).carriage.phase ≠ .stopping) :=
  ⟨ready_of rfl rfl rfl, by decide, by decide +kernel, by decide +kernel⟩

theorem test_meets_GoReleasesTheHalt :
    Ready (.go 1#8 (.fields ())) (inEngine .tripped) ∧ (inEngine .tripped).engine.state = .tripped ∧
      (inEngine .unready).holds.halted = false ∧ (inEngine .rest).engine.state = .rest ∧
      (let s := { lineActiveIn .idle with holds := ⟨true, false⟩ };
        activeEntry s = some ⟨7#8, .line (someLine .double 0), true⟩ ∧ s.exec.state = .idle ∧ s.holds.halted = true ∧
          s.holds.paperOut = false ∧ readyOrHold s = true ∧ s.engine.resetPending = false) :=
  ⟨ready_of rfl rfl rfl, by decide, by decide, by decide, by decide +kernel⟩

theorem test_meets_FlshAndCmplRemoveEntriesAndRecords :
    Ready (.flsh 1#8 (.fields ())) State.reset ∧ Ready (.cmpl 1#8 (.fields 8#8)) State.reset ∧
      8 < (9#8).toNat ∧ 1 ≤ (1#8).toNat ∧ (8#8).toNat ≤ 8 ∧
      (let r : Completion := ⟨1#8, .tear, .done, none, 0, 0#16⟩;
        [r, r] = [r] ++ [r] ∧ [r].length = (1#8).toNat ∧ [r].length < (8#8).toNat) :=
  ⟨ready_of rfl rfl rfl, ready_of rfl rfl rfl, by decide, by decide, by decide, by decide⟩

theorem test_meets_RetirementIsOneStep :
    (lineActiveIn .pass).queue = ⟨7#8, .line (someLine .double 0), true⟩ :: [] ∧
      (hasActive State.reset = false ∧ hasActive (lineActiveIn .pass) = true ∧
        (lineActiveIn .pass).exec.failing = false ∧
        { (lineActiveIn .pass).exec with failing := true }.failing = true) := by decide +kernel

theorem test_meets_PmapAndEtabSetTheirTables :
    let rows : Vector RowReq 24 := Vector.ofFn (fun r : Fin 24 => ⟨BitVec.ofNat 8 r.val, 15#8, 1#8⟩)
    Ready (.pmap 1#8 (.fields none)) State.reset ∧ Ready (.pmap 1#8 (.fields (some rows))) State.reset ∧
      Ready (.etab 1#8 (.fields none)) State.reset ∧
      Ready (.etab 1#8 (.fields (some ⟨Vector.replicate 6 100#16, Vector.replicate 6 600#16⟩))) State.reset ∧
      ((lineActive State.reset = false ∧ State.reset.engine.state ≠ .homing ∧ State.reset.carriage.phase = .stopped) ∧
        ((∀ r : Fin 24, rows[r].pin.toNat < 24 ∧ rows[r].offset.toNat < 16 ∧ rows[r].enabled.toNat < 2) ∧
          (∀ r q : Fin 24, rows[r].pin = rows[q].pin → r = q)) ∧
        (let bad := rows.set 3 ⟨24#8, 0#8, 0#8⟩;
          24 ≤ bad[(3 : Fin 24)].pin.toNat) ∧
        (let twice := rows.set 3 ⟨4#8, 0#8, 0#8⟩;
          twice[(3 : Fin 24)].pin = twice[(4 : Fin 24)].pin) ∧
        lineActive (lineActiveIn .pass) = true ∧
        (max 100 (min 600 (100#16).toNat) = (100#16).toNat ∧ max 100 (min 600 (600#16).toNat) = (600#16).toNat ∧
          max 100 (min 600 (601#16).toNat) ≠ (601#16).toNat)) :=
  ⟨ready_of rfl rfl rfl, ready_of rfl rfl rfl, ready_of rfl rfl rfl, ready_of rfl rfl rfl, by decide +kernel⟩

theorem test_meets_PinhClearsThenSets :
    Ready (.pinh 1#8 (.fields ⟨0x800001#24, 2#24⟩)) State.reset ∧
      ∀ p : Fin 24, (Vector.replicate 24 0)[p] =
        if (0x800001#24).getLsbD p then 0 else State.reset.fire.openCounts[p] :=
  ⟨ready_of rfl rfl rfl, by decide +kernel⟩

/-- A form definition at its boundaries. -/
def boundaryForm : FormReq := ⟨7920#16, 6#8, 1440#16, 720#16, 720#16, [⟨0#16, 2#16⟩, ⟨7919#16, 0x1000#16⟩]⟩

theorem test_meets_FormIsAppliedOrPending :
    Ready (.form 1#8 (.fields none)) State.reset ∧ Ready (.form 1#8 (.fields (some boundaryForm))) State.reset ∧
      FormOk (formDefOf boundaryForm) ∧ ¬ FormOk { formDefOf boundaryForm with length := 359 } ∧
      State.reset.paper.state = .out ∧
      ((readyAt 0).paper.y = 0 ∧ (readyAt 0).queue = [] ∧ (readyAt 0).exec.state = .idle ∧
        (readyAt 0).paper.tearPresented = false) ∧
      ((readyAt 1).paper.state ≠ .out ∧ (readyAt 1).paper.y ≠ 0) := by
  refine ⟨ready_of rfl rfl rfl, ready_of rfl rfl rfl, ?_, fun h => absurd h.1 (by decide), by decide, by decide,
    by decide⟩
  simp only [FormOk]
  decide

theorem test_meets_EngaStartsHoming :
    Ready (.enga 1#8 (.fields ())) State.reset ∧ State.reset.engine.state = .unready ∧
      ((inEngine .hold).engine.state = .hold ∧ (inEngine .hold).exec.state = .idle ∧
        inMotion (inEngine .hold) = false) ∧
      ((lineActiveIn .cool).engine.state = .ready ∧ (lineActiveIn .cool).exec.state ≠ .idle) ∧
      homeActive State.reset = false ∧
      homeActive { State.reset with lines := { State.reset.lines with home := true } } = true :=
  ⟨ready_of rfl rfl rfl, by decide, by decide +kernel, by decide, by decide, by decide⟩

theorem test_meets_RestAndWakeActByTheEngineState :
    Ready (.rest 1#8 (.fields ())) State.reset ∧ Ready (.wake 1#8 (.fields ())) (inEngine .rest) ∧
      (False ↔ (State.reset.queue ≠ [] ∧ State.reset.holds.halted = false ∧ State.reset.holds.paperOut = false) ∨
        State.reset.carriage.phase ≠ .stopped ∨ State.reset.paper.move ≠ none ∨
        (param State.reset .wakeins = 1 ∧ sensorPresent State.reset = true ∧ State.reset.paper.state = .out)) ∧
      (True ↔ ((inPass .cruise 1600).queue ≠ [] ∧ (inPass .cruise 1600).holds.halted = false ∧
        (inPass .cruise 1600).holds.paperOut = false)) ∧
      State.reset.engine.state = .unready ∧ (inEngine .rest).engine.state = .rest :=
  ⟨ready_of rfl rfl rfl, ready_of rfl rfl rfl, by decide +kernel, by decide +kernel, by decide, by decide⟩

theorem test_meets_ClrfAndDoutAct :
    Ready (.clrf 1#8 (.fields ())) (inEngine .tripped) ∧ Ready (.dout 1#8 (.fields ⟨0xFF#8, 0xFF#8⟩)) State.reset ∧
      ((inEngine .tripped).engine.state = .tripped ∧ (inEngine .tripped).lines.headHot = false ∧
        (inEngine .tripped).lines.driverFault = false ∧ (inEngine .tripped).engine.overlayMode ≠ .drive ∧
        (let s := overlaid .drive 2#6 (inEngine .tripped);
          s.engine.overlayMode = .drive ∧ s.engine.overlayInputs.getLsbD 1 = true) ∧
        State.reset.engine.state ≠ .tripped) :=
  ⟨ready_of rfl rfl rfl, ready_of rfl rfl rfl, by decide⟩

theorem test_meets_ErstClearsTheWork :
    Ready (.erst 1#8 (.fields ())) (inPass .cruise 1600) ∧
      (State.reset.engine.resetPending = false ∧
        ((inPass .cruise 1600).engine.state = .ready ∧ inMotion (inPass .cruise 1600) = true ∧
          (inPass .cruise 1600).carriage.phase ≠ .seek) ∧
        (let s := feedingFor .tear .prepare ⟨.retract, .reverse, 1, 0, false, false⟩;
          s.engine.state = .ready ∧ inMotion s = true ∧ s.carriage.phase = .stopped) ∧
        ((inEngine .hold).engine.state = .hold ∧ inMotion (inEngine .hold) = false) ∧
        ((inEngine .tripped).engine.state = .tripped ∧ levelAsserted (inEngine .tripped) = false ∧
          levelAsserted (overlaid .drive 1#6 (inEngine .tripped)) = true) ∧
        ({ resetFire with driving := 1#24 }).driving ≠ 0#24 ∧
        { resetEngine with resetPending := true }.resetPending = true) :=
  ⟨ready_of rfl rfl rfl, by decide +kernel⟩

theorem test_meets_TovlReplacesTheOverlay :
    Ready (.tovl 1#8 (.fields none)) State.reset ∧ Ready (.tovl 1#8 (.fields (some ⟨2#8, 63#8⟩))) State.reset ∧
      ((inEngine .homing).engine.state = .homing ∧ State.reset.engine.state ≠ .homing ∧ 2 < (3#8).toNat ∧
        63 < (64#8).toNat ∧ OverlayMode.drive.code = 2#8 ∧ OverlayMode.observe.code = 1#8 ∧ (63#8).toNat < 64 ∧
        State.reset.lines.headHot = false ∧ State.reset.lines.driverFault = false ∧
        State.reset.engine.overlayMode = .off ∧ (3#8).getLsbD 0 = true ∧ (3#8).getLsbD 1 = true ∧
        (readyAt 0).paper.state = .loaded) :=
  ⟨ready_of rfl rfl rfl, ready_of rfl rfl rfl, by decide⟩

/-- Each change of view that a setting can make, with the setting that makes it: a level in DRIVE, both in OBSERVE
after OFF and none of them after DRIVE, the sensor newly absent and newly present. -/
theorem test_meets_TovlReplacesTheOverlay_changes :
    let acts := fun (s : State) (r : TovlReq) (p : State → Bool) => goesTo (exec (.tovl 1#8 (.fields (some r))) s) p
    let withPaper := fun (s : State) => { s with lines := { s.lines with paper := true } }
    acts State.reset ⟨2#8, 2#8⟩ (fun t => t.engine.state == .tripped && t.engine.further == 0#6) = true ∧
      acts State.reset ⟨1#8, 3#8⟩ (fun t => t.engine.state == .unready && t.link.events.getLsbD 5) = true ∧
      acts (overlaid .drive 3#6 State.reset) ⟨1#8, 3#8⟩ (fun t => t.link.events == 0#13) = true ∧
      acts (overlaid .drive 1#6 State.reset) ⟨1#8, 3#8⟩ (fun t => t.link.events.getLsbD 5) = true ∧
      acts (withPaper (readyAt 0)) ⟨2#8, 4#8⟩ (fun t => t.paper.state == .ending && t.paper.remaining == 1080) = true ∧
      (let s := withPaper (overlaid .drive 4#6 (readyAt 0))
       acts { s with paper := { s.paper with state := .ending, remaining := 5 } } ⟨0#8, 4#8⟩ (fun t =>
         t.paper.state == .loaded && t.paper.remaining == 0)) = true := by decide +kernel

theorem test_meets_PowerOnResetsEveryRecord :
    State.reset = State.powerOnState .bps115200 State.reset.lines State.reset.freeCount State.reset.pending ∧
      State.reset.lines.headHot = false ∧ State.reset.lines.driverFault = false ∧
      { State.reset.lines with headHot := true }.headHot = true ∧
      (let s := { State.reset with lines := { State.reset.lines with headHot := true, driverFault := true } };
        s.lines.headHot = true ∧ s.lines.driverFault = true ∧ { s with freeCount := s.freeCount + 1 }.freeCount = 1) :=
  ⟨rfl, rfl, rfl, rfl, rfl, rfl, rfl⟩

theorem test_meets_ExecutorStartsOrResumesWork :
    (Settled State.reset ∧ State.reset.queue = []) ∧
      (let s := withQueue [⟨7#8, .line (someLine .single 0), false⟩] (smallImage .bound) (readyAt 0);
        Settled s ∧ s.queue = ⟨7#8, .line (someLine .single 0), false⟩ :: [] ∧ s.exec.state = .idle ∧
          holdsEmpty s = true ∧ readyOrHold s = true ∧ s.engine.resetPending = false ∧ s.completions.length ≤ 31 ∧
          s.paper.state = .loaded) ∧
      (32 ≤ (List.replicate 32 (⟨1#8, .tear, .done, none, 0, 0#16⟩ : Completion)).length) ∧
      (let p : Paper := { resetPaper with state := .ending, remaining := 47 };
        p.state = .ending ∧ p.remaining < 48 ∧ 48 ≤ p.remaining + 1) ∧
      (let s := { lineActiveIn .idle with exec := { idleExecutor with resume := some .feedAfter } };
        s.exec.resume = some .feedAfter ∧ activeLine s = some (someLine .double 0) ∧
          (someLine .double 0).feedAfter = 0 ∧ 1 ≤ (someLine .double 1).feedAfter) ∧
      (∀ r : Resume, { idleExecutor with resume := some r }.resume = some r) :=
  ⟨⟨settled_of rfl rfl, rfl⟩, ⟨settled_of rfl rfl, by decide +kernel⟩, by decide, by decide, by decide +kernel,
    fun _ => rfl⟩

theorem test_meets_EntriesMakeTheirMoves :
    ((readyAt 0).paper.tearPresented = false ∧ (0 : Int) < 1 ∧ (-1 : Int) < 0) ∧
      (min (-1 : Int).natAbs (min (paramNat (readyAt 0) .revlim) (readyAt 0).paper.y) = 0) ∧
      (1 ≤ min (-361 : Int).natAbs (min (paramNat (readyAt 400) .revlim) (readyAt 400).paper.y) ∧
        min (-361 : Int).natAbs (min (paramNat (readyAt 400) .revlim) (readyAt 400).paper.y) < (-361 : Int).natAbs) ∧
      (min (-360 : Int).natAbs (min (paramNat (readyAt 400) .revlim) (readyAt 400).paper.y) = (-360 : Int).natAbs) ∧
      ([⟨0, 2#16⟩, ⟨600, 4#16⟩].filter (fun x : Stop => decide (0 < x.position)) = [] ++ ⟨600, 4#16⟩ :: [] ∧
        (4#16).getLsbD 2 = true) ∧
      ((∀ z ∈ (readyAt 0).paper.active.stops, (readyAt 0).paper.y < z.position → z.channels.getLsbD 1 = false) ∧
        (readyAt 0).paper.active.stops = [] ++ ⟨0, 2#16⟩ :: [] ∧ (2#16).getLsbD 1 = true ∧
        ∀ z ∈ (readyAt 0).paper.active.stops, z.channels.getLsbD 12 = false) ∧
      (param (readyAt 0) .path = 0 ∧ (readyAt 0).paper.active.tear = 0 ∧
        param (setParam (readyAt 0) .path 1) .path ≠ 0) := by decide +kernel

theorem test_meets_PreparationRetractsAndSkips :
    ((.skip 1 : EntryKind) ≠ .tear ∧ { resetPaper with tearPresented := true, tearDistance := 1 }.tearPresented = true ∧
      { resetPaper with tearPresented := true }.tearDistance = 0) ∧
      (param (readyAt 0) .path = 0 ∧ (readyAt 0).paper.tearPresented = false) ∧
      (let d : FormDef := { defaultForm with skipTop := 48, skipBottom := 100 };
        47 < d.skipTop ∧ d.length < 3813 + 48 + d.skipBottom ∧ 3812 + 48 + d.skipBottom ≤ d.length ∧
          d.skipTop ≤ 48 ∧ 3813 < d.length) := by decide +kernel

theorem test_meets_PassesGoThroughTheHeatGate :
    let s := { lineActiveIn .cool with exec := { idleExecutor with state := .cool, plan := some (somePlan true) } }
    s.exec.plan = some (somePlan true) ∧
      (somePlan true).passes = [somePass .forward true] ++ somePass .reverse false :: [] ∧
      (∀ q ∈ [somePass .forward true], q.done = true) ∧ (somePass .reverse false).done = false ∧
      s.heat.latch = false ∧ s.heat.h + (somePass .reverse false).heat ≤ paramNat s .ceiling ∧
      s.carriage.position.getD 0 ≠ (passProfile (somePass .reverse false) 2400 60000).origin ∧
      (paramNat s .ceiling < 1199977 + 24 ∧ paramNat s .resume < 1199977) ∧ activeLine s = some (someLine .double 0) ∧
      ([somePass .forward true, somePass .reverse true].all (fun r => r.done) = true) := by decide +kernel

theorem test_meets_ClassChoiceTakesTheFirstThatFits :
    (∀ k, k ≤ 3 → ¬ (4 * 560 * (1500 + 300 * k) ≤ 3000000)) ∧ (∃ k, k ≤ 3 ∧ 4 * 250 * (600 * (k + 1)) ≤ 3000000) :=
  ⟨fun k _ => by omega, 0, by decide, by decide⟩

theorem test_meets_PlanHoldsEveryDotOnce :
    (let s := lineActiveIn .prepare
     let f := someLine .double 0
     let columns := s.slots[f.slot].cols
     let dots := columns.zipIdx.flatMap (fun ci =>
       ((List.finRange 24).filter (fun r =>
         ci.1.getLsbD r && s.fire.pinMap[r].enabled && !s.fire.inhibit.getLsbD s.fire.pinMap[r].pin)).map
         (fun r => (100 + ci.2, 100 + ci.2 + s.fire.pinMap[r].offset.val)))
     s.slots[f.slot].left = 100 ∧ dots = [(100, 100), (151, 157)] ∧
       (columns.map (fun c => ((List.finRange 24).filter (fun r => c.getLsbD r)).length)).sum = 2 ∧
       (buildPlan f s).passes.length = 2 ∧ (buildPlan f s).shingle ≠ 4) ∧
      ∃ member : Option Nat → Nat → Bool,
        (∀ c, member none c = true) ∧ ∀ j c, member (some j) c = decide (c % 1 = j) :=
  ⟨by decide +kernel, fun o c => (o.map (fun j => decide (c % 1 = j))).getD true, fun _ => rfl, fun _ _ => rfl⟩

theorem test_meets_PassMotionsFollowOneAnother :
    (∀ ph p, Settled (inPass ph p)) ∧
    ((inPass .rampUp 1313).carriage.profile = some ⟨640, 3472, 1408, 2704, 2400, 60000⟩ ∧
      (inPass .rampUp 1313).carriage.phase = .rampUp ∧
      (inPass .rampUp 1313).carriage.noMark + legLeft (inPass .rampUp 1313) = 95 ∧
      96 ≤ (inPass .rampUp 1312).carriage.noMark + legLeft (inPass .rampUp 1312)) ∧
      (let s := inPass .cruise 2609;
        s.carriage.phase = .cruise ∧ s.fire.due = none ∧ s.fire.driving = 0#24 ∧
          s.carriage.noMark + legLeft s = 95) ∧
      (let s := inPass .rampDown 3377;
        s.carriage.phase = .rampDown ∧ s.exec.state = .pass ∧ s.exec.plan = some (somePlan false) ∧
          s.carriage.noMark + legLeft s = 95 ∧ s.exec.pendingHalt ≠ some .pass ∧
          (somePlan false).passes = [] ++ somePass .forward false :: [somePass .reverse false]) ∧
      (∀ h : Option PendingHalt, { (inPass .rampDown 3377).exec with pendingHalt := h }.pendingHalt = h) ∧
      (let s := { inPass .reposition 3400 with exec := { (inPass .reposition 3400).exec with
          state := .position, pendingHalt := some .pass } };
        s.exec.state = .position ∧ s.carriage.phase = .reposition ∧ s.carriage.noMark + legLeft s < 96 ∧
          working s = some (smallImage .printing, somePlan false, somePass .forward false) ∧
          s.exec.pendingHalt = some .pass) :=
  ⟨fun _ _ => settled_of rfl rfl, by decide +kernel, by decide +kernel, by decide +kernel, fun _ => rfl,
    by decide +kernel⟩

theorem test_meets_MotionsStartTravelAndEnd :
    ((inPass .cruise 1600).carriage.direction = some .forward ∧ (inPass .cruise 1600).carriage.position = some 1600 ∧
      (1616 : Int) = 1600 + (16 : Nat) ∧ (1599 : Int) < 1600) ∧
      ((inPass .cruise 1600).engine.overlayMode ≠ .observe ∧
        (let s := overlaid .observe 0x30#6 { inPass .cruise 1600 with
            carriage := { (inPass .cruise 1600).carriage with noMark := 94, observedNoMark := 95 } };
          s.engine.overlayMode = .observe ∧ 96 ≤ s.carriage.observedNoMark + 1 ∧
            s.carriage.noMark < s.carriage.observedNoMark)) ∧
      (∀ ph ∈ [MotionPhase.park, .reposition, .rampDown, .stopping], (inPass ph 3400).carriage.phase = ph ∧
        (3472 : Int) = 3400 + (72 : Nat) ∧ legLeft (inPass ph 3400) = 72) ∧
      (legLeft (inPass .rampUp 1400) = 8 ∧ legLeft (inPass .cruise 2700) = 4 ∧
        legLeft { inPass .cruise 1580 with fire := { resetFire with due := some ⟨100, 1584⟩ } } = 4 ∧
        legLeft { State.reset with carriage := { clearedCarriage with phase := .seek, seekTravel := 62399 } } = 1) ∧
      0 < paramNat State.reset .accel := by decide +kernel

theorem test_meets_FireGroupIsTakenInCruise :
    (let s := { inPass .cruise 1489 with fire := { resetFire with due := some ⟨100, 1584⟩ } };
      Settled s ∧ s.fire.due = some ⟨100, 1584⟩ ∧
        working s = some (smallImage .printing, somePlan false, somePass .forward false) ∧
        s.engine.state = .ready ∧ s.carriage.phase = .cruise ∧ s.carriage.noMark + legLeft s = 95 ∧
        s.fire.inhibit.getLsbD 0 = false ∧ s.fire.driving.getLsbD 0 = false ∧
        goesTo (exec .fireGroupTaken s) (fun t => t.fire.driving.getLsbD 0) = true) ∧
      (let s := { inPass .cruise 1488 with fire := { resetFire with due := some ⟨100, 1584⟩ } };
        96 ≤ s.carriage.noMark + legLeft s) ∧
      (1#24).getLsbD 0 = true := by
  unfold Settled
  decide +kernel

theorem test_meets_PulseEndAppliesTheSense :
    let s := { State.reset with fire := { resetFire with driving := 4#24, openCounts := resetFire.openCounts.set 2 7 } }
    Settled s ∧ s.fire.driving.getLsbD (2 : Fin 24) = true ∧ s.fire.driving.getLsbD (0 : Fin 24) = false ∧
      s.fire.driving &&& ~~~BitVec.twoPow 24 (2 : Fin 24) = 0#24 ∧ hasActive s = false ∧ s.engine.resetPending = false ∧
      (8 = min 32 (s.fire.openCounts[(2 : Fin 24)] + 1) ∧ 1 ≤ param s .openlim ∧ param s .openlim ≤ 32 ∧
        param s .openlim ≤ 8) ∧
      (7 : Int) < param s .openlim ∧ param (setParam s .openlim 0) .openlim ≤ 0 := by
  unfold Settled
  decide +kernel

theorem test_meets_MarkEdgeCountsAndCorrects :
    (Settled (inPass .cruise 1604) ∧ Settled (overlaid .drive 0x10#6 State.reset) ∧
      (inPass .cruise 1604).carriage.homed = true ∧ (inPass .cruise 1604).engine.overlayMode ≠ .drive ∧
      param (inPass .cruise 1604) .sliplim < ((65 : Int).natAbs : Int) ∧
      ((-64 : Int).natAbs : Int) ≤ param (inPass .cruise 1604) .sliplim) ∧
      ((overlaid .drive 0x10#6 State.reset).engine.overlayMode = .drive ∧
        (overlaid .drive 0x10#6 State.reset).engine.overlayInputs.getLsbD 4 = true ∧
        (overlaid .observe 0x10#6 State.reset).engine.overlayMode = .observe) ∧
      (clearedCarriage.homed = false ∧ { clearedCarriage with phase := .seek }.phase = .seek ∧
        { clearedCarriage with phase := .park }.phase = .park ∧
        { clearedCarriage with phase := .stopping }.phase = .stopping ∧ clearedCarriage.phase ≠ .stopping) := by
  unfold Settled
  decide +kernel

/-- For MARK_STALL seen in OBSERVE or not, the clearing of the no-mark distances that the statement describes. -/
theorem test_meets_MarkEdgeCountsAndCorrects_cleared (stall : Bool) : ∃ cleared : State → State, ∀ x : State,
    (stall = false → cleared x = { x with carriage := { x.carriage with noMark := 0, observedNoMark := 0 } }) ∧
    (stall = true → x.carriage.observedNoMark < 96 →
      cleared x = { x with carriage := { x.carriage with noMark := 0 } }) ∧
    (stall = true → 96 ≤ x.carriage.observedNoMark →
      cleared x = testTripFor .encoderLost
        { x with carriage := { x.carriage with noMark := 0, observedNoMark := 0 } }) := by
  cases stall with
  | false => exact ⟨_, fun x => ⟨fun _ => rfl, nofun, nofun⟩⟩
  | true =>
    exact ⟨fun x => if 96 ≤ x.carriage.observedNoMark then _ else _,
      fun x => ⟨nofun, fun _ h => if_neg (by omega), fun _ h => if_pos h⟩⟩

theorem test_meets_HomingParksAndLoads :
    (let s := { inEngine .homing with carriage := { clearedCarriage with phase := .seek } };
      Settled s ∧ s.carriage.phase = .seek ∧ Settled State.reset ∧ State.reset.carriage.phase ≠ .park) ∧
      (∀ p : Int, p = -3295 ∨ p = -3296 → (
        let s := { inEngine .homing with carriage := { clearedCarriage with
            phase := .park, direction := some .forward, homed := true, position := some p
            profile := some ⟨-4608, -3200, -4608, -3200, 2000, 60000⟩ } };
        Settled s ∧ s.carriage.profile = some ⟨-4608, -3200, -4608, -3200, 2000, 60000⟩ ∧ s.carriage.phase = .park ∧
          s.carriage.homed = true ∧ s.paper.state = .out ∧ sensorPresent s = false ∧
          (p = -3295 → s.carriage.noMark + legLeft s = 95) ∧ (p = -3296 → s.carriage.noMark + legLeft s = 96))) ∧
      (let s := { State.reset with lines := { State.reset.lines with paper := true } };
        s.paper.state = .out ∧ sensorPresent s = true ∧ param s .path = 0 ∧ 1 ≤ param s .preload ∧
          param (setParam s .preload 0) .preload ≤ 0 ∧ 1 ≤ param s .loaddist ∧
          param (setParam s .loaddist 0) .loaddist ≤ 0) := by
  unfold Settled
  refine ⟨by decide +kernel, ?_, by decide +kernel⟩
  rintro p (rfl | rfl) <;> decide +kernel

theorem test_meets_CausesTripThePart :
    (let s := { inPass .cruise 1600 with carriage := { (inPass .cruise 1600).carriage with noMark := 95 } };
      Settled s ∧ s.carriage.phase ≠ .stopped ∧ 96 ≤ s.carriage.noMark + legLeft s) ∧
      (let s := { inEngine .homing with carriage := { clearedCarriage with
          phase := .seek, direction := some .reverse, noMark := 20, seekTravel := 62324 } };
        Settled s ∧ s.carriage.phase = .seek ∧ homeActive s = false ∧
          s.carriage.noMark + (62400 - s.carriage.seekTravel) = 96) ∧
      ({ resetPaper with jamDue := true }.jamDue = true ∧ State.reset.paper.jamDue = false ∧
        headHotLevel State.reset = false ∧ headHotLevel (overlaid .drive 1#6 State.reset) = true ∧
        driverFaultLevel State.reset = false ∧ Settled State.reset ∧ State.reset.engine.state ≠ .tripped ∧
        (inEngine .tripped).engine.state = .tripped ∧ TripCause.headHot ≠ .paperJam) ∧
      (let s := overlaid .observe 0x30#6 { inPass .cruise 1600 with
          carriage := { (inPass .cruise 1600).carriage with noMark := 10, observedNoMark := 95 } };
        Settled s ∧ s.engine.overlayMode = .observe ∧ s.carriage.phase ≠ .stopped ∧
          s.carriage.noMark < s.carriage.observedNoMark ∧ 1 = 96 - s.carriage.observedNoMark ∧ 1 ≤ legLeft s) ∧
      (let s := overlaid .observe 0x20#6 { State.reset with
          paper := { resetPaper with observedUnpulsed := 47, unpulsed := 46 } };
        Settled s ∧ s.engine.overlayMode = .observe ∧
          param s .jamlim ≤ (min 240 (s.paper.observedUnpulsed + 1) : Nat) ∧
          (min 240 (s.paper.unpulsed + 1) : Nat) < param s .jamlim) := by
  unfold Settled
  decide +kernel

theorem test_meets_TripIsOneStep :
    hasActive State.reset = false ∧ (inPass .cruise 1600).queue = ⟨7#8, .line (someLine .double 0), true⟩ :: [] ∧
      { resetPaper with jamDue := true }.jamDue = true ∧
      (let c := { clearedCarriage with phase := .seek, seekTravel := 62400, noMark := 96 };
        c.phase ≠ .stopped ∧ 96 ≤ c.noMark ∧ 62400 ≤ c.seekTravel) := by decide +kernel

theorem test_meets_FeedStepMovesThePaper :
    (let s := feedingFor (.feed 3) .advance ⟨.feed false, .forward, 1, 2, false, false⟩;
      Settled s ∧ s.paper.move = some ⟨.feed false, .forward, 1, 2, false, false⟩ ∧ s.paper.jamDue = false ∧
        s.paper.state = .loaded ∧ s.paper.y + 1 < s.paper.active.length) ∧
      ((⟨.skip, .forward, 1, 2, true, false⟩ : FeedMove).stopping = true ∧
        (⟨.skip, .forward, 1, 2, true, false⟩ : FeedMove).left = 1) ∧
      ({ resetPaper with state := .loaded, y := 3959 }.y + 1 = resetPaper.active.length) ∧
      (let p : Paper := { resetPaper with state := .ending, remaining := 1 };
        p.state = .ending ∧ ¬ (p.state = .ending ∧ p.remaining = 0) ∧ p.y = 0) ∧
      (let s := overlaid .observe 0x20#6 { State.reset with
          paper := { resetPaper with observedUnpulsed := 47, unpulsed := 46 } };
        (decide (s.engine.overlayMode = .observe) &&
          decide (param s .jamlim ≤ (min 240 (s.paper.observedUnpulsed + 1) : Nat)) &&
          !decide (param s .jamlim ≤ (min 240 (s.paper.unpulsed + 1) : Nat))) = true) ∧
      ((⟨.eject 3960, .forward, 0, 3959, false, false⟩ : FeedMove).made < 3960 ∧
        3960 ≤ (⟨.eject 3960, .forward, 0, 3960, false, false⟩ : FeedMove).made ∧
        (⟨.eject 3960, .forward, 0, 3961, false, true⟩ : FeedMove).ended = true ∧
        (⟨.eject 3960, .forward, 1, 3959, true, false⟩ : FeedMove).left = 1) := by
  unfold Settled
  decide +kernel

/-- An eject that has made its L steps when the sensor returns ends there, whatever the sensor does next (R149). -/
theorem test_eject_ended_by_the_sensor :
    (let s := feedingFor .tear .advance ⟨.eject 3960, .forward, 0, 3961, false, false⟩
     let s := { s with paper := { s.paper with state := .ending, remaining := 9 } }
     goesTo (exec .paperSensorPresent s) (fun t => t.paper.state == .loaded &&
       goesTo (exec .paperSensorAbsent t) (fun v => v.paper.state == .ending &&
         goesTo (exec .feedStep v) (fun w => w == v) &&
         goesTo (exec .ejectFail v) (fun w => w.completions.map (fun c => c.outcome) == [.failedEject])))) = true := by
  decide +kernel

theorem test_meets_FeedMovesEndByTheirPurpose :
    (let s := feedingFor (.feed 3) .advance ⟨.feed false, .forward, 0, 3, false, false⟩;
      Settled s ∧ s.paper.move = some ⟨.feed false, .forward, 0, 3, false, false⟩ ∧ s.paper.jamDue = false ∧
        s.paper.state ≠ .ending ∧ s.engine.resetPending = false) ∧
      (⟨.feed false, .forward, 0, 3, true, false⟩ : FeedMove).stopping = true ∧
      ({ resetPaper with state := .ending }.remaining = 0) ∧
      (let s := feedingFor (.skip 1) .prepare ⟨.retract, .reverse, 0, 3, false, false⟩;
        activeEntry s = some ⟨7#8, .skip 1, true⟩ ∧ s.exec.pendingHalt ≠ some .pass ∧
          s.paper.tearPresented = false ∧ s.exec.state = .prepare ∧ s.exec.resume = none) ∧
      (sensorPresent State.reset = false ∧
        sensorPresent { State.reset with lines := { State.reset.lines with paper := true } } = true) ∧
      (Purpose.load ≠ Purpose.eject 0 ∧
        (⟨.preload 720, .forward, 12, 0, false, false⟩ : FeedMove).purpose = .preload 720 ∧
        (1 : Nat) ≤ 720) ∧
      (State.reset.paper.move = none ∧ (⟨.eject 3960, .forward, 0, 9, false, false⟩ : FeedMove).over .loaded = false ∧
        (⟨.eject 3960, .forward, 0, 3960, false, false⟩ : FeedMove).over .loaded = true ∧
        (⟨.eject 3960, .forward, 0, 3961, false, true⟩ : FeedMove).over .ending = true) := by
  unfold Settled
  decide +kernel

/-- A trip that comes after the last step and before PAPER_END takes the paper's end first (R142). -/
theorem test_paper_end_before_a_trip :
    (let s := feedingFor (.feed 9) .advance ⟨.feed false, .forward, 5, 4, false, false⟩
     goesTo (exec .headHotAsserted { s with paper := { s.paper with state := .ending, remaining := 0 } }) (fun t =>
       t.engine.state == .tripped && t.paper.state == .out && t.holds == ⟨true, true⟩ &&
         t.completions.map (fun c => c.outcome) == [.failedPaperOut])) = true := by decide +kernel

theorem test_meets_ControlledStopComesToRest :
    (Settled State.reset ∧ State.reset.carriage.phase ≠ .stopping ∧ State.reset.paper.move = none) ∧
      (let s := inPass .stopping 3377;
        Settled s ∧ s.carriage.phase = .stopping ∧ s.carriage.profile = some ⟨640, 3472, 1408, 2704, 2400, 60000⟩ ∧
          s.carriage.noMark + legLeft s = 95 ∧ s.exec.failing = false ∧ s.engine.resetPending = false ∧
          { s.exec with failing := true }.failing = true ∧ { s.engine with resetPending := true }.resetPending = true) ∧
      (96 ≤ (inPass .stopping 3376).carriage.noMark + legLeft (inPass .stopping 3376)) ∧
      (let s := feedingFor (.feed 3) .advance ⟨.feed false, .forward, 1, 2, true, false⟩;
        Settled s ∧ s.carriage.phase ≠ .stopping ∧ s.paper.move = some ⟨.feed false, .forward, 1, 2, true, false⟩ ∧
          s.paper.jamDue = false ∧ s.paper.state ≠ .ending) ∧
      (let p := { resetPaper with state := .ending, move := some ⟨.eject 3960, .forward, 0, 2, true, false⟩ };
        p.state = .ending ∧ p.remaining = 0 ∧ p.jamDue = false ∧
          p.move.map (fun m => m.purpose) = some (.eject 3960)) := by
  unfold Settled
  decide +kernel

theorem test_meets_SensorsAndTimersAct :
    (Settled State.reset ∧ State.reset.engine.overlayMode ≠ .drive ∧
      State.reset.paper.jamDue = false ∧ State.reset.lines.paper = false ∧
      { resetPaper with jamDue := true }.jamDue = true ∧
      (overlaid .observe 0x20#6 State.reset).engine.overlayMode = .observe) ∧
      ((overlaid .drive 0x24#6 State.reset).engine.overlayInputs.getLsbD 5 = true ∧
        (overlaid .drive 0x24#6 State.reset).engine.overlayInputs.getLsbD 2 = true) ∧
      ((readyAt 0).paper.state = .loaded ∧ { resetPaper with state := .ending, remaining := 1 }.remaining ≠ 0) ∧
      (let s := { readyAt 0 with engine := { resetEngine with state := .ready, holdTimer := some 0 } };
        Settled s ∧ s.engine.state = .ready ∧ s.engine.holdTimer ≠ none ∧ inMotion s = false) ∧
      (let e : Engine := { resetEngine with state := .warming, warmTimer := some 0, wakeTarget := some .homing };
        e.state = .warming ∧ e.warmTimer ≠ none ∧ e.wakeTarget = some .homing) ∧
      (2 + max 1 (3 / 2 ^ paramNat State.reset .coolshift) = 3 ∧ State.reset.heat.h = 0) := by
  unfold Settled
  decide +kernel

/-- A READY part, a LINE to plan, three dots side by side in row 0. -/
def toPlan : State :=
  { lineActiveIn .prepare with slots := (lineActiveIn .prepare).slots.set 0 ⟨.printing, 100, 3, [1#24, 1#24, 1#24]⟩ }

theorem test_meets_PlanningStepBuildsThePlan :
    (toPlan.paper.active.ply = 1 ∧ (someLine .double 0).ply = none ∧ (toPlan.heat.h : Nat) < paramNat toPlan .warmth ∧
      toPlan.fire.table.cool[(0 : Fin 6)] = 200 ∧ (someLine .double 0).cls = 3 ∧ toPlan.fire.pendingTable = none) ∧
      (let columns := toPlan.slots[(0 : Fin 8)].cols;
        columns[0]? = some 1#24 ∧ columns[0 + 1]? = some 1#24 ∧ columns[0 + 2]? = some 1#24 ∧
          ((1#24).getLsbD 0 && toPlan.fire.pinMap[(0 : Fin 24)].enabled &&
            !toPlan.fire.inhibit.getLsbD toPlan.fire.pinMap[(0 : Fin 24)].pin) = true) ∧
      (let plan := buildPlan (someLine .double 0) toPlan;
        (someLine .double 0).direction = .auto ∧ plan.passes.length = 2 ∧ toPlan.carriage.position = some (-3200) ∧
          plan.passes.head?.isSome = true) ∧
      (∀ d : LineDirection, { someLine .double 0 with direction := d }.direction = d) :=
  ⟨by decide +kernel, by decide +kernel, by decide +kernel, fun _ => rfl⟩

theorem test_meets_FireGroupsFallDueInOrder :
    ((16 * 2 ≤ (24 : Int) + 8 ∧ (24 : Int) + 8 < 16 * 2 + 16) ∧
      (-16 * -1 ≤ (8 : Int) - -8 ∧ (8 : Int) - -8 < 16 - 16 * -1)) ∧
      ((somePlan false).cls = 3 ∧
        working (inPass .cruise 1600) = some (smallImage .printing, somePlan false, somePass .forward false)) ∧
      (let r := somePass .forward false;
        r.lo ≤ 100 ∧ 100 ≤ r.hi ∧ nextDue (inPass .cruise 1600) none = some ⟨100, 1587⟩ ∧
          nextDue (inPass .cruise 1600) (some 100) = some ⟨157, 2499⟩ ∧
          nextDue (inPass .cruise 1600) (some 157) = none) := by
  decide +kernel

theorem test_meets_ParameterAndEnergyTables : 32 < (33#8).toNat ∧ 32 < (255#8).toNat := by decide

theorem test_meets_RepliesCarryTheirLayouts :
    (let s := trip .paperJam (inPass .cruise 1600);
      s.engine.firstFault =
        some ⟨.paperJam, .ready, .pass, some 7#8, some 1600, 0, 0#16⟩ ∧ State.reset.engine.firstFault = none ∧
      (trip .headHot State.reset).engine.firstFault.map (fun f => (f.tag, f.position)) = some (none, none)) ∧
      (etabReply .ok State.reset).length = 50 ∧ (formReply .ok State.reset).length = 16 ∧
      { resetFire with pendingTable := some resetFire.table }.pendingTable = some resetFire.table ∧
      { resetPaper with next := some defaultForm }.next = some defaultForm := by decide +kernel

/-! ### States away from reset that meet the invariants, each with a step from it -/

/-- A READY part with a LINE queued, the next command an EXECUTOR_START. -/
def lineWaiting : State :=
  { withQueue [⟨7#8, .line (someLine .single 0), false⟩] (smallImage .bound) (readyAt 0) with
    pending := [.executorStart] }

theorem test_meets_StepKeepsTablesInRange :
    (∃ t, step lineWaiting = .next t) ∧ ParamsInv lineWaiting ∧ HeatInv lineWaiting ∧ HeadInv lineWaiting ∧
      CountersInv lineWaiting := by
  refine ⟨⟨_, rfl⟩, ⟨fun id => ?_, by decide +kernel⟩, by unfold HeatInv; decide +kernel,
    ⟨by decide +kernel, by decide +kernel, by decide +kernel, by decide +kernel, fun t h => (nomatch h)⟩,
    ⟨fun c => ?_, by decide +kernel⟩, ⟨fun c => ?_, by decide +kernel⟩⟩
  · cases id <;> decide +kernel
  · cases c <;> decide +kernel
  · cases c <;> decide +kernel

theorem test_meets_StepKeepsPaperAndFilters : PaperInv lineWaiting ∧ CarriageInv lineWaiting := by
  refine ⟨⟨by simp only [FormOk]; decide +kernel, nofun, by decide +kernel, nofun, fun _ => rfl, Nat.zero_le _,
    Nat.zero_le _, Nat.zero_le _, Nat.zero_le _, nofun⟩, ?_⟩
  unfold CarriageInv
  decide +kernel

theorem test_meets_StepKeepsQueuesAndSlots : QueueInv lineWaiting ∧ SlotsInv lineWaiting ∧ LinkInv lineWaiting := by
  refine ⟨by unfold QueueInv; decide +kernel, fun i => ⟨?_, ?_⟩, by unfold LinkInv; decide +kernel⟩
  · unfold SlotOk
    revert i
    decide +kernel
  · match i with
    | 0 => exact ⟨⟨7#8, .line (someLine .single 0), false⟩, by decide +kernel, rfl⟩
    | 1 => exact (by decide +kernel : naming 1 lineWaiting.queue = [])
    | 2 => exact (by decide +kernel : naming 2 lineWaiting.queue = [])
    | 3 => exact (by decide +kernel : naming 3 lineWaiting.queue = [])
    | 4 => exact (by decide +kernel : naming 4 lineWaiting.queue = [])
    | 5 => exact (by decide +kernel : naming 5 lineWaiting.queue = [])
    | 6 => exact (by decide +kernel : naming 6 lineWaiting.queue = [])
    | 7 => exact (by decide +kernel : naming 7 lineWaiting.queue = [])

theorem test_meets_StepKeepsMotionAndTripState :
    (∃ t, step { inPass .cruise 1600 with pending := [.cruiseEnd] } = .next t) ∧
      MotionInv { inPass .cruise 1600 with pending := [.cruiseEnd] } ∧
      TripInv { inPass .cruise 1600 with pending := [.cruiseEnd] } := by
  refine ⟨⟨_, rfl⟩, ?_, by unfold TripInv; decide +kernel⟩
  constructor
  case feeds => exact fun m h => (nomatch h)
  all_goals decide +kernel

theorem test_meets_TrippedLastsUntilItIsCleared :
    (inEngine .tripped).engine.state = .tripped ∧ (∃ t, exec .feedStep (inEngine .tripped) = .next t) ∧
      MotionInv (inEngine .tripped) ∧ (∀ tag req, (Instr.feedStep) ≠ .clrf tag req) := by
  refine ⟨rfl, ⟨_, rfl⟩, ?_, fun _ _ h => (nomatch h)⟩
  constructor
  case feeds => exact fun m h => (nomatch h)
  all_goals decide

theorem test_meets_TablesChangeOnlyByTheirRequests :
    (∃ t, exec (.slotSeal 1#8 (.fields 0#8)) State.reset = .next t) ∧
      (∀ r, (Instr.slotSeal 1#8 (.fields 0#8)) ≠ .powerOn r) ∧
      (∀ tag req, (Instr.slotSeal 1#8 (.fields 0#8)) ≠ .setp tag req) :=
  ⟨⟨_, rfl⟩, fun _ h => (nomatch h), fun _ _ h => (nomatch h)⟩

end Sys2Proof.Tests
end

