-- ==== Sys2Proof/Proofs/HeadTables.lean ====
section
/-! SUPPORT. The tables of the part (parameters, pin map, event mask, overlay, failed pins, counters' snapshot), and
what an operation keeps of them: every table but the one its own request changes, and the soundness of all of them. -/

namespace Sys2Proof.HeadTables

open Sys2Proof.Machine

/-! ## The tables and their soundness -/

/-- The tables that one request each may change (R7, R9, R172, R185, R186, R192). -/
inductive Table where
  | params | pinMap | mask | overlay | failed | snapshot
  deriving DecidableEq

/-- A table is in t as it was in s; of the failed-pin set, that no pin has left it (R9). -/
def Table.Same : Table → State → State → Prop
  | .params, s, t => t.params = s.params
  | .pinMap, s, t => t.fire.pinMap = s.fire.pinMap
  | .mask, s, t => t.link.mask = s.link.mask
  | .overlay, s, t => t.engine.overlayMode = s.engine.overlayMode ∧ t.engine.overlayInputs = s.engine.overlayInputs
  | .failed, s, t => s.fire.failed &&& ~~~t.fire.failed = 0#24
  | .snapshot, s, t => t.counters.snapshot = s.counters.snapshot

/-- Parameters, heat, head tables and counters are in range (R3, R9, R10, R112, R117, R119, R120, R125, R190, R196). -/
def TablesInv (s : State) : Prop := ParamsInv s ∧ HeatInv s ∧ HeadInv s ∧ CountersInv s

/-- From s to t every table stands but the one named, and sound tables stay sound. -/
structure Keeps (k : Option Table) (s t : State) : Prop where
  same : ∀ j, some j ≠ k → j.Same s t
  sound : TablesInv s → TablesInv t

/-- All that `Keeps` reads of a state. -/
structure Tables where
  params        : Vector Int 32
  pinMap        : Vector MapRow 24
  inhibit       : PinSet
  failed        : PinSet
  openCounts    : Vector Nat 24
  table         : EnergyTable
  pendingTable  : Option EnergyTable
  h             : Nat
  latch         : Bool
  band          : Band
  counters      : Counters
  mask          : EventSet
  overlayMode   : OverlayMode
  overlayInputs : BitVec 6

/-- The tables as they stand. -/
def tables (s : State) : Tables where
  params := s.params
  pinMap := s.fire.pinMap
  inhibit := s.fire.inhibit
  failed := s.fire.failed
  openCounts := s.fire.openCounts
  table := s.fire.table
  pendingTable := s.fire.pendingTable
  h := s.heat.h
  latch := s.heat.latch
  band := s.heat.band
  counters := s.counters
  mask := s.link.mask
  overlayMode := s.engine.overlayMode
  overlayInputs := s.engine.overlayInputs

/-- Parameters in range are read from the parameter record alone. -/
theorem paramsInv_congr {s t : State} (hp : t.params = s.params) (h : ParamsInv s) : ParamsInv t := by
  simpa only [ParamsInv, param_eq hp] using h

/-- The heat record is judged by itself and the parameters. -/
theorem heatInv_congr {s t : State} (hp : t.params = s.params) (hh : t.heat.h = s.heat.h)
    (hb : t.heat.band = s.heat.band) (hl : t.heat.latch = s.heat.latch) (h : HeatInv s) : HeatInv t := by
  simpa only [HeatInv, param_eq hp, hh, hb, hl] using h

/-- The counters are judged by themselves. -/
theorem countersInv_congr {s t : State} (hc : t.counters = s.counters) (h : CountersInv s) : CountersInv t := by
  simpa only [CountersInv, hc] using h

/-- What is in a, if none of a is outside b and none of b outside c, is not outside c. -/
theorem and_not_trans {a b c : PinSet} (hab : a &&& ~~~b = 0#24) (hbc : b &&& ~~~c = 0#24) : a &&& ~~~c = 0#24 := by
  ext i hi
  have h1 := congrArg (fun x : PinSet => x.getLsbD i) hab
  have h2 := congrArg (fun x : PinSet => x.getLsbD i) hbc
  simp [hi] at h1 h2 ⊢
  exact fun ha => h2 (h1 ha)

/-- The tables of equal values are sound together. -/
theorem tablesInv_congr {s t : State} (e : tables t = tables s) (h : TablesInv s) : TablesInv t := by
  simp only [tables, Tables.mk.injEq] at e
  obtain ⟨hp, hm, hi, hf, ho, ht, hn, hh, hl, hb, hc, -⟩ := e
  obtain ⟨params, heat, head, counters⟩ := h
  refine ⟨paramsInv_congr hp params, heatInv_congr hp hh hb hl heat, ?_, countersInv_congr hc counters⟩
  simpa only [HeadInv, hm, hi, hf, ho, ht, hn] using head

/-- With every table as it was, each is the same, whichever is asked for. -/
theorem Table.Same.all {s t : State} (hp : t.params = s.params) (hm : t.fire.pinMap = s.fire.pinMap)
    (hf : t.fire.failed = s.fire.failed) (hc : t.counters.snapshot = s.counters.snapshot)
    (hk : t.link.mask = s.link.mask) (hv : t.engine.overlayMode = s.engine.overlayMode)
    (hw : t.engine.overlayInputs = s.engine.overlayInputs) {j : Table} : j.Same s t := by
  cases j
  case failed =>
    rw [Table.Same, hf]
    exact BitVec.and_not_self _
  all_goals simp only [Table.Same, hp, hm, hc, hk, hv, hw, and_self]

/-- Equal tables are the same. -/
theorem Table.Same.of_eq {s t : State} (e : tables t = tables s) (j : Table) : j.Same s t := by
  simp only [tables, Tables.mk.injEq] at e
  obtain ⟨hp, hm, -, hf, -, -, -, -, -, -, hc, hk, hv, hw⟩ := e
  exact .all hp hm hf (by rw [hc]) hk hv hw

/-- A table that stands over two stretches stands over both. -/
theorem Table.Same.trans {j : Table} {s t u : State} (h : j.Same s t) (h' : j.Same t u) : j.Same s u := by
  cases j
  case failed => exact and_not_trans h h'
  case overlay => exact ⟨h'.1.trans h.1, h'.2.trans h.2⟩
  all_goals exact Eq.trans h' h

namespace Keeps

variable {k : Option Table} {s t u : State}

theorem refl (k : Option Table) (s : State) : Keeps k s s := ⟨fun j _ => .of_eq rfl j, id⟩

theorem trans (h : Keeps k s t) (h' : Keeps k t u) : Keeps k s u :=
  ⟨fun j hj => (h.same j hj).trans (h'.same j hj), fun hs => h'.sound (h.sound hs)⟩

/-- A change that leaves every table and keeps them sound: it may touch what no one request owns. -/
theorem change (h : Keeps k s t) (hp : u.params = t.params) (hm : u.fire.pinMap = t.fire.pinMap)
    (hf : u.fire.failed = t.fire.failed) (hc : u.counters.snapshot = t.counters.snapshot)
    (hk : u.link.mask = t.link.mask) (hv : u.engine.overlayMode = t.engine.overlayMode)
    (hw : u.engine.overlayInputs = t.engine.overlayInputs) (hs : TablesInv t → TablesInv u) : Keeps k s u :=
  h.trans ⟨fun _ _ => .all hp hm hf hc hk hv hw, hs⟩

/-- A change of anything but the tables keeps them. -/
theorem upd (h : Keeps k s t) (e : tables u = tables t) : Keeps k s u :=
  h.trans ⟨fun j _ => .of_eq e j, tablesInv_congr e⟩

end Keeps

variable {k : Option Table} {s t : State}

/-! ## Events, counters and heat (R104, R117 to R120, R186, R190) -/

theorem keeps_raise {e : Event} (h : Keeps k s t) : Keeps k s (raise e t) := h.upd (by simp [tables])

theorem keeps_raiseIf {b : Bool} {e : Event} (h : Keeps k s t) : Keeps k s (raiseIf b e t) :=
  h.upd (by simp [tables])

/-- No GENERAL counter shares its place with another. -/
theorem generalIndex_inj {a b : General} (h : a.index = b.index) : a = b := by
  cases a <;> cases b <;> simp [General.index] at h ⊢

/-- A counter that saturates stays within its maximum (R190). -/
theorem saturate_le (bits v n : Nat) : saturate bits v n ≤ 2 ^ bits - 1 := min_le_right _ _

/-- Counting keeps every counter within its maximum (R190). -/
theorem bankOk_count {b : Bank} (h : BankOk b) (c : General) (n : Nat) : BankOk (b.count c n) := by
  refine ⟨fun d => ?_, h.2⟩
  by_cases hd : c = d
  · subst hd
    simpa [Bank.count] using saturate_le c.bits _ n
  · have hi : (c.index : Nat) ≠ d.index := fun e => hd (generalIndex_inj (Fin.ext e))
    simpa [Bank.count, Vector.getElem_set_ne _ _ hi] using h.1 d

/-- A strike keeps every counter within its maximum (R190). -/
theorem bankOk_strike {b : Bank} (h : BankOk b) (p : Fin 24) : BankOk (b.strike p) := by
  refine ⟨h.1, fun q => ?_⟩
  by_cases hq : p = q
  · subst hq
    simpa [Bank.strike, strikeBits] using saturate_le 28 _ 1
  · have hi : (p : Nat) ≠ q := fun e => hq (Fin.ext e)
    simpa [Bank.strike, Vector.getElem_set_ne _ _ hi] using h.2 q

/-- A cleared group's counters are within their maximums (R192). -/
theorem bankOk_clear {b : Bank} (h : BankOk b) (general pins : Bool) : BankOk (b.clear general pins) := by
  refine ⟨fun c => ?_, fun p => ?_⟩
  · cases general
    · exact h.1 c
    · simp [Bank.clear]
  · cases pins
    · exact h.2 p
    · simp [Bank.clear]

/-- A change of the live counters alone, which keeps them within their maximums. -/
theorem keeps_live (h : Keeps k s t) {b : Bank} (hb : BankOk t.counters.live → BankOk b) {l : Link}
    (hl : l.mask = t.link.mask) :
    Keeps k s { t with counters := { t.counters with live := b }, link := l } :=
  h.change rfl rfl rfl rfl hl rfl rfl
    (fun ⟨params, heat, head, live, snap⟩ => ⟨params, heat, head, hb live, snap⟩)

theorem keeps_count {c : General} {n : Nat} (h : Keeps k s t) : Keeps k s (count c n t) :=
  keeps_live h (fun hb => bankOk_count hb c n) (by simp)

theorem keeps_countStrike {p : Fin 24} (h : Keeps k s t) : Keeps k s (countStrike p t) :=
  keeps_live h (fun hb => bankOk_strike hb p) (by simp)

/-- A parameter whose range starts at 0 or above is its natural number. -/
theorem paramNat_eq (h : ParamsInv s) {id : ParamId} (hl : 0 ≤ paramLow id) :
    (paramNat s id : Int) = param s id :=
  Int.toNat_of_nonneg (hl.trans (h.1 id).1)

/-- The band judged anew is what H gives (R119). -/
theorem bandOf_eq (h : ParamsInv s) (n : Nat) :
    bandOf (paramNat s .warmth) n = if (n : Int) < param s .warmth then .cool else .warm := by
  simp [bandOf, ← paramNat_eq h (id := .warmth) (by decide)]

/-- The latch judged anew is set at HOTTH and clear at RESUME (R120). -/
theorem latchOf_inv (h : ParamsInv s) (n : Nat) (was : Bool) :
    (param s .hotth ≤ (n : Int) → latchOf (paramNat s .hotth) (paramNat s .resume) n was = true) ∧
      ((n : Int) ≤ param s .resume → latchOf (paramNat s .hotth) (paramNat s .resume) n was = false) := by
  obtain ⟨-, hrw, hwh, -⟩ := id h
  rw [← paramNat_eq h (id := .hotth) (by decide)] at hwh ⊢
  rw [← paramNat_eq h (id := .resume) (by decide)] at hrw ⊢
  unfold latchOf
  refine ⟨fun hn => if_pos (by omega), fun hn => ?_⟩
  rw [if_neg (by omega), if_pos (by omega)]

/-- H within its range, with band and latch judged anew, is a sound heat record (R117, R119, R120). -/
theorem heatInv_setHeat {n : Nat} (h : ParamsInv t) (hn : n ≤ 16777215) : HeatInv (setHeat n t) :=
  ⟨hn, bandOf_eq h n, latchOf_inv h n t.heat.latch⟩

theorem keeps_setHeat {n : Nat} (hn : t.heat.h ≤ 16777215 → n ≤ 16777215) (h : Keeps k s t) :
    Keeps k s (setHeat n t) :=
  h.change rfl rfl rfl rfl rfl rfl rfl
    (fun ⟨params, ⟨hh, _⟩, head, counters⟩ => ⟨params, heatInv_setHeat params (hn hh), head, counters⟩)

theorem keeps_addHeat {n : Nat} (h : Keeps k s t) : Keeps k s (addHeat n t) :=
  keeps_setHeat (fun _ => min_le_right _ _) h

end Sys2Proof.HeadTables
end

