-- ==== Sys2Proof/Proofs/KeptByOperations.lean ====
section
/-! SUPPORT. Every shared operation keeps the tables, in the order of the model: retirement and trips, the carriage, the
executor's work, causes, the receiver, and the feed step. -/

namespace Sys2Proof.HeadTables

open Sys2Proof.Machine

variable {k : Option Table} {s t : State}

/-! ## Retirement and trips (R42, R164) -/

theorem keeps_countLine {e : Entry} {o : EntryOutcome} (h : Keeps k s t) : Keeps k s (countLine e o t) := by
  unfold countLine
  split
  · exact keeps_count h
  all_goals exact h

theorem keeps_retire {o : EntryOutcome} (h : Keeps k s t) : Keeps k s (retire o t) := by
  unfold retire
  split
  · exact h
  · split
    · exact keeps_countLine (keeps_raiseIf (keeps_raise (h.upd rfl)))
    · exact h

theorem keeps_addHalted (h : Keeps k s t) : Keeps k s (addHalted t) := h.upd rfl

theorem keeps_addPaperOut (h : Keeps k s t) : Keeps k s (addPaperOut t) := keeps_raise (h.upd rfl)

theorem keeps_failActive {o : EntryOutcome} (h : Keeps k s t) : Keeps k s (failActive o t) := keeps_retire h

theorem keeps_trip {c : TripCause} (h : Keeps k s t) : Keeps k s (trip c t) :=
  keeps_count (keeps_raise (keeps_addHalted (keeps_failActive (h.upd (by simp [tables])))))

theorem keeps_testTripIf {b : Bool} {c : TripCause} (h : Keeps k s t) : Keeps k s (testTripIf b c t) :=
  h.upd (by simp [tables])

/-! ## The carriage and the heat gate (R78, R84, R121, R122) -/

theorem keeps_travel {n : Nat} (h : Keeps k s t) : Keeps k s (travel n t) := h.upd (by simp [tables])

theorem keeps_reach {q : Int} (h : Keeps k s t) : Keeps k s (reach q t) := h.upd (by simp [tables])

theorem keeps_setRibbon {on : Bool} (h : Keeps k s t) : Keeps k s (setRibbon on t) := h.upd rfl

theorem keeps_endMotion (h : Keeps k s t) : Keeps k s (endMotion t) := h.upd (by simp [tables])

theorem keeps_startFeed {u : Purpose} {d : Dir} {n : Nat} (h : Keeps k s t) : Keeps k s (startFeed u d n t) :=
  h.upd (by simp [tables])

theorem keeps_endFeed (h : Keeps k s t) : Keeps k s (endFeed t) := h.upd (by simp [tables])

theorem keeps_goPosition {plan : Plan} {r : PassRec} (h : Keeps k s t) : Keeps k s (goPosition plan r t) := by
  unfold goPosition
  dsimp only
  split <;> exact h.upd rfl

theorem keeps_beginWait {r : PassRec} (h : Keeps k s t) : Keeps k s (beginWait r t) :=
  keeps_count (keeps_raise (h.upd rfl))

theorem keeps_submit {plan : Plan} {r : PassRec} (h : Keeps k s t) : Keeps k s (submit plan r t) := by
  unfold submit
  split
  · exact keeps_goPosition h
  · exact keeps_beginWait h

theorem keeps_retest (h : Keeps k s t) : Keeps k s (retest t) := by
  unfold retest
  split
  · split
    · split
      · exact keeps_goPosition h
      · exact h
    · exact h
  · exact h

/-! ## The executor's work (R40, R41, R49, R54, R144 to R150) -/

theorem keeps_completeLine (h : Keeps k s t) : Keeps k s (completeLine t) := keeps_retire h

theorem keeps_beginFeedAfter (h : Keeps k s t) : Keeps k s (beginFeedAfter t) := by
  unfold beginFeedAfter
  dsimp only
  split
  · split
    · exact keeps_completeLine (h.upd rfl)
    · exact keeps_startFeed (h.upd rfl)
  · exact h

theorem keeps_nextWork (h : Keeps k s t) : Keeps k s (nextWork t) := by
  unfold nextWork
  split
  · split
    · exact keeps_submit h
    · exact keeps_beginFeedAfter h
  · exact h

/-- The pending table's widths are in range, so the table in use is after it is taken (R56, R112). -/
theorem headInv_takeTable (h : HeadInv s) : HeadInv { s with fire := s.fire.takeTable } := by
  obtain ⟨failed, counts, pins, table, next⟩ := h
  refine ⟨failed, counts, pins, ?_, nofun⟩
  cases hp : s.fire.pendingTable with
  | none => simpa only [Fire.takeTable, hp, Option.getD_none] using table
  | some x => simpa only [Fire.takeTable, hp, Option.getD_some] using next x hp

theorem keeps_takeTable (h : Keeps k s t) : Keeps k s { t with fire := t.fire.takeTable } :=
  h.change rfl rfl rfl rfl rfl rfl rfl
    (fun ⟨params, heat, head, counters⟩ => ⟨params, heat, headInv_takeTable head, counters⟩)

theorem keeps_planned {f : LineFields} (h : Keeps k s t) : Keeps k s (planned f t) :=
  keeps_count (.upd (keeps_takeTable h) rfl)

theorem keeps_planAndGo {f : LineFields} (h : Keeps k s t) : Keeps k s (planAndGo f t) :=
  keeps_nextWork (keeps_planned (h.upd rfl))

theorem keeps_stageLine {f : LineFields} (h : Keeps k s t) : Keeps k s (stageLine f t) := by
  unfold stageLine
  split
  · exact keeps_planAndGo h
  · exact keeps_startFeed (h.upd rfl)

theorem keeps_moveFeed {d : Int} (h : Keeps k s t) : Keeps k s (moveFeed d t) := by
  unfold moveFeed
  dsimp only
  split
  · exact keeps_startFeed h
  · split
    · exact keeps_retire h
    · split
      · exact keeps_retire h
      · exact keeps_startFeed h

theorem keeps_moveSkip {n : Nat} (h : Keeps k s t) : Keeps k s (moveSkip n t) := by
  unfold moveSkip
  split
  · exact keeps_startFeed h
  · exact keeps_retire h

theorem keeps_moveTear (h : Keeps k s t) : Keeps k s (moveTear t) := by
  unfold moveTear
  split
  · split
    · exact keeps_retire h
    · exact keeps_startFeed (h.upd rfl)
  · exact keeps_startFeed h

theorem keeps_beginMove {e : EntryKind} (h : Keeps k s t) : Keeps k s (beginMove e t) := by
  unfold beginMove
  cases e with
  | feed d => exact keeps_moveFeed (h.upd rfl)
  | skip n => exact keeps_moveSkip (h.upd rfl)
  | tear => exact keeps_moveTear (h.upd rfl)
  | line f => exact h

theorem keeps_afterRetract {e : EntryKind} (h : Keeps k s t) : Keeps k s (afterRetract e t) := by
  unfold afterRetract
  split
  · exact keeps_stageLine h
  all_goals exact keeps_beginMove h

theorem keeps_prepare {e : EntryKind} (h : Keeps k s t) : Keeps k s (prepare e t) := by
  unfold prepare
  dsimp only
  split
  · split
    · exact keeps_afterRetract (h.upd rfl)
    · exact keeps_startFeed (h.upd rfl)
  · exact keeps_afterRetract (h.upd rfl)

theorem keeps_resumeEntry {e : Entry} (h : Keeps k s t) : Keeps k s (resumeEntry e t) := by
  unfold resumeEntry
  split
  · exact keeps_prepare h
  · exact keeps_planAndGo h
  · exact keeps_nextWork (h.upd rfl)
  · exact keeps_beginFeedAfter h
  · exact keeps_beginMove h
  all_goals exact h

theorem keeps_resumeIfHeld (h : Keeps k s t) : Keeps k s (resumeIfHeld t) := by
  unfold resumeIfHeld
  split
  · split
    · exact keeps_resumeEntry h
    · exact h
  · exact h

theorem keeps_startWork (h : Keeps k s t) : Keeps k s (startWork t) := by
  unfold startWork
  split
  · exact h
  · split
    · exact keeps_prepare (h.upd rfl)
    · exact keeps_addPaperOut h

theorem keeps_holdAt {r : Resume} (h : Keeps k s t) : Keeps k s (holdAt r t) := h.upd rfl

theorem keeps_load (h : Keeps k s t) : Keeps k s (load t) := h.upd (by simp [tables])

/-! ## Causes and the ends of feed moves (R142, R149, R164, R168) -/

theorem keeps_clearAtRest (h : Keeps k s t) : Keeps k s (clearAtRest t) := h.upd (by simp [tables])

theorem keeps_finishReset (h : Keeps k s t) : Keeps k s (finishReset t) := h.upd (by simp [tables])

theorem keeps_sensorChange {b : Bool} (h : Keeps k s t) : Keeps k s (sensorChange b t) := h.upd (by simp [tables])

theorem keeps_paperEnds (h : Keeps k s t) : Keeps k s (paperEnds t) :=
  keeps_finishReset (keeps_failActive (keeps_addPaperOut (keeps_endFeed (h.upd rfl))))

theorem keeps_settleFeed (h : Keeps k s t) : Keeps k s (settleFeed t) := by
  rcases settleFeed_cases t with e | ⟨m, -, ⟨-, -, e⟩ | ⟨-, -, -, e⟩ | ⟨-, -, -, e⟩ | ⟨-, -, -, e⟩⟩ <;> rw [e]
  · exact h
  · exact keeps_paperEnds h
  · exact h.upd rfl
  · exact keeps_retire (keeps_endFeed (h.upd rfl))
  · exact keeps_retire (keeps_endFeed h)

theorem keeps_arise {c : TripCause} (h : Keeps k s t) : Keeps k s (arise c t) := by
  rcases arise_cases c t with ⟨-, e⟩ | ⟨-, e⟩ <;> rw [e]
  · refine keeps_trip ?_
    split
    · exact h
    · exact keeps_settleFeed h
  · exact h.upd rfl

theorem keeps_ariseIf {b : Bool} {c : TripCause} (h : Keeps k s t) : Keeps k s (ariseIf b c t) := by
  unfold ariseIf
  split
  · exact keeps_arise h
  · exact h

theorem keeps_ariseLevels {hot fault : Bool} (h : Keeps k s t) : Keeps k s (ariseLevels hot fault t) := by
  unfold ariseLevels
  dsimp only
  split
  · split <;> exact keeps_arise (keeps_arise (h.upd rfl))
  · exact keeps_ariseIf (keeps_ariseIf h)

theorem keeps_overlayEffects {before : State} (h : Keeps k s t) : Keeps k s (overlayEffects before t) :=
  keeps_sensorChange (keeps_testTripIf (keeps_testTripIf (keeps_ariseLevels h)))

/-! ## The link (R177 to R182) -/

theorem keeps_setMode {m : RxMode} (h : Keeps k s t) : Keeps k s (setMode m t) := h.upd rfl

theorem keeps_overrun (h : Keeps k s t) : Keeps k s (overrun t) := keeps_raise (keeps_count h)

theorem keeps_rejectFrame (h : Keeps k s t) : Keeps k s (rejectFrame t) :=
  keeps_raise (keeps_count (keeps_setMode h))

theorem keeps_rxHunt {b : LineByte} (h : Keeps k s t) : Keeps k s (rxHunt b t) := by
  unfold rxHunt
  split
  · split
    · exact keeps_setMode h
    · exact keeps_setMode (keeps_overrun h)
  · exact h

theorem keeps_rxFrameBytes {bytes : List Byte} (h : Keeps k s t) : Keeps k s (rxFrameBytes bytes t) := by
  unfold rxFrameBytes
  split
  · split
    · exact keeps_setMode h
    · exact keeps_rejectFrame h
  · split
    · split
      · exact h.upd rfl
      · exact keeps_rejectFrame h
    · exact keeps_setMode h

theorem keeps_rxByte {b : LineByte} (h : Keeps k s t) : Keeps k s (rxByte t b) := by
  unfold rxByte
  split
  · exact keeps_rxHunt h
  · unfold rxFrame
    split
    · exact keeps_rxFrameBytes h
    · exact keeps_rejectFrame h
  · exact keeps_setMode h

theorem keeps_rxBytes {bytes : List LineByte} (h : Keeps k s t) : Keeps k s (rxBytes bytes t) :=
  foldl_keeps (fun _ _ => keeps_rxByte) bytes t h

theorem keeps_arrive {f : Frame} (h : Keeps k s t) : Keeps k s (arrive f t) := by
  unfold arrive
  split
  · exact h.upd rfl
  · exact keeps_overrun h

theorem keeps_beginSending (h : Keeps k s t) : Keeps k s (beginSending t) := h.upd (by simp [tables])

/-- What a block's own answer keeps, its request keeps: arriving, waiting and replying change no table. -/
theorem keeps_serve {f : Frame} {a : State → Answer} (ha : ∀ {t}, Keeps k s t → Keeps k s (a t).1)
    (h : Keeps k s t) : Keeps k s (serve f a t) :=
  serve_keeps (fun _ _ => keeps_arrive) (fun _ h => h.upd rfl) (fun _ _ h => h.upd rfl) (fun _ => ha) h

/-! ## The feed step, marks and the rest of a stop (R86, R96, R135 to R138) -/

theorem keeps_crossForward {u : Purpose} (h : Keeps k s t) : Keeps k s (crossForward u t) := by
  have hc : Keeps k s
      (count .formsCrossed 1 { t with paper := { t.paper with y := 0, form := t.paper.form + 1#16 } }) :=
    keeps_count (h.upd rfl)
  unfold crossForward
  cases u with
  | present => exact hc
  | _ => exact hc.upd (by simp [tables])

theorem keeps_stepPosition {m : FeedMove} (h : Keeps k s t) : Keeps k s (stepPosition m t) := by
  unfold stepPosition
  split
  · split
    · split
      · exact keeps_crossForward h
      · exact h.upd rfl
    · split <;> exact h.upd rfl
  · exact h

theorem keeps_feedOne {m : FeedMove} (h : Keeps k s t) : Keeps k s (feedOne m t) :=
  keeps_testTripIf (.upd (keeps_count (keeps_stepPosition h)) rfl)

theorem keeps_clearNoMark (h : Keeps k s t) : Keeps k s (clearNoMark t) := h.upd (by simp [tables])

theorem keeps_edgeHomed {dir : Dir} (h : Keeps k s t) : Keeps k s (edgeHomed dir t) := by
  have hc : Keeps k s (clearNoMark { t with carriage := t.carriage.countMark dir }) := keeps_clearNoMark (h.upd rfl)
  unfold edgeHomed
  dsimp only
  split
  · exact keeps_arise hc
  · exact hc.upd rfl

theorem keeps_edge {dir : Dir} (h : Keeps k s t) : Keeps k s (edge dir t) := by
  unfold edge
  split
  · exact keeps_edgeHomed h
  · split
    · exact keeps_clearNoMark h
    · exact keeps_clearNoMark h
    · exact h.upd (by simp [tables])
    all_goals exact h

theorem keeps_afterRest (h : Keeps k s t) : Keeps k s (afterRest t) := by
  unfold afterRest
  refine keeps_finishReset ?_
  split
  · exact keeps_failActive h
  · exact h

theorem keeps_carriageRest (h : Keeps k s t) : Keeps k s (carriageRest t) := by
  unfold carriageRest
  refine keeps_afterRest (keeps_setRibbon (keeps_endMotion ?_))
  split
  · exact keeps_reach h
  · exact h

theorem keeps_feedRest {m : FeedMove} (h : Keeps k s t) : Keeps k s (feedRest m t) := by
  unfold feedRest
  split
  · refine keeps_afterRest ?_
    split
    · exact keeps_endFeed (h.upd rfl)
    · exact keeps_endFeed h
  all_goals
    split
    · exact h
    · exact keeps_afterRest (keeps_endFeed h)

theorem keeps_afterPass (h : Keeps k s t) : Keeps k s (afterPass t) := by
  unfold afterPass
  split
  · exact keeps_holdAt h
  · exact keeps_nextWork h

theorem keeps_endPass {pf : Profile} (h : Keeps k s t) : Keeps k s (endPass pf t) :=
  keeps_count (keeps_setRibbon (keeps_endMotion (keeps_reach (h.upd rfl))))

theorem keeps_afterStaging {next : EntryKind → State → State}
    (hn : ∀ {e}, Keeps k s t → Keeps k s (next e t)) (h : Keeps k s t) : Keeps k s (afterStaging next t) := by
  unfold afterStaging
  split
  · split
    · exact keeps_holdAt h
    · exact hn h
  · exact h

theorem keeps_stagingGoesOn {e : EntryKind} (h : Keeps k s t) : Keeps k s (stagingGoesOn e t) := by
  unfold stagingGoesOn
  split
  · exact keeps_stageLine h
  all_goals exact h

theorem keeps_moveComplete {u : Purpose} (h : Keeps k s t) : Keeps k s (moveComplete u t) := by
  cases u with
  | preload n => exact h
  | load => exact h.upd (by simp [moveComplete, tables])
  | retract => exact keeps_afterStaging keeps_afterRetract h
  | perfSkip => exact keeps_afterStaging keeps_stagingGoesOn h
  | feedAfter => exact keeps_completeLine h
  | _ => exact keeps_retire h

/-! ## Pulses (R101 to R107) -/

theorem keeps_startPulse {w : Nat} {p : Fin 24} (h : Keeps k s t) : Keeps k s (startPulse w p t) :=
  keeps_countStrike (keeps_addHeat (h.upd rfl))

theorem keeps_fireDot {w : Nat} {row : Fin 24} (h : Keeps k s t) : Keeps k s (fireDot w t row) := by
  unfold fireDot
  dsimp only
  split
  · exact keeps_count h
  · exact keeps_startPulse h

theorem keeps_takeGroup {g : DueGroup} {x : Slot} {plan : Plan} {r : PassRec} (h : Keeps k s t) :
    Keeps k s (takeGroup g x plan r t) :=
  .upd (foldl_keeps (fun _ _ => keeps_fireDot) _ _ (keeps_reach h)) rfl

/-- A count after a sense result is at most 32 (R10, R106). -/
theorem senseCount_le (n : Nat) (isOpen : Bool) : senseCount n isOpen ≤ 32 := by
  cases isOpen
  · exact Nat.zero_le _
  · exact min_le_left _ _

/-- Setting one count to one in range keeps all of them in range (R10). -/
theorem openCounts_set_le {v : Vector Nat 24} (hv : ∀ q : Fin 24, v[q] ≤ 32) (p : Fin 24) {n : Nat} (hn : n ≤ 32)
    (q : Fin 24) : (v.set p n)[q] ≤ 32 := by
  simp only [Fin.getElem_fin, Vector.getElem_set]
  split
  · exact hn
  · exact hv q

/-- What is inside a set stays inside when both sets gain the same pins (R9). -/
theorem or_and_not_or {a b : PinSet} (h : a &&& ~~~b = 0#24) (x : PinSet) : (a ||| x) &&& ~~~(b ||| x) = 0#24 := by
  ext i hi
  have hb := congrArg (fun x : PinSet => x.getLsbD i) h
  simp [hi] at hb ⊢
  exact fun hx hnb => hx.resolve_left (fun ha => by simp [hb ha] at hnb)

/-- A set loses no pin by gaining some. -/
theorem and_not_or_self (a x : PinSet) : a &&& ~~~(a ||| x) = 0#24 := by
  ext i hi
  simp
  exact fun ha hna => by simp [ha] at hna

/-- A sense count keeps the head's tables sound (R10, R106). -/
theorem keeps_setCount {p : Fin 24} {n : Nat} (hn : n ≤ 32) (h : Keeps k s t) :
    Keeps k s { t with fire := { t.fire with openCounts := t.fire.openCounts.set p n } } :=
  h.change rfl rfl rfl rfl rfl rfl rfl
    (fun ⟨params, heat, ⟨failed, counts, rest⟩, counters⟩ =>
      ⟨params, heat, ⟨failed, openCounts_set_le counts p hn, rest⟩, counters⟩)

/-- An automatic inhibition puts the pin into both sets (R9, R107). -/
theorem keeps_condemn {p : Fin 24} (h : Keeps k s t) : Keeps k s { t with fire := t.fire.condemn p } := by
  refine h.trans ⟨fun j _ => ?_, fun ⟨params, heat, ⟨failed, rest⟩, counters⟩ =>
    ⟨params, heat, ⟨or_and_not_or failed _, rest⟩, counters⟩⟩
  cases j
  case failed => exact and_not_or_self _ _
  case overlay => exact ⟨rfl, rfl⟩
  all_goals rfl

theorem keeps_applySense {p : Fin 24} {isOpen : Bool} (h : Keeps k s t) : Keeps k s (applySense p isOpen t) := by
  have hc := keeps_setCount (p := p) (senseCount_le t.fire.openCounts[p] isOpen) h
  unfold applySense
  dsimp only
  split
  · exact keeps_raise (keeps_condemn hc)
  · exact hc

/-! ## Requests of the queue and the engine (R46 to R49, R159 to R169) -/

theorem keeps_controlledStop (h : Keeps k s t) : Keeps k s (controlledStop t) := h.upd (by simp [tables])

theorem keeps_haltInPass (h : Keeps k s t) : Keeps k s (haltInPass t) := by
  unfold haltInPass
  split
  · exact h.upd rfl
  · split
    · exact keeps_holdAt (h.upd rfl)
    · split
      · exact h.upd rfl
      · exact keeps_holdAt h
    all_goals exact h.upd rfl

theorem keeps_haltAtOnce (h : Keeps k s t) : Keeps k s (haltAtOnce t) := by
  unfold haltAtOnce
  dsimp only
  split
  · exact h.upd rfl
  · split
    · exact keeps_retire (h.upd rfl)
    · exact keeps_controlledStop (h.upd rfl)

theorem keeps_resetWork (h : Keeps k s t) : Keeps k s (resetWork t) := keeps_raiseIf (h.upd rfl)

theorem keeps_erstDriven (h : Keeps k s t) : Keeps k s (erstDriven t) := by
  unfold erstDriven
  split
  · exact h.upd (by simp [tables])
  · exact h.upd (by simp [tables])

theorem keeps_resetEngineNow (h : Keeps k s t) : Keeps k s (resetEngineNow t) := by
  have hw := keeps_resetWork h
  unfold resetEngineNow
  dsimp only
  split
  · exact h
  · split
    · exact keeps_clearAtRest hw
    · exact keeps_erstDriven hw
    · exact keeps_erstDriven hw
    · exact keeps_erstDriven hw
    · exact .upd (keeps_clearAtRest hw) rfl
    · exact keeps_clearAtRest (hw.upd rfl)
    · split
      · exact keeps_clearAtRest hw
      · exact .upd (keeps_clearAtRest hw) rfl

end Sys2Proof.HeadTables
end

