-- ==== Sys2Proof/Proofs/TableRequests.lean ====
section
/-! SUPPORT. The requests that change a table each keep every other one, and leave the table they change sound. -/

namespace Sys2Proof.HeadTables

open Sys2Proof.Machine

variable {k : Option Table} {s t : State}

/-! ## SETP (R125, R184) -/

/-- A value limited to a range that is not empty lies in it. -/
theorem clampInt_mem {lo hi : Int} (h : lo ≤ hi) (v : Int) : lo ≤ clampInt lo hi v ∧ clampInt lo hi v ≤ hi := by
  unfold clampInt
  omega

/-- No parameter's range is empty (R196). -/
theorem paramLow_le_paramHigh (id : ParamId) : paramLow id ≤ paramHigh id := by
  cases id <;> decide

/-- A value that SETP takes lies in its parameter's range. -/
theorem judgeValue_mem {id : ParamId} {v w : Int} {res : Result} (h : judgeValue id v s = some (w, res)) :
    paramLow id ≤ w ∧ w ≤ paramHigh id := by
  unfold judgeValue at h
  split at h <;> split at h <;>
    simp only [inRange, Option.some.injEq, Prod.mk.injEq, Bool.and_eq_true, decide_eq_true_eq, reduceCtorEq] at *
  · exact h.1 ▸ ‹_ ∧ _›
  · exact h.1 ▸ clampInt_mem (paramLow_le_paramHigh id) v
  · exact h.1 ▸ ‹_ ∧ _›
  · exact h.1 ▸ (‹(_ ∧ _) ∧ _›).1

/-- A value that SETP takes leaves RESUME < WARMTH < HOTTH < CEILING standing (R125). -/
theorem judgeValue_chain (hs : ParamsInv s) {id : ParamId} {v w : Int} {res : Result}
    (h : judgeValue id v s = some (w, res)) : chainHolds (setParam s id w) = true := by
  have keep (hc : paramClass id ≠ .order) : chainHolds (setParam s id w) = true := by
    have hne : ∀ id', paramClass id' = .order → id ≠ id' := fun id' h' e => hc (e ▸ h')
    simp only [chainHolds, param_setParam_ne s w (hne .resume rfl), param_setParam_ne s w (hne .warmth rfl),
      param_setParam_ne s w (hne .hotth rfl), param_setParam_ne s w (hne .ceiling rfl), Bool.and_eq_true,
      decide_eq_true_eq, and_assoc]
    exact hs.2
  cases hc : paramClass id with
  | tune => exact keep (by simp [hc])
  | geom => exact keep (by simp [hc])
  | order =>
    simp only [judgeValue, hc] at h
    split at h
    · next hv =>
      simp only [Option.some.injEq, Prod.mk.injEq] at h
      exact h.1 ▸ (Bool.and_eq_true _ _ ▸ hv).2
    · simp at h

theorem paramsInv_setParam (hs : ParamsInv s) {id : ParamId} {v w : Int} {res : Result}
    (h : judgeValue id v s = some (w, res)) : ParamsInv (setParam s id w) := by
  refine ⟨fun id' => ?_, ?_⟩
  · by_cases e : id = id'
    · subst e
      simpa using judgeValue_mem h
    · simpa only [param_setParam_ne s w e] using hs.1 id'
  · simpa only [chainHolds, Bool.and_eq_true, decide_eq_true_eq, and_assoc] using judgeValue_chain hs h

/-- The band is what H gives (R119). -/
def BandOk (s : State) : Prop := s.heat.band = if (s.heat.h : Int) < param s .warmth then .cool else .warm

/-- The latch is set at HOTTH and clear at RESUME (R120). -/
def LatchOk (s : State) : Prop :=
  (param s .hotth ≤ (s.heat.h : Int) → s.heat.latch = true) ∧
    ((s.heat.h : Int) ≤ param s .resume → s.heat.latch = false)

theorem heatInv_iff : HeatInv s ↔ s.heat.h ≤ 16777215 ∧ BandOk s ∧ LatchOk s := Iff.rfl

theorem bandOk_setParam {id : ParamId} {w : Int} (hid : id ≠ .warmth) (h : BandOk s) : BandOk (setParam s id w) := by
  simpa only [BandOk, param_setParam_ne s w hid, setParam_frame] using h

theorem latchOk_setParam {id : ParamId} {w : Int} (h1 : id ≠ .hotth) (h2 : id ≠ .resume) (h : LatchOk s) :
    LatchOk (setParam s id w) := by
  simpa only [LatchOk, param_setParam_ne s w h1, param_setParam_ne s w h2, setParam_frame] using h

theorem bandOk_judgeBand (h : ParamsInv s) : BandOk (judgeBand s) := bandOf_eq h s.heat.h

theorem latchOk_judgeLatch (h : ParamsInv s) : LatchOk (judgeLatch s) := latchOf_inv h s.heat.h s.heat.latch

/-- What a SETP acts on at once judges anew all that the parameter bears on (R119, R120). -/
theorem tablesInv_afterSetp (hs : TablesInv s) {id : ParamId} {v w : Int} {res : Result}
    (hj : judgeValue id v s = some (w, res)) : TablesInv (afterSetp id (setParam s id w)) := by
  obtain ⟨params, heat, head, counters⟩ := hs
  obtain ⟨hh, hb, hl⟩ := heatInv_iff.mp heat
  have hp := paramsInv_setParam params hj
  have whole (band : BandOk (setParam s id w)) (latch : LatchOk (setParam s id w)) : TablesInv (setParam s id w) :=
    ⟨hp, ⟨hh, band, latch⟩, head, counters⟩
  have relatched (band : BandOk (setParam s id w)) : TablesInv (judgeLatch (setParam s id w)) :=
    ⟨hp, ⟨hh, band, latchOk_judgeLatch hp⟩, head, counters⟩
  cases id
  case warmth =>
    exact ⟨hp, ⟨hh, bandOk_judgeBand hp, latchOk_setParam (by decide) (by decide) hl⟩, head, counters⟩
  case hotth => exact (keeps_retest (.refl none _)).sound (relatched (bandOk_setParam (by decide) hb))
  case resume => exact (keeps_retest (.refl none _)).sound (relatched (bandOk_setParam (by decide) hb))
  case ceiling =>
    exact (keeps_retest (.refl none _)).sound
      (whole (bandOk_setParam (by decide) hb) (latchOk_setParam (by decide) (by decide) hl))
  case wakeins =>
    exact tablesInv_congr (by simp [tables, afterSetp])
      (whole (bandOk_setParam (by decide) hb) (latchOk_setParam (by decide) (by decide) hl))
  all_goals exact whole (bandOk_setParam (by decide) hb) (latchOk_setParam (by decide) (by decide) hl)

theorem keeps_doSetp {r : SetpReq} (h : Keeps (some .params) s t) : Keeps (some .params) s (doSetp r t).1 := by
  unfold doSetp
  split
  · exact h
  · split
    · exact h
    · split
      · next w res hj =>
        refine h.trans ⟨fun j hj => ?_, fun hs => tablesInv_afterSetp hs hj⟩
        cases j
        case params => exact absurd rfl hj
        all_goals simp [Table.Same]
      · exact h

/-! ## PMAP, PINH and ETAB (R6, R7, R11, R113) -/

/-- A map passes R6's third check exactly when no two rows name one pin. -/
theorem pinsDistinct_iff (m : Vector MapRow 24) :
    pinsDistinct m = true ↔ ∀ r q : Fin 24, m[r].pin = m[q].pin → r = q := by
  rw [pinsDistinct, decide_eq_true_iff]
  exact ⟨fun h r q => List.inj_on_of_nodup_map h (List.mem_finRange r) (List.mem_finRange q),
    fun h => (List.nodup_finRange 24).map_on (fun r _ q _ => h r q)⟩

/-- A map that names every pin once may replace the map in force (R3, R7). -/
theorem keeps_setMap {m : Vector MapRow 24} (hm : ∀ r q : Fin 24, m[r].pin = m[q].pin → r = q)
    (h : Keeps (some .pinMap) s t) : Keeps (some .pinMap) s (setMap m t) := by
  refine h.trans ⟨fun j hj => ?_, fun ⟨params, heat, ⟨failed, counts, _, widths⟩, counters⟩ =>
    ⟨params, heat, ⟨failed, counts, hm, widths⟩, counters⟩⟩
  cases j
  case pinMap => exact absurd rfl hj
  case failed => exact BitVec.and_not_self _
  case overlay => exact ⟨rfl, rfl⟩
  all_goals rfl

theorem keeps_doPmap {o : Option (Vector RowReq 24)} (h : Keeps (some .pinMap) s t) :
    Keeps (some .pinMap) s (doPmap o t).1 := by
  rcases doPmap_cases o t with e | ⟨rows, -, hd, e⟩ <;> rw [e]
  · exact h
  · exact keeps_setMap ((pinsDistinct_iff _).mp hd) h

/-- Clearing pins from both sets, and then inhibiting more, leaves the failed pins inhibited (R9, R11). -/
theorem cleared_and_not_or {a b : PinSet} (h : a &&& ~~~b = 0#24) (c x : PinSet) :
    a &&& ~~~c &&& ~~~(b &&& ~~~c ||| x) = 0#24 := by
  ext i hi
  have hb := congrArg (fun x : PinSet => x.getLsbD i) h
  simp [hi] at hb ⊢
  exact fun ha hc hn => absurd hn (by simp [hb ha, hc])

theorem keeps_doPinh {r : PinhReq} (h : Keeps (some .failed) s t) : Keeps (some .failed) s (doPinh r t).1 := by
  refine h.trans ⟨fun j hj => ?_, fun ⟨params, heat, ⟨failed, counts, rest⟩, counters⟩ =>
    ⟨params, heat, ⟨cleared_and_not_or failed _ _, fun p => ?_, rest⟩, counters⟩⟩
  · cases j
    case failed => exact absurd rfl hj
    case overlay => exact ⟨rfl, rfl⟩
    all_goals rfl
  · simp only [doPinh, Fire.setPins, Fire.clearPins, Fin.getElem_fin, Vector.getElem_ofFn]
    split
    · exact Nat.zero_le _
    · exact counts p

/-- A width that is limited lies in 100..600 (R113). -/
theorem clampWidth_mem (w : BitVec 16) : 100 ≤ clampWidth w ∧ clampWidth w ≤ 600 := by
  unfold clampWidth
  omega

/-- The table an ETAB asks for has its widths in range (R113). -/
theorem tableOf_mem (r : EtabReq) (i : Fin 6) :
    100 ≤ (tableOf r).cool[i] ∧ (tableOf r).cool[i] ≤ 600 ∧ 100 ≤ (tableOf r).warm[i] ∧ (tableOf r).warm[i] ≤ 600 := by
  simp only [tableOf, Fin.getElem_fin, Vector.getElem_ofFn]
  exact ⟨(clampWidth_mem _).1, (clampWidth_mem _).2, clampWidth_mem _⟩

theorem keeps_doEtab {o : Option EtabReq} (h : Keeps k s t) : Keeps k s (doEtab o t).1 := by
  unfold doEtab
  split
  · exact h
  · next r =>
    exact h.change rfl rfl rfl rfl rfl rfl rfl
      (fun ⟨params, heat, ⟨failed, counts, pins, table, _⟩, counters⟩ =>
        ⟨params, heat, ⟨failed, counts, pins, table, fun x hx => Option.some.inj hx ▸ tableOf_mem r⟩, counters⟩)

/-! ## EMSK, TOVL and CNTR (R172, R186, R192) -/

theorem keeps_doEmsk {o : Option (BitVec 16)} (h : Keeps (some .mask) s t) : Keeps (some .mask) s (doEmsk o t).1 := by
  unfold doEmsk
  split
  · exact h
  · split
    · refine h.trans ⟨fun j hj => ?_, id⟩
      cases j
      case mask => exact absurd rfl hj
      case failed => exact BitVec.and_not_self _
      case overlay => exact ⟨rfl, rfl⟩
      all_goals rfl
    · exact h

theorem keeps_setOverlay {m : OverlayMode} {i : BitVec 6} (h : Keeps (some .overlay) s t) :
    Keeps (some .overlay) s (setOverlay m i t) := by
  refine h.trans ⟨fun j hj => ?_, id⟩
  cases j
  case overlay => exact absurd rfl hj
  case failed => exact BitVec.and_not_self _
  all_goals rfl

theorem keeps_syncObserved (h : Keeps k s t) : Keeps k s (syncObserved t) := h.upd (by simp [tables])

theorem keeps_emptyTestTrips (h : Keeps k s t) : Keeps k s (emptyTestTrips t) := h.upd rfl

theorem keeps_doTovl {o : Option TovlReq} (h : Keeps (some .overlay) s t) :
    Keeps (some .overlay) s (doTovl o t).1 := by
  unfold doTovl
  split
  · exact h
  · split
    · exact h
    · split
      · split
        · exact keeps_emptyTestTrips (keeps_overlayEffects (keeps_syncObserved (keeps_setOverlay h)))
        · exact h
      · exact h

theorem keeps_doSnap (h : Keeps (some .snapshot) s t) : Keeps (some .snapshot) s (doSnap t).1 := by
  refine h.trans ⟨fun j hj => ?_, fun ⟨params, heat, head, live, _⟩ => ⟨params, heat, head, live, live⟩⟩
  cases j
  case snapshot => exact absurd rfl hj
  case failed => exact BitVec.and_not_self _
  case overlay => exact ⟨rfl, rfl⟩
  all_goals rfl

theorem keeps_doClear {mask : Byte} (h : Keeps k s t) : Keeps k s (doClear mask t).1 := by
  unfold doClear
  split
  · exact keeps_live h (fun hb => bankOk_clear hb _ _) rfl
  · exact h

end Sys2Proof.HeadTables
end

