-- ==== Sys2Proof/Proofs/StepKeepsTables.lean ====
section
/-! Every command keeps every table but its own, and every step keeps the tables sound: O54 and O60. -/

namespace Sys2Proof.HeadTables

open Sys2Proof.Machine

variable {k : Option Table} {s t : State}

/-! ## Requests and events -/

/-- A request keeps what its block's answer keeps. -/
theorem keeps_request {c : Instr} {a : State → Answer} (he : exec c s = request c a s)
    (ha : ∀ {t}, Keeps k s t → Keeps k s (a t).1) : Keeps k s (after c s) := by
  have h := keeps_beginSending (Keeps.refl k s)
  unfold after
  rw [he]
  unfold request
  cases encodeFrame c with
  | some f => exact keeps_serve ha h
  | none => exact h

/-- A request of one layout keeps what the handling of its fields keeps (R182). -/
theorem keeps_fields {c : Instr} {α : Type} {w : Wire α} {a : α → State → Answer}
    (he : exec c s = request c (onFields w a) s) (ha : ∀ {x t}, Keeps k s t → Keeps k s (a x t).1) :
    Keeps k s (after c s) :=
  keeps_request he fun h => onFields_keeps h fun _ _ => ha

/-- An event keeps what its effect keeps. -/
theorem keeps_event {c : Instr} {f : State → State} (he : exec c s = acting f s)
    (hf : ∀ t, Keeps k s t → Keeps k s (f t)) : Keeps k s (after c s) := by
  unfold after
  rw [he]
  exact hf _ (keeps_beginSending (.refl k s))

/-! ## The Link Unit's events (R177 to R183, R187) -/

theorem keeps_frameReceived (bytes : List LineByte) : Keeps k s (after (.frameReceived bytes) s) :=
  keeps_event rfl fun _ => keeps_rxBytes

theorem keeps_byteGapTimeout : Keeps k s (after .byteGapTimeout s) := by
  refine keeps_event (by unfold exec execByteGapTimeout; rfl) fun t h => ?_
  split
  · exact h
  · exact keeps_rejectFrame h
  · exact keeps_setMode h

theorem keeps_receiveOverrun : Keeps k s (after .receiveOverrun s) := by
  refine keeps_event (by unfold exec execReceiveOverrun; rfl) fun t h => ?_
  split
  · exact keeps_setMode (keeps_overrun h)
  · exact h

theorem keeps_discardedFramePassedOver : Keeps k s (after .discardedFramePassedOver s) := by
  refine keeps_event (by unfold exec execDiscardedFramePassedOver; rfl) fun t h => ?_
  split
  · exact h
  · exact h
  · exact keeps_setMode h

theorem keeps_replySent : Keeps k s (after .replySent s) := by
  refine keeps_event (by unfold exec execReplySent; rfl) fun t h => ?_
  dsimp only
  split
  · exact h.upd rfl
  · exact h

theorem keeps_noticeSent : Keeps k s (after .noticeSent s) := by
  refine keeps_event (by unfold exec execNoticeSent; rfl) fun t h => ?_
  dsimp only
  split
  · exact h.upd rfl
  all_goals exact h

theorem keeps_unknownKind (kind tag : Byte) (p : List Byte) : Keeps k s (after (.unknownKind kind tag p) s) := by
  have h := keeps_beginSending (Keeps.refl k s)
  rcases after_unknownKind kind tag p s with e | e <;> rw [e]
  · exact h
  · exact keeps_serve id h

/-! ## Requests that change no table (R44, R46 to R50, R156 to R170, R188 to R192) -/

theorem keeps_evnt (tag : Byte) (req : Wire Unit) : Keeps k s (after (.evnt tag req) s) :=
  keeps_fields rfl fun h => h.upd rfl

theorem keeps_getp (tag : Byte) (req : Wire Byte) : Keeps k s (after (.getp tag req) s) := by
  refine keeps_fields rfl fun {x t} h => ?_
  unfold doGetp
  split <;> exact h

theorem keeps_cntrRead (tag group : Byte) : Keeps k s (after (.cntrRead tag group) s) := by
  refine keeps_request rfl fun {t} h => ?_
  unfold doRead
  split
  · exact h
  · split <;> exact h

/-- A slot request keeps what its own part keeps (R17). -/
theorem keeps_slotAnswer {b : Byte} {a : Fin 8 → State → State × Result}
    (ha : ∀ {i}, Keeps k s t → Keeps k s (a i t).1) (h : Keeps k s t) : Keeps k s (slotAnswer b a t).1 := by
  unfold slotAnswer
  split
  · exact h
  · exact ha h

theorem keeps_slotOpen (tag : Byte) (req : Wire OpenReq) : Keeps k s (after (.slotOpen tag req) s) := by
  refine keeps_fields rfl (keeps_slotAnswer fun {i} h => ?_)
  unfold openSlot
  split
  · exact h
  · split
    · exact h.upd rfl
    · exact h

theorem keeps_slotData (tag : Byte) (req : Wire DataReq) : Keeps k s (after (.slotData tag req) s) := by
  refine keeps_fields rfl (keeps_slotAnswer fun {i} h => ?_)
  unfold storeData
  split
  · exact h
  · split
    · exact h
    · split
      · exact h
      · split
        · exact h.upd rfl
        · exact h

theorem keeps_slotSeal (tag : Byte) (req : Wire Byte) : Keeps k s (after (.slotSeal tag req) s) := by
  refine keeps_fields rfl (keeps_slotAnswer fun {i} h => ?_)
  unfold sealSlot
  split
  · exact h.upd rfl
  · exact h

theorem keeps_slotDrop (tag : Byte) (req : Wire Byte) : Keeps k s (after (.slotDrop tag req) s) := by
  refine keeps_fields rfl (keeps_slotAnswer fun {i} h => ?_)
  unfold dropSlot
  split
  · exact h
  · exact h.upd rfl
  · exact h.upd rfl
  all_goals exact h

theorem keeps_wakeIfDue (h : Keeps k s t) : Keeps k s (wakeIfDue t) := h.upd (by simp [tables])

theorem keeps_enqueue {tag : Byte} {e : EntryKind} (h : Keeps k s t) : Keeps k s (enqueue tag e t) :=
  keeps_wakeIfDue (h.upd rfl)

theorem keeps_enqueueAnswer {tag : Byte} {o : Option EntryKind} (h : Keeps k s t) :
    Keeps k s (enqueueAnswer tag o t).1 := by
  unfold enqueueAnswer
  split
  · exact h
  · unfold tryEnqueue
    split
    · exact h
    · split
      · split
        · exact keeps_enqueue (h.upd rfl)
        · exact h
      all_goals exact keeps_enqueue h

theorem keeps_haltLine (tag : Byte) (req : HaltForm) : Keeps k s (after (.haltLine tag req) s) := by
  cases req with
  | lineMode => exact keeps_request rfl fun h => h.upd (by simp [tables])
  | undefinedMode m => exact keeps_request rfl id
  | wrongLength p => exact keeps_request rfl id

theorem keeps_doGo (h : Keeps k s t) : Keeps k s (doGo t).1 := by
  unfold doGo
  dsimp only
  split
  · exact h
  · refine keeps_wakeIfDue ?_
    split
    · exact keeps_resumeIfHeld (h.upd rfl)
    · exact h.upd rfl

theorem keeps_doCmpl {n : Byte} (h : Keeps k s t) : Keeps k s (doCmpl n t).1 := by
  unfold doCmpl
  dsimp only
  split
  · exact h.upd rfl
  · exact h

theorem keeps_doForm {o : Option FormReq} (h : Keeps k s t) : Keeps k s (doForm o t).1 := by
  unfold doForm
  split
  · exact h
  · dsimp only
    split
    · exact h.upd rfl
    · exact h

theorem keeps_enterHoming (h : Keeps k s t) : Keeps k s (enterHoming t) := h.upd (by simp [tables])

theorem keeps_engage (h : Keeps k s t) : Keeps k s (engage t).1 := by
  unfold engage
  split
  · exact keeps_enterHoming h
  · split
    · exact keeps_enterHoming h
    · exact h
  · split
    · exact keeps_enterHoming h
    · exact h
  · exact h
  · exact h
  · exact h.upd rfl
  · exact h

theorem keeps_restEngine (h : Keeps k s t) : Keeps k s (restEngine t).1 := by
  unfold restEngine
  split
  · split
    · exact h
    · exact h.upd rfl
  · split
    · exact h
    · exact h.upd rfl
  · split
    · exact h
    · exact h.upd rfl
  all_goals exact h

theorem keeps_wakeEngine (h : Keeps k s t) : Keeps k s (wakeEngine t).1 := by
  unfold wakeEngine
  split
  · exact h.upd rfl
  · exact h

theorem keeps_doClrf (h : Keeps k s t) : Keeps k s (doClrf t).1 := by
  unfold doClrf
  split
  · split
    · exact h
    · exact h.upd rfl
  · exact h

/-! ## The executor's and the carriage's events (R37, R79 to R96) -/

theorem keeps_executorStart : Keeps k s (after .executorStart s) := by
  refine keeps_event (by unfold exec execExecutorStart; rfl) fun t h => ?_
  split
  · exact keeps_resumeIfHeld h
  · split
    · exact keeps_startWork h
    · exact h

theorem keeps_repositionEnd : Keeps k s (after .repositionEnd s) := by
  refine keeps_event (by unfold exec execRepositionEnd; rfl) fun t h => ?_
  split
  · split
    · unfold arriveAtStart
      split
      · exact keeps_holdAt (keeps_endMotion (keeps_reach h))
      · exact .upd (keeps_endMotion (keeps_reach h)) rfl
    · exact h
  · exact h

theorem keeps_setPhase {ph : MotionPhase} (h : Keeps k s t) : Keeps k s (setPhase ph t) := h.upd rfl

theorem keeps_setDue {o : Option Nat} (h : Keeps k s t) : Keeps k s (setDue o t) := h.upd rfl

theorem keeps_cruiseStart : Keeps k s (after .cruiseStart s) := by
  refine keeps_event (by unfold exec execCruiseStart; rfl) fun t h => ?_
  split
  · split
    · exact keeps_setDue (keeps_setPhase (keeps_reach h))
    · exact h
  · exact h

theorem keeps_cruiseEnd : Keeps k s (after .cruiseEnd s) := by
  refine keeps_event (by unfold exec execCruiseEnd; rfl) fun t h => ?_
  split
  · split
    · exact keeps_setPhase (keeps_reach h)
    · exact h
  · exact h

theorem keeps_passEnd : Keeps k s (after .passEnd s) := by
  refine keeps_event (by unfold exec execPassEnd; rfl) fun t h => ?_
  split
  · split
    · exact keeps_afterPass (keeps_endPass h)
    · exact h
  · exact h

theorem keeps_fireGroupTaken : Keeps k s (after .fireGroupTaken s) := by
  refine keeps_event (by unfold exec execFireGroupTaken; rfl) fun t h => ?_
  split
  · split
    · exact keeps_takeGroup h
    · exact h
  · exact h

theorem keeps_pulseEnd (p : Fin 24) (isOpen : Bool) : Keeps k s (after (.pulseEnd p isOpen) s) := by
  refine keeps_event (by unfold exec execPulseEnd; rfl) fun t h => ?_
  split
  · exact keeps_applySense (h.upd (by simp [tables]))
  · exact h

theorem keeps_markEdge (dir : Dir) (n : Nat) : Keeps k s (after (.markEdge dir n) s) := by
  refine keeps_event (by unfold exec execMarkEdge; rfl) fun t h => ?_
  dsimp only
  split
  · exact keeps_travel h
  · exact keeps_edge (keeps_travel h)

theorem keeps_encoderLost : Keeps k s (after .encoderLost s) := by
  refine keeps_event (by unfold exec execEncoderLost; rfl) fun t h => ?_
  split
  · exact keeps_arise (keeps_travel h)
  · exact h

theorem keeps_homeSensorActive : Keeps k s (after .homeSensorActive s) := by
  refine keeps_event (by unfold exec execHomeSensorActive; rfl) fun t h => ?_
  dsimp only
  split <;> exact h.upd rfl

theorem keeps_homeFail : Keeps k s (after .homeFail s) := by
  refine keeps_event (by unfold exec execHomeFail; rfl) fun t h => ?_
  split
  · exact keeps_arise (keeps_travel h)
  · exact h

theorem keeps_parkEnd : Keeps k s (after .parkEnd s) := by
  refine keeps_event (by unfold exec execParkEnd; rfl) fun t h => ?_
  split
  · split
    · exact keeps_load (keeps_endMotion (keeps_reach h))
    · exact h
  · exact h

theorem keeps_stopAtRest : Keeps k s (after .stopAtRest s) := by
  refine keeps_event (by unfold exec execStopAtRest; rfl) fun t h => ?_
  split
  · split
    · exact keeps_carriageRest h
    · exact h
  · split
    · split
      · exact keeps_feedRest h
      · exact h
    · exact h

/-! ## The paper's events (R137 to R151) -/

theorem keeps_feedStep : Keeps k s (after .feedStep s) := by
  refine keeps_event (by unfold exec execFeedStep; rfl) fun t h => ?_
  split
  · split
    · exact keeps_feedOne h
    · exact h
  · exact h

theorem keeps_paperEnd : Keeps k s (after .paperEnd s) := by
  refine keeps_event (by unfold exec execPaperEnd; rfl) fun t h => ?_
  split
  · split
    · exact keeps_paperEnds h
    · exact h
  · exact h

theorem keeps_paperJam : Keeps k s (after .paperJam s) := by
  refine keeps_event (by unfold exec execPaperJam; rfl) fun t h => ?_
  split
  · exact keeps_arise h
  · exact h

theorem keeps_ejectFail : Keeps k s (after .ejectFail s) := by
  refine keeps_event (by unfold exec execEjectFail; rfl) fun t h => ?_
  split
  · split
    · exact keeps_retire (keeps_endFeed h)
    · exact h
  · exact h

theorem keeps_feedMoveEnd : Keeps k s (after .feedMoveEnd s) := by
  refine keeps_event (by unfold exec execFeedMoveEnd; rfl) fun t h => ?_
  split
  · split
    · refine keeps_moveComplete (keeps_endFeed ?_)
      split
      · exact h.upd rfl
      · exact h
    · exact h
  · exact h

theorem keeps_preloadComplete : Keeps k s (after .preloadComplete s) := by
  refine keeps_event (by unfold exec execPreloadComplete; rfl) fun t h => ?_
  dsimp only
  split
  · split
    · split
      · exact h
      · exact h.upd (by simp [tables])
    all_goals exact h
  · exact h

theorem keeps_paperMotionPulse : Keeps k s (after .paperMotionPulse s) := by
  refine keeps_event (by unfold exec execPaperMotionPulse; rfl) fun t h => ?_
  dsimp only
  split
  · exact h
  · split <;> exact h.upd rfl

/-! ## The engine's events and timers (R118, R158, R162, R163, R174) -/

theorem keeps_testTrip (c : TripCause) : Keeps k s (after (.testTrip c) s) := by
  refine keeps_event (by unfold exec execTestTrip; rfl) fun t h => ?_
  split
  · split
    · unfold encoderTestTrip
      dsimp only
      split
      · exact keeps_travel h
      · exact h
    · unfold jamTestTrip
      split
      · split
        · exact keeps_feedOne h
        · exact h
      · exact h
    all_goals exact h
  · exact h

theorem keeps_holdTimerExpiry : Keeps k s (after .holdTimerExpiry s) := by
  refine keeps_event (by unfold exec execHoldTimerExpiry; rfl) fun t h => ?_
  dsimp only
  split
  · exact h.upd rfl
  · exact h

theorem keeps_warmupExpiry : Keeps k s (after .warmupExpiry s) := by
  refine keeps_event (by unfold exec execWarmupExpiry; rfl) fun t h => ?_
  dsimp only
  split
  · refine keeps_raise ?_
    split
    · exact keeps_enterHoming (h.upd rfl)
    all_goals exact h.upd rfl
  · exact h

/-- Cooling lowers H, so it stays in range (R117, R118). -/
theorem keeps_coolingTick : Keeps k s (after .coolingTick s) :=
  keeps_event rfl fun _ h => keeps_retest (keeps_setHeat (Nat.sub_le _ _).trans h)

/-! ## The input lines (R79, R141, R163) -/

theorem keeps_paperSensorAbsent : Keeps k s (after .paperSensorAbsent s) := by
  refine keeps_event (by unfold exec execPaperSensorAbsent; rfl) fun t h => ?_
  exact keeps_sensorChange (h.upd rfl)

theorem keeps_paperSensorPresent : Keeps k s (after .paperSensorPresent s) := by
  refine keeps_event (by unfold exec execPaperSensorPresent; rfl) fun t h => ?_
  exact keeps_sensorChange (h.upd rfl)

theorem keeps_headHotAsserted : Keeps k s (after .headHotAsserted s) := by
  refine keeps_event (by unfold exec execHeadHotAsserted; rfl) fun t h => ?_
  exact keeps_ariseIf (h.upd rfl)

theorem keeps_driverFaultAsserted : Keeps k s (after .driverFaultAsserted s) := by
  refine keeps_event (by unfold exec execDriverFaultAsserted; rfl) fun t h => ?_
  exact keeps_ariseIf (h.upd rfl)

theorem keeps_headHotQuiet : Keeps k s (after .headHotQuiet s) := by
  refine keeps_event (by unfold exec execHeadHotQuiet; rfl) fun t h => ?_
  exact h.upd rfl

theorem keeps_driverFaultQuiet : Keeps k s (after .driverFaultQuiet s) := by
  refine keeps_event (by unfold exec execDriverFaultQuiet; rfl) fun t h => ?_
  exact h.upd rfl

theorem keeps_homeSensorInactive : Keeps k s (after .homeSensorInactive s) := by
  refine keeps_event (by unfold exec execHomeSensorInactive; rfl) fun t h => ?_
  exact h.upd rfl

/-! ## Every command -/

/-- The table a command may change, if there is one (R7, R9, R172, R185, R186, R192). -/
def ownTable : Instr → Option Table
  | .setp .. => some .params
  | .pmap .. => some .pinMap
  | .emsk .. => some .mask
  | .tovl .. => some .overlay
  | .pinh .. => some .failed
  | .cntrSnap .. => some .snapshot
  | _ => none

/-- Power-on and the RESET line. -/
def isReset : Instr → Bool
  | .powerOn _ | .resetLine _ => true
  | _ => false

theorem keeps_cntrSnap (tag : Byte) (req : SnapForm) : Keeps (some .snapshot) s (after (.cntrSnap tag req) s) := by
  cases req with
  | snap u => exact keeps_request rfl keeps_doSnap
  | undefinedOp o p => exact keeps_request rfl id
  | wrongLength p => exact keeps_request rfl id

/-- Every command but the two resets keeps every table but its own, and keeps the tables sound. -/
theorem keeps_after (c : Instr) (hc : isReset c = false) (s : State) : Keeps (ownTable c) s (after c s) := by
  cases c with
  | powerOn r => exact absurd hc (by simp [isReset])
  | resetLine r => exact absurd hc (by simp [isReset])
  | frameReceived bytes => exact keeps_frameReceived bytes
  | byteGapTimeout => exact keeps_byteGapTimeout
  | receiveOverrun => exact keeps_receiveOverrun
  | unknownKind kind tag p => exact keeps_unknownKind kind tag p
  | replySent => exact keeps_replySent
  | noticeSent => exact keeps_noticeSent
  | stat tag req => exact keeps_fields rfl id
  | evnt tag req => exact keeps_evnt tag req
  | emsk tag req => exact keeps_fields rfl keeps_doEmsk
  | setp tag req => exact keeps_fields rfl keeps_doSetp
  | getp tag req => exact keeps_getp tag req
  | cntrSnap tag req => exact keeps_cntrSnap tag req
  | cntrRead tag group => exact keeps_cntrRead tag group
  | cntrClear tag mask => exact keeps_request rfl keeps_doClear
  | slotOpen tag req => exact keeps_slotOpen tag req
  | slotData tag req => exact keeps_slotData tag req
  | slotSeal tag req => exact keeps_slotSeal tag req
  | slotDrop tag req => exact keeps_slotDrop tag req
  | line tag req => exact keeps_fields rfl keeps_enqueueAnswer
  | feed tag req => exact keeps_fields rfl keeps_enqueueAnswer
  | skip tag req => exact keeps_fields rfl keeps_enqueueAnswer
  | tear tag req => exact keeps_fields rfl keeps_enqueueAnswer
  | haltLine tag req => exact keeps_haltLine tag req
  | haltPass tag => exact keeps_request rfl keeps_haltInPass
  | haltNow tag => exact keeps_request rfl keeps_haltAtOnce
  | go tag req => exact keeps_fields rfl keeps_doGo
  | flsh tag req => exact keeps_fields rfl fun h => keeps_raiseIf (h.upd rfl)
  | cmpl tag req => exact keeps_fields rfl keeps_doCmpl
  | pmap tag req => exact keeps_fields rfl keeps_doPmap
  | pinh tag req => exact keeps_fields rfl keeps_doPinh
  | etab tag req => exact keeps_fields rfl keeps_doEtab
  | form tag req => exact keeps_fields rfl keeps_doForm
  | enga tag req => exact keeps_fields rfl keeps_engage
  | rest tag req => exact keeps_fields rfl keeps_restEngine
  | wake tag req => exact keeps_fields rfl keeps_wakeEngine
  | clrf tag req => exact keeps_fields rfl keeps_doClrf
  | erst tag req => exact keeps_fields rfl keeps_resetEngineNow
  | dout tag req => exact keeps_fields rfl fun h => h.upd rfl
  | tovl tag req => exact keeps_fields rfl keeps_doTovl
  | executorStart => exact keeps_executorStart
  | repositionEnd => exact keeps_repositionEnd
  | cruiseStart => exact keeps_cruiseStart
  | cruiseEnd => exact keeps_cruiseEnd
  | passEnd => exact keeps_passEnd
  | fireGroupTaken => exact keeps_fireGroupTaken
  | pulseEnd p isOpen => exact keeps_pulseEnd p isOpen
  | markEdge dir n => exact keeps_markEdge dir n
  | encoderLost => exact keeps_encoderLost
  | homeSensorActive => exact keeps_homeSensorActive
  | homeFail => exact keeps_homeFail
  | parkEnd => exact keeps_parkEnd
  | feedStep => exact keeps_feedStep
  | paperEnd => exact keeps_paperEnd
  | paperJam => exact keeps_paperJam
  | ejectFail => exact keeps_ejectFail
  | feedMoveEnd => exact keeps_feedMoveEnd
  | stopAtRest => exact keeps_stopAtRest
  | paperMotionPulse => exact keeps_paperMotionPulse
  | paperSensorAbsent => exact keeps_paperSensorAbsent
  | paperSensorPresent => exact keeps_paperSensorPresent
  | headHotAsserted => exact keeps_headHotAsserted
  | driverFaultAsserted => exact keeps_driverFaultAsserted
  | testTrip c => exact keeps_testTrip c
  | holdTimerExpiry => exact keeps_holdTimerExpiry
  | warmupExpiry => exact keeps_warmupExpiry
  | coolingTick => exact keeps_coolingTick
  | headHotQuiet => exact keeps_headHotQuiet
  | driverFaultQuiet => exact keeps_driverFaultQuiet
  | homeSensorInactive => exact keeps_homeSensorInactive
  | discardedFramePassedOver => exact keeps_discardedFramePassedOver
  | preloadComplete => exact keeps_preloadComplete

/-! ## Power-on (R3, R9, R10, R112, R116, R190, R196) -/

/-- Every parameter has its default at power-on (R185, R196). -/
theorem param_powerOn (rate : LinkRate) (lines : Lines) (n : Nat) (q : List Instr) (id : ParamId) :
    param (State.powerOnState rate lines n q) id = paramDefault id := by
  cases id <;> rfl

/-- Row r of the default pin map names pin r, with offset 0 or 6, enabled (R3). -/
theorem defaultPinMap_getElem (r : Fin 24) : defaultPinMap[r] = ⟨r, if r.val % 2 = 0 then 0 else 6, true⟩ := by
  simp [defaultPinMap, defaultMapRow]

/-- The default table's widths are in range (R112). -/
theorem defaultTable_mem (i : Fin 6) : 100 ≤ defaultTable.cool[i] ∧ defaultTable.cool[i] ≤ 600 ∧
    100 ≤ defaultTable.warm[i] ∧ defaultTable.warm[i] ≤ 600 := by
  revert i
  decide

theorem bankOk_cleared : BankOk clearedBank := by
  constructor <;> simp [clearedBank]

/-- The tables are sound at power-on. -/
theorem tablesInv_powerOn (rate : LinkRate) (lines : Lines) (n : Nat) (q : List Instr) :
    TablesInv (State.powerOnState rate lines n q) := by
  refine ⟨?_, ?_, ?_, bankOk_cleared, bankOk_cleared⟩
  · simp only [ParamsInv, param_powerOn]
    exact ⟨fun id => by cases id <;> decide, by decide⟩
  · simp only [HeatInv, param_powerOn, paramDefault]
    simp [State.powerOnState, resetHeat]
  · refine ⟨BitVec.and_not_self 0#24, fun p => ?_, fun r q h => ?_, defaultTable_mem, nofun⟩
    · simp [State.powerOnState, resetFire]
    · simpa only [State.powerOnState, resetFire, defaultPinMap_getElem] using h

/-- Every command keeps the tables sound; the two resets make them so. -/
theorem tablesInv_after (c : Instr) (hs : TablesInv s) : TablesInv (after c s) := by
  cases hc : isReset c with
  | false => exact (keeps_after c hc s).sound hs
  | true =>
    have reset (r : LinkRate) : TablesInv
        (ariseLevels s.lines.headHot s.lines.driverFault (State.powerOnState r s.lines s.freeCount s.pending)) :=
      (keeps_ariseLevels (.refl none _)).sound (tablesInv_powerOn r s.lines s.freeCount s.pending)
    cases c with
    | powerOn r => exact reset r
    | resetLine r => exact reset r
    | _ => cases hc

/-- What a command answers is its next state. -/
theorem eq_after {c : Instr} (h : exec c s = .next t) : t = after c s :=
  Host.Outcome.next.inj (h.symm.trans (exec_after c s))

/-- A tick of time changes no table. -/
theorem keeps_tick (h : Keeps k s t) : Keeps k s (tick t) := by
  unfold tick
  split
  · exact keeps_travel h
  · exact h.upd rfl

/-- One step keeps the tables sound. -/
theorem tablesInv_step (hs : TablesInv s) (h : step s = .next t) : TablesInv t := by
  unfold step at h
  split at h
  · next c rest _ =>
    rw [eq_after h]
    exact tablesInv_after c (tablesInv_congr (t := { s with pending := rest }) rfl hs)
  · split at h
    · obtain rfl := Host.Outcome.next.inj h
      exact (keeps_beginSending (.refl none s)).sound hs
    · split at h
      · next c _ =>
        rw [eq_after h]
        exact tablesInv_after c hs
      · obtain rfl := Host.Outcome.next.inj h
        exact (keeps_tick (.refl none s)).sound hs

end Sys2Proof.HeadTables

namespace Sys2Proof

open Sys2Proof.Machine Sys2Proof.HeadTables

/-- Settles O54: every command keeps the tables sound by `keeps_after`, and so does what the block does of itself. -/
theorem stepKeepsTablesInRange : Obligations.StepKeepsTablesInRange :=
  fun _ _ h params heat head counters => tablesInv_step ⟨params, heat, head, counters⟩ h

/-- Settles O60: by `keeps_after` a command changes no table but the one that `ownTable` names for it. -/
theorem tablesChangeOnlyByTheirRequests : Obligations.TablesChangeOnlyByTheirRequests := by
  intro c s t h hp hr
  obtain rfl := eq_after h
  have hc : isReset c = false := by
    cases c with
    | powerOn r => exact absurd rfl (hp r)
    | resetLine r => exact absurd rfl (hr r)
    | _ => rfl
  have same (j : Table) (hj : ownTable c ≠ some j) : j.Same s (after c s) :=
    (keeps_after c hc s).same j (Ne.symm hj)
  refine ⟨fun hn => same .params ?_, fun hn => same .pinMap ?_, fun hn => same .mask ?_, fun hn => same .overlay ?_,
    fun hn => same .failed ?_, fun hn => same .snapshot ?_⟩
  all_goals
    intro e
    unfold ownTable at e
    split at e <;> cases e
    exact hn _ _ rfl

end Sys2Proof
end

