-- ==== Sys2Proof/Proofs/HeadRequests.lean ====
section
/-! The requests PMAP, ETAB and PINH, the event PULSE_END, and reset: O23, O24, O31, O41 and O58. -/

namespace Sys2Proof.HeadTables

open Sys2Proof.Machine

variable {s : State}

/-! ## Requests that can be decoded (R181, R182) -/

/-- A request that can be decoded answers the payload its block makes, in the state its block makes. -/
theorem exec_replied {c : Instr} {f : Frame} {a : State → Answer} {kind : Byte} {payload : List Byte} {u : State}
    (hr : Ready c s) (he : encodeFrame c = some f) (hx : exec c s = request c a s) (hk : f.kind + 0x80#8 = kind)
    (ha : a (dropOldest s) = (dropOldest u, payload)) : exec c s = .next (replied kind f.tag payload u) := by
  rw [hx, hr.request he, ha, ← hk]
  rfl

/-! ## PMAP (R5 to R7) -/

/-- PMAP's first check fails exactly with a line ACTIVE, in HOMING or with the carriage moving (R6). -/
theorem pmapBlocked_iff (s : State) :
    pmapBlocked s = true ↔ lineActive s = true ∨ s.engine.state = .homing ∨ s.carriage.phase ≠ .stopped := by
  simp [pmapBlocked, carriageMoving, or_assoc]

/-- PMAP's second check passes exactly when every row is within its ranges (R6). -/
theorem rowsValid_iff (rows : Vector RowReq 24) :
    rowsValid rows = true ↔
      ∀ r : Fin 24, rows[r].pin.toNat < 24 ∧ rows[r].offset.toNat < 16 ∧ rows[r].enabled.toNat < 2 := by
  simp [rowsValid, rowValid, and_assoc, Nat.lt_succ_iff]

theorem mapOf_getElem (rows : Vector RowReq 24) (r : Fin 24) : (mapOf rows)[r] = rowOf rows[r] := by
  simp [mapOf]

/-- The row of the map that a valid row of the request becomes. -/
theorem rowOf_valid {r : RowReq} (hp : r.pin.toNat < 24) (ho : r.offset.toNat < 16) :
    (rowOf r).pin.val = r.pin.toNat ∧ (rowOf r).offset.val = r.offset.toNat ∧
      ((rowOf r).enabled = true ↔ r.enabled = 1#8) := by
  simp [rowOf, Fin.ofNat, Nat.mod_eq_of_lt hp, Nat.mod_eq_of_lt ho]

/-- A valid row reads back as the bytes it came in. -/
theorem mapRowBytes_rowOf {r : RowReq} (hp : r.pin.toNat < 24) (ho : r.offset.toNat < 16)
    (he : r.enabled.toNat < 2) : mapRowBytes (rowOf r) = [r.pin, r.offset, r.enabled] := by
  obtain ⟨hpin, hoff, -⟩ := rowOf_valid hp ho
  have hen : boolByte (rowOf r).enabled = r.enabled := by
    have : r.enabled = 0#8 ∨ r.enabled = 1#8 := by bv_omega
    rcases this with e | e <;> simp [rowOf, boolByte, e]
  simp [mapRowBytes, byteOf, hpin, hoff, hen]

/-- Valid rows name distinct pins in the map exactly when they do in the request (R6). -/
theorem pinsDistinct_mapOf {rows : Vector RowReq 24} (hv : rowsValid rows = true) :
    pinsDistinct (mapOf rows) = true ↔ ∀ r q : Fin 24, rows[r].pin = rows[q].pin → r = q := by
  have hp (r : Fin 24) : (rowOf rows[r]).pin.val = rows[r].pin.toNat :=
    (rowOf_valid ((rowsValid_iff rows).mp hv r).1 ((rowsValid_iff rows).mp hv r).2.1).1
  have he (r q : Fin 24) : (rowOf rows[r]).pin = (rowOf rows[q]).pin ↔ rows[r].pin = rows[q].pin := by
    rw [Fin.ext_iff, hp, hp, BitVec.toNat_inj]
  simp only [pinsDistinct_iff, mapOf_getElem, he]

/-- The reply to an accepted map carries the request's own bytes (R5, R7). -/
theorem pmapReply_setMap {rows : Vector RowReq 24} (hv : rowsValid rows = true) (s : State) :
    pmapReply .ok (setMap (mapOf rows) s) =
      0x00#8 :: (List.finRange 24).flatMap (fun r => [rows[r].pin, rows[r].offset, rows[r].enabled]) := by
  have hrow (r : Fin 24) : mapRowBytes (mapOf rows)[r] = [rows[r].pin, rows[r].offset, rows[r].enabled] := by
    obtain ⟨hp, ho, he⟩ := (rowsValid_iff rows).mp hv r
    rw [mapOf_getElem, mapRowBytes_rowOf hp ho he]
  simp only [pmapReply, setMap, hrow]
  rfl

theorem doPmap_blocked {rows : Vector RowReq 24} (h : pmapBlocked s = true) :
    doPmap (some rows) s = (s, pmapReply .wrongState s) := by
  simp [doPmap, h]

theorem doPmap_invalid {rows : Vector RowReq 24} (hb : pmapBlocked s = false) (h : rowsValid rows = false) :
    doPmap (some rows) s = (s, pmapReply .badValue s) := by
  simp [doPmap, hb, h]

theorem doPmap_duplicate {rows : Vector RowReq 24} (hb : pmapBlocked s = false) (hv : rowsValid rows = true)
    (h : pinsDistinct (mapOf rows) = false) : doPmap (some rows) s = (s, pmapReply .duplicatePin s) := by
  simp [doPmap, hb, hv, h]

theorem doPmap_set {rows : Vector RowReq 24} (hb : pmapBlocked s = false) (hv : rowsValid rows = true)
    (h : pinsDistinct (mapOf rows) = true) :
    doPmap (some rows) s = (setMap (mapOf rows) s, pmapReply .ok (setMap (mapOf rows) s)) := by
  simp [doPmap, hb, hv, h]

/-! ## ETAB (R113, R114) -/

/-- The table whose widths are the request's, limited, is the one ETAB makes pending (R113). -/
theorem eq_tableOf {t : EtabReq} {n : EnergyTable}
    (h : ∀ i : Fin 6, n.cool[i] = max 100 (min 600 t.cool[i].toNat) ∧ n.warm[i] = max 100 (min 600 t.warm[i].toNat)) :
    n = tableOf t := by
  obtain ⟨cool, warm⟩ := n
  simp only [tableOf, EnergyTable.mk.injEq]
  refine ⟨Vector.ext fun i hi => ?_, Vector.ext fun i hi => ?_⟩
  · simpa [clampWidth] using (h ⟨i, hi⟩).1
  · simpa [clampWidth] using (h ⟨i, hi⟩).2

/-- A width was replaced exactly when the table differs from the request's (R113). -/
theorem tableClamped_iff (t : EtabReq) :
    tableClamped t = true ↔
      ∃ i : Fin 6, (tableOf t).cool[i] ≠ t.cool[i].toNat ∨ (tableOf t).warm[i] ≠ t.warm[i].toNat := by
  simp [tableClamped, tableOf]

end Sys2Proof.HeadTables

namespace Sys2Proof

open Sys2Proof.Machine Sys2Proof.HeadTables

/-- Settles O23: PMAP by its checks in R6's order, ETAB by whether a width was replaced. -/
theorem pmapAndEtabSetTheirTables : Obligations.PmapAndEtabSetTheirTables := by
  refine ⟨fun tag s => ⟨fun hr => exec_replied hr rfl rfl rfl rfl, fun rows hr => ⟨fun hb => ?_, fun hl he hc => ?_⟩⟩,
    fun tag s => ⟨fun hr => exec_replied hr rfl rfl rfl rfl, fun t n u hr hn hu => ?_⟩⟩
  · exact exec_replied hr rfl rfl rfl (doPmap_blocked (s := dropOldest s) ((pmapBlocked_iff s).mpr hb))
  · have hb : pmapBlocked (dropOldest s) = false := by
      rw [← Bool.not_eq_true]
      exact fun h => ((pmapBlocked_iff s).mp h).elim (by simp [hl]) (·.elim he (· hc))
    refine ⟨fun ⟨r, hbad⟩ => ?_, fun hgood => ?_⟩
    · refine exec_replied hr rfl rfl rfl (doPmap_invalid hb ?_)
      rw [← Bool.not_eq_true, rowsValid_iff]
      exact fun h => by have := h r; omega
    · have hv := (rowsValid_iff rows).mpr hgood
      refine ⟨fun ⟨r, q, hne, heq⟩ => ?_, fun hd => ?_⟩
      · refine exec_replied hr rfl rfl rfl (doPmap_duplicate hb hv ?_)
        rw [← Bool.not_eq_true, pinsDistinct_mapOf hv]
        exact fun h => hne (h r q heq)
      · refine ⟨mapOf rows, fun r => ?_, ?_⟩
        · rw [mapOf_getElem]
          exact rowOf_valid (hgood r).1 (hgood r).2.1
        · rw [← pmapReply_setMap hv s]
          exact exec_replied hr rfl rfl rfl (doPmap_set hb hv ((pinsDistinct_mapOf hv).mpr hd))
  · obtain rfl := eq_tableOf hn
    subst hu
    refine ⟨fun hsame => exec_replied hr rfl rfl rfl ?_, fun hdiff => exec_replied hr rfl rfl rfl ?_⟩
    · have hc : tableClamped t = false := by
        rw [← Bool.not_eq_true, tableClamped_iff]
        exact fun ⟨i, h⟩ => h.elim (· (hsame i).1) (· (hsame i).2)
      simp only [onFields, doEtab, hc]
      rfl
    · simp only [onFields, doEtab, (tableClamped_iff t).mpr hdiff]
      rfl

/-- Settles O24: the clear mask takes effect before the set mask. -/
theorem pinhClearsThenSets : Obligations.PinhClearsThenSets := by
  intro tag r counts s hr hc
  have hcounts : Vector.ofFn (fun p : Fin 24 => if r.clear.getLsbD p then 0 else s.fire.openCounts[p]) = counts :=
    Vector.ext fun i hi => by rw [Vector.getElem_ofFn]; exact (hc ⟨i, hi⟩).symm
  subst hcounts
  exact exec_replied hr rfl rfl rfl rfl

end Sys2Proof
end

