-- ==== Sys2Proof/Proofs/PulsesAndReset.lean ====
section
/-! The event PULSE_END, power-on, and the state after reset: O31, O41 and O58. -/

namespace Sys2Proof.HeadTables

open Sys2Proof.Machine

variable {s : State}

/-! ## PULSE_END (R103, R106, R107, R110) -/

/-- The state with pin p released, before its sense result: the plan-time inhibit set is emptied by the last pulse that
outlasts an ERST's stop (R99, R110). -/
def released (p : Fin 24) (s : State) : State :=
  { s with fire := { s.fire with
      driving := s.fire.driving &&& ~~~BitVec.twoPow 24 p
      planInhibit := if hasActive s = false ∧ s.engine.resetPending = false ∧
        s.fire.driving &&& ~~~BitVec.twoPow 24 p = 0#24 then 0#24 else s.fire.planInhibit } }

theorem settlePulses_drive (p : Fin 24) (s : State) :
    settlePulses { s with fire := s.fire.drive p false } = released p s := by
  have ha : hasActive { s with fire := s.fire.drive p false } = hasActive s := rfl
  have hd : (s.fire.drive p false).driving = s.fire.driving &&& ~~~BitVec.twoPow 24 p := rfl
  unfold settlePulses released
  split
  · next h =>
    simp only [ha, hd, Bool.and_eq_true, Bool.not_eq_true', decide_eq_true_eq, and_assoc] at h
    rw [if_pos h]
    rfl
  · next h =>
    simp only [ha, hd, Bool.and_eq_true, Bool.not_eq_true', decide_eq_true_eq, and_assoc] at h
    rw [if_neg h]
    rfl

/-- A pin that is not driving gives no result. -/
theorem exec_pulseEnd_idle {p : Fin 24} (hs : Settled s) (h : s.fire.driving.getLsbD p = false) (isOpen : Bool) :
    exec (.pulseEnd p isOpen) s = .next s := by
  simp only [exec, execPulseEnd, hs.acting, h, Bool.false_eq_true, if_false]

/-- A driving pin is released and its sense result applied. -/
theorem exec_pulseEnd_driving {p : Fin 24} (hs : Settled s) (h : s.fire.driving.getLsbD p = true) (isOpen : Bool) :
    exec (.pulseEnd p isOpen) s = .next (applySense p isOpen (released p s)) := by
  simp only [exec, execPulseEnd, hs.acting, h, if_true, settlePulses_drive]

/-- An OPEN result inhibits exactly with OPENLIM in 1..32 and the count at or above it (R107). -/
theorem inhibitsAt_iff (s : State) (n : Nat) :
    inhibitsAt (paramNat s .openlim) n = true ↔
      1 ≤ param s .openlim ∧ param s .openlim ≤ 32 ∧ param s .openlim ≤ n := by
  unfold inhibitsAt paramNat
  simp only [Bool.and_eq_true, decide_eq_true_eq]
  omega

/-- An OPEN result that does not inhibit the pin counts alone (R106). -/
theorem applySense_counts {p : Fin 24} {n : Nat} (hn : n = min 32 (s.fire.openCounts[p] + 1))
    (h : inhibitsAt (paramNat s .openlim) n = false) :
    applySense p true s = { s with fire := { s.fire with openCounts := s.fire.openCounts.set p n } } := by
  subst hn
  unfold applySense senseCount
  simp only [if_true, Config.openMax, h, Bool.and_false, Bool.false_eq_true, if_false]

/-- An OPEN result that inhibits the pin puts it into both sets and raises PIN_FAILED (R107). -/
theorem applySense_inhibits {p : Fin 24} {n : Nat} (hn : n = min 32 (s.fire.openCounts[p] + 1))
    (h : inhibitsAt (paramNat s .openlim) n = true) :
    applySense p true s = raise .pinFailed { s with fire := { s.fire with
      inhibit := s.fire.inhibit ||| BitVec.twoPow 24 p
      failed := s.fire.failed ||| BitVec.twoPow 24 p
      openCounts := s.fire.openCounts.set p n } } := by
  subst hn
  unfold applySense senseCount
  simp only [if_true, Config.openMax, h, Bool.and_true]
  rfl

/-! ## Power-on (R154, R163, R166) -/

/-- A cause that arises outside TRIPPED with no feed move made trips the part at once. -/
theorem arise_eq_trip {c : TripCause} (he : s.engine.state ≠ .tripped) (hm : s.paper.move = none) :
    arise c s = trip c s := by
  simp [arise, he, settleFeed, hm]

/-- A level already asserted trips the part from its reset state. -/
theorem arise_powerOn (c : TripCause) (rate : LinkRate) (lines : Lines) (n : Nat) (q : List Instr) :
    arise c (State.powerOnState rate lines n q) = trip c (State.powerOnState rate lines n q) :=
  arise_eq_trip (by simp [State.powerOnState, resetEngine]) rfl

/-- Two levels that arise together are taken in either order, one free value read (R166, log 12). -/
theorem ariseLevels_both (s : State) :
    ariseLevels true true s = arise .driverFault (arise .headHot { s with freeCount := s.freeCount + 1 }) ∨
      ariseLevels true true s = arise .headHot (arise .driverFault { s with freeCount := s.freeCount + 1 }) := by
  simp only [ariseLevels, Bool.and_self, if_true]
  split
  · exact .inr rfl
  · exact .inl rfl

/-! ## The state after reset -/

theorem paperInv_reset : PaperInv State.reset := by
  refine ⟨by simp only [FormOk]; decide, nofun, by decide, fun _ => rfl, fun _ => rfl, by decide, by decide, by decide,
    by decide, nofun⟩

theorem slotsInv_reset : SlotsInv State.reset := by
  intro i
  have hf : State.reset.slots[i] = freeSlot := by simp [State.reset, State.powerOnState]
  rw [hf]
  exact ⟨⟨fun _ => rfl, fun h => absurd rfl h⟩, rfl⟩

/-- Nothing moves, works, waits or drives after reset, so every premise of MotionInv but the absent ones fails. -/
theorem motionInv_reset : MotionInv State.reset := by
  constructor
  case feeds => exact nofun
  all_goals decide

end Sys2Proof.HeadTables

namespace Sys2Proof

open Sys2Proof.Machine Sys2Proof.HeadTables

/-- Settles O41: a driving pin is released, and its sense result counts or inhibits by `inhibitsAt_iff`. -/
theorem pulseEndAppliesTheSense : Obligations.PulseEndAppliesTheSense := by
  intro s p u hs hu
  have hrel (n : Nat) : { released p s with fire := { (released p s).fire with
      openCounts := (released p s).fire.openCounts.set p n } } = u n := (hu n).symm
  refine ⟨exec_pulseEnd_idle hs, fun hd => ⟨?_, fun n hn => ⟨fun hno => ?_, fun h1 h2 h3 => ?_⟩⟩⟩
  · rw [exec_pulseEnd_driving hs hd, ← hrel]
    rfl
  · have h : inhibitsAt (paramNat (released p s) .openlim) n = false := by
      rw [← Bool.not_eq_true, inhibitsAt_iff]
      have hp : param (released p s) .openlim = param s .openlim := rfl
      omega
    rw [exec_pulseEnd_driving hs hd, applySense_counts (s := released p s) hn h, hrel]
  · have h : inhibitsAt (paramNat (released p s) .openlim) n = true := (inhibitsAt_iff _ n).mpr ⟨h1, h2, h3⟩
    rw [exec_pulseEnd_driving hs hd, applySense_inhibits (s := released p s) hn h, ← hrel]
    rfl

/-- Settles O31: the levels of the lines alone decide what follows the reset state. -/
theorem powerOnResetsEveryRecord : Obligations.PowerOnResetsEveryRecord := by
  intro strap s u hu
  have hx : exec (.powerOn strap) s = .next (ariseLevels s.lines.headHot s.lines.driverFault u) := by rw [hu]; rfl
  have ht (c : TripCause) : arise c u = trip c u := hu ▸ arise_powerOn c strap s.lines s.freeCount s.pending
  refine ⟨rfl, fun h1 h2 => ?_, fun h1 h2 => ?_, fun h1 h2 => ?_, fun h1 h2 v hv => ?_, ?_⟩
  · rw [hx, h1, h2]
    rfl
  · rw [hx, h1, h2, ← ht]
    rfl
  · rw [hx, h1, h2, ← ht]
    rfl
  · have hv' (c : TripCause) : arise c v = trip c v := by
      rw [hv, hu]
      exact arise_powerOn c strap s.lines (s.freeCount + 1) s.pending
    rw [hx, h1, h2, ← hv', ← hv', hv]
    exact (ariseLevels_both u).imp (congrArg _) (congrArg _)
  · subst hu
    refine ⟨rfl, fun i => ?_, rfl, rfl, rfl, rfl, rfl, fun r => ⟨?_, ?_⟩, rfl, rfl, rfl, rfl, rfl, rfl, rfl, rfl, rfl,
      rfl, fun g => ?_, fun p => ?_, rfl, rfl, rfl, rfl, fun id => ?_, rfl, rfl, rfl, rfl, rfl⟩
    · simp [State.powerOnState, freeSlot]
    · exact defaultPinMap_getElem r
    · simp [State.powerOnState, resetFire]
    · simp [State.powerOnState, clearedBank]
    · simp [State.powerOnState, clearedBank]
    · exact param_powerOn strap s.lines s.freeCount s.pending id

/-- Settles O58: the tables by `tablesInv_powerOn`, the rest read off the reset state. -/
theorem resetStateIsSound : Obligations.ResetStateIsSound := by
  obtain ⟨params, heat, head, counters⟩ := tablesInv_powerOn .bps115200 ⟨false, false, false, false⟩ 0 []
  refine ⟨params, heat, head, counters, paperInv_reset, ?_, ?_, slotsInv_reset, ?_, motionInv_reset, ?_, fun f => ?_⟩
  · unfold CarriageInv; decide
  · unfold QueueInv; decide
  · unfold LinkInv; decide
  · unfold TripInv; decide
  · exact ⟨by decide, .inl rfl⟩

end Sys2Proof
end

