-- ==== Sys2Proof/Proofs/QueueAndSlots.lean ====
section
/-! SUPPORT. The entries that name a slot, what the operations of queue and slots make of each slot, and the soundness
of queue, completion list, slots and Link Unit (R16, R24, R32, R43, R180 to R187) under each of those operations. -/

namespace Sys2Proof.QueueAndSlots

open Sys2Proof.Machine

variable {cap : Nat} {s t : State} {e : Entry} {rest : List Entry} {o : EntryOutcome} {i : Fin 8}

/-! ## The entries that name a slot (R24) -/

/-- Whether an entry is a LINE that names a slot. -/
def names (i : Fin 8) (e : Entry) : Bool :=
  match e.kind with
  | .line f => decide (f.slot = i)
  | .feed _ | .skip _ | .tear => false

theorem naming_eq_filter (i : Fin 8) (q : List Entry) : naming i q = q.filter (names i) := rfl

theorem names_line {f : LineFields} (h : e.kind = .line f) (i : Fin 8) : names i e = decide (f.slot = i) := by
  simp [names, h]

/-- An entry of another kind names no slot. -/
theorem names_other (h : ∀ f, e.kind ≠ .line f) (i : Fin 8) : names i e = false := by
  unfold names
  split
  · next f hf => exact absurd hf (h f)
  all_goals rfl

theorem naming_cons (i : Fin 8) (e : Entry) (q : List Entry) :
    naming i (e :: q) = if names i e then e :: naming i q else naming i q := by
  simp only [naming_eq_filter, List.filter_cons]

/-- An entry names its slot whether it is QUEUED or ACTIVE. -/
theorem naming_activated (i : Fin 8) (e : Entry) (q : List Entry) :
    naming i ({ e with active := true } :: q) =
      if names i e then { e with active := true } :: naming i q else naming i q :=
  naming_cons i _ q

theorem naming_append (i : Fin 8) (q : List Entry) (e : Entry) :
    naming i (q ++ [e]) = naming i q ++ if names i e then [e] else [] := by
  simp only [naming_eq_filter, List.filter_append, List.filter_cons, List.filter_nil]

theorem naming_filter (i : Fin 8) (p : Entry → Bool) (q : List Entry) :
    naming i (q.filter p) = (naming i q).filter p := by
  simp only [naming_eq_filter, List.filter_filter, Bool.and_comm]

/-- Some entry of a queue names a slot exactly when the entries that name it are not none. -/
theorem any_names (i : Fin 8) (q : List Entry) : q.any (names i) = !(naming i q).isEmpty := by
  induction q with
  | nil => rfl
  | cons e q ih =>
    rw [List.any_cons, naming_cons, ih]
    cases names i e <;> simp

/-! ## What the operations make of each slot (R24 to R27) -/

theorem getElem_set (v : Vector Slot 8) (i j : Fin 8) (x : Slot) : (v.set i x)[j] = if i = j then x else v[j] := by
  simp only [Fin.getElem_fin, Vector.getElem_set, Fin.ext_iff]

theorem moveSlot_getElem (i j : Fin 8) (st : SlotState) (s : State) :
    (moveSlot i st s).slots[j] = if i = j then { s.slots[i] with state := st } else s.slots[j] :=
  getElem_set s.slots i j _

/-- Activation moves the slot that the entry names to PRINTING (R24). -/
theorem printSlot_getElem (e : Entry) (slots : Vector Slot 8) (i : Fin 8) :
    (printSlot e.kind slots)[i] = if names i e then { slots[i] with state := .printing } else slots[i] := by
  unfold printSlot
  split
  · next f hf =>
    rw [getElem_set, names_line hf]
    by_cases h : f.slot = i <;> simp [h]
  all_goals simp_all [names]

/-- Retirement frees the slot that the entry names, or seals it with its image when the entry failed (R25, R26). -/
theorem releaseSlot_getElem (e : Entry) (o : EntryOutcome) (slots : Vector Slot 8) (i : Fin 8) :
    (releaseSlot e o slots)[i] =
      if names i e then (if o.failed then { slots[i] with state := .sealed } else freeSlot) else slots[i] := by
  unfold releaseSlot
  split
  · next f hf =>
    rw [names_line hf]
    by_cases h : f.slot = i <;> split <;> rw [getElem_set] <;> simp [h]
  all_goals simp_all [names]

/-- The slots that removed entries name are sealed with their images (R27). -/
theorem sealRemoved_getElem (gone : List Entry) (slots : Vector Slot 8) (i : Fin 8) :
    (sealRemoved slots gone)[i] = if gone.any (names i) then { slots[i] with state := .sealed } else slots[i] := by
  induction gone generalizing slots with
  | nil => rfl
  | cons e rest ih =>
    cases hk : e.kind with
    | line f =>
      simp only [sealRemoved, hk, ih, getElem_set, List.any_cons, names_line hk]
      by_cases h : f.slot = i <;> simp [h]
    | _ => simp only [sealRemoved, hk, ih, List.any_cons, names, Bool.false_or]

/-! ## A slot with the entries that name it (R16, R24) -/

/-- A slot is sound with the entries that name it. -/
def SlotSound (x : Slot) (l : List Entry) : Prop :=
  SlotOk x ∧
    (match x.state with
      | .bound => ∃ e, l = [e] ∧ e.active = false
      | .printing => ∃ e, l = [e] ∧ e.active = true
      | .free | .filling | .sealed => l = [])

/-- A slot that no entry names is neither BOUND nor PRINTING. -/
theorem slotSound_nil {x : Slot} : SlotSound x [] ↔ SlotOk x ∧ x.state ≠ .bound ∧ x.state ≠ .printing := by
  unfold SlotSound
  cases x.state <;> simp

/-- A slot that an entry names is named by that one alone: PRINTING by an ACTIVE entry, BOUND by a QUEUED one. -/
theorem slotSound_cons {x : Slot} {l : List Entry} :
    SlotSound x (e :: l) ↔ SlotOk x ∧ l = [] ∧ x.state = if e.active then .printing else .bound := by
  unfold SlotSound
  cases x.state <;> cases he : e.active <;> simp [he, and_comm]

theorem slotOk_withState {x : Slot} (h : SlotOk x) (hx : x.state ≠ .free) {st : SlotState} (hst : st ≠ .free) :
    SlotOk { x with state := st } := ⟨fun e => absurd e hst, fun _ => h.2 hx⟩

theorem slotOk_freeSlot : SlotOk freeSlot := ⟨fun _ => rfl, fun h => absurd rfl h⟩

/-- A named slot holds an image. -/
theorem SlotSound.not_free {x : Slot} {l : List Entry} (h : SlotSound x (e :: l)) : x.state ≠ .free := by
  rw [(slotSound_cons.mp h).2.2]
  split <;> decide

/-- A named slot whose entry leaves is sound, sealed with its image. -/
theorem SlotSound.sealed {x : Slot} {l : List Entry} (h : SlotSound x (e :: l)) :
    SlotSound { x with state := .sealed } [] :=
  slotSound_nil.mpr ⟨slotOk_withState h.1 h.not_free (by decide), nofun, nofun⟩

/-! ## The ACTIVE entry (R32) -/

theorem hasActive_nil (h : s.queue = []) : hasActive s = false := by
  simp [hasActive, activeEntry, h]

theorem hasActive_cons (h : s.queue = e :: rest) : hasActive s = e.active := by
  cases ha : e.active <;> simp [hasActive, activeEntry, h, ha]

/-- With every entry QUEUED none is ACTIVE. -/
theorem hasActive_eq_false (h : ∀ e ∈ s.queue, e.active = false) : hasActive s = false := by
  cases hq : s.queue with
  | nil => exact hasActive_nil hq
  | cons e rest => exact (hasActive_cons hq).trans (h e (hq ▸ List.mem_cons_self))

theorem hasActive_congr (h : t.queue = s.queue) : hasActive t = hasActive s := by
  simp only [hasActive, activeEntry, h]

/-! ## Soundness -/

/-- The Link Unit's places are sound, with at most so many replies: a request is answered with one place free. -/
def Places (cap : Nat) (l : Link) : Prop :=
  l.replies.length ≤ cap ∧ placesUsed l ≤ 2 ∧ (l.notice = true → l.outstanding = true) ∧
    (l.tx = .reply → l.replies ≠ [])

/-- The queue with the completion list, the slots, and the Link Unit's places are sound. -/
structure Sound (cap : Nat) (s : State) : Prop where
  queue : QueueInv s
  slots : ∀ i : Fin 8, SlotSound s.slots[i] (naming i s.queue)
  link : Places cap s.link

theorem sound_iff : Sound 4 s ↔ QueueInv s ∧ SlotsInv s ∧ LinkInv s :=
  ⟨fun h => ⟨h.queue, h.slots, h.link⟩, fun ⟨queue, slots, link⟩ => ⟨queue, slots, link⟩⟩

/-- All that soundness reads of a state, but the link. -/
def store (s : State) : List Entry × List Completion × Vector Slot 8 := (s.queue, s.completions, s.slots)

/-- All that soundness reads of a state. -/
def front (s : State) : (List Entry × List Completion × Vector Slot 8) × Link := (store s, s.link)

/-- A change of the link alone. -/
theorem Sound.relink {cap' : Nat} (h : Sound cap s) (e : store t = store s)
    (hl : Places cap s.link → Places cap' t.link) : Sound cap' t := by
  simp only [store, Prod.mk.injEq] at e
  obtain ⟨hq, hc, hs⟩ := e
  refine ⟨?_, ?_, hl h.link⟩
  · simpa only [QueueInv, hq, hc, hasActive_congr hq] using h.queue
  · simpa only [hq, hs] using h.slots

/-- A change of anything that soundness does not read. -/
theorem Sound.upd (h : Sound cap s) (e : front t = front s) : Sound cap t := by
  simp only [front, Prod.mk.injEq] at e
  exact h.relink e.1 (e.2 ▸ id)

/-! ## Queue and slots (R24 to R28, R33, R39, R42, R50) -/

/-- A slot that no entry names may change to any sound slot that none need name. -/
theorem sound_setSlot {x : Slot} (h : Sound cap s) (hi : naming i s.queue = []) (hx : SlotSound x []) :
    Sound cap (setSlot i x s) := by
  refine ⟨h.queue, fun j => ?_, h.link⟩
  simp only [setSlot, getElem_set]
  split
  · next e => exact e ▸ hi ▸ hx
  · exact h.slots j

/-- A slot that is neither BOUND nor PRINTING is named by no entry. -/
theorem Sound.unnamed (h : Sound cap s) (hb : s.slots[i].state ≠ .bound) (hp : s.slots[i].state ≠ .printing) :
    naming i s.queue = [] := by
  have hi := h.slots i
  cases hn : naming i s.queue with
  | nil => rfl
  | cons e l =>
    rw [hn] at hi
    obtain ⟨-, -, hst⟩ := slotSound_cons.mp hi
    split at hst
    · exact absurd hst hp
    · exact absurd hst hb

/-- The ACTIVE entry leaves the queue: room for its record is kept while it is ACTIVE, and its slot is its own. -/
theorem sound_leaveQueue (h : Sound cap s) (hq : s.queue = e :: rest) (ha : e.active = true) :
    Sound cap (leaveQueue e rest o s) := by
  obtain ⟨hlen, htail, -, hroom⟩ := h.queue
  rw [hasActive_cons hq] at hroom
  rw [hq] at hlen htail
  have hnone : hasActive (leaveQueue e rest o s) = false := hasActive_eq_false htail
  refine ⟨⟨(Nat.le_succ _).trans hlen, fun x hx => htail x (List.mem_of_mem_tail hx), ?_, ?_⟩, fun i => ?_, h.link⟩
  · have := hroom ha
    simp only [leaveQueue, List.length_append, List.length_singleton]
    omega
  · simp [hnone]
  · have hi := h.slots i
    rw [hq, naming_cons] at hi
    simp only [leaveQueue, releaseSlot_getElem]
    split
    · next hn =>
      rw [if_pos hn] at hi
      obtain ⟨-, hone, -⟩ := slotSound_cons.mp hi
      rw [hone]
      split
      · exact hi.sealed
      · exact slotSound_nil.mpr ⟨slotOk_freeSlot, nofun, nofun⟩
    · next hn =>
      rw [if_neg hn] at hi
      exact hi

/-- The oldest QUEUED entry becomes ACTIVE when there is room for its record. -/
theorem sound_activated (h : Sound cap s) (hq : s.queue = e :: rest) (hc : s.completions.length < 32) {x : Executor} :
    Sound cap { s with queue := { e with active := true } :: rest, slots := printSlot e.kind s.slots, exec := x } := by
  obtain ⟨hlen, htail, -, -⟩ := h.queue
  rw [hq] at hlen htail
  refine ⟨⟨hlen, htail, hc.le, fun _ => Nat.le_of_lt_succ hc⟩, fun i => ?_, h.link⟩
  have hi := h.slots i
  rw [hq, naming_cons] at hi
  simp only [printSlot_getElem, naming_activated]
  split
  · next hn =>
    rw [if_pos hn] at hi
    have hfree := hi.not_free
    obtain ⟨hok, hone, -⟩ := slotSound_cons.mp hi
    exact slotSound_cons.mpr ⟨slotOk_withState hok hfree (by decide), hone, rfl⟩
  · next hn =>
    rw [if_neg hn] at hi
    exact hi

/-- A QUEUED entry joins a queue that has room, its slot, if it names one, being BOUND to it alone. -/
theorem sound_append (h : Sound cap s) (he : e.active = false) (hlen : s.queue.length < 16) {slots : Vector Slot 8}
    (hs : ∀ i : Fin 8, if names i e then SlotSound slots[i] [e] ∧ naming i s.queue = [] else slots[i] = s.slots[i]) :
    Sound cap { s with queue := s.queue ++ [e], slots := slots } := by
  obtain ⟨-, htail, hcl, hroom⟩ := h.queue
  refine ⟨⟨by simpa using hlen, fun x hx => ?_, hcl, fun hact => hroom ?_⟩, fun i => ?_, h.link⟩
  · cases hq : s.queue with
    | nil => simp [hq] at hx
    | cons a l =>
      simp only [hq, List.cons_append, List.tail_cons, List.mem_append, List.mem_singleton] at hx
      rcases hx with hx | rfl
      · exact htail x (by rw [hq]; exact hx)
      · exact he
  · cases hq : s.queue with
    | nil => rw [hasActive_cons (e := e) (rest := []) (by simp [hq]), he] at hact; cases hact
    | cons a l =>
      rw [hasActive_cons (e := a) (rest := l ++ [e]) (by simp [hq])] at hact
      rw [hasActive_cons hq, hact]
  · have hi := hs i
    simp only [naming_append]
    split at hi
    · next hn => simpa [hn, hi.2] using hi.1
    · next hn => simpa [hn, hi] using h.slots i

/-- An entry of another kind than LINE joins a queue that has room. -/
theorem sound_append_other (h : Sound cap s) (he : e.active = false) (hk : ∀ f, e.kind ≠ .line f)
    (hlen : s.queue.length < 16) : Sound cap { s with queue := s.queue ++ [e] } :=
  sound_append h he hlen fun i => by rw [names_other hk i]; rfl

/-- A LINE joins a queue that has room, its SEALED slot becoming BOUND. -/
theorem sound_append_line (h : Sound cap s) {f : LineFields} (he : e.active = false) (hk : e.kind = .line f)
    (hlen : s.queue.length < 16) (hs : s.slots[f.slot].state = .sealed) :
    Sound cap { moveSlot f.slot .bound s with queue := s.queue ++ [e] } := by
  refine sound_append h he hlen fun i => ?_
  rw [names_line hk, moveSlot_getElem]
  by_cases hi : f.slot = i
  · subst hi
    have hok := slotOk_withState (st := .bound) (h.slots f.slot).1 (hs ▸ nofun) nofun
    rw [if_pos rfl, decide_eq_true rfl]
    exact ⟨slotSound_cons.mpr ⟨hok, rfl, by rw [he]; rfl⟩, h.unnamed (hs ▸ nofun) (hs ▸ nofun)⟩
  · rw [if_neg hi, decide_eq_false hi]
    rfl

/-- The ACTIVE entries of a sound queue are none, or the oldest alone. -/
theorem Sound.filter_active (h : Sound cap s) : s.queue.filter (fun e => e.active) = [] ∨
    ∃ e, s.queue.filter (fun e => e.active) = [e] ∧ hasActive s = true := by
  obtain ⟨-, htail, -, -⟩ := h.queue
  cases hq : s.queue with
  | nil => exact .inl rfl
  | cons a l =>
    rw [hq] at htail
    have hl : l.filter (fun e => e.active) = [] := List.filter_eq_nil_iff.mpr fun y hy => by simp [htail y hy]
    cases ha : a.active with
    | false => exact .inl (by simp [ha, hl])
    | true => exact .inr ⟨a, by simp [ha, hl], (hasActive_cons hq).trans ha⟩

/-- Every QUEUED entry leaves: their slots are sealed, and the ACTIVE one's is left as it is. -/
theorem sound_flushed (h : Sound cap s) : Sound cap { s with
    queue := s.queue.filter (fun e => e.active)
    slots := sealRemoved s.slots (s.queue.filter (fun e => !e.active)) } := by
  obtain ⟨hlen, -, hcl, hroom⟩ := h.queue
  refine ⟨⟨(List.length_filter_le _ _).trans hlen, ?_, hcl, fun hact => hroom ?_⟩, fun i => ?_, h.link⟩
  · rcases h.filter_active with hf | ⟨e, hf, -⟩ <;> simp [hf]
  · rcases h.filter_active with hf | ⟨e, hf, ha⟩
    · rw [hasActive_nil hf] at hact
      cases hact
    · exact ha
  · have hi := h.slots i
    simp only [sealRemoved_getElem, any_names, naming_filter]
    cases hn : naming i s.queue with
    | nil => simpa [hn] using hi
    | cons e l =>
      rw [hn] at hi
      obtain ⟨-, rfl, -⟩ := slotSound_cons.mp hi
      cases he : e.active with
      | true => simpa [he] using hi
      | false => simpa [he] using hi.sealed

/-- The oldest records leave the completion list. -/
theorem sound_dropRecords (h : Sound cap s) (n : Nat) : Sound cap { s with completions := s.completions.drop n } := by
  obtain ⟨hlen, htail, hcl, hroom⟩ := h.queue
  have hd : (s.completions.drop n).length ≤ s.completions.length := by simp
  exact ⟨⟨hlen, htail, hd.trans hcl, fun ha => hd.trans (hroom ha)⟩, h.slots, h.link⟩

/-- With the queue and the completion list empty and every slot FREE all is sound. -/
theorem sound_empty (hl : Places cap s.link) (hq : s.queue = []) (hc : s.completions = [])
    (hs : s.slots = Vector.replicate 8 freeSlot) : Sound cap s := by
  refine ⟨by simp [QueueInv, hq, hc], fun i => ?_, hl⟩
  have hi : s.slots[i] = freeSlot := by simp [hs]
  rw [hi, hq]
  exact slotSound_nil.mpr ⟨slotOk_freeSlot, nofun, nofun⟩

/-! ## The Link Unit (R177 to R187) -/

/-- A notice test puts a notice into the slot with its flag set (R187). -/
theorem noticeTest_flag {l : Link} (h : l.notice = true → l.outstanding = true) :
    (noticeTest l).notice = true → (noticeTest l).outstanding = true := by
  unfold noticeTest
  split
  · exact fun _ => rfl
  · exact h

theorem sound_raise {ev : Event} (h : Sound cap s) : Sound cap (raise ev s) := by
  refine h.relink rfl fun ⟨replies, places, flag, tx⟩ => ?_
  exact ⟨by simpa using replies, by simpa [placesUsed] using places, noticeTest_flag flag, by simpa using tx⟩

theorem sound_raiseIf {b : Bool} {ev : Event} (h : Sound cap s) : Sound cap (raiseIf b ev s) := by
  cases b
  · exact h
  · exact sound_raise h

theorem sound_count {c : General} {k : Nat} (h : Sound cap s) : Sound cap (count c k s) :=
  (sound_raiseIf (b := s.counters.live.halves c k) (ev := .counterHalf) h).upd rfl

theorem sound_countStrike {p : Fin 24} (h : Sound cap s) : Sound cap (countStrike p s) :=
  (sound_raiseIf (b := s.counters.live.strikeHalves p) (ev := .counterHalf) h).upd rfl

/-- The notice test of a new mask (R186). -/
theorem sound_setMask {m : EventSet} (h : Sound cap s) : Sound cap (setMask m s) := by
  refine h.relink rfl fun ⟨replies, places, flag, tx⟩ => ?_
  exact ⟨by simpa using replies, by simpa [placesUsed] using places, noticeTest_flag flag, by simpa using tx⟩

/-- A receiver that leaves FRAME frees the place of the frame that was arriving. -/
theorem sound_setMode {m : RxMode} (hm : ∀ got, m ≠ .frame got) (h : Sound cap s) : Sound cap (setMode m s) := by
  refine h.relink rfl fun ⟨replies, places, flag, tx⟩ => ⟨replies, ?_, flag, tx⟩
  cases m with
  | frame got => exact absurd rfl (hm got)
  | hunt => exact (Nat.le_add_right _ _).trans places
  | skip l n => exact (Nat.le_add_right _ _).trans places

/-- A receiver that is in FRAME, or that finds a place free, may be in FRAME. -/
theorem sound_setMode_frame {got : List Byte} (hp : s.link.received.length < 2) (h : Sound cap s) :
    Sound cap (setMode (.frame got) s) :=
  h.relink rfl fun ⟨replies, _, flag, tx⟩ => ⟨replies, hp, flag, tx⟩

/-- In FRAME one place at most is taken by a frame that waits (R180). -/
theorem Sound.received_lt (h : Sound cap s) {got : List Byte} (hm : s.link.mode = .frame got) :
    s.link.received.length < 2 := by
  obtain ⟨-, places, -⟩ := h.link
  simpa [placesUsed, hm] using places

theorem sound_overrun (h : Sound cap s) : Sound cap (overrun s) := sound_raise (sound_count h)

theorem sound_rejectFrame (h : Sound cap s) : Sound cap (rejectFrame s) :=
  sound_raise (sound_count (sound_setMode nofun h))

/-- A frame that is received whole keeps its place. -/
theorem sound_received {f : Frame} (hp : s.link.received.length < 2) (h : Sound cap s) :
    Sound cap { s with link := { s.link with mode := .hunt, received := s.link.received ++ [f] } } :=
  h.relink rfl fun ⟨replies, _, flag, tx⟩ => ⟨replies, by simpa [placesUsed] using hp, flag, tx⟩

theorem sound_rxFrameBytes {bytes : List Byte} (hp : s.link.received.length < 2) (h : Sound cap s) :
    Sound cap (rxFrameBytes bytes s) := by
  unfold rxFrameBytes
  split
  · split
    · exact sound_setMode_frame hp h
    · exact sound_rejectFrame h
  · split
    · split
      · exact sound_received hp h
      · exact sound_rejectFrame h
    · exact sound_setMode_frame hp h

/-- The receiver passes over a frame or hunts after a byte in SKIP (R180). -/
theorem skipMode_ne_frame (l : List Byte) (n : Nat) (b : Byte) (got : List Byte) : skipMode l n b ≠ .frame got := by
  unfold skipMode
  (repeat' split) <;> nofun

theorem sound_rxByte {b : LineByte} (h : Sound cap s) : Sound cap (rxByte s b) := by
  unfold rxByte
  split
  · unfold rxHunt
    split
    · split
      · next hp => exact sound_setMode_frame hp h
      · exact sound_setMode nofun (sound_overrun h)
    · exact h
  · next got hm =>
    unfold rxFrame
    split
    · exact sound_rxFrameBytes (h.received_lt hm) h
    · exact sound_rejectFrame h
  · exact sound_setMode (skipMode_ne_frame _ _ _) h

/-- A frame takes a place only where one is free (R180). -/
theorem sound_arrive {f : Frame} (h : Sound cap s) : Sound cap (arrive f s) := by
  unfold arrive
  split
  · next hp =>
    refine h.relink rfl fun ⟨replies, _, flag, tx⟩ => ⟨replies, ?_, flag, tx⟩
    simp only [placesUsed, Config.receivePlaces, List.length_append, List.length_singleton] at hp ⊢
    omega
  · exact sound_overrun h

theorem sound_dropOldest (h : Sound cap s) : Sound cap (dropOldest s) := by
  refine h.relink rfl fun ⟨replies, places, flag, tx⟩ => ⟨replies, ?_, flag, tx⟩
  simp only [placesUsed, dropOldest, List.length_tail] at places ⊢
  omega

/-- A reply takes a place that is free (R181). -/
theorem sound_pushReply {r : Frame} (h : Sound 3 s) : Sound 4 (pushReply r s) :=
  h.relink rfl fun ⟨replies, places, flag, _⟩ =>
    ⟨by simpa [pushReply] using Nat.succ_le_succ replies, places, flag, by simp [pushReply]⟩

/-- A reply place that is free is free until it is taken. -/
theorem Sound.withRoom (h : Sound 4 s) (hp : s.link.replies.length < 4) : Sound 3 s :=
  h.relink rfl fun ⟨_, rest⟩ => ⟨Nat.le_of_lt_succ hp, rest⟩

/-- The transmitter takes the oldest reply, which keeps its place, or the notice (R183, R187). -/
theorem sound_beginSending (h : Sound cap s) : Sound cap (beginSending s) := by
  rcases beginSending_cases s with ⟨-, hr, e⟩ | ⟨-, -, -, e⟩ | ⟨-, e⟩ <;> rw [e]
  · exact h.relink rfl fun ⟨replies, places, flag, _⟩ => ⟨replies, places, flag, fun _ => hr⟩
  · exact h.relink rfl fun ⟨replies, places, _, _⟩ => ⟨replies, places, nofun, nofun⟩
  · exact h

end Sys2Proof.QueueAndSlots
end

