-- ==== Sys2Proof/Proofs/QueueAndSlotsKept.lean ====
section
/-! SUPPORT. Every shared operation keeps queue, completion list, slots and Link Unit sound, in the order of the model:
it reaches them by events and by the retirement of the ACTIVE entry alone. -/

namespace Sys2Proof.QueueAndSlots

open Sys2Proof.Machine

variable {cap : Nat} {s : State} {o : EntryOutcome}

/-! ## Retirement and trips (R42, R164, R174) -/

theorem sound_countLine {e : Entry} (h : Sound cap s) : Sound cap (countLine e o s) := by
  unfold countLine
  split
  · exact sound_count h
  all_goals exact h

theorem sound_retire (h : Sound cap s) : Sound cap (retire o s) := by
  unfold retire
  split
  · exact h
  · next e rest hq =>
    split
    · next ha => exact sound_countLine (sound_raiseIf (sound_raise (sound_leaveQueue h hq ha)))
    · exact h

theorem sound_failActive (h : Sound cap s) : Sound cap (failActive o s) := sound_retire h

theorem sound_addHalted (h : Sound cap s) : Sound cap (addHalted s) := h.upd rfl

theorem sound_addPaperOut (h : Sound cap s) : Sound cap (addPaperOut s) := sound_raise (h.upd rfl)

theorem sound_trip {c : TripCause} (h : Sound cap s) : Sound cap (trip c s) :=
  sound_count (sound_raise (sound_addHalted (sound_failActive (h.upd rfl))))

theorem sound_testTripFor {c : TripCause} (h : Sound cap s) : Sound cap (testTripFor c s) := sound_raiseIf (h.upd rfl)

theorem sound_testTripIf {b : Bool} {c : TripCause} (h : Sound cap s) : Sound cap (testTripIf b c s) := by
  cases b
  · exact h
  · exact sound_testTripFor h

/-! ## Travel and the heat gate (R76, R84, R121, R122) -/

theorem sound_travel {n : Nat} (h : Sound cap s) : Sound cap (travel n s) := by
  rcases travel_cases n s with ⟨-, e⟩ | ⟨-, e⟩ <;> rw [e]
  · exact h.upd rfl
  · exact sound_testTripFor (h.upd rfl)

theorem sound_reach {q : Int} (h : Sound cap s) : Sound cap (reach q s) := by
  rcases reach_cases q s with ⟨n, e⟩ | e <;> rw [e]
  · exact sound_travel h
  · exact h

theorem sound_startFeed {u : Purpose} {d : Dir} {n : Nat} (h : Sound cap s) : Sound cap (startFeed u d n s) :=
  h.upd (by simp [front, store])

theorem sound_endFeed (h : Sound cap s) : Sound cap (endFeed s) := h.upd (by simp [front, store])

theorem sound_endMotion (h : Sound cap s) : Sound cap (endMotion s) := h.upd (by simp [front, store])

theorem sound_setRibbon {on : Bool} (h : Sound cap s) : Sound cap (setRibbon on s) := h.upd rfl

theorem sound_submit {plan : Plan} {r : PassRec} (h : Sound cap s) : Sound cap (submit plan r s) := by
  unfold submit
  split
  · exact h.upd (by simp [front, store])
  · exact sound_count (sound_raise (h.upd rfl))

/-! ## The executor's work (R40, R41, R49, R54, R144 to R150) -/

theorem sound_completeLine (h : Sound cap s) : Sound cap (completeLine s) := sound_retire h

theorem sound_beginFeedAfter (h : Sound cap s) : Sound cap (beginFeedAfter s) := by
  unfold beginFeedAfter
  dsimp only
  split
  · split
    · exact sound_completeLine (h.upd rfl)
    · exact sound_startFeed (h.upd rfl)
  · exact h

theorem sound_nextWork (h : Sound cap s) : Sound cap (nextWork s) := by
  unfold nextWork
  split
  · split
    · exact sound_submit h
    · exact sound_beginFeedAfter h
  · exact h

theorem sound_planAndGo {f : LineFields} (h : Sound cap s) : Sound cap (planAndGo f s) :=
  sound_nextWork (sound_count (h.upd rfl))

theorem sound_stageLine {f : LineFields} (h : Sound cap s) : Sound cap (stageLine f s) := by
  unfold stageLine
  split
  · exact sound_planAndGo h
  · exact sound_startFeed (h.upd rfl)

theorem sound_moveFeed {d : Int} (h : Sound cap s) : Sound cap (moveFeed d s) := by
  unfold moveFeed
  dsimp only
  split
  · exact sound_startFeed h
  · split
    · exact sound_retire h
    · split
      · exact sound_retire h
      · exact sound_startFeed h

theorem sound_moveSkip {n : Nat} (h : Sound cap s) : Sound cap (moveSkip n s) := by
  unfold moveSkip
  split
  · exact sound_startFeed h
  · exact sound_retire h

theorem sound_moveTear (h : Sound cap s) : Sound cap (moveTear s) := by
  unfold moveTear
  split
  · split
    · exact sound_retire h
    · exact sound_startFeed (h.upd rfl)
  · exact sound_startFeed h

theorem sound_beginMove {k : EntryKind} (h : Sound cap s) : Sound cap (beginMove k s) := by
  cases k with
  | feed d => exact sound_moveFeed (h.upd rfl)
  | skip n => exact sound_moveSkip (h.upd rfl)
  | tear => exact sound_moveTear (h.upd rfl)
  | line f => exact h

theorem sound_afterRetract {k : EntryKind} (h : Sound cap s) : Sound cap (afterRetract k s) := by
  unfold afterRetract
  cases k with
  | line f => exact sound_stageLine h
  | _ => exact sound_beginMove h

theorem sound_prepare {k : EntryKind} (h : Sound cap s) : Sound cap (prepare k s) := by
  unfold prepare
  dsimp only
  split
  · split
    · exact sound_afterRetract (h.upd rfl)
    · exact sound_startFeed (h.upd rfl)
  · exact sound_afterRetract (h.upd rfl)

theorem sound_resumeIfHeld (h : Sound cap s) : Sound cap (resumeIfHeld s) := by
  unfold resumeIfHeld
  split
  · split
    · unfold resumeEntry
      split
      · exact sound_prepare h
      · exact sound_planAndGo h
      · exact sound_nextWork (h.upd rfl)
      · exact sound_beginFeedAfter h
      · exact sound_beginMove h
      all_goals exact h
    · exact h
  · exact h

/-- Work begins on the oldest entry only with room for its record (R37, R43). -/
theorem sound_startWork (hc : s.completions.length < 32) (h : Sound cap s) : Sound cap (startWork s) := by
  unfold startWork
  split
  · exact h
  · next e rest hq =>
    split
    · exact sound_prepare (sound_activated h hq hc)
    · exact sound_addPaperOut h

/-! ## The load (R133, R139, R157) -/

theorem sound_applyNext (h : Sound cap s) : Sound cap (applyNext s) :=
  (sound_raiseIf (b := s.paper.next.isSome) (ev := .formApplied) h).upd rfl

theorem sound_finishHoming (h : Sound cap s) : Sound cap (finishHoming s) := sound_raise (h.upd rfl)

theorem sound_finishLoad (h : Sound cap s) : Sound cap (finishLoad s) := by
  unfold finishLoad
  refine sound_finishHoming ?_
  split
  · exact sound_applyNext (h.upd rfl)
  · exact sound_raise h

theorem sound_loadFeed {n : Nat} (h : Sound cap s) : Sound cap (loadFeed n s) := by
  unfold loadFeed
  split
  · exact sound_finishLoad h
  · exact sound_startFeed h

theorem sound_beginLoad (h : Sound cap s) : Sound cap (beginLoad s) := by
  unfold beginLoad
  dsimp only
  split
  · split
    · exact sound_loadFeed (h.upd rfl)
    · exact sound_startFeed (h.upd rfl)
  · exact sound_loadFeed (h.upd rfl)

theorem sound_load (h : Sound cap s) : Sound cap (load s) := by
  unfold load
  split
  · split
    · exact sound_beginLoad h
    · exact sound_finishHoming h
  · exact sound_finishHoming (h.upd rfl)
  · exact sound_finishHoming h

/-! ## Causes and the ends of feed moves (R142, R149, R164, R168) -/

theorem sound_finishReset (h : Sound cap s) : Sound cap (finishReset s) := h.upd (by simp [front, store])

theorem sound_paperEnds (h : Sound cap s) : Sound cap (paperEnds s) :=
  sound_finishReset (sound_failActive (sound_addPaperOut (sound_endFeed (h.upd rfl))))

theorem sound_settleFeed (h : Sound cap s) : Sound cap (settleFeed s) := by
  rcases settleFeed_cases s with e | ⟨m, -, ⟨-, -, e⟩ | ⟨-, -, -, e⟩ | ⟨-, -, -, e⟩ | ⟨-, -, -, e⟩⟩ <;> rw [e]
  · exact h
  · exact sound_paperEnds h
  · exact h.upd rfl
  · exact sound_retire (sound_endFeed (h.upd rfl))
  · exact sound_retire (sound_endFeed h)

theorem sound_arise {c : TripCause} (h : Sound cap s) : Sound cap (arise c s) := by
  rcases arise_cases c s with ⟨-, e⟩ | ⟨-, e⟩ <;> rw [e]
  · refine sound_trip ?_
    split
    · exact h
    · exact sound_settleFeed h
  · exact h.upd rfl

theorem sound_ariseIf {b : Bool} {c : TripCause} (h : Sound cap s) : Sound cap (ariseIf b c s) := by
  cases b
  · exact h
  · exact sound_arise h

theorem sound_ariseLevels {hot fault : Bool} (h : Sound cap s) : Sound cap (ariseLevels hot fault s) := by
  unfold ariseLevels
  dsimp only
  split
  · split <;> exact sound_arise (sound_arise (h.upd rfl))
  · exact sound_ariseIf (sound_ariseIf h)

theorem sound_sensorChange {b : Bool} (h : Sound cap s) : Sound cap (sensorChange b s) := h.upd (by simp [front, store])

theorem sound_overlayEffects {before : State} (h : Sound cap s) : Sound cap (overlayEffects before s) :=
  sound_sensorChange (sound_testTripIf (sound_testTripIf (sound_ariseLevels h)))

/-! ## The feed step, marks and the rest of a stop (R86, R96, R135 to R138) -/

theorem sound_crossForward {u : Purpose} (h : Sound cap s) : Sound cap (crossForward u s) := by
  unfold crossForward
  cases u with
  | present => exact sound_count (h.upd rfl)
  | _ => exact sound_applyNext (sound_count (h.upd rfl))

theorem sound_stepPosition {m : FeedMove} (h : Sound cap s) : Sound cap (stepPosition m s) := by
  unfold stepPosition
  split
  · split
    · split
      · exact sound_crossForward h
      · exact h.upd rfl
    · split <;> exact h.upd rfl
  · exact h

theorem sound_feedOne {m : FeedMove} (h : Sound cap s) : Sound cap (feedOne m s) :=
  sound_testTripIf (.upd (sound_count (sound_stepPosition h)) rfl)

theorem sound_clearNoMark (h : Sound cap s) : Sound cap (clearNoMark s) := by
  unfold clearNoMark
  split
  · split
    · exact sound_testTripFor (h.upd rfl)
    · exact h.upd rfl
  · exact h.upd rfl

theorem sound_edge {dir : Dir} (h : Sound cap s) : Sound cap (edge dir s) := by
  have hc : Sound cap (clearNoMark { s with carriage := s.carriage.countMark dir }) := sound_clearNoMark (h.upd rfl)
  unfold edge
  split
  · unfold edgeHomed
    dsimp only
    split
    · exact sound_arise hc
    · exact hc.upd rfl
  · split
    · exact sound_clearNoMark h
    · exact sound_clearNoMark h
    · exact sound_clearNoMark (h.upd rfl)
    all_goals exact h

theorem sound_afterRest (h : Sound cap s) : Sound cap (afterRest s) := by
  unfold afterRest
  refine sound_finishReset ?_
  split
  · exact sound_failActive h
  · exact h

theorem sound_carriageRest (h : Sound cap s) : Sound cap (carriageRest s) := by
  unfold carriageRest
  refine sound_afterRest (sound_setRibbon (sound_endMotion ?_))
  split
  · exact sound_reach h
  · exact h

theorem sound_feedRest {m : FeedMove} (h : Sound cap s) : Sound cap (feedRest m s) := by
  unfold feedRest
  split
  · refine sound_afterRest ?_
    split
    · exact sound_endFeed (h.upd rfl)
    · exact sound_endFeed h
  all_goals
    split
    · exact h
    · exact sound_afterRest (sound_endFeed h)

theorem sound_holdAt {r : Resume} (h : Sound cap s) : Sound cap (holdAt r s) := h.upd rfl

theorem sound_afterPass (h : Sound cap s) : Sound cap (afterPass s) := by
  unfold afterPass
  split
  · exact sound_holdAt h
  · exact sound_nextWork h

theorem sound_endPass {pf : Profile} (h : Sound cap s) : Sound cap (endPass pf s) :=
  sound_count (sound_setRibbon (sound_endMotion (sound_reach (h.upd rfl))))

theorem sound_afterStaging {next : EntryKind → State → State} (hn : ∀ {k}, Sound cap s → Sound cap (next k s))
    (h : Sound cap s) : Sound cap (afterStaging next s) := by
  unfold afterStaging
  split
  · split
    · exact sound_holdAt h
    · exact hn h
  · exact h

theorem sound_stagingGoesOn {k : EntryKind} (h : Sound cap s) : Sound cap (stagingGoesOn k s) := by
  cases k with
  | line f => exact sound_stageLine h
  | _ => exact h

theorem sound_moveComplete {u : Purpose} (h : Sound cap s) : Sound cap (moveComplete u s) := by
  cases u with
  | preload n => exact h
  | load => exact sound_finishLoad h
  | retract => exact sound_afterStaging sound_afterRetract h
  | perfSkip => exact sound_afterStaging sound_stagingGoesOn h
  | feedAfter => exact sound_completeLine h
  | _ => exact sound_retire h

/-! ## Pulses (R101 to R107) -/

theorem sound_fireDot {w : Nat} {row : Fin 24} (h : Sound cap s) : Sound cap (fireDot w s row) := by
  unfold fireDot
  dsimp only
  split
  · exact sound_count h
  · exact sound_countStrike (h.upd rfl)

theorem sound_takeGroup {g : DueGroup} {x : Slot} {plan : Plan} {r : PassRec} (h : Sound cap s) :
    Sound cap (takeGroup g x plan r s) :=
  .upd (foldl_keeps (fun _ _ => sound_fireDot) _ _ (sound_reach h)) rfl

theorem sound_applySense {p : Fin 24} {isOpen : Bool} (h : Sound cap s) : Sound cap (applySense p isOpen s) := by
  unfold applySense
  dsimp only
  split
  · exact sound_raise (h.upd rfl)
  · exact h.upd rfl

/-! ## Requests of the queue and the engine (R22, R33, R46 to R50, R156 to R169) -/

theorem sound_wakeIfDue (h : Sound cap s) : Sound cap (wakeIfDue s) := h.upd (by simp [front, store])

theorem sound_enterHoming (h : Sound cap s) : Sound cap (enterHoming s) := h.upd (by simp [front, store])

theorem sound_tryEnqueue {tag : Byte} {k : EntryKind} (h : Sound cap s) : Sound cap (tryEnqueue tag k s).1 := by
  unfold tryEnqueue
  split
  · exact h
  · next hq =>
    have hlen : s.queue.length < 16 := Nat.lt_of_not_le hq
    cases k with
    | line f =>
      dsimp only
      split
      · next hs => exact sound_wakeIfDue (sound_append_line h rfl rfl hlen hs)
      · exact h
    | _ => exact sound_wakeIfDue (sound_append_other h rfl nofun hlen)

theorem sound_haltAtOnce (h : Sound cap s) : Sound cap (haltAtOnce s) := by
  unfold haltAtOnce
  dsimp only
  split
  · exact h.upd rfl
  · split
    · exact sound_retire (h.upd rfl)
    · exact h.upd (by simp [front, store])

theorem sound_resetWork (h : Sound cap s) : Sound cap (resetWork s) :=
  sound_raiseIf (sound_empty h.link rfl rfl rfl)

theorem sound_erstDriven (h : Sound cap s) : Sound cap (erstDriven s) := by
  unfold erstDriven
  split <;> exact h.upd (by simp [front, store])

theorem sound_resetEngineNow (h : Sound cap s) : Sound cap (resetEngineNow s) := by
  have hw := sound_resetWork h
  unfold resetEngineNow
  dsimp only
  split
  · exact h
  · split
    case h_2 | h_3 | h_4 => exact sound_erstDriven hw
    case h_7 => split <;> exact hw.upd rfl
    all_goals exact hw.upd rfl

theorem sound_openSlot {left length : Nat} {i : Fin 8} (h : Sound cap s) : Sound cap (openSlot left length i s).1 := by
  unfold openSlot
  split
  · exact h
  · next hf =>
    have hf : s.slots[i].state = .free := not_not.mp hf
    split
    · next hx =>
      exact sound_setSlot h (h.unnamed (hf ▸ nofun) (hf ▸ nofun))
        (slotSound_nil.mpr ⟨⟨nofun, fun _ => ⟨hx.2.1, hx.2.2, Nat.zero_le _⟩⟩, nofun, nofun⟩)
    · exact h

theorem sound_storeData {start : Nat} {bytes : List Byte} {i : Fin 8} (h : Sound cap s) :
    Sound cap (storeData start bytes i s).1 := by
  unfold storeData
  split
  · exact h
  · split
    · exact h
    · next hf =>
      have hf : s.slots[i].state = .filling := not_not.mp hf
      split
      · exact h
      · split
        · next hx =>
          obtain ⟨hone, hfit, -⟩ := (h.slots i).1.2 (hf ▸ nofun)
          refine sound_setSlot h (h.unnamed (hf ▸ nofun) (hf ▸ nofun)) (slotSound_nil.mpr ⟨⟨?_, fun _ => ?_⟩, ?_, ?_⟩)
          · exact fun e => absurd (hf.symm.trans e) nofun
          · exact ⟨hone, hfit, by simpa [Slot.append] using hx.2⟩
          · exact fun e => absurd (hf.symm.trans e) nofun
          · exact fun e => absurd (hf.symm.trans e) nofun
        · exact h

theorem sound_sealSlot {i : Fin 8} (h : Sound cap s) : Sound cap (sealSlot i s).1 := by
  unfold sealSlot
  split
  · next hf =>
    exact sound_setSlot h (h.unnamed (hf ▸ nofun) (hf ▸ nofun))
      (slotSound_nil.mpr ⟨slotOk_withState (h.slots i).1 (hf ▸ nofun) nofun, nofun, nofun⟩)
  · exact h

theorem sound_dropSlot {i : Fin 8} (h : Sound cap s) : Sound cap (dropSlot i s).1 := by
  have hfree : SlotSound freeSlot [] := slotSound_nil.mpr ⟨slotOk_freeSlot, nofun, nofun⟩
  unfold dropSlot
  split
  · exact h
  · next hf => exact sound_setSlot h (h.unnamed (hf ▸ nofun) (hf ▸ nofun)) hfree
  · next hf => exact sound_setSlot h (h.unnamed (hf ▸ nofun) (hf ▸ nofun)) hfree
  all_goals exact h

end Sys2Proof.QueueAndSlots
end

