-- ==== Sys2Proof/Proofs/StepKeepsQueues.lean ====
section
/-! Every command, and what the block does of itself, keeps queue, completion list, slots and Link Unit sound: O56. -/

namespace Sys2Proof.QueueAndSlots

open Sys2Proof.Machine

variable {cap : Nat} {s t : State}

/-! ## Requests and events -/

/-- A request is answered only with a reply place free, which its reply then takes (R181). -/
theorem sound_serve {f : Frame} {a : State → Answer} (ha : ∀ {t}, Sound 3 t → Sound 3 (a t).1) (h : Sound 4 s) :
    Sound 4 (serve f a s) := by
  unfold serve
  split
  · next hp =>
    have hr := h.withRoom hp
    split
    · exact sound_pushReply (ha hr)
    · split
      · exact sound_pushReply (ha (sound_dropOldest hr))
      · exact sound_arrive h
  · split
    · exact h
    · exact sound_arrive h

/-- A request keeps sound what its block's answer keeps sound. -/
theorem sound_request {c : Instr} {a : State → Answer} (h : Sound 4 s) (he : exec c s = request c a s)
    (ha : ∀ {t}, Sound 3 t → Sound 3 (a t).1) : Sound 4 (after c s) := by
  have hb := sound_beginSending h
  unfold after
  rw [he]
  unfold request
  cases encodeFrame c with
  | some f => exact sound_serve ha hb
  | none => exact hb

/-- A request of one layout keeps sound what the handling of its fields keeps sound (R182). -/
theorem sound_fields {c : Instr} {α : Type} {w : Wire α} {a : α → State → Answer} (h : Sound 4 s)
    (he : exec c s = request c (onFields w a) s) (ha : ∀ {x t}, Sound 3 t → Sound 3 (a x t).1) :
    Sound 4 (after c s) :=
  sound_request h he fun ht => onFields_keeps ht fun _ _ => ha

/-- An event keeps sound what its effect keeps sound. -/
theorem sound_event {c : Instr} {f : State → State} (h : Sound 4 s) (he : exec c s = acting f s)
    (hf : ∀ t, Sound 4 t → Sound 4 (f t)) : Sound 4 (after c s) := by
  unfold after
  rw [he]
  exact hf _ (sound_beginSending h)

/-! ## The Link Unit (R177 to R189) -/

theorem sound_byteGapTimeout (h : Sound 4 s) : Sound 4 (after .byteGapTimeout s) := by
  refine sound_event h (by unfold exec execByteGapTimeout; rfl) fun t h => ?_
  split
  · exact h
  · exact sound_rejectFrame h
  · exact sound_setMode nofun h

theorem sound_receiveOverrun (h : Sound 4 s) : Sound 4 (after .receiveOverrun s) := by
  refine sound_event h (by unfold exec execReceiveOverrun; rfl) fun t h => ?_
  split
  · exact sound_setMode nofun (sound_overrun h)
  · exact h

theorem sound_discardedFramePassedOver (h : Sound 4 s) : Sound 4 (after .discardedFramePassedOver s) := by
  refine sound_event h (by unfold exec execDiscardedFramePassedOver; rfl) fun t h => ?_
  split
  · exact h
  · exact h
  · exact sound_setMode nofun h

/-- The reply that has been sent leaves its place. -/
theorem sound_replySent (h : Sound 4 s) : Sound 4 (after .replySent s) := by
  refine sound_event h (by unfold exec execReplySent; rfl) fun t h => ?_
  dsimp only
  split
  · next hr =>
    refine h.relink rfl fun ⟨replies, places, flag, _⟩ => ⟨?_, places, flag, nofun⟩
    rw [hr] at replies
    exact Nat.le_of_succ_le replies
  · exact h

theorem sound_noticeSent (h : Sound 4 s) : Sound 4 (after .noticeSent s) := by
  refine sound_event h (by unfold exec execNoticeSent; rfl) fun t h => ?_
  dsimp only
  split
  · exact h.relink rfl fun ⟨replies, places, flag, _⟩ => ⟨replies, places, flag, nofun⟩
  all_goals exact h

theorem sound_unknownKind (kind tag : Byte) (p : List Byte) (h : Sound 4 s) :
    Sound 4 (after (.unknownKind kind tag p) s) := by
  rcases after_unknownKind kind tag p s with e | e <;> rw [e]
  · exact sound_beginSending h
  · exact sound_serve id (sound_beginSending h)

/-- With the flag clear no notice waits (R188). -/
theorem sound_doEvnt (h : Sound cap s) : Sound cap (doEvnt s).1 :=
  h.relink rfl fun ⟨replies, places, _, tx⟩ => ⟨replies, places, nofun, tx⟩

theorem sound_doEmsk {o : Option (BitVec 16)} (h : Sound cap s) : Sound cap (doEmsk o s).1 := by
  unfold doEmsk
  split
  · exact h
  · split
    · exact sound_setMask h
    · exact h

theorem sound_doSetp {r : SetpReq} (h : Sound cap s) : Sound cap (doSetp r s).1 := by
  unfold doSetp
  split
  · exact h
  · split
    · exact h
    · split
      · exact h.upd (by simp [front, store])
      · exact h

theorem sound_doGetp {b : Byte} (h : Sound cap s) : Sound cap (doGetp b s).1 := by
  unfold doGetp
  split <;> exact h

theorem sound_doRead {g : Byte} (h : Sound cap s) : Sound cap (doRead g s).1 := by
  unfold doRead
  split
  · exact h
  · split <;> exact h

theorem sound_doClear {m : Byte} (h : Sound cap s) : Sound cap (doClear m s).1 := by
  unfold doClear
  split
  · exact h.upd rfl
  · exact h

theorem sound_cntrSnap (tag : Byte) (req : SnapForm) (h : Sound 4 s) : Sound 4 (after (.cntrSnap tag req) s) := by
  cases req with
  | snap u => exact sound_request h rfl fun h => h.upd rfl
  | undefinedOp o p => exact sound_request h rfl id
  | wrongLength p => exact sound_request h rfl id

/-! ## Slots and queue (R17, R33, R34, R44, R46 to R50) -/

/-- A slot request keeps sound what its own part keeps sound (R17). -/
theorem sound_slotAnswer {b : Byte} {a : Fin 8 → State → State × Result}
    (ha : ∀ {i}, Sound cap s → Sound cap (a i s).1) (h : Sound cap s) : Sound cap (slotAnswer b a s).1 := by
  unfold slotAnswer
  split
  · exact h
  · exact ha h

theorem sound_enqueueAnswer {tag : Byte} {o : Option EntryKind} (h : Sound cap s) :
    Sound cap (enqueueAnswer tag o s).1 := by
  cases o with
  | none => exact h
  | some k => exact sound_tryEnqueue h

theorem sound_haltLine (tag : Byte) (req : HaltForm) (h : Sound 4 s) : Sound 4 (after (.haltLine tag req) s) := by
  cases req with
  | lineMode => exact sound_request h rfl fun h => h.upd (by simp [front, store])
  | undefinedMode m => exact sound_request h rfl id
  | wrongLength p => exact sound_request h rfl id

theorem sound_doGo (h : Sound cap s) : Sound cap (doGo s).1 := by
  unfold doGo
  dsimp only
  split
  · exact h
  · refine sound_wakeIfDue ?_
    split
    · exact sound_resumeIfHeld (h.upd rfl)
    · exact h.upd rfl

theorem sound_doFlsh (h : Sound cap s) : Sound cap (doFlsh s).1 := sound_raiseIf (sound_flushed h)

theorem sound_doCmpl {n : Byte} (h : Sound cap s) : Sound cap (doCmpl n s).1 := by
  unfold doCmpl
  dsimp only
  split
  · exact sound_dropRecords h n.toNat
  · exact h

/-! ## Fire Unit, paper and engine (R5, R130, R156 to R172) -/

theorem sound_doPmap {o : Option (Vector RowReq 24)} (h : Sound cap s) : Sound cap (doPmap o s).1 := by
  rcases doPmap_cases o s with e | ⟨rows, -, -, e⟩ <;> rw [e]
  · exact h
  · exact h.upd (by simp [front, store])

theorem sound_doEtab {o : Option EtabReq} (h : Sound cap s) : Sound cap (doEtab o s).1 := by
  unfold doEtab
  dsimp only
  split
  · exact h
  · exact h.upd rfl

theorem sound_doForm {o : Option FormReq} (h : Sound cap s) : Sound cap (doForm o s).1 := by
  unfold doForm
  dsimp only
  split
  · exact h
  · split
    · exact h.upd rfl
    · exact h

theorem sound_engage (h : Sound cap s) : Sound cap (engage s).1 := by
  unfold engage
  split
  · exact sound_enterHoming h
  · split
    · exact sound_enterHoming h
    · exact h
  · split
    · exact sound_enterHoming h
    · exact h
  · exact h
  · exact h
  · exact h.upd rfl
  · exact h

theorem sound_restEngine (h : Sound cap s) : Sound cap (restEngine s).1 := by
  unfold restEngine
  split
  case h_1 | h_2 | h_3 =>
    split
    · exact h
    · exact h.upd rfl
  all_goals exact h

theorem sound_wakeEngine (h : Sound cap s) : Sound cap (wakeEngine s).1 := by
  unfold wakeEngine
  split
  · exact h.upd rfl
  · exact h

theorem sound_doClrf (h : Sound cap s) : Sound cap (doClrf s).1 := by
  unfold doClrf
  split
  · split
    · exact h
    · exact h.upd rfl
  · exact h

theorem sound_doTovl {o : Option TovlReq} (h : Sound cap s) : Sound cap (doTovl o s).1 := by
  unfold doTovl
  split
  · exact h
  · split
    · exact h
    · split
      · split
        · exact .upd (sound_overlayEffects (h.upd (by simp [front, store]))) rfl
        · exact h
      · exact h

/-! ## The executor's and the carriage's events (R37, R79 to R96) -/

/-- Work starts only with fewer than 32 records in the completion list (R37). -/
theorem completions_lt_of_mayStart (h : mayStart s = true) : s.completions.length < 32 := by
  simp only [mayStart, Bool.and_eq_true, decide_eq_true_eq] at h
  exact h.2

theorem sound_executorStart (h : Sound 4 s) : Sound 4 (after .executorStart s) := by
  refine sound_event h (by unfold exec execExecutorStart; rfl) fun t h => ?_
  split
  · exact sound_resumeIfHeld h
  · split
    · next hm => exact sound_startWork (completions_lt_of_mayStart hm) h
    · exact h

theorem sound_repositionEnd (h : Sound 4 s) : Sound 4 (after .repositionEnd s) := by
  refine sound_event h (by unfold exec execRepositionEnd; rfl) fun t h => ?_
  split
  · split
    · unfold arriveAtStart
      split
      · exact sound_holdAt (sound_endMotion (sound_reach h))
      · exact .upd (sound_endMotion (sound_reach h)) rfl
    · exact h
  · exact h

theorem sound_cruiseStart (h : Sound 4 s) : Sound 4 (after .cruiseStart s) := by
  refine sound_event h (by unfold exec execCruiseStart; rfl) fun t h => ?_
  split
  · split
    · exact .upd (sound_reach h) rfl
    · exact h
  · exact h

theorem sound_cruiseEnd (h : Sound 4 s) : Sound 4 (after .cruiseEnd s) := by
  refine sound_event h (by unfold exec execCruiseEnd; rfl) fun t h => ?_
  split
  · split
    · exact .upd (sound_reach h) rfl
    · exact h
  · exact h

theorem sound_passEnd (h : Sound 4 s) : Sound 4 (after .passEnd s) := by
  refine sound_event h (by unfold exec execPassEnd; rfl) fun t h => ?_
  split
  · split
    · exact sound_afterPass (sound_endPass h)
    · exact h
  · exact h

theorem sound_fireGroupTaken (h : Sound 4 s) : Sound 4 (after .fireGroupTaken s) := by
  refine sound_event h (by unfold exec execFireGroupTaken; rfl) fun t h => ?_
  split
  · split
    · exact sound_takeGroup h
    · exact h
  · exact h

theorem sound_pulseEnd (p : Fin 24) (isOpen : Bool) (h : Sound 4 s) : Sound 4 (after (.pulseEnd p isOpen) s) := by
  refine sound_event h (by unfold exec execPulseEnd; rfl) fun t h => ?_
  split
  · exact sound_applySense (h.upd (by simp [front, store]))
  · exact h

theorem sound_markEdge (dir : Dir) (n : Nat) (h : Sound 4 s) : Sound 4 (after (.markEdge dir n) s) := by
  refine sound_event h (by unfold exec execMarkEdge; rfl) fun t h => ?_
  dsimp only
  split
  · exact sound_travel h
  · exact sound_edge (sound_travel h)

theorem sound_encoderLost (h : Sound 4 s) : Sound 4 (after .encoderLost s) := by
  refine sound_event h (by unfold exec execEncoderLost; rfl) fun t h => ?_
  split
  · exact sound_arise (sound_travel h)
  · exact h

theorem sound_homeSensorActive (h : Sound 4 s) : Sound 4 (after .homeSensorActive s) := by
  refine sound_event h (by unfold exec execHomeSensorActive; rfl) fun t h => ?_
  dsimp only
  split <;> exact h.upd rfl

theorem sound_homeFail (h : Sound 4 s) : Sound 4 (after .homeFail s) := by
  refine sound_event h (by unfold exec execHomeFail; rfl) fun t h => ?_
  split
  · exact sound_arise (sound_travel h)
  · exact h

theorem sound_parkEnd (h : Sound 4 s) : Sound 4 (after .parkEnd s) := by
  refine sound_event h (by unfold exec execParkEnd; rfl) fun t h => ?_
  split
  · split
    · exact sound_load (sound_endMotion (sound_reach h))
    · exact h
  · exact h

theorem sound_stopAtRest (h : Sound 4 s) : Sound 4 (after .stopAtRest s) := by
  refine sound_event h (by unfold exec execStopAtRest; rfl) fun t h => ?_
  split
  · split
    · exact sound_carriageRest h
    · exact h
  · split
    · split
      · exact sound_feedRest h
      · exact h
    · exact h

/-! ## The paper's events (R137 to R151) -/

theorem sound_feedStep (h : Sound 4 s) : Sound 4 (after .feedStep s) := by
  refine sound_event h (by unfold exec execFeedStep; rfl) fun t h => ?_
  split
  · split
    · exact sound_feedOne h
    · exact h
  · exact h

theorem sound_paperEnd (h : Sound 4 s) : Sound 4 (after .paperEnd s) := by
  refine sound_event h (by unfold exec execPaperEnd; rfl) fun t h => ?_
  split
  · split
    · exact sound_paperEnds h
    · exact h
  · exact h

theorem sound_paperJam (h : Sound 4 s) : Sound 4 (after .paperJam s) := by
  refine sound_event h (by unfold exec execPaperJam; rfl) fun t h => ?_
  split
  · exact sound_arise h
  · exact h

theorem sound_ejectFail (h : Sound 4 s) : Sound 4 (after .ejectFail s) := by
  refine sound_event h (by unfold exec execEjectFail; rfl) fun t h => ?_
  split
  · split
    · exact sound_retire (sound_endFeed h)
    · exact h
  · exact h

theorem sound_feedMoveEnd (h : Sound 4 s) : Sound 4 (after .feedMoveEnd s) := by
  refine sound_event h (by unfold exec execFeedMoveEnd; rfl) fun t h => ?_
  split
  · split
    · refine sound_moveComplete (sound_endFeed ?_)
      split
      · exact h.upd rfl
      · exact h
    · exact h
  · exact h

theorem sound_preloadComplete (h : Sound 4 s) : Sound 4 (after .preloadComplete s) := by
  refine sound_event h (by unfold exec execPreloadComplete; rfl) fun t h => ?_
  dsimp only
  split
  · split
    · split
      · exact h
      · exact sound_loadFeed (.upd (sound_endFeed h) rfl)
    all_goals exact h
  · exact h

theorem sound_paperMotionPulse (h : Sound 4 s) : Sound 4 (after .paperMotionPulse s) := by
  refine sound_event h (by unfold exec execPaperMotionPulse; rfl) fun t h => ?_
  dsimp only
  split
  · exact h
  · split <;> exact h.upd rfl

/-! ## The engine's events, timers and input lines (R118, R141, R158, R162, R163, R174) -/

theorem sound_testTrip (c : TripCause) (h : Sound 4 s) : Sound 4 (after (.testTrip c) s) := by
  refine sound_event h (by unfold exec execTestTrip; rfl) fun t h => ?_
  split
  · split
    · unfold encoderTestTrip
      dsimp only
      split
      · exact sound_travel h
      · exact h
    · unfold jamTestTrip
      split
      · split
        · exact sound_feedOne h
        · exact h
      · exact h
    all_goals exact h
  · exact h

theorem sound_holdTimerExpiry (h : Sound 4 s) : Sound 4 (after .holdTimerExpiry s) := by
  refine sound_event h (by unfold exec execHoldTimerExpiry; rfl) fun t h => ?_
  dsimp only
  split
  · exact h.upd rfl
  · exact h

theorem sound_warmupExpiry (h : Sound 4 s) : Sound 4 (after .warmupExpiry s) := by
  refine sound_event h (by unfold exec execWarmupExpiry; rfl) fun t h => ?_
  dsimp only
  split
  · refine sound_raise ?_
    split
    · exact sound_enterHoming (h.upd rfl)
    all_goals exact h.upd rfl
  · exact h

theorem sound_coolingTick (h : Sound 4 s) : Sound 4 (after .coolingTick s) := by
  refine sound_event h (by unfold exec execCoolingTick; rfl) fun t h => ?_
  exact h.upd (by simp [front, store])

theorem sound_paperSensorAbsent (h : Sound 4 s) : Sound 4 (after .paperSensorAbsent s) := by
  refine sound_event h (by unfold exec execPaperSensorAbsent; rfl) fun t h => ?_
  exact sound_sensorChange (h.upd rfl)

theorem sound_paperSensorPresent (h : Sound 4 s) : Sound 4 (after .paperSensorPresent s) := by
  refine sound_event h (by unfold exec execPaperSensorPresent; rfl) fun t h => ?_
  exact sound_sensorChange (h.upd rfl)

theorem sound_headHotAsserted (h : Sound 4 s) : Sound 4 (after .headHotAsserted s) := by
  refine sound_event h (by unfold exec execHeadHotAsserted; rfl) fun t h => ?_
  exact sound_ariseIf (h.upd rfl)

theorem sound_driverFaultAsserted (h : Sound 4 s) : Sound 4 (after .driverFaultAsserted s) := by
  refine sound_event h (by unfold exec execDriverFaultAsserted; rfl) fun t h => ?_
  exact sound_ariseIf (h.upd rfl)

theorem sound_headHotQuiet (h : Sound 4 s) : Sound 4 (after .headHotQuiet s) := by
  refine sound_event h (by unfold exec execHeadHotQuiet; rfl) fun t h => ?_
  exact h.upd rfl

theorem sound_driverFaultQuiet (h : Sound 4 s) : Sound 4 (after .driverFaultQuiet s) := by
  refine sound_event h (by unfold exec execDriverFaultQuiet; rfl) fun t h => ?_
  exact h.upd rfl

theorem sound_homeSensorInactive (h : Sound 4 s) : Sound 4 (after .homeSensorInactive s) := by
  refine sound_event h (by unfold exec execHomeSensorInactive; rfl) fun t h => ?_
  exact h.upd rfl

/-! ## Every command, and every step -/

/-- At power-on the queue, the completion list and the places are empty and every slot is FREE; a level that is asserted
then arises (R154, R163, R177). -/
theorem sound_powerOn (rate : LinkRate) (s : State) : Sound 4
    (ariseLevels s.lines.headHot s.lines.driverFault (State.powerOnState rate s.lines s.freeCount s.pending)) :=
  sound_ariseLevels (sound_empty ⟨Nat.zero_le _, Nat.zero_le _, nofun, nofun⟩ rfl rfl rfl)

/-- Every command keeps queue, completion list, slots and Link Unit sound. -/
theorem sound_after (c : Instr) (h : Sound 4 s) : Sound 4 (after c s) := by
  cases c with
  | powerOn r => exact sound_powerOn r s
  | resetLine r => exact sound_powerOn r s
  | frameReceived bytes => exact sound_event h rfl (foldl_keeps (fun _ _ => sound_rxByte) bytes)
  | byteGapTimeout => exact sound_byteGapTimeout h
  | receiveOverrun => exact sound_receiveOverrun h
  | unknownKind kind tag p => exact sound_unknownKind kind tag p h
  | replySent => exact sound_replySent h
  | noticeSent => exact sound_noticeSent h
  | stat tag req => exact sound_fields h rfl id
  | evnt tag req => exact sound_fields h rfl sound_doEvnt
  | emsk tag req => exact sound_fields h rfl sound_doEmsk
  | setp tag req => exact sound_fields h rfl sound_doSetp
  | getp tag req => exact sound_fields h rfl sound_doGetp
  | cntrSnap tag req => exact sound_cntrSnap tag req h
  | cntrRead tag group => exact sound_request h rfl sound_doRead
  | cntrClear tag mask => exact sound_request h rfl sound_doClear
  | slotOpen tag req => exact sound_fields h rfl (sound_slotAnswer sound_openSlot)
  | slotData tag req => exact sound_fields h rfl (sound_slotAnswer sound_storeData)
  | slotSeal tag req => exact sound_fields h rfl (sound_slotAnswer sound_sealSlot)
  | slotDrop tag req => exact sound_fields h rfl (sound_slotAnswer sound_dropSlot)
  | line tag req => exact sound_fields h rfl sound_enqueueAnswer
  | feed tag req => exact sound_fields h rfl sound_enqueueAnswer
  | skip tag req => exact sound_fields h rfl sound_enqueueAnswer
  | tear tag req => exact sound_fields h rfl sound_enqueueAnswer
  | haltLine tag req => exact sound_haltLine tag req h
  | haltPass tag => exact sound_request h rfl fun h => h.upd (by simp [front, store])
  | haltNow tag => exact sound_request h rfl sound_haltAtOnce
  | go tag req => exact sound_fields h rfl sound_doGo
  | flsh tag req => exact sound_fields h rfl sound_doFlsh
  | cmpl tag req => exact sound_fields h rfl sound_doCmpl
  | pmap tag req => exact sound_fields h rfl sound_doPmap
  | pinh tag req => exact sound_fields h rfl fun h => h.upd rfl
  | etab tag req => exact sound_fields h rfl sound_doEtab
  | form tag req => exact sound_fields h rfl sound_doForm
  | enga tag req => exact sound_fields h rfl sound_engage
  | rest tag req => exact sound_fields h rfl sound_restEngine
  | wake tag req => exact sound_fields h rfl sound_wakeEngine
  | clrf tag req => exact sound_fields h rfl sound_doClrf
  | erst tag req => exact sound_fields h rfl sound_resetEngineNow
  | dout tag req => exact sound_fields h rfl fun h => h.upd rfl
  | tovl tag req => exact sound_fields h rfl sound_doTovl
  | executorStart => exact sound_executorStart h
  | repositionEnd => exact sound_repositionEnd h
  | cruiseStart => exact sound_cruiseStart h
  | cruiseEnd => exact sound_cruiseEnd h
  | passEnd => exact sound_passEnd h
  | fireGroupTaken => exact sound_fireGroupTaken h
  | pulseEnd p isOpen => exact sound_pulseEnd p isOpen h
  | markEdge dir n => exact sound_markEdge dir n h
  | encoderLost => exact sound_encoderLost h
  | homeSensorActive => exact sound_homeSensorActive h
  | homeFail => exact sound_homeFail h
  | parkEnd => exact sound_parkEnd h
  | feedStep => exact sound_feedStep h
  | paperEnd => exact sound_paperEnd h
  | paperJam => exact sound_paperJam h
  | ejectFail => exact sound_ejectFail h
  | feedMoveEnd => exact sound_feedMoveEnd h
  | stopAtRest => exact sound_stopAtRest h
  | paperMotionPulse => exact sound_paperMotionPulse h
  | paperSensorAbsent => exact sound_paperSensorAbsent h
  | paperSensorPresent => exact sound_paperSensorPresent h
  | headHotAsserted => exact sound_headHotAsserted h
  | driverFaultAsserted => exact sound_driverFaultAsserted h
  | testTrip c => exact sound_testTrip c h
  | holdTimerExpiry => exact sound_holdTimerExpiry h
  | warmupExpiry => exact sound_warmupExpiry h
  | coolingTick => exact sound_coolingTick h
  | headHotQuiet => exact sound_headHotQuiet h
  | driverFaultQuiet => exact sound_driverFaultQuiet h
  | homeSensorInactive => exact sound_homeSensorInactive h
  | discardedFramePassedOver => exact sound_discardedFramePassedOver h
  | preloadComplete => exact sound_preloadComplete h

theorem sound_tick (h : Sound cap s) : Sound cap (tick s) := by
  unfold tick
  split
  · exact sound_travel h
  · exact h.upd rfl

/-- One step keeps queue, completion list, slots and Link Unit sound. -/
theorem sound_step (h : Sound 4 s) (hs : step s = .next t) : Sound 4 t := by
  unfold step at hs
  split at hs
  · next c rest _ =>
    rw [HeadTables.eq_after hs]
    exact sound_after c (h.upd rfl)
  · split at hs
    · obtain rfl := Host.Outcome.next.inj hs
      exact sound_beginSending h
    · split at hs
      · next c _ =>
        rw [HeadTables.eq_after hs]
        exact sound_after c h
      · obtain rfl := Host.Outcome.next.inj hs
        exact sound_tick h

end Sys2Proof.QueueAndSlots

namespace Sys2Proof

open Sys2Proof.Machine Sys2Proof.QueueAndSlots

/-- Settles O56: events and the retirement of the ACTIVE entry keep the places sound, so every command does
(`sound_after`), and so does what the block does of itself. -/
theorem stepKeepsQueuesAndSlots : Obligations.StepKeepsQueuesAndSlots :=
  fun _ _ hs queue slots link => sound_iff.mp (sound_step (sound_iff.mpr ⟨queue, slots, link⟩) hs)

end Sys2Proof
end

