-- ==== Sys2Proof/Proofs/SlotRequests.lean ====
section
/-! The Image Store's requests OPEN, DATA, SEAL and DROP: O13 to O16. -/

namespace Sys2Proof.QueueAndSlots

open Sys2Proof.Machine

variable {s u : State} {i : Fin 8} {b : Byte}

/-! ## The slot a request names (R17) -/

theorem slotOf_eq (h : b.toNat = i.val) : slotOf b = some i := by
  simp [slotOf, h]

theorem slotOf_none (h : 8 ≤ b.toNat) : slotOf b = none := by
  simp [slotOf, Nat.not_lt.mpr h]

/-- A request that names slot i carries the byte that its reply names. -/
theorem byteOf_slot (h : b.toNat = i.val) : byteOf i.val = b := by
  simp [byteOf, ← h]

/-- A request for a slot 0..7 is answered by its own part and the slot's reply. -/
theorem exec_slot {c : Instr} {f : Frame} {a : Fin 8 → State → State × Result} {kind : Byte} {payload : List Byte}
    {res : Result} (hr : Ready c s) (he : encodeFrame c = some f) (hx : exec c s = request c (slotAnswer b a) s)
    (hk : f.kind + 0x80#8 = kind) (hb : b.toNat = i.val) (ha : a i (dropOldest s) = (dropOldest u, res))
    (hp : slotReply res i u = payload) : exec c s = .next (replied kind f.tag payload u) := by
  refine HeadTables.exec_replied hr he hx hk ?_
  simp only [slotAnswer, slotOf_eq hb, ha]
  rw [← hp]
  rfl

/-- A request for another slot is refused with the result alone. -/
theorem exec_slot_none {c : Instr} {f : Frame} {a : Fin 8 → State → State × Result} {kind : Byte} (hr : Ready c s)
    (he : encodeFrame c = some f) (hx : exec c s = request c (slotAnswer b a) s) (hk : f.kind + 0x80#8 = kind)
    (hb : 8 ≤ b.toNat) : exec c s = .next (replied kind f.tag [0x12#8] s) :=
  HeadTables.exec_replied hr he hx hk (by simp only [slotAnswer, slotOf_none hb]; rfl)

/-! ## OPEN and SEAL (R18, R21) -/

theorem openSlot_not_free {left length : Nat} (h : s.slots[i].state ≠ .free) :
    openSlot left length i s = (s, .slotState) := if_pos h

theorem openSlot_free {left length : Nat} (h : s.slots[i].state = .free) :
    openSlot left length i s =
      if left ≤ 3263 ∧ 1 ≤ length ∧ left + length ≤ 3264 then
        (setSlot i ⟨.filling, left, length, []⟩ s, .ok)
      else (s, .badValue) := if_neg (not_not.mpr h)

theorem sealSlot_filling (h : s.slots[i].state = .filling) : sealSlot i s = (moveSlot i .sealed s, .ok) := if_pos h

theorem sealSlot_not_filling (h : s.slots[i].state ≠ .filling) : sealSlot i s = (s, .slotState) := if_neg h

theorem natLe16_toNat (w : BitVec 16) : natLe16 w.toNat = le16 w := by
  simp [natLe16]

theorem natLe16_zero : natLe16 0 = [0#8, 0#8] := by decide

/-- The reply that shows a slot as a request has set it. -/
theorem slotReply_set (res : Result) (i : Fin 8) (x : Slot) (s : State) :
    slotReply res i { s with slots := s.slots.set i x } =
      [res.code, byteOf i.val, x.state.code] ++ natLe16 x.left ++ natLe16 x.length ++ natLe16 x.cols.length := by
  have hi : (s.slots.set i x)[i] = x := (getElem_set s.slots i i x).trans (if_pos rfl)
  simp only [slotReply, hi]

/-! ## DATA (R19, R20, section 11.6) -/

section

variable {start : Nat} {bytes : List Byte} {runs : List (List Column)}

theorem storeData_malformed (h : runsOf bytes = none) : storeData start bytes i s = (s, .badLength) := by
  simp only [storeData, h]

theorem storeData_not_filling (h : runsOf bytes = some runs) (hs : s.slots[i].state ≠ .filling) :
    storeData start bytes i s = (s, .slotState) := by
  simp only [storeData, h]
  exact if_pos hs

theorem storeData_out_of_sequence (h : runsOf bytes = some runs) (hs : s.slots[i].state = .filling)
    (hf : start ≠ s.slots[i].cols.length) : storeData start bytes i s = (s, .outOfSequence) := by
  simp only [storeData, h]
  rw [if_neg (not_not.mpr hs), if_pos hf]

/-- At the fill point the runs are stored when none is empty and they fit the extent, or else refused. -/
theorem storeData_at_fill_point (h : runsOf bytes = some runs) (hs : s.slots[i].state = .filling)
    (hf : start = s.slots[i].cols.length) :
    storeData start bytes i s =
      if [] ∉ runs ∧ s.slots[i].cols.length + (runs.map List.length).sum ≤ s.slots[i].length then
        (setSlot i (s.slots[i].append runs.flatten) s, .ok)
      else (s, .badValue) := by
  have hall : runs.all (fun r => !r.isEmpty) = true ↔ [] ∉ runs := by
    simp only [List.all_eq_true, Bool.not_eq_true', List.isEmpty_eq_false_iff]
    exact ⟨fun hr hm => hr _ hm rfl, fun hr x hx e => hr (e ▸ hx)⟩
  simp only [storeData, h]
  rw [if_neg (not_not.mpr hs), if_neg (not_not.mpr hf)]
  simp only [hall, List.length_flatten]

end

/-- A run of the run list: so many blank columns, or columns of three bytes each. -/
abbrev Run := Nat ⊕ List (Byte × Byte × Byte)

/-- The number of columns of a run. -/
def Run.size (x : Run) : Nat := x.elim id List.length

/-- The bytes that spell a run: the header, and the columns of a literal run. -/
def Run.bytes (x : Run) : List Byte :=
  match x with
  | .inl n => [BitVec.ofNat 8 (128 + n)]
  | .inr l => BitVec.ofNat 8 l.length :: l.flatMap (fun c => [c.1, c.2.1, c.2.2])

/-- The columns a run covers. -/
def Run.cols (x : Run) : List Column :=
  match x with
  | .inl n => List.replicate n 0#24
  | .inr l => l.map (fun c => columnOf c.1 c.2.1 c.2.2)

theorem Run.length_cols (x : Run) : (Run.cols x).length = Run.size x := by
  cases x <;> simp [Run.cols, Run.size]

/-- The lower seven bits of a header are the number of its columns. -/
theorem header_size {n : Nat} (k : Nat) (h : n ≤ 127) : (BitVec.ofNat 8 (128 * k + n) &&& 0x7F#8).toNat = n := by
  rw [BitVec.toNat_and, BitVec.toNat_ofNat, show (0x7F#8).toNat = 2 ^ 7 - 1 from rfl, Nat.and_two_pow_sub_one_eq_mod]
  omega

/-- The upper bit of a header marks a run of blank columns. -/
theorem header_blank {n : Nat} (k : Nat) (h : n ≤ 127) :
    (BitVec.ofNat 8 (128 * k + n)).getLsbD 7 = decide (k % 2 = 1) := by
  rw [BitVec.getLsbD_ofNat, Nat.testBit_eq_decide_div_mod_eq]
  rw [show (128 * k + n) / 2 ^ 7 = k by omega]
  simp

/-- The columns of a literal run are read from its bytes, and the bytes after them are left. -/
theorem takeColumns_append (l : List (Byte × Byte × Byte)) (tail : List Byte) :
    takeColumns l.length (l.flatMap (fun c => [c.1, c.2.1, c.2.2]) ++ tail) =
      some (l.map (fun c => columnOf c.1 c.2.1 c.2.2), tail) := by
  induction l with
  | nil => rfl
  | cons c l ih => simp [takeColumns, ih]

/-- The first run of a run list is read whole. -/
theorem parseRuns_run {x : Run} (h : Run.size x ≤ 127) (k : Nat) (tail : List Byte) :
    parseRuns (k + 1) (Run.bytes x ++ tail) = (parseRuns k tail).map (fun runs => Run.cols x :: runs) := by
  cases x with
  | inl n =>
    have hb := header_blank 1 h
    have hn := header_size 1 h
    simp_all [Run.bytes, Run.cols, Run.size, parseRuns]
  | inr l =>
    have hb := header_blank 0 h
    have hn := header_size 0 h
    simp_all [Run.bytes, Run.cols, Run.size, parseRuns, takeColumns_append]

/-- A run list is read run by run. -/
theorem parseRuns_flatMap {runs : List Run} (h : ∀ x ∈ runs, Run.size x ≤ 127) {k : Nat} (hk : runs.length ≤ k) :
    parseRuns k (runs.flatMap Run.bytes) = some (runs.map Run.cols) := by
  induction runs generalizing k with
  | nil => cases k <;> rfl
  | cons x runs ih =>
    cases k with
    | zero => exact absurd hk (Nat.not_succ_le_zero _)
    | succ k =>
      rw [List.flatMap_cons, parseRuns_run (h x List.mem_cons_self),
        ih (fun y hy => h y (List.mem_cons_of_mem _ hy)) (Nat.le_of_succ_le_succ hk)]
      rfl

/-- Every run takes a byte at least, so a run list's length bounds the number of its runs. -/
theorem runsOf_flatMap {runs : List Run} (h : ∀ x ∈ runs, Run.size x ≤ 127) :
    runsOf (runs.flatMap Run.bytes) = some (runs.map Run.cols) := by
  refine parseRuns_flatMap h ?_
  have hone : ∀ x : Run, 1 ≤ (Run.bytes x).length := fun x => by cases x <;> simp [Run.bytes]
  calc runs.length = (runs.map (fun _ => 1)).sum := by simp
    _ ≤ (runs.map (fun x => (Run.bytes x).length)).sum := List.sum_le_sum fun x _ => hone x
    _ = _ := by rw [List.length_flatMap]

/-- Row r of a column lies in byte r/8, at bit 7 − (r mod 8) (section 11.6). -/
theorem columnOf_getLsbD (b0 b1 b2 : Byte) (r : Fin 24) :
    (columnOf b0 b1 b2).getLsbD r =
      (if r.val < 8 then b0.getLsbD (7 - r.val)
        else if r.val < 16 then b1.getLsbD (15 - r.val)
        else b2.getLsbD (23 - r.val)) := by
  have hr (b : Byte) (k : Nat) (hk : k < 8) : b.reverse.getLsbD k = b.getLsbD (7 - k) := by
    rw [BitVec.getLsbD_reverse, BitVec.getMsbD_eq_getLsbD]
    simp [hk]
  have h24 := r.isLt
  unfold columnOf
  rw [BitVec.getLsbD_append, BitVec.getLsbD_append]
  split
  · split
    · next h => exact hr _ _ h
    · rw [hr _ _ (by omega)]
      congr 1
      omega
  · rw [hr _ _ (by omega), if_neg (by omega)]
    congr 1
    omega

/-! ## DROP (R22) -/

theorem dropSlot_free (h : s.slots[i].state = .free) : dropSlot i s = (s, .ok) := by
  simp only [dropSlot, h]

theorem dropSlot_image (h : s.slots[i].state = .filling ∨ s.slots[i].state = .sealed) :
    dropSlot i s = (setSlot i freeSlot s, .ok) := by
  rcases h with h | h <;> simp only [dropSlot, h]

theorem dropSlot_in_queue (h : s.slots[i].state = .bound ∨ s.slots[i].state = .printing) :
    dropSlot i s = (s, .slotState) := by
  rcases h with h | h <;> simp only [dropSlot, h]

end Sys2Proof.QueueAndSlots

namespace Sys2Proof

open Sys2Proof.Machine Sys2Proof.QueueAndSlots

/-- Settles O13: OPEN by the slot's state and the fit of its extent, SEAL by the slot's state. -/
theorem openAndSealFrameAnImage : Obligations.OpenAndSealFrameAnImage := by
  refine ⟨fun tag r s hr i hi => ⟨fun hs => ?_, fun hs hbad => ?_, fun hs hl hn hfit => ?_⟩,
    fun tag b s hr i hi => ⟨fun hs => ?_, fun hs => ?_⟩⟩
  · exact exec_slot hr rfl rfl rfl hi (openSlot_not_free (s := dropOldest s) hs) rfl
  · have hn : ¬(r.left.toNat ≤ 3263 ∧ 1 ≤ r.length.toNat ∧ r.left.toNat + r.length.toNat ≤ 3264) := by
      rcases hbad with h | h | h
      · omega
      · simp [h]
      · omega
    exact exec_slot hr rfl rfl rfl hi ((openSlot_free (s := dropOldest s) hs).trans (if_neg hn)) rfl
  · refine exec_slot hr rfl rfl rfl hi
      ((openSlot_free (s := dropOldest s) hs).trans (if_pos ⟨hl, hn, hfit⟩)) ?_
    rw [slotReply_set, byteOf_slot hi, natLe16_toNat, natLe16_toNat, List.length_nil, natLe16_zero]
    rfl
  · exact exec_slot hr rfl rfl rfl hi (sealSlot_not_filling (s := dropOldest s) hs) rfl
  · refine exec_slot hr rfl rfl rfl hi (sealSlot_filling (s := dropOldest s) hs) ?_
    rw [slotReply_set, byteOf_slot hi]
    rfl

/-- Settles O14: the run list is read run by run (`runsOf_flatMap`), and a column row by row. -/
theorem dataStoresItsRuns : Obligations.DataStoresItsRuns := by
  refine ⟨fun tag start runs b i s bytes cols hruns hbytes hcols hr hi hs hf hfit => ?_, columnOf_getLsbD⟩
  have hb : bytes = runs.flatMap Run.bytes := hbytes
  have hc : (runs.map Run.cols).flatten = cols := by rw [hcols, List.flatMap_def]; rfl
  have hp : runsOf bytes = some (runs.map Run.cols) := hb ▸ runsOf_flatMap fun x hx => (hruns x hx).2
  have hlen : ((runs.map Run.cols).map List.length).sum = cols.length := by rw [← hc, List.length_flatten]
  have hne : [] ∉ runs.map Run.cols := fun h => by
    obtain ⟨x, hx, e⟩ := List.mem_map.mp h
    have h1 : 1 ≤ Run.size x := (hruns x hx).1
    rw [← Run.length_cols, e] at h1
    exact absurd h1 (by decide)
  have hstore := (storeData_at_fill_point (s := dropOldest s) hp hs hf).trans
    (if_pos ⟨hne, hlen ▸ hfit⟩)
  rw [hc] at hstore
  refine exec_slot hr rfl rfl rfl hi hstore ?_
  rw [slotReply_set, byteOf_slot hi, List.length_append]
  exact congrArg (fun c => [0x00#8, b, c] ++ _ ++ _ ++ _) (congrArg SlotState.code hs)

/-- Settles O15: DATA's checks in R19's order; a slot above 7 is refused before any of them. -/
theorem slotRequestsAreChecked : Obligations.SlotRequestsAreChecked := by
  refine ⟨fun tag r s hr i hi => ⟨fun hp => ?_, fun runs hp => ⟨fun hs => ?_, fun hs hf => ?_, fun hs hf hbad => ?_⟩⟩,
    fun tag s => ⟨fun r hb hr => ?_, fun r hb hr => ?_, fun b hb hr => ?_, fun b hb hr => ?_⟩⟩
  · exact exec_slot hr rfl rfl rfl hi (storeData_malformed (s := dropOldest s) hp) rfl
  · exact exec_slot hr rfl rfl rfl hi (storeData_not_filling (s := dropOldest s) hp hs) rfl
  · exact exec_slot hr rfl rfl rfl hi (storeData_out_of_sequence (s := dropOldest s) hp hs hf) rfl
  · have hn : ¬([] ∉ runs ∧ s.slots[i].cols.length + (runs.map List.length).sum ≤ s.slots[i].length) :=
      fun ⟨h1, h2⟩ => hbad.elim h1 (Nat.not_lt.mpr h2)
    exact exec_slot hr rfl rfl rfl hi ((storeData_at_fill_point (s := dropOldest s) hp hs hf).trans (if_neg hn)) rfl
  all_goals exact exec_slot_none hr rfl rfl rfl hb

/-- Settles O16: by the slot's state. -/
theorem dropActsByTheSlotState : Obligations.DropActsByTheSlotState := by
  intro tag b i s hr hi
  have hfreed : slotReply .ok i { s with slots := s.slots.set i freeSlot } =
      [0x00#8, b, 0x00#8, 0#8, 0#8, 0#8, 0#8, 0#8, 0#8] := by
    rw [slotReply_set, byteOf_slot hi]
    rfl
  cases hs : s.slots[i].state with
  | free => exact exec_slot hr rfl rfl rfl hi (dropSlot_free (s := dropOldest s) hs) rfl
  | filling => exact exec_slot hr rfl rfl rfl hi (dropSlot_image (s := dropOldest s) (.inl hs)) hfreed
  | sealed => exact exec_slot hr rfl rfl rfl hi (dropSlot_image (s := dropOldest s) (.inr hs)) hfreed
  | bound => exact exec_slot hr rfl rfl rfl hi (dropSlot_in_queue (s := dropOldest s) (.inl hs)) rfl
  | printing => exact exec_slot hr rfl rfl rfl hi (dropSlot_in_queue (s := dropOldest s) (.inr hs)) rfl

end Sys2Proof
end

