-- ==== Sys2Proof/Proofs/QueueRequests.lean ====
section
/-! The requests FLSH and CMPL, and the retirement of the ACTIVE entry: O21 and O22. -/

namespace Sys2Proof.QueueAndSlots

open Sys2Proof.Machine

variable {s : State} {e : Entry} {rest : List Entry} {o : EntryOutcome} {i : Fin 8}

/-! ## CMPL (R44, section 11.8) -/

theorem doCmpl_out_of_range {n : Byte} (h : n = 0#8 ∨ 8 < n.toNat) : doCmpl n s = (s, [0x12#8, 0x00#8]) := by
  refine if_neg fun ⟨h1, h8⟩ => ?_
  rcases h with rfl | h
  · exact absurd h1 (by decide)
  · omega

/-- The oldest records are those asked for, or all of them when there are fewer. -/
theorem doCmpl_in_range {n : Byte} (h1 : 1 ≤ n.toNat) (h8 : n.toNat ≤ 8) {taken left : List Completion}
    (hc : s.completions = taken ++ left) (hn : taken.length = n.toNat ∨ (taken.length < n.toNat ∧ left = [])) :
    doCmpl n s = ({ s with completions := left },
      [0x00#8, byteOf taken.length] ++ taken.flatMap completionBytes) := by
  have htake : s.completions.take n.toNat = taken := by
    rcases hn with hn | ⟨hn, rfl⟩
    · rw [hc, List.take_left' hn]
    · rw [hc, List.append_nil, List.take_of_length_le hn.le]
  have hdrop : s.completions.drop n.toNat = left := by
    rcases hn with hn | ⟨hn, rfl⟩
    · rw [hc, List.drop_left' hn]
    · rw [hc, List.append_nil, List.drop_of_length_le hn.le]
  unfold doCmpl
  rw [if_pos ⟨h1, h8⟩, htake, hdrop]
  rfl

/-- A record's nine bytes, 0xFF in place of the passes of an entry that is no LINE (section 11.8). -/
theorem completionBytes_eq (c : Completion) :
    completionBytes c = [c.tag, c.kind.code, c.outcome.code, c.outcome.causeCode,
      (match c.passes with
        | some k => BitVec.ofNat 8 k
        | none => 0xFF#8)] ++ le16 (BitVec.ofNat 16 c.y) ++ le16 c.form := by
  unfold completionBytes
  cases c.passes <;> rfl

/-! ## Events and counts (R186, R187, R190, R191) -/

theorem noticeTest_events (l : Link) : (noticeTest l).events = l.events := by
  unfold noticeTest
  split <;> rfl

/-- Raising an event adds that event and no other (R186). -/
theorem raise_events (ev : Event) (s : State) {n : Nat} (hn : n < 13) :
    (raise ev s).link.events.getLsbD n = (s.link.events.getLsbD n || decide (n = ev.number)) := by
  simp [raise, Link.raise, noticeTest_events, eventBit, hn]

theorem raiseIf_events (b : Bool) (ev : Event) (s : State) {n : Nat} (hn : n < 13) :
    (raiseIf b ev s).link.events.getLsbD n = (s.link.events.getLsbD n || (b && decide (n = ev.number))) := by
  cases b
  · simp [raiseIf, Link.raiseIf]
  · exact raise_events ev s hn

/-- The notice test neither reads nor changes the frames that wait. -/
theorem noticeTest_received (l : Link) (fs : List Frame) :
    noticeTest { l with received := fs } = { noticeTest l with received := fs } := by
  by_cases h : l.events &&& l.mask ≠ 0#13 ∧ l.outstanding = false
  · exact (if_pos h).trans (by rw [noticeTest, if_pos h])
  · exact (if_neg h).trans (by rw [noticeTest, if_neg h])

/-- An event that is raised and a frame that leaves its receive place do not touch each other. -/
theorem dropOldest_raiseIf (b : Bool) (ev : Event) (s : State) :
    dropOldest (raiseIf b ev s) = raiseIf b ev (dropOldest s) := by
  cases b
  · rfl
  · have hl : (s.link.raise ev).received = s.link.received := by simp
    simp only [dropOldest, raiseIf, Link.raiseIf, if_true, hl]
    exact congrArg (fun l => { s with link := l }) (noticeTest_received _ s.link.received.tail).symm

/-- Counting sets a half flag exactly when the counter reaches its half (R191). -/
theorem count_generalHalf_iff (b : Bank) (c : General) (k : Nat) :
    (b.count c k).generalHalf = b.generalHalf ↔ b.halves c k = false := by
  refine ⟨fun h => ?_, fun h => by simp [Bank.count, h]⟩
  rw [← Bool.not_eq_true]
  intro hh
  have hclear : b.generalHalf.getLsbD c.index = false := by
    simp only [Bank.halves, crossesHalf, Bool.and_eq_true, Bool.not_eq_true'] at hh
    exact hh.2
  have hset : (b.count c k).generalHalf.getLsbD c.index = true := by
    simp [Bank.count, hh]
  rw [h, hclear] at hset
  cases hset

/-- What a count signals: COUNTER_HALF, exactly when a half flag is newly set (R191). -/
theorem count_link (c : General) (k : Nat) (s : State) :
    (count c k s).link =
      if (count c k s).counters.live.generalHalf = s.counters.live.generalHalf then s.link
      else (raise .counterHalf s).link := by
  have hi : (count c k s).counters.live.generalHalf = s.counters.live.generalHalf ↔
      s.counters.live.halves c k = false := count_generalHalf_iff s.counters.live c k
  cases hh : s.counters.live.halves c k with
  | false =>
    rw [if_pos (hi.mpr hh)]
    simp [count, hh, Link.raiseIf]
  | true =>
    rw [if_neg fun h => Bool.noConfusion ((hi.mp h).symm.trans hh)]
    simp [count, hh, Link.raiseIf, raise]

/-! ## Retirement (R42) -/

/-- What an entry's retirement counts: a LINE, by its outcome. -/
theorem countLine_line {f : LineFields} (h : e.kind = .line f) :
    countLine e o s = count (if o.failed then .linesFailed else .linesDone) 1 s := by
  simp only [countLine, h]

theorem countLine_other (h : ∀ f, e.kind ≠ .line f) : countLine e o s = s := by
  unfold countLine
  split
  · next f hf => exact absurd hf (h f)
  all_goals rfl

theorem countLine_link (e : Entry) (o : EntryOutcome) (s : State) :
    (countLine e o s).link =
      if (countLine e o s).counters.live.generalHalf = s.counters.live.generalHalf then s.link
      else (raise .counterHalf s).link := by
  unfold countLine
  split
  · exact count_link _ 1 s
  all_goals rw [if_pos rfl]

/-- The event that says how an entry ended. -/
def endEvent (o : EntryOutcome) : Event := if o.failed then .entryFailed else .entryDone

theorem endEvent_number (o : EntryOutcome) : (endEvent o).number = if o.failed then 1 else 0 := by
  unfold endEvent
  split <;> rfl

/-- A state with the events of a retirement raised, before its count. -/
def retireEvents (o : EntryOutcome) (full : Bool) (s : State) : State := raiseIf full .queueRoom (raise (endEvent o) s)

theorem retireEvents_events (o : EntryOutcome) (full : Bool) (s : State) {n : Nat} (hn : n < 13) :
    (retireEvents o full s).link.events.getLsbD n =
      ((s.link.events.getLsbD n || decide (n = (endEvent o).number)) || (full && decide (n = 2))) :=
  (raiseIf_events full .queueRoom _ hn).trans (by rw [raise_events _ _ hn]; rfl)

section Retire

variable (hq : s.queue = e :: rest) (ha : e.active = true)

include hq ha

theorem retire_eq : retire o s =
    countLine e o (retireEvents o (decide (s.queue.length = 16)) (leaveQueue e rest o s)) :=
  retire_active hq ha

theorem retire_queue : (retire o s).queue = rest := by
  simp [retire_eq hq ha, retireEvents, leaveQueue]

theorem retire_completions : (retire o s).completions = s.completions ++ [completionOf e o s] := by
  simp [retire_eq hq ha, retireEvents, leaveQueue]

theorem retire_slots : (retire o s).slots = releaseSlot e o s.slots := by
  simp [retire_eq hq ha, retireEvents, leaveQueue]

theorem retire_exec : (retire o s).exec = idleExecutor := by
  simp [retire_eq hq ha, retireEvents, leaveQueue]

theorem retire_holds : (retire o s).holds = ⟨s.holds.halted || s.exec.pendingHalt.isSome, s.holds.paperOut⟩ := by
  simp [retire_eq hq ha, retireEvents, leaveQueue]

theorem retire_fire : (retire o s).fire = { s.fire with planInhibit := 0#24 } := by
  simp [retire_eq hq ha, retireEvents, leaveQueue]

theorem retire_heat : (retire o s).heat = { s.heat with waiting := none } := by
  simp [retire_eq hq ha, retireEvents, leaveQueue]

/-- A LINE counts at its retirement, by its outcome (R42). -/
theorem retire_live_line {f : LineFields} (hk : e.kind = .line f) : (retire o s).counters.live =
    s.counters.live.count (if o.failed then .linesFailed else .linesDone) 1 := by
  rw [retire_eq hq ha, countLine_line hk]
  simp [count, retireEvents, leaveQueue]

/-- No other entry counts. -/
theorem retire_counters_other (hk : ∀ f, e.kind ≠ .line f) : (retire o s).counters = s.counters := by
  rw [retire_eq hq ha, countLine_other hk]
  simp [retireEvents, leaveQueue]

/-- The Link Unit's record: the entry's event, QUEUE_ROOM by a full queue, and COUNTER_HALF by a half flag newly set. -/
theorem retire_link : (retire o s).link =
    if (retire o s).counters.live.generalHalf = s.counters.live.generalHalf then
      (retireEvents o (decide (s.queue.length = 16)) s).link
    else (raise .counterHalf (retireEvents o (decide (s.queue.length = 16)) s)).link := by
  have hl := countLine_link e o (retireEvents o (decide (s.queue.length = 16)) (leaveQueue e rest o s))
  rw [← retire_eq hq ha] at hl
  exact hl

/-- The events after a retirement: those before it, its own, QUEUE_ROOM by a full queue, and perhaps COUNTER_HALF. -/
theorem retire_events : ∃ half : Bool, ∀ n < 13, (retire o s).link.events.getLsbD n =
    (((s.link.events.getLsbD n || decide (n = (endEvent o).number)) ||
      (decide (s.queue.length = 16) && decide (n = 2))) || (half && decide (n = 9))) := by
  have hl := retire_link (o := o) hq ha
  split at hl
  · exact ⟨false, fun n hn => by rw [hl, retireEvents_events o _ s hn, Bool.false_and, Bool.or_false]⟩
  · exact ⟨true, fun n hn => by rw [hl, raise_events _ _ hn, retireEvents_events o _ s hn, Bool.true_and]; rfl⟩

end Retire

end Sys2Proof.QueueAndSlots

namespace Sys2Proof

open Sys2Proof.Machine Sys2Proof.QueueAndSlots

/-- Settles O21: FLSH's slots by `sealRemoved_getElem`, CMPL by the count it asks for. -/
theorem flshAndCmplRemoveEntriesAndRecords : Obligations.FlshAndCmplRemoveEntriesAndRecords := by
  refine ⟨fun tag s hr => ⟨sealRemoved s.slots (s.queue.filter (fun e => !e.active)), ?_,
    sealRemoved_getElem _ s.slots⟩, fun tag n s hr => ⟨fun hn => ?_, fun h1 h8 taken left hc hn => ?_⟩⟩
  · refine HeadTables.exec_replied hr rfl rfl rfl ?_
    rw [dropOldest_raiseIf]
    rfl
  · exact HeadTables.exec_replied hr rfl rfl rfl (doCmpl_out_of_range hn)
  · refine HeadTables.exec_replied hr rfl rfl rfl ((doCmpl_in_range (s := dropOldest s) h1 h8 hc hn).trans ?_)
    rw [funext completionBytes_eq]
    rfl

/-- Settles O22: `retire_eq` field by field, the link by `retire_link` and its events by `retire_events`. -/
theorem retirementIsOneStep : Obligations.RetirementIsOneStep := by
  refine ⟨fun o x => ⟨retire_none, fun _ hf => ?_, fun _ hf => ?_⟩, fun o e rest s hq ha => ?_⟩
  · simp only [failActive, hf, Bool.false_eq_true, if_false]
  · simp only [failActive, hf, if_true]
  obtain ⟨half, hevents⟩ := retire_events (o := o) hq ha
  refine ⟨fun raised hraised => ?_, retire_queue hq ha, ?_, fun i => ?_, retire_exec hq ha, retire_holds hq ha, ?_,
    fun hfull => ?_, fun hroom => ?_, fun f hf => retire_live_line hq ha hf, fun k hk => ?_, fun k hk => ?_,
    fun hk => ?_, by simp, by simp, by simp, by simp, by simp, retire_fire hq ha, retire_heat hq ha, by simp, by simp,
    by simp, by simp, by simp⟩
  · have hr : raised = retireEvents o (decide (s.queue.length = 16)) s := by
      rw [hraised]
      split
      · next h => rw [decide_eq_true h]; rfl
      · next h => rw [decide_eq_false h]; rfl
    rw [hr]
    exact retire_link hq ha
  · exact retire_completions hq ha
  · rw [retire_slots hq ha, releaseSlot_getElem]
    cases hk : e.kind with
    | line f => simp [names_line hk]
    | _ => rw [names_other (fun f h => by simp [hk] at h)]; rfl
  · rw [hevents _ (by split <;> decide)]
    simp [endEvent_number]
  · rw [hevents 2 (by decide), decide_eq_true hfull]
    simp
  · have hown : 2 ≠ (endEvent o).number := by
      rw [endEvent_number]
      split <;> decide
    rw [hevents 2 (by decide), decide_eq_false hroom, decide_eq_false hown]
    simp
  all_goals exact retire_counters_other hq ha fun f h => by simp [hk] at h

end Sys2Proof
end

