-- ==== Sys2Proof/Proofs/MotionAndTrips.lean ====
section
/-! SUPPORT. What may move and the trip state as one soundness, the postures from which work, a load or an engine reset goes
on, and how each shared operation leaves them (R36, R45, R48, R84, R109, R122, R137, R155, R157, R164 to R168). -/

namespace Sys2Proof.MotionAndTrips

open Sys2Proof.Machine

variable {s t : State}

/-! ## What soundness reads -/

/-- The aim of the feed move in progress: its purpose, and whether a controlled stop ends it. -/
def aim (s : State) : Option (Purpose × Bool) := s.paper.move.map fun m => (m.purpose, m.stopping)

/-- What the statements about motion and trips read of a state, but the executor, the holds and the pulses. -/
structure Posture where
  active       : Bool
  phase        : MotionPhase
  aim          : Option (Purpose × Bool)
  waiting      : Bool
  engine       : EngineState
  resetPending : Bool
  firstFault   : Bool
  lamp         : Bool
  further      : CauseSet

/-- The posture of a state. -/
def posture (s : State) : Posture where
  active := hasActive s
  phase := s.carriage.phase
  aim := aim s
  waiting := s.heat.waiting.isSome
  engine := s.engine.state
  resetPending := s.engine.resetPending
  firstFault := s.engine.firstFault.isSome
  lamp := s.engine.outputs.getLsbD 7
  further := s.engine.further

theorem posture_eq (e : posture t = posture s) :
    hasActive t = hasActive s ∧ t.carriage.phase = s.carriage.phase ∧ aim t = aim s ∧
      t.heat.waiting.isSome = s.heat.waiting.isSome ∧ t.engine.state = s.engine.state ∧
      t.engine.resetPending = s.engine.resetPending ∧
      t.engine.firstFault.isSome = s.engine.firstFault.isSome ∧
      t.engine.outputs.getLsbD 7 = s.engine.outputs.getLsbD 7 ∧ t.engine.further = s.engine.further := by
  simpa only [posture, Posture.mk.injEq] using e

theorem feeding_eq_aim (s : State) : feeding s = (aim s).isSome := by
  simp [feeding, aim]

theorem stopping_eq_aim (s : State) :
    stopping s = (decide (s.carriage.phase = .stopping) || ((aim s).map Prod.snd).getD false) := by
  simp only [stopping, aim, Option.map_map]
  rfl

theorem inMotion_eq_false : inMotion s = false ↔ s.carriage.phase = .stopped ∧ s.paper.move = none := by
  simp [inMotion, carriageMoving, feeding]

/-- Nothing that stands still is in a controlled stop. -/
theorem stopping_of_still (h : inMotion s = false) : stopping s = false := by
  obtain ⟨hp, hm⟩ := inMotion_eq_false.mp h
  simp [stopping, hp, hm]

theorem carriageMoving_of_still (h : inMotion s = false) : carriageMoving s = false := (Bool.or_eq_false_iff.mp h).1

theorem readyOrHold_iff : readyOrHold s = true ↔ s.engine.state = .ready ∨ s.engine.state = .hold := by
  unfold readyOrHold
  cases s.engine.state <;> simp

/-- The executor state in which a feed move of some purpose is made (R137 to R150). -/
def Fits (u : Purpose) (x : ExecState) : Prop :=
  match u with
  | .preload _ | .load => x = .idle
  | .retract | .perfSkip | .feed _ | .skip | .present | .eject _ | .feedAfter => x = .prepare ∨ x = .advance

/-- Every feed move but one in a controlled stop is made in its executor state. -/
def Fed (s : State) : Prop := ∀ u, aim s = some (u, false) → Fits u s.exec.state

theorem fed_iff : Fed s ↔ ∀ m, s.paper.move = some m → m.stopping = false →
    (match m.purpose with
      | .preload _ | .load => s.exec.state = .idle
      | .retract | .perfSkip | .feed _ | .skip | .present | .eject _ | .feedAfter =>
        s.exec.state = .prepare ∨ s.exec.state = .advance) := by
  refine ⟨fun h m hm hs => h m.purpose (by simp [aim, hm, hs]), fun h u hu => ?_⟩
  obtain ⟨m, hm, he⟩ := Option.map_eq_some_iff.mp hu
  obtain ⟨rfl, hs⟩ := Prod.mk.inj he
  exact h m hm hs

/-- The trip state is judged by the engine alone (R154, R164 to R168). -/
theorem tripInv_congr (hs : t.engine.state = .tripped ↔ s.engine.state = .tripped)
    (hf : t.engine.firstFault.isSome = s.engine.firstFault.isSome)
    (hl : t.engine.outputs.getLsbD 7 = s.engine.outputs.getLsbD 7) (hx : t.engine.further = s.engine.further)
    (h : TripInv s) : TripInv t := by
  simpa only [TripInv, ne_eq, hs, hf, hl, hx] using h

/-- What moves, what works, and the trip state are sound. -/
structure Safe (s : State) : Prop where
  motion : MotionInv s
  trip : TripInv s

/-- A change of the pulses, and of anything that soundness does not read. -/
theorem Safe.change (h : Safe s) (e : posture t = posture s) (hx : t.exec.state = s.exec.state)
    (hf : t.exec.failing = s.exec.failing) (hh : holdsEmpty t = holdsEmpty s)
    (hd : t.fire.driving ≠ 0#24 → t.carriage.phase ≠ .rampDown ∧ t.engine.state ≠ .tripped) : Safe t := by
  obtain ⟨ha, hp, hm, hw, he, hr, hff, hl, hfu⟩ := posture_eq e
  have hc : carriageMoving t = carriageMoving s := by simp only [carriageMoving, hp]
  have hg : feeding t = feeding s := by simp only [feeding_eq_aim, hm]
  have hi : inMotion t = inMotion s := by simp only [inMotion, hc, hg]
  have hst : stopping t = stopping s := by simp only [stopping_eq_aim, hp, hm]
  have hro : readyOrHold t = readyOrHold s := by simp only [readyOrHold, he]
  have hfed : Fed t ↔ Fed s := by simp only [Fed, hm, hx]
  obtain ⟨⟨rest, apart, pulses, works, idleStill, waits, resets, holds, fails, advances, feeds, homes⟩, trip⟩ := h
  refine ⟨⟨?_, ?_, hd, ?_, ?_, ?_, ?_, ?_, ?_, ?_, fed_iff.mp (hfed.mpr (fed_iff.mpr feeds)), ?_⟩,
    tripInv_congr (by rw [he]) hff hl hfu trip⟩
  · rwa [he, hi]
  · rwa [hc, hg]
  · rwa [hx, ha, hro, hr]
  · rwa [he, hr, hx, hi]
  · rwa [hw, hx]
  · rwa [hr, hst, hx]
  · rwa [hx, hh, hst]
  · rwa [hx, hst, hf]
  · rwa [hx, hc]
  · rwa [hp, he]

/-- A change of anything that soundness does not read. -/
theorem Safe.upd (h : Safe s)
    (e : (posture t, t.exec.state, t.exec.failing, holdsEmpty t, t.fire.driving) =
      (posture s, s.exec.state, s.exec.failing, holdsEmpty s, s.fire.driving)) : Safe t := by
  simp only [Prod.mk.injEq] at e
  obtain ⟨hp, hx, hf, hh, hd⟩ := e
  obtain ⟨-, hph, -, -, he, -⟩ := posture_eq hp
  exact h.change hp hx hf hh (by rw [hd, hph, he]; exact h.motion.pulses)

/-! ## Postures at rest -/

/-- Nothing moves; the executor may have an entry at work, which it need not hold to. -/
structure Still (s : State) : Prop where
  still : inMotion s = false
  trip : TripInv s
  pulses : s.fire.driving ≠ 0#24 → s.engine.state ≠ .tripped
  works : s.exec.state ≠ .idle → hasActive s = true
  waits : s.heat.waiting.isSome = true → s.exec.state = .cool
  resets : s.engine.resetPending = true → s.engine.state ≠ .tripped

/-- A change of anything that a state at rest does not read. -/
theorem Still.upd (h : Still s)
    (e : (posture t, t.exec.state, t.fire.driving) = (posture s, s.exec.state, s.fire.driving)) : Still t := by
  simp only [Prod.mk.injEq] at e
  obtain ⟨hp, hx, hd⟩ := e
  obtain ⟨ha, hph, hm, hw, he, hr, hff, hl, hfu⟩ := posture_eq hp
  have hi : inMotion t = inMotion s := by simp only [inMotion, carriageMoving, hph, feeding_eq_aim, hm]
  obtain ⟨still, trip, pulses, works, waits, resets⟩ := h
  refine ⟨hi ▸ still, tripInv_congr (by rw [he]) hff hl hfu trip, ?_, ?_, ?_, ?_⟩
  · rwa [hd, he]
  · rwa [hx, ha]
  · rwa [hw, hx]
  · rwa [hr, he]

/-- A sound state in which nothing moves is at rest. -/
theorem Safe.still (h : Safe s) (hm : inMotion s = false) : Still s where
  still := hm
  trip := h.trip
  pulses hd := (h.motion.pulses hd).2
  works hx := (h.motion.works hx).1
  waits := h.motion.waits
  resets hr := by
    have := (h.motion.resets hr).1
    rw [stopping_of_still hm] at this
    cases this

/-- A state at rest is sound with no ERST waiting, if the executor works in READY or HOLD alone and under no hold. -/
theorem Still.safe (h : Still s) (hr : s.engine.resetPending = false)
    (hw : s.exec.state ≠ .idle → readyOrHold s = true ∧ holdsEmpty s = true) : Safe s := by
  obtain ⟨hp, hm⟩ := inMotion_eq_false.mp h.still
  have hns : stopping s = false := stopping_of_still h.still
  exact ⟨{
    rest := fun _ _ => h.still
    apart := .inl (carriageMoving_of_still h.still)
    pulses := fun hd => ⟨by simp [hp], h.pulses hd⟩
    works := fun hx => ⟨h.works hx, (hw hx).1, hr⟩
    idleStill := fun _ _ _ => h.still
    waits := h.waits
    resets := fun e => by simp [hr] at e
    holds := fun hx e => by simp [(hw hx).2] at e
    fails := fun _ e => by simp [hns] at e
    advances := fun _ => carriageMoving_of_still h.still
    feeds := fun m e => by simp [hm] at e
    homes := fun e => by simp [hp] at e }, h.trip⟩

/-- Nothing moves, and the executor is IDLE. -/
structure Idle (s : State) : Prop where
  rest : Still s
  idle : s.exec.state = .idle

theorem Idle.upd (h : Idle s)
    (e : (posture t, t.exec.state, t.fire.driving) = (posture s, s.exec.state, s.fire.driving)) : Idle t :=
  ⟨h.rest.upd e, by simp only [Prod.mk.injEq] at e; exact e.2.1.trans h.idle⟩

theorem Idle.safe (h : Idle s) (hr : s.engine.resetPending = false) : Safe s :=
  h.rest.safe hr fun hx => absurd h.idle hx

/-- A part at rest may pass from one engine state to another, neither of them TRIPPED. -/
theorem Still.enter (h : Still s) {e : Engine} (hs : s.engine.state ≠ .tripped) (he : e.state ≠ .tripped)
    (hf : e.firstFault.isSome = s.engine.firstFault.isSome)
    (hl : e.outputs.getLsbD 7 = s.engine.outputs.getLsbD 7) (hx : e.further = s.engine.further) :
    Still { s with engine := e } where
  still := h.still
  trip := tripInv_congr (s := s) ⟨fun e' => absurd e' he, fun e' => absurd e' hs⟩ hf hl hx h.trip
  pulses _ := he
  works := h.works
  waits := h.waits
  resets _ := he

theorem Idle.enter (h : Idle s) {e : Engine} (hs : s.engine.state ≠ .tripped) (he : e.state ≠ .tripped)
    (hf : e.firstFault.isSome = s.engine.firstFault.isSome)
    (hl : e.outputs.getLsbD 7 = s.engine.outputs.getLsbD 7) (hx : e.further = s.engine.further) :
    Idle { s with engine := e } := ⟨h.rest.enter hs he hf hl hx, h.idle⟩

/-- With no wait the executor may be in any state while an entry is ACTIVE. -/
theorem Still.work (h : Still s) (ha : hasActive s = true) (hw : s.heat.waiting = none) {x : Executor} :
    Still { s with exec := x } where
  still := h.still
  trip := h.trip
  pulses := h.pulses
  works _ := ha
  waits e := by simp [hw] at e
  resets := h.resets

/-- Nothing moves, and the executor may work on an ACTIVE entry: READY or HOLD, no hold, no wait, no ERST (R37, R49). -/
structure Workable (s : State) : Prop where
  rest : Still s
  active : hasActive s = true
  ready : readyOrHold s = true
  holds : holdsEmpty s = true
  waits : s.heat.waiting = none
  resets : s.engine.resetPending = false

/-- A workable state is so in every executor state. -/
theorem Workable.exec (h : Workable s) (x : Executor) : Workable { s with exec := x } :=
  ⟨h.rest.work h.active h.waits, h.active, h.ready, h.holds, h.waits, h.resets⟩

theorem Workable.upd (h : Workable s)
    (e : (posture t, t.exec.state, holdsEmpty t, t.fire.driving, t.heat.waiting) =
      (posture s, s.exec.state, holdsEmpty s, s.fire.driving, s.heat.waiting)) : Workable t := by
  simp only [Prod.mk.injEq] at e
  obtain ⟨hp, hx, hh, hd, hw⟩ := e
  obtain ⟨ha, -, -, -, he, hr, -⟩ := posture_eq hp
  have hro : readyOrHold t = readyOrHold s := by simp only [readyOrHold, he]
  exact ⟨h.rest.upd (by rw [hp, hx, hd]), ha.trans h.active, hro.trans h.ready, hh.trans h.holds, hw.trans h.waits,
    hr.trans h.resets⟩

theorem Workable.safe (h : Workable s) : Safe s := h.rest.safe h.resets fun _ => ⟨h.ready, h.holds⟩

/-- A motion that starts finds the engine READY (R78, R137). -/
theorem motionStarted_state (h : readyOrHold s = true) : s.engine.motionStarted.state = .ready := by
  rcases readyOrHold_iff.mp h with h | h <;> simp [Engine.motionStarted, h]

theorem not_tripped_of_readyOrHold (h : readyOrHold s = true) : s.engine.state ≠ .tripped := by
  rcases readyOrHold_iff.mp h with h | h <;> simp [h]

end Sys2Proof.MotionAndTrips
end

