-- ==== Sys2Proof/Proofs/MotionKept.lean ====
section
/-! SUPPORT. How each shared operation leaves motion and trip state, in the order of the model: retirement and trips, the
executor's work, the load, engine reset, causes, and the ends of motions. -/

namespace Sys2Proof.MotionAndTrips

open Sys2Proof.Machine

variable {s t : State} {o : EntryOutcome}

/-! ## Retirement and trips (R42, R164) -/

theorem safe_raise {e : Event} (h : Safe s) : Safe (raise e s) := h.upd rfl

theorem safe_raiseIf {b : Bool} {e : Event} (h : Safe s) : Safe (raiseIf b e s) := h.upd rfl

theorem safe_count {c : General} {k : Nat} (h : Safe s) : Safe (count c k s) := h.upd rfl

/-- The ACTIVE entry is the oldest (R32). -/
theorem exists_active (ha : hasActive s = true) : ∃ e rest, s.queue = e :: rest ∧ e.active = true := by
  cases hq : s.queue with
  | nil => simp [QueueAndSlots.hasActive_nil hq] at ha
  | cons e rest => exact ⟨e, rest, rfl, QueueAndSlots.hasActive_cons hq ▸ ha⟩

/-- A retirement leaves the executor IDLE: with no entry ACTIVE it was. -/
theorem Still.retire (h : Still s) : Idle (retire o s) := by
  cases ha : hasActive s with
  | false =>
    rw [retire_none ha]
    exact ⟨h, not_not.mp fun hx => by simp [h.works hx] at ha⟩
  | true =>
    obtain ⟨e, rest, hq, he⟩ := exists_active ha
    have hx := QueueAndSlots.retire_exec (o := o) hq he
    have hheat := QueueAndSlots.retire_heat (o := o) hq he
    refine ⟨⟨?_, ?_, ?_, ?_, ?_, ?_⟩, by rw [hx]; rfl⟩
    · simpa [inMotion, carriageMoving, feeding] using h.still
    · exact tripInv_congr (by simp) (by simp) (by simp) (by simp) h.trip
    · simpa using h.pulses
    · exact fun hne => absurd (by rw [hx]; rfl) hne
    · simp [hheat]
    · simpa using h.resets

theorem Still.failActive (h : Still s) : Idle (failActive o s) := h.retire

/-- A sound state with nothing in motion retires its entry soundly when no ERST waits. -/
theorem Still.safe_retire (h : Still s) (hr : s.engine.resetPending = false) : Safe (Machine.retire o s) :=
  h.retire.safe (by simpa using hr)

/-- The lamp is lit by every trip (R171). -/
theorem tripOutputs_lamp (m : Nat) (o : BitVec 8) : (tripOutputs m o).getLsbD 7 = true := by
  simp [tripOutputs]

/-- The state that a trip leaves before the entry fails: nothing moves, no pulse runs, TRIPPED with its record and lamp. -/
theorem still_tripped (c : TripCause) (hw : s.exec.state ≠ .idle → hasActive s = true)
    (hc : s.heat.waiting.isSome = true → s.exec.state = .cool) :
    Still { s with
      engine := tripEngine c s, carriage := clearedCarriage, fire := s.fire.cutOff, paper := s.paper.trip c } where
  still := inMotion_eq_false.mpr ⟨rfl, rfl⟩
  trip := by
    refine ⟨?_, ?_, fun h => absurd rfl h⟩
    · simp [tripEngine]
    · simp [tripEngine, tripOutputs_lamp]
  pulses h := absurd rfl h
  works := hw
  waits := hc
  resets h := by cases h

/-- A trip leaves the part sound, whatever moved (R164). -/
theorem safe_trip {c : TripCause} (h : Safe s) : Safe (trip c s) := by
  have hf := (still_tripped c (fun hx => (h.motion.works hx).1) h.motion.waits).failActive (o := .failedTrip)
  exact Idle.safe (hf.upd rfl) (by simp [trip, tripEngine])

theorem safe_testTripFor {c : TripCause} (h : Safe s) : Safe (testTripFor c s) := h.upd rfl

theorem safe_testTripIf {b : Bool} {c : TripCause} (h : Safe s) : Safe (testTripIf b c s) := by
  cases b
  · exact h
  · exact safe_testTripFor h

/-! ## Motions that start and end (R76, R78, R111, R137) -/

/-- The ribbon drive is not the fault lamp (R111, R171). -/
theorem setOutput_six_lamp (e : Engine) (on : Bool) : (e.setOutput 6 on).outputs.getLsbD 7 = e.outputs.getLsbD 7 := by
  cases on <;> simp [Engine.setOutput]

theorem posture_setRibbon (on : Bool) (s : State) : posture (setRibbon on s) = posture s := by
  simp only [posture, setRibbon, setOutput_six_lamp]
  rfl

theorem safe_setRibbon {on : Bool} (h : Safe s) : Safe (setRibbon on s) :=
  h.upd (by rw [posture_setRibbon]; rfl)

theorem Still.setRibbon {on : Bool} (h : Still s) : Still (setRibbon on s) :=
  h.upd (by rw [posture_setRibbon]; rfl)

theorem safe_travel {n : Nat} (h : Safe s) : Safe (travel n s) := by
  rcases travel_cases n s with ⟨-, e⟩ | ⟨-, e⟩ <;> rw [e]
  · exact h.upd (by simp [posture, aim, hasActive, activeEntry, holdsEmpty])
  · exact safe_testTripFor (h.upd (by simp [posture, aim, hasActive, activeEntry, holdsEmpty]))

theorem safe_reach {q : Int} (h : Safe s) : Safe (reach q s) := by
  rcases reach_cases q s with ⟨n, e⟩ | e <;> rw [e]
  · exact safe_travel h
  · exact h

/-- While the carriage moves the paper stands (R137). -/
theorem Safe.no_feed (h : Safe s) (hm : carriageMoving s = true) : s.paper.move = none := by
  have := h.motion.apart.resolve_left (by simp [hm])
  simpa [feeding] using this

/-- While the paper moves the carriage stands (R137). -/
theorem Safe.carriage_stands (h : Safe s) {m : FeedMove} (hm : s.paper.move = some m) : s.carriage.phase = .stopped := by
  have := h.motion.apart.resolve_right (by simp [feeding, hm])
  simpa [carriageMoving] using this

/-- What moves moves in HOMING or READY, so never in TRIPPED (R155). -/
theorem Safe.not_tripped (h : Safe s) (hm : inMotion s = true) : s.engine.state ≠ .tripped := fun he => by
  have := h.motion.rest (by simp [he]) (by simp [he])
  simp [hm] at this

theorem Safe.not_tripped_of_pending (h : Safe s) (hr : s.engine.resetPending = true) : s.engine.state ≠ .tripped :=
  h.not_tripped (by
    rw [← Bool.not_eq_false]
    exact fun hm => by simpa [stopping_of_still hm] using (h.motion.resets hr).1)

/-- The end of a motion of the carriage leaves the part at rest. -/
theorem Safe.endMotion (h : Safe s) (hm : carriageMoving s = true) : Still (endMotion s) where
  still := inMotion_eq_false.mpr ⟨rfl, h.no_feed hm⟩
  trip := tripInv_congr (by simp [Machine.endMotion]) rfl rfl rfl h.trip
  pulses hd := by simpa [Machine.endMotion] using (h.motion.pulses hd).2
  works hx := (h.motion.works hx).1
  waits := h.motion.waits
  resets _ := by simpa [Machine.endMotion] using h.not_tripped (by simp [inMotion, hm])

/-- The end of a feed move leaves the part at rest. -/
theorem Safe.endFeed (h : Safe s) {m : FeedMove} (hm : s.paper.move = some m) : Still (endFeed s) where
  still := inMotion_eq_false.mpr ⟨h.carriage_stands hm, rfl⟩
  trip := tripInv_congr (by simp [Machine.endFeed]) rfl rfl rfl h.trip
  pulses hd := by simpa [Machine.endFeed] using (h.motion.pulses hd).2
  works hx := (h.motion.works hx).1
  waits := h.motion.waits
  resets _ := by simpa [Machine.endFeed] using h.not_tripped (by simp [inMotion, feeding, hm])

/-- A motion of a pass starts from a workable state (R84, R85). -/
theorem Workable.startMotion (h : Workable s) {p : MotionPhase} {d : Dir} {pf : Option Profile}
    (hp : p = .reposition ∨ p = .rampUp) (hx : s.exec.state = .position ∨ s.exec.state = .pass) :
    Safe (startMotion p d pf s) := by
  have hm : s.paper.move = none := (inMotion_eq_false.mp h.rest.still).2
  have he : (Machine.startMotion p d pf s).engine.state = .ready := motionStarted_state h.ready
  have hst : stopping (Machine.startMotion p d pf s) = false := by
    rcases hp with rfl | rfl <;> simp [stopping, Machine.startMotion, hm]
  refine ⟨{
    rest := fun _ e => absurd he e
    apart := .inr (by simp [feeding, Machine.startMotion, hm])
    pulses := fun _ => ⟨by rcases hp with rfl | rfl <;> simp [Machine.startMotion], by simp [he]⟩
    works := fun _ => ⟨h.active, readyOrHold_iff.mpr (.inl he), h.resets⟩
    idleStill := fun _ _ e => by rcases hx with hx | hx <;> simp [Machine.startMotion, hx] at e
    waits := fun e => by simp [Machine.startMotion, h.waits] at e
    resets := fun e => by simp [Machine.startMotion, h.resets] at e
    holds := fun _ e => absurd (h.holds.symm.trans e) nofun
    fails := fun _ e => by simp [hst] at e
    advances := fun e => by rcases hx with hx | hx <;> simp [Machine.startMotion, hx] at e
    feeds := fun m e => by simp [Machine.startMotion, hm] at e
    homes := fun e => by rcases hp with rfl | rfl <;> simp [Machine.startMotion] at e }, ?_⟩
  exact tripInv_congr (s := s) (by simp [he, not_tripped_of_readyOrHold h.ready]) rfl rfl rfl h.rest.trip

/-- An entry's feed move starts from a workable state, in PREPARE or ADVANCE. -/
theorem Workable.startFeed (h : Workable s) {u : Purpose} {d : Dir} {n : Nat}
    (hx : s.exec.state = .prepare ∨ s.exec.state = .advance) (hu : Fits u s.exec.state) : Safe (startFeed u d n s) := by
  obtain ⟨hp, -⟩ := inMotion_eq_false.mp h.rest.still
  have he : (Machine.startFeed u d n s).engine.state = .ready := motionStarted_state h.ready
  have hst : stopping (Machine.startFeed u d n s) = false := by simp [stopping, Machine.startFeed, hp]
  refine ⟨{
    rest := fun _ e => absurd he e
    apart := .inl (by simp [carriageMoving, Machine.startFeed, hp])
    pulses := fun _ => ⟨by simp [Machine.startFeed, hp], by simp [he]⟩
    works := fun _ => ⟨h.active, readyOrHold_iff.mpr (.inl he), h.resets⟩
    idleStill := fun _ _ e => by rcases hx with hx | hx <;> simp [Machine.startFeed, hx] at e
    waits := fun e => by simp [Machine.startFeed, h.waits] at e
    resets := fun e => by simp [Machine.startFeed, h.resets] at e
    holds := fun _ e => absurd (h.holds.symm.trans e) nofun
    fails := fun _ e => by simp [hst] at e
    advances := fun _ => by simp [carriageMoving, Machine.startFeed, hp]
    feeds := fed_iff.mp fun v e => by
      obtain rfl : u = v := by simpa [aim, Machine.startFeed] using e
      exact hu
    homes := fun e => by simp [Machine.startFeed, hp] at e }, ?_⟩
  exact tripInv_congr (s := s) (by simp [he, not_tripped_of_readyOrHold h.ready]) rfl rfl rfl h.rest.trip

/-! ## The executor's work (R40, R41, R49, R54, R84, R121, R122, R144 to R150) -/

theorem Workable.startPass (h : Workable s) {plan : Plan} {r : PassRec} : Safe (startPass plan r s) :=
  safe_setRibbon ((h.exec _).startMotion (.inr rfl) (.inr rfl))

/-- A pass takes its position from a workable state; a wait that it ends is not read. -/
theorem Workable.goPosition (h : Workable { s with heat := { s.heat with waiting := none } }) {plan : Plan}
    {r : PassRec} : Safe (goPosition plan r s) := by
  unfold Machine.goPosition
  dsimp only
  split
  · exact (h.exec _).startPass
  · exact (h.exec _).startMotion (.inl rfl) (.inl rfl)

theorem Workable.noWait (h : Workable s) : Workable { s with heat := { s.heat with waiting := none } } :=
  ⟨⟨h.rest.still, h.rest.trip, h.rest.pulses, h.rest.works, nofun, h.rest.resets⟩, h.active, h.ready, h.holds, rfl,
    h.resets⟩

/-- A refused pass waits in COOL, where nothing moves (R122). -/
theorem Workable.beginWait (h : Workable s) {r : PassRec} : Safe (beginWait r s) := by
  refine safe_count (safe_raise (Still.safe ⟨h.rest.still, h.rest.trip, h.rest.pulses, fun _ => h.active, fun _ => rfl,
    h.rest.resets⟩ h.resets fun _ => ⟨h.ready, h.holds⟩))

theorem Workable.submit (h : Workable s) {plan : Plan} {r : PassRec} : Safe (submit plan r s) := by
  unfold Machine.submit
  split
  · exact h.noWait.goPosition
  · exact h.beginWait

theorem Workable.retire (h : Workable s) : Safe (retire o s) := h.rest.safe_retire h.resets

theorem Workable.beginFeedAfter (h : Workable s) : Safe (beginFeedAfter s) := by
  unfold Machine.beginFeedAfter
  dsimp only
  split
  · split
    · exact (h.exec _).retire
    · exact (h.exec _).startFeed (.inr rfl) (.inr rfl)
  · exact h.safe

theorem Workable.nextWork (h : Workable s) : Safe (nextWork s) := by
  unfold Machine.nextWork
  split
  · split
    · exact h.submit
    · exact h.beginFeedAfter
  · exact h.safe

theorem Workable.planned (h : Workable s) {f : LineFields} : Workable (planned f s) :=
  h.upd (by simp [posture, aim, hasActive, activeEntry, holdsEmpty])

theorem Workable.planAndGo (h : Workable s) {f : LineFields} : Safe (planAndGo f s) := (h.exec _).planned.nextWork

theorem Workable.stageLine (h : Workable s) {f : LineFields} : Safe (stageLine f s) := by
  unfold Machine.stageLine
  split
  · exact h.planAndGo
  · exact (h.exec _).startFeed (.inl rfl) (.inl rfl)

theorem Workable.moveFeed (h : Workable s) (hx : s.exec.state = .advance) {d : Int} : Safe (moveFeed d s) := by
  unfold Machine.moveFeed
  dsimp only
  split
  · exact h.startFeed (.inr hx) (.inr hx)
  · split
    · exact h.retire
    · split
      · exact h.retire
      · exact h.startFeed (.inr hx) (.inr hx)

theorem Workable.moveSkip (h : Workable s) (hx : s.exec.state = .advance) {n : Nat} : Safe (moveSkip n s) := by
  unfold Machine.moveSkip
  split
  · exact h.startFeed (.inr hx) (.inr hx)
  · exact h.retire

theorem Workable.moveTear (h : Workable s) (hx : s.exec.state = .advance) : Safe (moveTear s) := by
  unfold Machine.moveTear
  split
  · split
    · exact h.retire
    · refine Workable.startFeed ?_ (.inr hx) (.inr hx)
      exact h.upd rfl
  · exact h.startFeed (.inr hx) (.inr hx)

theorem Workable.beginMove (h : Workable s) {k : EntryKind} : Safe (beginMove k s) := by
  cases k with
  | feed d => exact (h.exec _).moveFeed rfl
  | skip n => exact (h.exec _).moveSkip rfl
  | tear => exact (h.exec _).moveTear rfl
  | line f => exact h.safe

theorem Workable.afterRetract (h : Workable s) {k : EntryKind} : Safe (afterRetract k s) := by
  unfold Machine.afterRetract
  cases k with
  | line f => exact h.stageLine
  | _ => exact h.beginMove

theorem Workable.prepare (h : Workable s) {k : EntryKind} : Safe (prepare k s) := by
  have hx := h.exec { s.exec with state := .prepare, resume := none }
  unfold Machine.prepare
  dsimp only
  split
  · split
    · refine Workable.afterRetract ?_
      exact hx.upd rfl
    · exact hx.startFeed (.inl rfl) (.inl rfl)
  · exact hx.afterRetract

theorem Workable.resumeEntry (h : Workable s) {e : Entry} : Safe (resumeEntry e s) := by
  unfold Machine.resumeEntry
  split
  · exact h.prepare
  · exact h.planAndGo
  · exact (h.exec _).nextWork
  · exact h.beginFeedAfter
  · exact h.beginMove
  all_goals exact h.safe

end Sys2Proof.MotionAndTrips
end

