-- ==== Sys2Proof/Proofs/HomingAndReset.lean ====
section
/-! SUPPORT. How homing and the load, the engine reset, a controlled stop, a cause and the ends of motions leave motion and
trip state (R48, R79, R80, R96, R138, R139, R142, R149, R157, R164, R168). -/

namespace Sys2Proof.MotionAndTrips

open Sys2Proof.Machine

variable {s t : State} {o : EntryOutcome}

/-! ## Homing and the load (R79, R80, R139, R157) -/

/-- The engine is HOMING with the executor IDLE and the paper standing; the carriage may move. -/
structure Homing (s : State) : Prop where
  engine : s.engine.state = .homing
  idle : s.exec.state = .idle
  waits : s.heat.waiting.isSome = false
  resets : s.engine.resetPending = false
  paper : s.paper.move = none
  trip : TripInv s

/-- In the seek and the park move nothing but the carriage is at work. -/
theorem Safe.homing (h : Safe s) (hp : s.carriage.phase = .seek ∨ s.carriage.phase = .park) : Homing s := by
  have he := h.motion.homes hp
  have hm : s.paper.move = none := h.no_feed (by rcases hp with hp | hp <;> simp [carriageMoving, hp])
  have hx : s.exec.state = .idle := not_not.mp fun hne => by
    simpa [readyOrHold, he] using (h.motion.works hne).2.1
  refine ⟨he, hx, ?_, ?_, hm, h.trip⟩
  · rw [← Bool.not_eq_true]
    exact fun hw => by simpa [hx] using h.motion.waits hw
  · rw [← Bool.not_eq_true]
    intro hr
    have := (h.motion.resets hr).1
    rcases hp with hp | hp <;> simp [stopping, hp, hm] at this

/-- The seek or the park move starts. -/
theorem Homing.startMotion (h : Homing s) {p : MotionPhase} {d : Dir} {pf : Option Profile}
    (hp : p = .seek ∨ p = .park) : Safe (startMotion p d pf s) := by
  have he : (Machine.startMotion p d pf s).engine.state = .homing := by
    simp [Machine.startMotion, Engine.motionStarted, h.engine]
  refine ⟨{
    rest := fun e _ => absurd he e
    apart := .inr (by simp [feeding, Machine.startMotion, h.paper])
    pulses := fun _ => ⟨by rcases hp with rfl | rfl <;> simp [Machine.startMotion], by simp [he]⟩
    works := fun e => absurd h.idle e
    idleStill := fun e => by simp [he] at e
    waits := fun e => by simp [Machine.startMotion, h.waits] at e
    resets := fun e => by simp [Machine.startMotion, h.resets] at e
    holds := fun e => absurd h.idle e
    fails := fun e => absurd h.idle e
    advances := fun e => by simp [Machine.startMotion, h.idle] at e
    feeds := fun m e => by simp [Machine.startMotion, h.paper] at e
    homes := fun _ => he }, ?_⟩
  exact tripInv_congr (s := s) (by simp [he, h.engine]) rfl rfl rfl h.trip

theorem Homing.homeReached (h : Homing s) : Safe (homeReached s) := by
  refine Homing.startMotion ?_ (.inr rfl)
  exact ⟨h.engine, h.idle, h.waits, h.resets, h.paper, h.trip⟩

theorem Homing.startSeek (h : Homing s) : Safe (startSeek s) := by
  have hs : Safe (Machine.startMotion .seek .reverse none
      { s with carriage := { s.carriage with homed := false, position := none, markPhase := none, seekTravel := 0 } }) :=
    Homing.startMotion (by exact ⟨h.engine, h.idle, h.waits, h.resets, h.paper, h.trip⟩) (.inl rfl)
  unfold Machine.startSeek
  dsimp only
  split
  · exact (hs.homing (.inl rfl)).homeReached
  · exact hs

/-- The engine enters HOMING from rest. -/
theorem Idle.enterHoming (h : Idle s) (hs : s.engine.state ≠ .tripped) (hr : s.engine.resetPending = false) :
    Safe (enterHoming s) := by
  have hw : s.heat.waiting.isSome = false := by
    rw [← Bool.not_eq_true]
    exact fun e => by simpa [h.idle] using h.rest.waits e
  refine Homing.startSeek ⟨rfl, h.idle, hw, hr, (inMotion_eq_false.mp h.rest.still).2, ?_⟩
  exact tripInv_congr (s := s) (by simp [hs]) rfl rfl rfl h.rest.trip

/-- The carriage has parked, and the load is under way. -/
structure AtHome (s : State) : Prop where
  home : Homing s
  stands : s.carriage.phase = .stopped

theorem AtHome.upd (h : AtHome s) (e : (posture t, t.exec.state) = (posture s, s.exec.state)) : AtHome t := by
  simp only [Prod.mk.injEq] at e
  obtain ⟨hp, hx⟩ := e
  obtain ⟨-, hph, hm, hw, he, hr, hff, hl, hfu⟩ := posture_eq hp
  have hg : feeding t = feeding s := by simp only [feeding_eq_aim, hm]
  have hpm : t.paper.move = none := by simpa [feeding, h.home.paper] using hg
  exact ⟨⟨he.trans h.home.engine, hx.trans h.home.idle, hw.trans h.home.waits, hr.trans h.home.resets, hpm,
    tripInv_congr (by rw [he]) hff hl hfu h.home.trip⟩, hph.trans h.stands⟩

theorem AtHome.still (h : AtHome s) : Idle s where
  rest := {
    still := inMotion_eq_false.mpr ⟨h.stands, h.home.paper⟩
    trip := h.home.trip
    pulses := fun _ => by simp [h.home.engine]
    works := fun e => absurd h.home.idle e
    waits := fun e => by simp [h.home.waits] at e
    resets := fun _ => by simp [h.home.engine] }
  idle := h.home.idle

theorem AtHome.finishHoming (h : AtHome s) : Safe (finishHoming s) := by
  refine safe_raise (Idle.safe ?_ h.home.resets)
  exact h.still.enter (by simp [h.home.engine]) nofun rfl rfl rfl

/-- A preload or a load feed starts (R139). -/
theorem AtHome.startFeed (h : AtHome s) {u : Purpose} {d : Dir} {n : Nat} (hu : Fits u .idle) :
    Safe (startFeed u d n s) := by
  have he : (Machine.startFeed u d n s).engine.state = .homing := by
    simp [Machine.startFeed, Engine.motionStarted, h.home.engine]
  refine ⟨{
    rest := fun e _ => absurd he e
    apart := .inl (by simp [carriageMoving, Machine.startFeed, h.stands])
    pulses := fun _ => ⟨by simp [Machine.startFeed, h.stands], by simp [he]⟩
    works := fun e => absurd h.home.idle e
    idleStill := fun e => by simp [he] at e
    waits := fun e => by simp [Machine.startFeed, h.home.waits] at e
    resets := fun e => by simp [Machine.startFeed, h.home.resets] at e
    holds := fun e => absurd h.home.idle e
    fails := fun e => absurd h.home.idle e
    advances := fun e => by simp [Machine.startFeed, h.home.idle] at e
    feeds := fed_iff.mp fun v e => by
      obtain rfl : u = v := by simpa [aim, Machine.startFeed] using e
      exact (congrArg (Fits u) h.home.idle).mpr hu
    homes := fun _ => he }, ?_⟩
  exact tripInv_congr (s := s) (by simp [he, h.home.engine]) rfl rfl rfl h.home.trip

theorem AtHome.finishLoad (h : AtHome s) : Safe (finishLoad s) := by
  unfold Machine.finishLoad
  refine AtHome.finishHoming ?_
  split
  · exact h.upd (by simp [posture, aim, hasActive, activeEntry])
  · exact h.upd rfl

theorem AtHome.loadFeed (h : AtHome s) {n : Nat} : Safe (loadFeed n s) := by
  unfold Machine.loadFeed
  split
  · exact h.finishLoad
  · exact h.startFeed rfl

theorem AtHome.beginLoad (h : AtHome s) : Safe (beginLoad s) := by
  have hu : AtHome { s with paper := { s.paper with unpulsed := 0, observedUnpulsed := 0 } } := h.upd rfl
  unfold Machine.beginLoad
  dsimp only
  split
  · split
    · exact hu.loadFeed
    · exact hu.startFeed rfl
  · exact hu.loadFeed

theorem AtHome.load (h : AtHome s) : Safe (load s) := by
  unfold Machine.load
  split
  · split
    · exact h.beginLoad
    · exact h.finishHoming
  · refine AtHome.finishHoming ?_
    exact h.upd rfl
  · exact h.finishHoming

/-! ## Rest, wake and the engine reset (R159 to R162, R168, R169) -/

theorem Idle.beginWake (h : Idle s) (hs : s.engine.state ≠ .tripped) (hr : s.engine.resetPending = false)
    {w : WakeTarget} : Safe (beginWake w s) := by
  refine Idle.safe ?_ hr
  exact h.enter hs nofun rfl rfl rfl

/-- An ERST waits for a motion alone (R168). -/
theorem Safe.not_pending_of_still (h : Safe s) (hm : inMotion s = false) : s.engine.resetPending = false := by
  rw [← Bool.not_eq_true]
  exact fun e => by simpa [stopping_of_still hm] using (h.motion.resets e).1

/-- With the motor drivers off the part is at rest, the executor IDLE and no ERST waiting (R155). -/
theorem Safe.idle (h : Safe s) (hh : s.engine.state ≠ .homing) (hr : readyOrHold s = false) :
    Idle s ∧ s.engine.resetPending = false := by
  have hm : inMotion s = false := h.motion.rest hh fun e => by simp [readyOrHold, e] at hr
  refine ⟨⟨h.still hm, not_not.mp fun hx => ?_⟩, h.not_pending_of_still hm⟩
  simp [(h.motion.works hx).2.1] at hr

theorem safe_wakeIfDue (h : Safe s) : Safe (wakeIfDue s) := by
  unfold wakeIfDue
  split
  · next hw =>
    obtain ⟨hi, hr⟩ := h.idle (by simp [hw.1]) (by simp [readyOrHold, hw.1])
    exact hi.beginWake (by simp [hw.1]) hr
  · exact h

/-- The executor and the paper stand; the carriage may move. -/
structure Quiet (s : State) : Prop where
  paper : s.paper.move = none
  idle : s.exec.state = .idle
  waits : s.heat.waiting.isSome = false
  trip : TripInv s
  pulses : s.fire.driving ≠ 0#24 → s.engine.state ≠ .tripped
  resets : s.engine.resetPending = true → s.engine.state ≠ .tripped

theorem Idle.quiet (h : Idle s) : Quiet s where
  paper := (inMotion_eq_false.mp h.rest.still).2
  idle := h.idle
  waits := by
    rw [← Bool.not_eq_true]
    exact fun e => by simpa [h.idle] using h.rest.waits e
  trip := h.rest.trip
  pulses := h.rest.pulses
  resets := h.rest.resets

/-- An engine reset at rest clears the carriage and leaves the fault lamp (R169). -/
theorem Quiet.clearAtRest (h : Quiet s) : Idle (clearAtRest s) := by
  refine ⟨⟨inMotion_eq_false.mpr ⟨rfl, h.paper⟩, ?_, h.pulses, fun e => absurd h.idle e,
    fun e => by simp [h.waits] at e, h.resets⟩, h.idle⟩
  exact tripInv_congr (s := s) Iff.rfl rfl (setOutput_six_lamp s.engine false) rfl h.trip

/-- The end of an ERST enters UNREADY with everything at rest (R168). -/
theorem Quiet.erstAtRest (h : Quiet s) (hs : s.engine.state ≠ .tripped) : Safe (erstAtRest s) := by
  refine Idle.safe ?_ rfl
  exact h.clearAtRest.enter hs nofun rfl rfl rfl

/-- At rest an ERST that waits completes (R168). -/
theorem Idle.finishReset (h : Idle s) : Safe (finishReset s) := by
  unfold Machine.finishReset
  split
  · next hr => exact h.quiet.erstAtRest (h.rest.resets hr)
  · next hr => exact h.safe (by simpa using hr)

/-! ## Controlled stops (R96, R138) -/

theorem Carriage.stop_phase (c : Carriage) (b : Bool) : (c.stop b).phase = .stopping := by
  unfold Carriage.stop
  split <;> rfl

theorem FeedMove.stop_stopping (m : FeedMove) (st : PaperState) : (m.stop st).stopping = true := by
  unfold FeedMove.stop
  split
  · assumption
  · rfl

theorem stopCarriage_phase (s : State) : (stopCarriage s).carriage.phase = .stopping := by
  unfold stopCarriage
  split
  · assumption
  · exact Carriage.stop_phase _ _

/-- A controlled stop of the carriage leaves the paper as it is. -/
theorem controlledStop_of_moving (h : carriageMoving s = true) :
    (controlledStop s).carriage.phase = .stopping ∧ (controlledStop s).paper = s.paper := by
  rw [controlledStop, if_pos h]
  exact ⟨stopCarriage_phase s, by simp⟩

theorem controlledStop_of_standing (h : carriageMoving s = false) : controlledStop s = stopFeed s := by
  simp [controlledStop, h]

/-- A part in motion of which a controlled stop is asked: an entry at work has failed, and else an ERST waits. -/
structure Stoppable (s : State) : Prop where
  moving : inMotion s = true
  apart : carriageMoving s = false ∨ feeding s = false
  engine : s.engine.state = .homing ∨ s.engine.state = .ready
  trip : TripInv s
  works : s.exec.state ≠ .idle → hasActive s = true ∧ readyOrHold s = true ∧ s.engine.resetPending = false
  fails : s.exec.state ≠ .idle → s.exec.failing = true ∧ s.exec.state ≠ .cool
  resets : s.exec.state = .idle → s.engine.resetPending = true
  waits : s.heat.waiting.isSome = true → s.exec.state = .cool
  advances : s.exec.state = .prepare ∨ s.exec.state = .advance → carriageMoving s = false

/-- A stop that is asked for is in progress. -/
theorem stopping_controlledStop (hm : inMotion s = true) : stopping (controlledStop s) = true := by
  cases hc : carriageMoving s with
  | true => simp [stopping, (controlledStop_of_moving hc).1]
  | false =>
    obtain ⟨m, hm⟩ : ∃ m, s.paper.move = some m := by
      simpa [inMotion, hc, feeding, Option.isSome_iff_exists] using hm
    simp [controlledStop_of_standing hc, stopping, stopFeed, hm, FeedMove.stop_stopping]

theorem Stoppable.controlledStop (h : Stoppable s) : Safe (controlledStop s) := by
  have hst := stopping_controlledStop h.moving
  have hx : (Machine.controlledStop s).exec = s.exec := by simp
  have he : (Machine.controlledStop s).engine = s.engine := by simp
  have ha : hasActive (Machine.controlledStop s) = hasActive s := QueueAndSlots.hasActive_congr (by simp)
  have hro : readyOrHold (Machine.controlledStop s) = readyOrHold s := by simp only [readyOrHold, he]
  have hph : (Machine.controlledStop s).carriage.phase = .stopping ∨
      (Machine.controlledStop s).carriage.phase = .stopped ∧ carriageMoving s = false := by
    cases hc : carriageMoving s with
    | true => exact .inl (controlledStop_of_moving hc).1
    | false =>
      refine .inr ⟨?_, rfl⟩
      rw [controlledStop_of_standing hc]
      simpa [carriageMoving] using hc
  have hap : carriageMoving (Machine.controlledStop s) = false ∨ feeding (Machine.controlledStop s) = false := by
    cases hc : carriageMoving s with
    | true =>
      refine .inr ?_
      simpa [feeding, (controlledStop_of_moving hc).2, hc] using h.apart
    | false => exact .inl (by simpa [controlledStop_of_standing hc, carriageMoving, stopFeed] using hc)
  have hfeeds : ∀ m, (Machine.controlledStop s).paper.move = some m → m.stopping = true := by
    intro m hm
    cases hc : carriageMoving s with
    | true =>
      rw [(controlledStop_of_moving hc).2] at hm
      simpa [hc, feeding, hm] using h.apart
    | false =>
      rw [controlledStop_of_standing hc] at hm
      obtain ⟨m', -, rfl⟩ := Option.map_eq_some_iff.mp hm
      exact FeedMove.stop_stopping _ _
  refine ⟨{
    rest := fun e1 e2 => by rw [he] at e1 e2; exact (h.engine.elim e1 e2).elim
    apart := hap
    pulses := fun _ => ⟨by rcases hph with hp | ⟨hp, -⟩ <;> simp [hp],
      by rw [he]; rcases h.engine with e | e <;> simp [e]⟩
    works := by rw [hx, ha, hro, he]; exact h.works
    idleStill := fun _ hr e => by
      rw [he] at hr
      rw [hx] at e
      rcases e with e | e
      · simp [h.resets e] at hr
      · exact absurd e (h.fails (by simp [e])).2
    waits := by simpa [hx] using h.waits
    resets := fun hr => ⟨hst, not_not.mp fun hne => by
      rw [hx] at hne
      rw [he, (h.works hne).2.2] at hr
      cases hr⟩
    holds := fun _ _ => hst
    fails := fun hne _ => by
      rw [hx] at hne ⊢
      exact (h.fails hne).1
    advances := fun e => by
      rw [hx] at e
      have hc := h.advances e
      simpa [controlledStop_of_standing hc, carriageMoving, stopFeed] using hc
    feeds := fun m hm hs => by simp [hfeeds m hm] at hs
    homes := fun e => by rcases hph with hp | ⟨hp, -⟩ <;> simp [hp] at e }, ?_⟩
  exact tripInv_congr (s := s) (by rw [he]) (by rw [he]) (by rw [he]) (by rw [he]) h.trip

/-! ## Causes and the ends of feed moves (R142, R149, R164, R166, R168) -/

theorem safe_unload (h : Safe s) : Safe { s with paper := s.paper.unload } := h.upd rfl

theorem safe_paperEnds (h : Safe s) {m : FeedMove} (hm : s.paper.move = some m) : Safe (paperEnds s) := by
  have hs : Still (addPaperOut (Machine.endFeed { s with paper := s.paper.unload })) :=
    ((safe_unload h).endFeed (m := m) hm).upd rfl
  exact hs.failActive.finishReset

/-- A feed move that no controlled stop ends is not waited for by an ERST. -/
theorem Safe.not_pending (h : Safe s) {m : FeedMove} (hm : s.paper.move = some m) (hs : m.stopping = false) :
    s.engine.resetPending = false := by
  rw [← Bool.not_eq_true]
  exact fun e => by simpa [stopping, h.carriage_stands hm, hm, hs] using (h.motion.resets e).1

/-- The end of a feed move that no controlled stop ends retires the entry soundly. -/
theorem Safe.retire_endFeed (h : Safe s) {m : FeedMove} (hm : s.paper.move = some m) (hs : m.stopping = false) :
    Safe (retire o (Machine.endFeed s)) := (h.endFeed hm).safe_retire (h.not_pending hm hs)

theorem safe_settleFeed (h : Safe s) : Safe (settleFeed s) := by
  rcases settleFeed_cases s with e | ⟨m, hm, ⟨-, -, e⟩ | ⟨-, -, -, e⟩ | ⟨-, -, hs, e⟩ | ⟨-, -, hs, e⟩⟩ <;> rw [e]
  · exact h
  · exact safe_paperEnds h hm
  · exact safe_unload h
  · exact (safe_unload h).retire_endFeed (m := m) hm hs
  · exact h.retire_endFeed hm hs

/-- In TRIPPED another cause joins the further causes (R166). -/
theorem safe_further (h : Safe s) (hs : s.engine.state = .tripped) {x : CauseSet} :
    Safe { s with engine := { s.engine with further := x } } := by
  obtain ⟨hi, hr⟩ := h.idle (by simp [hs]) (by simp [readyOrHold, hs])
  obtain ⟨record, lamp, -⟩ := h.trip
  refine Idle.safe ⟨?_, hi.idle⟩ hr
  exact ⟨hi.rest.still, ⟨record, lamp, fun e => absurd hs e⟩, hi.rest.pulses, hi.rest.works, hi.rest.waits,
    hi.rest.resets⟩

theorem safe_arise {c : TripCause} (h : Safe s) : Safe (arise c s) := by
  rcases arise_cases c s with ⟨-, e⟩ | ⟨hs, e⟩ <;> rw [e]
  · refine safe_trip ?_
    split
    · exact h
    · exact safe_settleFeed h
  · exact safe_further h hs

theorem safe_ariseIf {b : Bool} {c : TripCause} (h : Safe s) : Safe (ariseIf b c s) := by
  cases b
  · exact h
  · exact safe_arise h

theorem safe_ariseLevels {hot fault : Bool} (h : Safe s) : Safe (ariseLevels hot fault s) := by
  have hf : Safe { s with freeCount := s.freeCount + 1 } := h.upd rfl
  unfold ariseLevels
  dsimp only
  split
  · split <;> exact safe_arise (safe_arise hf)
  · exact safe_ariseIf (safe_ariseIf h)

end Sys2Proof.MotionAndTrips
end

