-- ==== Sys2Proof/Proofs/RequestsKeepMotion.lean ====
section
/-! SUPPORT. Requests, the link's events, the heat gate, the slots and the queue, HALT and GO keep motion and trip state sound
(R17 to R22, R33, R34, R44 to R50, R121, R122, R177 to R192). -/

namespace Sys2Proof.MotionAndTrips

open Sys2Proof.Machine

variable {s t : State} {o : EntryOutcome}

/-! ## Requests and events -/

/-- A request keeps sound what its block's answer keeps sound. -/
theorem safe_serve {f : Frame} {a : State → Answer} (ha : ∀ {t}, Safe t → Safe (a t).1) (h : Safe s) :
    Safe (serve f a s) := by
  refine serve_keeps (fun f t ht => ?_) (fun _ ht => ht.upd rfl) (fun _ _ ht => ht.upd rfl) (fun _ => ha) h
  unfold arrive
  split
  · exact ht.upd rfl
  · exact safe_raise (safe_count ht)

theorem safe_beginSending (h : Safe s) : Safe (beginSending s) := by
  rcases beginSending_cases s with ⟨-, -, e⟩ | ⟨-, -, -, e⟩ | ⟨-, e⟩ <;> rw [e]
  · exact h.upd rfl
  · exact h.upd rfl
  · exact h

theorem safe_request {c : Instr} {a : State → Answer} (h : Safe s) (he : exec c s = request c a s)
    (ha : ∀ {t}, Safe t → Safe (a t).1) : Safe (after c s) := by
  have hb := safe_beginSending h
  unfold after
  rw [he]
  unfold request
  cases encodeFrame c with
  | some f => exact safe_serve ha hb
  | none => exact hb

theorem safe_fields {c : Instr} {α : Type} {w : Wire α} {a : α → State → Answer} (h : Safe s)
    (he : exec c s = request c (onFields w a) s) (ha : ∀ {x t}, Safe t → Safe (a x t).1) : Safe (after c s) :=
  safe_request h he fun ht => onFields_keeps ht fun _ _ => ha

theorem safe_event {c : Instr} {f : State → State} (h : Safe s) (he : exec c s = acting f s)
    (hf : ∀ t, Safe t → Safe (f t)) : Safe (after c s) := by
  unfold after
  rw [he]
  exact hf _ (safe_beginSending h)

/-! ## The Link Unit (R177 to R192) -/

theorem safe_setMode {m : RxMode} (h : Safe s) : Safe (setMode m s) := h.upd rfl

theorem safe_overrun (h : Safe s) : Safe (overrun s) := safe_raise (safe_count h)

theorem safe_rejectFrame (h : Safe s) : Safe (rejectFrame s) := safe_raise (safe_count (safe_setMode h))

theorem safe_rxFrameBytes {bytes : List Byte} (h : Safe s) : Safe (rxFrameBytes bytes s) := by
  unfold rxFrameBytes
  split
  · split
    · exact safe_setMode h
    · exact safe_rejectFrame h
  · split
    · split
      · exact h.upd rfl
      · exact safe_rejectFrame h
    · exact safe_setMode h

theorem safe_rxByte {b : LineByte} (h : Safe s) : Safe (rxByte s b) := by
  unfold rxByte
  split
  · unfold rxHunt
    split
    · split
      · exact safe_setMode h
      · exact safe_setMode (safe_overrun h)
    · exact h
  · unfold rxFrame
    split
    · exact safe_rxFrameBytes h
    · exact safe_rejectFrame h
  · exact safe_setMode h

theorem safe_byteGapTimeout (h : Safe s) : Safe (after .byteGapTimeout s) := by
  refine safe_event h (by unfold exec execByteGapTimeout; rfl) fun t h => ?_
  split
  · exact h
  · exact safe_rejectFrame h
  · exact safe_setMode h

theorem safe_receiveOverrun (h : Safe s) : Safe (after .receiveOverrun s) := by
  refine safe_event h (by unfold exec execReceiveOverrun; rfl) fun t h => ?_
  split
  · exact safe_setMode (safe_overrun h)
  · exact h

theorem safe_discardedFramePassedOver (h : Safe s) : Safe (after .discardedFramePassedOver s) := by
  refine safe_event h (by unfold exec execDiscardedFramePassedOver; rfl) fun t h => ?_
  split
  · exact h
  · exact h
  · exact safe_setMode h

theorem safe_replySent (h : Safe s) : Safe (after .replySent s) := by
  refine safe_event h (by unfold exec execReplySent; rfl) fun t h => ?_
  dsimp only
  split
  · exact h.upd rfl
  · exact h

theorem safe_noticeSent (h : Safe s) : Safe (after .noticeSent s) := by
  refine safe_event h (by unfold exec execNoticeSent; rfl) fun t h => ?_
  dsimp only
  split
  · exact h.upd rfl
  all_goals exact h

theorem safe_unknownKind (kind tag : Byte) (p : List Byte) (h : Safe s) : Safe (after (.unknownKind kind tag p) s) := by
  rcases after_unknownKind kind tag p s with e | e <;> rw [e]
  · exact safe_beginSending h
  · exact safe_serve id (safe_beginSending h)

theorem safe_doEmsk {m : Option (BitVec 16)} (h : Safe s) : Safe (doEmsk m s).1 := by
  unfold doEmsk
  split
  · exact h
  · split
    · exact h.upd rfl
    · exact h

theorem safe_doGetp {b : Byte} (h : Safe s) : Safe (doGetp b s).1 := by
  unfold doGetp
  split <;> exact h

theorem safe_doRead {g : Byte} (h : Safe s) : Safe (doRead g s).1 := by
  unfold doRead
  split
  · exact h
  · split <;> exact h

theorem safe_doClear {m : Byte} (h : Safe s) : Safe (doClear m s).1 := by
  unfold doClear
  split
  · exact h.upd rfl
  · exact h

theorem safe_cntrSnap (tag : Byte) (req : SnapForm) (h : Safe s) : Safe (after (.cntrSnap tag req) s) := by
  cases req with
  | snap u => exact safe_request h rfl fun h => h.upd rfl
  | undefinedOp o p => exact safe_request h rfl id
  | wrongLength p => exact safe_request h rfl id

/-! ## SETP and the heat gate (R121, R122, R184) -/

/-- In READY or HOLD nothing moves while the executor is IDLE or in COOL and no ERST waits (R36, R84, R155). -/
theorem Safe.still_of_waiting (h : Safe s) (hro : readyOrHold s = true) (hr : s.engine.resetPending = false)
    (hx : s.exec.state = .idle ∨ s.exec.state = .cool) : inMotion s = false := by
  rcases readyOrHold_iff.mp hro with he | he
  · exact h.motion.idleStill he hr hx
  · exact h.motion.rest (by simp [he]) (by simp [he])

/-- A pass that waits in COOL finds the part workable once it waits no more (R122). -/
theorem Safe.cooled (h : Safe s) (hw : s.heat.waiting.isSome = true) :
    Workable { s with heat := { s.heat with waiting := none } } := by
  have hc := h.motion.waits hw
  obtain ⟨ha, hro, hr⟩ := h.motion.works (by simp [hc])
  have hm := h.still_of_waiting hro hr (.inr hc)
  have hh : holdsEmpty s = true := by
    rw [← Bool.not_eq_false]
    exact fun e => by simpa [stopping_of_still hm] using h.motion.holds (by simp [hc]) e
  have hs := h.still hm
  exact ⟨⟨hs.still, hs.trip, hs.pulses, hs.works, nofun, hs.resets⟩, ha, hro, hh, rfl, hr⟩

theorem safe_retest (h : Safe s) : Safe (retest s) := by
  unfold retest
  split
  · next hw _ =>
    split
    · split
      · exact (h.cooled (by simp [hw])).goPosition
      · exact h
    · exact h
  · exact h

theorem safe_afterSetp {id : ParamId} (h : Safe s) : Safe (afterSetp id s) := by
  cases id
  case warmth => exact h.upd rfl
  case hotth | resume =>
    refine safe_retest ?_
    exact h.upd rfl
  case ceiling => exact safe_retest h
  case wakeins => exact safe_wakeIfDue h
  all_goals exact h

theorem safe_doSetp {r : SetpReq} (h : Safe s) : Safe (doSetp r s).1 := by
  unfold doSetp
  split
  · exact h
  · split
    · exact h
    · split
      · refine safe_afterSetp ?_
        exact h.upd rfl
      · exact h

/-! ## Slots and queue (R17 to R22, R33, R34, R44, R50) -/

theorem safe_slotAnswer {b : Byte} {a : Fin 8 → State → State × Result} (ha : ∀ {i}, Safe s → Safe (a i s).1)
    (h : Safe s) : Safe (slotAnswer b a s).1 := by
  unfold slotAnswer
  split
  · exact h
  · exact ha h

theorem safe_openSlot {left length : Nat} {i : Fin 8} (h : Safe s) : Safe (openSlot left length i s).1 := by
  unfold openSlot
  split
  · exact h
  · split
    · exact h.upd rfl
    · exact h

theorem safe_storeData {start : Nat} {bytes : List Byte} {i : Fin 8} (h : Safe s) :
    Safe (storeData start bytes i s).1 := by
  unfold storeData
  split
  · exact h
  · split
    · exact h
    · split
      · exact h
      · split
        · exact h.upd rfl
        · exact h

theorem safe_sealSlot {i : Fin 8} (h : Safe s) : Safe (sealSlot i s).1 := by
  unfold sealSlot
  split
  · exact h.upd rfl
  · exact h

theorem safe_dropSlot {i : Fin 8} (h : Safe s) : Safe (dropSlot i s).1 := by
  unfold dropSlot
  split
  · exact h
  · exact h.upd rfl
  · exact h.upd rfl
  all_goals exact h

/-- A change of queue and slots that leaves an ACTIVE entry ACTIVE. -/
theorem Safe.requeue (h : Safe s) {q : List Entry} {slots : Vector Slot 8}
    (ha : hasActive s = true → hasActive { s with queue := q, slots := slots } = true) :
    Safe { s with queue := q, slots := slots } := by
  obtain ⟨⟨rest, apart, pulses, works, idleStill, waits, resets, holds, fails, advances, feeds, homes⟩, trip⟩ := h
  exact ⟨⟨rest, apart, pulses, fun hx => ⟨ha (works hx).1, (works hx).2⟩, idleStill, waits, resets, holds, fails,
    advances, feeds, homes⟩, trip⟩

theorem hasActive_append {q : List Entry} {slots : Vector Slot 8} (ha : hasActive s = true) :
    hasActive { s with queue := s.queue ++ q, slots := slots } = true := by
  cases hq : s.queue with
  | nil => simp [QueueAndSlots.hasActive_nil hq] at ha
  | cons e l => simpa [hasActive, activeEntry, hq] using ha

theorem hasActive_filter {slots : Vector Slot 8} (ha : hasActive s = true) :
    hasActive { s with queue := s.queue.filter (fun e => e.active), slots := slots } = true := by
  cases hq : s.queue with
  | nil => simp [QueueAndSlots.hasActive_nil hq] at ha
  | cons e l =>
    rw [QueueAndSlots.hasActive_cons hq] at ha
    simp [hasActive, activeEntry, ha]

theorem safe_tryEnqueue {tag : Byte} {k : EntryKind} (h : Safe s) : Safe (tryEnqueue tag k s).1 := by
  have hq (slots : Vector Slot 8) : Safe (wakeIfDue { s with queue := s.queue ++ [⟨tag, k, false⟩], slots := slots }) :=
    safe_wakeIfDue (h.requeue hasActive_append)
  unfold tryEnqueue
  split
  · exact h
  · cases k with
    | line f =>
      dsimp only
      split
      · exact hq _
      · exact h
    | _ => exact hq s.slots

theorem safe_enqueueAnswer {tag : Byte} {k : Option EntryKind} (h : Safe s) : Safe (enqueueAnswer tag k s).1 := by
  cases k with
  | none => exact h
  | some k => exact safe_tryEnqueue h

theorem safe_doFlsh (h : Safe s) : Safe (doFlsh s).1 := safe_raiseIf (h.requeue hasActive_filter)

theorem safe_doCmpl {n : Byte} (h : Safe s) : Safe (doCmpl n s).1 := by
  unfold doCmpl
  dsimp only
  split
  · exact h.upd rfl
  · exact h

/-! ## HALT and GO (R45 to R49) -/

/-- While the executor stays IDLE the queue, the holds and the executor's record may change. -/
theorem Safe.idling (h : Safe s) (hx : s.exec.state = .idle) (hx' : t.exec.state = .idle)
    (hc : t.carriage = s.carriage) (hp : t.paper = s.paper) (he : t.engine = s.engine)
    (hd : t.fire.driving = s.fire.driving)
    (hw : t.heat.waiting.isSome = true → s.heat.waiting.isSome = true) : Safe t := by
  have hi : inMotion t = inMotion s := by simp only [inMotion, carriageMoving, feeding, hc, hp]
  have hst : stopping t = stopping s := by simp only [stopping, hc, hp]
  obtain ⟨⟨rest, apart, pulses, -, idleStill, waits, resets, -, -, -, feeds, homes⟩, trip⟩ := h
  refine ⟨⟨?_, ?_, ?_, fun hne => absurd hx' hne, ?_, fun e => by simpa [hx] using waits (hw e), ?_,
    fun hne => absurd hx' hne, fun hne => absurd hx' hne, fun e => by simp [hx'] at e, ?_, ?_⟩, ?_⟩
  · rwa [he, hi]
  · simpa only [carriageMoving, feeding, hc, hp] using apart
  · rwa [hd, hc, he]
  · simpa only [he, hi, hx, hx'] using idleStill
  · simpa only [he, hst, hx, hx'] using resets
  · simpa only [hp, hx, hx'] using feeds
  · rwa [hc, he]
  · exact tripInv_congr (by rw [he]) (by rw [he]) (by rw [he]) (by rw [he]) trip

/-- A held entry retires soundly, whatever else moves. -/
theorem Safe.retire_held (h : Safe s) (hx : s.exec.state = .idle) : Safe (retire o s) := by
  cases ha : hasActive s with
  | false => rwa [retire_none ha]
  | true =>
    obtain ⟨e, rest, hq, he⟩ := exists_active ha
    have hx' := QueueAndSlots.retire_exec (o := o) hq he
    have hh := QueueAndSlots.retire_heat (o := o) hq he
    exact h.idling hx (by rw [hx']; rfl) (by simp) (by simp) (by simp) (by simp) (by simp [hh])

/-- With no entry ACTIVE the executor is IDLE (R36). -/
theorem Safe.idle_of_none (h : Safe s) (ha : hasActive s = false) : s.exec.state = .idle :=
  not_not.mp fun hx => by simp [(h.motion.works hx).1] at ha

/-- With no entry ACTIVE, or a held one, the executor is IDLE (R36). -/
theorem Safe.idle_of_held (h : Safe s) (ha : (!hasActive s || held s) = true) : s.exec.state = .idle := by
  rcases Bool.or_eq_true_iff.mp ha with ha | ha
  · exact h.idle_of_none (by simpa using ha)
  · simp only [held, Bool.and_eq_true, decide_eq_true_eq] at ha
    exact ha.2

theorem safe_haltInLine (h : Safe s) : Safe (haltInLine s) := by
  unfold haltInLine
  split
  · next ha => exact h.idling (h.idle_of_held ha) (h.idle_of_held ha) rfl rfl rfl rfl id
  · split
    · exact h
    · exact h.upd rfl

theorem safe_haltLine (tag : Byte) (req : HaltForm) (h : Safe s) : Safe (after (.haltLine tag req) s) := by
  cases req with
  | lineMode => exact safe_request h rfl safe_haltInLine
  | undefinedMode m => exact safe_request h rfl id
  | wrongLength p => exact safe_request h rfl id

/-- A hold at a resume point leaves the executor IDLE, with nothing in motion. -/
theorem Still.safe_holdAt (h : Still s) (hw : s.heat.waiting = none) (hr : s.engine.resetPending = false) {r : Resume} :
    Safe (holdAt r s) := by
  refine Idle.safe ⟨⟨h.still, h.trip, h.pulses, fun hne => absurd rfl hne, fun e => ?_, h.resets⟩, rfl⟩ hr
  change s.heat.waiting.isSome = true at e
  simp [hw] at e

/-- Outside COOL no pass waits (R123). -/
theorem Safe.waits_eq_none (h : Safe s) (hx : s.exec.state ≠ .cool) : s.heat.waiting = none := by
  rw [← Option.not_isSome_iff_eq_none]
  exact fun e => hx (h.motion.waits e)

theorem safe_haltInPass (h : Safe s) : Safe (haltInPass s) := by
  unfold haltInPass
  split
  · next ha => exact h.idling (h.idle_of_held ha) (h.idle_of_held ha) rfl rfl rfl rfl id
  · split
    · next hc =>
      obtain ⟨-, hro, hr⟩ := h.motion.works (by simp [hc])
      have hs := h.still (h.still_of_waiting hro hr (.inr hc))
      exact Still.safe_holdAt (s := { s with heat := { s.heat with waiting := none } })
        ⟨hs.still, hs.trip, hs.pulses, hs.works, nofun, hs.resets⟩ rfl hr
    · next hp =>
      split
      · exact h.upd rfl
      · next hf =>
        have hm : inMotion s = false := by simp [inMotion, h.motion.advances (.inl hp), hf]
        exact (h.still hm).safe_holdAt (h.waits_eq_none (by simp [hp])) (h.motion.works (by simp [hp])).2.2
    all_goals exact h.upd rfl

theorem safe_haltAtOnce (h : Safe s) : Safe (haltAtOnce s) := by
  unfold haltAtOnce
  dsimp only
  split
  · next ha =>
    have hx := h.idle_of_none (by simpa using ha)
    exact h.idling hx hx rfl rfl rfl rfl id
  · next ha =>
    have ha : hasActive s = true := by simpa using ha
    split
    · next hb =>
      by_cases hx : s.exec.state = .idle
      · exact (h.idling (t := addHalted { s with exec := { s.exec with pendingHalt := none } }) hx hx rfl rfl rfl rfl
          id).retire_held hx
      · have hm : inMotion s = false := by simpa [held, hx] using hb
        have hs := h.still hm
        exact Still.safe_retire (s := addHalted { s with exec := { s.exec with pendingHalt := none } })
          ⟨hs.still, hs.trip, hs.pulses, hs.works, hs.waits, hs.resets⟩ (h.motion.works hx).2.2
    · next hb =>
      simp only [Bool.or_eq_true, Bool.not_eq_true', not_or, held, ha, Bool.true_and, decide_eq_true_eq,
        Bool.not_eq_false] at hb
      obtain ⟨hx, hm⟩ := hb
      obtain ⟨-, hro, hr⟩ := h.motion.works hx
      have he : s.engine.state = .ready := by
        refine (readyOrHold_iff.mp hro).resolve_right fun e => ?_
        simpa [hm] using h.motion.rest (by simp [e]) (by simp [e])
      refine Stoppable.controlledStop ⟨hm, h.motion.apart, .inr he, h.trip, fun _ => ⟨ha, hro, hr⟩,
        fun _ => ⟨rfl, fun e => ?_⟩,
        fun e => absurd e hx, h.motion.waits, h.motion.advances⟩
      simpa [hm] using h.motion.idleStill he hr (.inr e)

end Sys2Proof.MotionAndTrips
end

