-- ==== Sys2Proof/Proofs/EngineKeepsMotion.lean ====
section
/-! SUPPORT. The Fire Unit, the paper's and the engine's requests and the executor's and the carriage's events keep motion and
trip state sound (R5, R37, R79 to R96, R130, R156 to R172). -/

namespace Sys2Proof.MotionAndTrips

open Sys2Proof.Machine

variable {s t : State} {o : EntryOutcome}

/-- A held entry that may resume, or a QUEUED one that may start, finds the part workable once it is ACTIVE (R37, R49). -/
theorem Safe.workable (h : Safe s) (hx : s.exec.state = .idle) (hh : holdsEmpty s = true) (hro : readyOrHold s = true)
    (hr : s.engine.resetPending = false) {q : List Entry} {slots : Vector Slot 8}
    (ha : hasActive { s with queue := q, slots := slots } = true) :
    Workable { s with queue := q, slots := slots } := by
  have hs := h.still (h.still_of_waiting hro hr (.inl hx))
  exact ⟨⟨hs.still, hs.trip, hs.pulses, fun _ => ha, hs.waits, hs.resets⟩, ha, hro, hh,
    h.waits_eq_none (by simp [hx]), hr⟩

theorem safe_resumeIfHeld (h : Safe s) : Safe (resumeIfHeld s) := by
  unfold resumeIfHeld
  split
  · split
    · next hc =>
      simp only [canResume, held, Bool.and_eq_true, decide_eq_true_eq, Bool.not_eq_true'] at hc
      obtain ⟨⟨⟨⟨ha, hx⟩, hh⟩, hro⟩, hr⟩ := hc
      exact (h.workable (q := s.queue) (slots := s.slots) hx hh hro hr ha).resumeEntry
    · exact h
  · exact h

theorem safe_startWork (h : Safe s) (hm : mayStart s = true) : Safe (startWork s) := by
  simp only [mayStart, Bool.and_eq_true, decide_eq_true_eq, Bool.not_eq_true'] at hm
  obtain ⟨⟨⟨⟨⟨⟨hx, -⟩, -⟩, hh⟩, hro⟩, hr⟩, -⟩ := hm
  unfold startWork
  split
  · exact h
  · next e rest hq =>
    split
    · exact ((h.workable (q := { e with active := true } :: rest) (slots := printSlot e.kind s.slots) hx hh hro hr
        rfl).exec _).prepare
    · refine safe_raise ?_
      exact h.idling hx hx rfl rfl rfl rfl id

/-- Taking HALTED away leaves no more holds than there were (R49). -/
theorem Safe.unhalt (h : Safe s) {x : Executor} (hx : x.state = s.exec.state) (hf : x.failing = s.exec.failing) :
    Safe { s with holds := { s.holds with halted := false }, exec := x } := by
  obtain ⟨⟨rest, apart, pulses, works, idleStill, waits, resets, holds, fails, advances, feeds, homes⟩, trip⟩ := h
  refine ⟨⟨rest, apart, pulses, hx ▸ works, hx ▸ idleStill, hx ▸ waits, hx ▸ resets,
    fun hne e => ?_, ?_, hx ▸ advances,
    hx ▸ feeds, homes⟩, trip⟩
  · exact holds (hx ▸ hne) (by simp_all [holdsEmpty])
  · exact hf ▸ hx ▸ fails

theorem safe_doGo (h : Safe s) : Safe (doGo s).1 := by
  have hu : Safe { s with holds := { s.holds with halted := false }, exec := { s.exec with pendingHalt := none } } :=
    h.unhalt rfl rfl
  unfold doGo
  dsimp only
  split
  · exact h
  · refine safe_wakeIfDue ?_
    split
    · exact safe_resumeIfHeld hu
    · exact hu

/-! ## Fire Unit, paper and engine (R5, R130, R156 to R172) -/

theorem safe_doPmap {m : Option (Vector RowReq 24)} (h : Safe s) : Safe (doPmap m s).1 := by
  rcases doPmap_cases m s with e | ⟨rows, -, -, e⟩ <;> rw [e]
  · exact h
  · exact h.upd (by simp [posture, aim, hasActive, activeEntry, holdsEmpty])

theorem safe_doEtab {m : Option EtabReq} (h : Safe s) : Safe (doEtab m s).1 := by
  unfold doEtab
  dsimp only
  split
  · exact h
  · exact h.upd rfl

theorem posture_takeForm (d : FormDef) (b : Bool) (s : State) :
    posture { s with paper := s.paper.takeForm d b } = posture s := by
  unfold Paper.takeForm
  split <;> rfl

theorem safe_doForm {m : Option FormReq} (h : Safe s) : Safe (doForm m s).1 := by
  unfold doForm
  dsimp only
  split
  · exact h
  · split
    · exact h.upd (by rw [posture_takeForm]; rfl)
    · exact h

theorem safe_engage (h : Safe s) : Safe (engage s).1 := by
  have standing (hx : s.exec.state = .idle) (hm : inMotion s = false) (he : s.engine.state ≠ .tripped) :
      Safe (enterHoming s) := Idle.enterHoming ⟨h.still hm, hx⟩ he (h.not_pending_of_still hm)
  unfold engage
  split
  · next he =>
    obtain ⟨hi, hr⟩ := h.idle (by simp [he]) (by simp [readyOrHold, he])
    exact hi.enterHoming (by simp [he]) hr
  · next he =>
    split
    · next hc => exact standing hc.1 hc.2 (by simp [he])
    · exact h
  · next he =>
    split
    · next hc => exact standing hc.1 hc.2 (by simp [he])
    · exact h
  · exact h
  · exact h
  · next he =>
    obtain ⟨hi, hr⟩ := h.idle (by simp [he]) (by simp [readyOrHold, he])
    exact hi.beginWake (by simp [he]) hr
  · exact h

/-- With no wake condition nothing moves, and an entry at work would stand under a hold in a controlled stop (R45,
R159). -/
theorem Safe.idle_of_no_wake (h : Safe s) (hw : wakeCondition s = false) : Idle s := by
  simp only [wakeCondition, Bool.or_eq_false_iff, Bool.and_eq_false_iff] at hw
  obtain ⟨⟨hq, hm⟩, -⟩ := hw
  refine ⟨h.still hm, not_not.mp fun hx => ?_⟩
  obtain ⟨e, rest, he, -⟩ := exists_active (h.motion.works hx).1
  have hh : holdsEmpty s = false := hq.resolve_left (by simp [he])
  simpa [stopping_of_still hm] using h.motion.holds hx hh

/-- The engine enters REST with the part at rest (R160). -/
theorem Idle.enterRest (h : Idle s) (hs : s.engine.state ≠ .tripped) (hr : s.engine.resetPending = false)
    {r : RestOrigin} : Safe (enterRest r s) := by
  have hc : Idle { s with carriage := { s.carriage with homed := false, position := none, markPhase := none } } :=
    h.upd rfl
  refine Idle.safe ?_ hr
  exact hc.enter hs nofun rfl rfl rfl

theorem safe_restEngine (h : Safe s) : Safe (restEngine s).1 := by
  have rest (r : RestOrigin) (he : s.engine.state ≠ .tripped) (hw : ¬wakeCondition s = true) : Safe (enterRest r s) := by
    have hi := h.idle_of_no_wake (by simpa using hw)
    exact hi.enterRest he (h.not_pending_of_still hi.rest.still)
  unfold restEngine
  split
  case h_1 he | h_2 he | h_3 he =>
    split
    · exact h
    · next hw => exact rest _ (by simp [he]) hw
  all_goals exact h

theorem safe_wakeEngine (h : Safe s) : Safe (wakeEngine s).1 := by
  unfold wakeEngine
  split
  · next he =>
    obtain ⟨hi, hr⟩ := h.idle (by simp [he]) (by simp [readyOrHold, he])
    exact hi.beginWake (by simp [he]) hr
  · exact h

/-- Leaving TRIPPED clears the record, the further causes and the lamp together (R167, R171). -/
theorem Idle.clearTrip (h : Idle s) (hr : s.engine.resetPending = false) : Safe (clearTrip s) := by
  refine Idle.safe ⟨⟨h.rest.still, ⟨?_, ?_, fun _ => rfl⟩, fun _ => nofun, h.rest.works, h.rest.waits, fun _ => nofun⟩,
    h.idle⟩ hr
  · simp [Machine.clearTrip]
  · simp [Machine.clearTrip, Engine.setOutput]

theorem safe_doClrf (h : Safe s) : Safe (doClrf s).1 := by
  unfold doClrf
  split
  · next he =>
    split
    · exact h
    · obtain ⟨hi, hr⟩ := h.idle (by simp [he]) (by simp [readyOrHold, he])
      exact hi.clearTrip hr
  · exact h

/-- ERST empties the queue and the executor at once: a carriage in motion is all that may be left at work (R168, R169). -/
theorem Safe.resetWork_quiet (h : Safe s) (hm : s.paper.move = none) : Quiet (resetWork s) where
  paper := hm
  idle := rfl
  waits := rfl
  trip := h.trip
  pulses hd := (h.motion.pulses hd).2
  resets hr := h.not_tripped_of_pending hr

/-- A carriage whose record is cleared stood before. -/
theorem carriageMoving_clearIfStanding (s : State) : carriageMoving (clearIfStanding s) = carriageMoving s := by
  unfold clearIfStanding
  split
  · rfl
  · next h => simpa [carriageMoving, clearedCarriage] using h

/-- The state in which an ERST asks for a controlled stop: all but what moves is cleared (R97, R168). -/
def askedToReset (s : State) : State :=
  clearIfStanding { resetWork s with engine := { (resetWork s).engine with resetPending := true } }

theorem askedToReset_exec (s : State) : (askedToReset s).exec = idleExecutor := by
  simp [askedToReset, resetWork]

theorem carriageMoving_askedToReset (s : State) : carriageMoving (askedToReset s) = carriageMoving s :=
  carriageMoving_clearIfStanding _

theorem feeding_askedToReset (s : State) : feeding (askedToReset s) = feeding s := by
  simp [feeding, askedToReset]

theorem Safe.askedToReset (h : Safe s) (hm : inMotion s = true) : Stoppable (askedToReset s) where
  moving := by rwa [inMotion, carriageMoving_askedToReset, feeding_askedToReset]
  apart := by rw [carriageMoving_askedToReset, feeding_askedToReset]; exact h.motion.apart
  engine := by
    by_contra hn
    rw [not_or] at hn
    simpa [hm] using h.motion.rest (by simpa [MotionAndTrips.askedToReset] using hn.1)
      (by simpa [MotionAndTrips.askedToReset] using hn.2)
  trip := tripInv_congr (s := s) (by simp [MotionAndTrips.askedToReset]) (by simp [MotionAndTrips.askedToReset])
    (by simp [MotionAndTrips.askedToReset]) (by simp [MotionAndTrips.askedToReset]) h.trip
  works e := absurd (by rw [askedToReset_exec]; rfl) e
  fails e := absurd (by rw [askedToReset_exec]; rfl) e
  resets _ := by simp [MotionAndTrips.askedToReset]
  waits e := by simp [MotionAndTrips.askedToReset, resetWork] at e
  advances e := by simp [askedToReset_exec, idleExecutor] at e

theorem safe_erstDriven (h : Safe s) (he : s.engine.state ≠ .tripped) : Safe (erstDriven (resetWork s)) := by
  unfold erstDriven
  split
  · next hc =>
    have hm : s.paper.move = none := by
      rcases hc with hc | hc
      · exact (inMotion_eq_false (s := s).mp hc).2
      · exact h.no_feed (by simp [carriageMoving, show s.carriage.phase = .seek from hc])
    exact (h.resetWork_quiet hm).erstAtRest he
  · next hc =>
    have hm : inMotion s = true := by simpa using (show ¬inMotion s = false from (not_or.mp hc).1)
    exact (h.askedToReset hm).controlledStop

theorem safe_resetEngineNow (h : Safe s) : Safe (resetEngineNow s) := by
  have cleared (he : s.engine.state ≠ .homing) (hro : readyOrHold s = false) :
      Idle (clearAtRest (resetWork s)) ∧ (clearAtRest (resetWork s)).engine.resetPending = false := by
    obtain ⟨hi, hr⟩ := h.idle he hro
    exact ⟨(h.resetWork_quiet hi.quiet.paper).clearAtRest, by simpa using hr⟩
  unfold resetEngineNow
  dsimp only
  split
  · exact h
  · split
    · next he =>
      obtain ⟨hi, hr⟩ := cleared (by simp [he]) (by simp [readyOrHold, he])
      exact hi.safe hr
    · next he => exact safe_erstDriven h (by simp [he])
    · next he => exact safe_erstDriven h (by simp [he])
    · next he => exact safe_erstDriven h (by simp [he])
    · next he =>
      obtain ⟨hi, hr⟩ := cleared (by simp [he]) (by simp [readyOrHold, he])
      exact hi.beginWake (by simp [he]) hr
    · next he =>
      obtain ⟨hi, hr⟩ := cleared (by simp [he]) (by simp [readyOrHold, he])
      exact Idle.safe (hi.upd rfl) hr
    · next he =>
      obtain ⟨hi, hr⟩ := cleared (by simp [he]) (by simp [readyOrHold, he])
      split
      · exact hi.safe hr
      · exact hi.clearTrip hr

theorem doutOutputs_lamp (r : DoutReq) (o : BitVec 8) : (doutOutputs r o).getLsbD 7 = o.getLsbD 7 := by
  simp [doutOutputs]

theorem safe_doDout {r : DoutReq} (h : Safe s) : Safe (doDout r s).1 := by
  refine h.upd ?_
  simp only [posture, doDout, doutOutputs_lamp]
  rfl

/-- The sensor's changes leave the aim of the feed move (R141, R149). -/
theorem safe_sensorFound (h : Safe s) : Safe (sensorFound s) := by
  unfold sensorFound
  refine safe_wakeIfDue ?_
  split
  · refine h.upd ?_
    simp only [posture, aim, Option.map_map]
    rfl
  · exact h

theorem safe_sensorChange {b : Bool} (h : Safe s) : Safe (sensorChange b s) := by
  unfold sensorChange
  split
  · unfold sensorLost
    split
    · exact h.upd rfl
    · exact h
  · split
    · exact safe_sensorFound h
    · exact h

theorem safe_syncObserved (h : Safe s) : Safe (syncObserved s) := by
  unfold syncObserved
  split
  · exact h.upd rfl
  · exact h

theorem safe_overlayEffects {before : State} (h : Safe s) : Safe (overlayEffects before s) :=
  safe_sensorChange (safe_testTripIf (safe_testTripIf (safe_ariseLevels h)))

theorem safe_doTovl {o : Option TovlReq} (h : Safe s) : Safe (doTovl o s).1 := by
  unfold doTovl
  split
  · exact h
  · split
    · exact h
    · split
      · next m _ =>
        split
        · next r _ _ _ _ =>
          have hs : Safe (setOverlay m (r.inputs.setWidth 6) s) := h.upd rfl
          exact (safe_overlayEffects (before := s) (safe_syncObserved hs)).upd rfl
        · exact h
      · exact h

/-! ## The executor's and the carriage's events (R37, R79 to R96) -/

theorem safe_executorStart (h : Safe s) : Safe (after .executorStart s) := by
  refine safe_event h (by unfold exec execExecutorStart; rfl) fun t h => ?_
  split
  · exact safe_resumeIfHeld h
  · split
    · next hm => exact safe_startWork h hm
    · exact h

/-- While the carriage moves in a motion of a pass no hold stands, for the motion is in no controlled stop (R45). -/
theorem Safe.workable_endMotion (h : Safe s) (hm : carriageMoving s = true) (hp : s.carriage.phase ≠ .stopping)
    (hx : s.exec.state ≠ .idle) (hc : s.exec.state ≠ .cool) : Workable (Machine.endMotion s) := by
  obtain ⟨ha, hro, hr⟩ := h.motion.works hx
  have hst : stopping s = false := by simp [stopping, hp, h.no_feed hm]
  refine ⟨h.endMotion hm, ha, by simpa [readyOrHold, Machine.endMotion] using hro, ?_, h.waits_eq_none hc,
    by simpa [Machine.endMotion] using hr⟩
  change holdsEmpty s = true
  rw [← Bool.not_eq_false]
  exact fun e => by simpa [hst] using h.motion.holds hx e

theorem Workable.setRibbon (h : Workable s) {on : Bool} : Workable (setRibbon on s) :=
  h.upd (by rw [posture_setRibbon]; rfl)

theorem safe_repositionEnd (h : Safe s) : Safe (after .repositionEnd s) := by
  refine safe_event h (by unfold exec execRepositionEnd; rfl) fun t h => ?_
  split
  · next pf w _ _ =>
    split
    · next hc =>
      obtain ⟨hx, hp, -⟩ := hc
      have hw : Workable (endMotion (reach pf.target t)) := (safe_reach h).workable_endMotion
        (by simp [carriageMoving, hp]) (by simp [hp]) (by simp [hx]) (by simp [hx])
      unfold arriveAtStart
      split
      · exact hw.rest.safe_holdAt hw.waits hw.resets
      · exact hw.startPass
    · exact h
  · exact h

/-- From ramp to cruise and from cruise to ramp a pass goes on; RAMP_DOWN is entered with no pulse running (R82, R103). -/
theorem Safe.setPhase (h : Safe s) (hp : s.carriage.phase = .rampUp ∨ s.carriage.phase = .cruise) {p : MotionPhase}
    (hp' : p = .cruise ∨ p = .rampDown ∧ s.fire.driving = 0#24) : Safe (setPhase p s) := by
  have hm : carriageMoving s = true := by rcases hp with hp | hp <;> simp [carriageMoving, hp]
  have hm' : carriageMoving (Machine.setPhase p s) = true := by
    rcases hp' with rfl | ⟨rfl, -⟩ <;> simp [carriageMoving, Machine.setPhase]
  have hi : inMotion (Machine.setPhase p s) = inMotion s := by simp [inMotion, hm, hm']
  have hst : stopping (Machine.setPhase p s) = stopping s := by
    rcases hp with hp | hp <;> rcases hp' with rfl | ⟨rfl, -⟩ <;> simp [stopping, Machine.setPhase, hp]
  obtain ⟨⟨rest, apart, pulses, works, idleStill, waits, resets, holds, fails, advances, feeds, -⟩, trip⟩ := h
  refine ⟨⟨by rwa [hi], by rw [hm']; exact hm ▸ apart, fun hd => ⟨?_, (pulses hd).2⟩, works, by rwa [hi], waits,
    by rwa [hst], by rwa [hst], by rwa [hst], by rw [hm']; exact hm ▸ advances, feeds, fun e => ?_⟩, trip⟩
  · rcases hp' with rfl | ⟨rfl, hd'⟩
    · exact nofun
    · exact absurd hd' hd
  · rcases hp' with rfl | ⟨rfl, -⟩ <;> simp [Machine.setPhase] at e

theorem safe_cruiseStart (h : Safe s) : Safe (after .cruiseStart s) := by
  refine safe_event h (by unfold exec execCruiseStart; rfl) fun t h => ?_
  split
  · split
    · next hc => exact ((safe_reach h).setPhase (.inl (by simpa using hc.1)) (.inl rfl)).upd rfl
    · exact h
  · exact h

theorem safe_cruiseEnd (h : Safe s) : Safe (after .cruiseEnd s) := by
  refine safe_event h (by unfold exec execCruiseEnd; rfl) fun t h => ?_
  split
  · split
    · next hc =>
      obtain ⟨hp, -, hd, -⟩ := hc
      exact (safe_reach h).setPhase (.inr (by simpa using hp)) (.inr ⟨rfl, by simpa using hd⟩)
    · exact h
  · exact h

theorem safe_passEnd (h : Safe s) : Safe (after .passEnd s) := by
  refine safe_event h (by unfold exec execPassEnd; rfl) fun t h => ?_
  split
  · next pf _ =>
    split
    · next hc =>
      obtain ⟨hp, hx, -⟩ := hc
      have hd : Safe { t with exec := t.exec.passDone } := h.upd rfl
      have hw : Workable (endMotion (reach pf.target { t with exec := t.exec.passDone })) :=
        (safe_reach hd).workable_endMotion (by simp [carriageMoving, hp]) (by simp [hp]) (by simp [hx]) (by simp [hx])
      have hw' : Workable (endPass pf t) := (hw.setRibbon (on := false)).upd rfl
      unfold afterPass
      split
      · exact hw'.rest.safe_holdAt hw'.waits hw'.resets
      · exact hw'.nextWork
    · exact h
  · exact h

/-- Pulses run where a group is fired: in CRUISE and READY (R103). -/
def Firing (s : State) : Prop := Safe s ∧ s.carriage.phase = .cruise ∧ s.engine.state = .ready

theorem firing_fireDot {w : Nat} {row : Fin 24} (h : Firing s) : Firing (fireDot w s row) := by
  obtain ⟨hs, hp, he⟩ := h
  refine ⟨?_, by simpa using hp, by simpa using he⟩
  unfold fireDot
  dsimp only
  split
  · exact safe_count hs
  · exact hs.change rfl rfl rfl rfl fun _ => by simp [hp, he]

theorem safe_fireGroupTaken (h : Safe s) : Safe (after .fireGroupTaken s) := by
  refine safe_event h (by unfold exec execFireGroupTaken; rfl) fun t h => ?_
  split
  · split
    · next hc =>
      obtain ⟨he, hp, -⟩ := hc
      have hf (g : DueGroup) : Firing (reach g.firePos t) := ⟨safe_reach h, by simpa using hp, by simpa using he⟩
      exact (foldl_keeps (fun _ _ => firing_fireDot) _ _ (hf _)).1.upd rfl
    · exact h
  · exact h

theorem safe_applySense {p : Fin 24} {isOpen : Bool} (h : Safe s) : Safe (applySense p isOpen s) := by
  unfold applySense
  dsimp only
  split
  · refine safe_raise ?_
    exact h.upd rfl
  · exact h.upd rfl

theorem safe_pulseEnd (p : Fin 24) (isOpen : Bool) (h : Safe s) : Safe (after (.pulseEnd p isOpen) s) := by
  refine safe_event h (by unfold exec execPulseEnd; rfl) fun t h => ?_
  split
  · next hd =>
    have hn : t.fire.driving ≠ 0#24 := fun e => by simp [e] at hd
    refine safe_applySense ?_
    exact h.change (by simp [posture, aim, hasActive, activeEntry]) (by simp) (by simp) (by simp [holdsEmpty])
      fun _ => by simpa using h.motion.pulses hn
  · exact h

theorem safe_clearNoMark (h : Safe s) : Safe (clearNoMark s) := by
  unfold clearNoMark
  split
  · split
    · refine safe_testTripFor ?_
      exact h.upd rfl
    · exact h.upd rfl
  · exact h.upd rfl

theorem safe_edge {dir : Dir} (h : Safe s) : Safe (edge dir s) := by
  have hk : Safe { s with carriage := s.carriage.countMark dir } := h.upd rfl
  have hc := safe_clearNoMark hk
  unfold edge
  split
  · unfold edgeHomed
    dsimp only
    split
    · exact safe_arise hc
    · exact hc.upd (by simp [posture, aim, hasActive, activeEntry, holdsEmpty])
  · split
    · exact safe_clearNoMark h
    · exact safe_clearNoMark h
    · refine safe_clearNoMark ?_
      exact h.upd rfl
    all_goals exact h

theorem safe_markEdge (dir : Dir) (n : Nat) (h : Safe s) : Safe (after (.markEdge dir n) s) := by
  refine safe_event h (by unfold exec execMarkEdge; rfl) fun t h => ?_
  dsimp only
  split
  · exact safe_travel h
  · exact safe_edge (safe_travel h)

theorem safe_encoderLost (h : Safe s) : Safe (after .encoderLost s) := by
  refine safe_event h (by unfold exec execEncoderLost; rfl) fun t h => ?_
  split
  · exact safe_arise (safe_travel h)
  · exact h

theorem safe_homeSensorActive (h : Safe s) : Safe (after .homeSensorActive s) := by
  refine safe_event h (by unfold exec execHomeSensorActive; rfl) fun t h => ?_
  have hl : Safe { t with lines := { t.lines with home := true } } := h.upd rfl
  dsimp only
  split
  · next hp => exact (hl.homing (.inl hp)).homeReached
  · exact hl

theorem safe_homeFail (h : Safe s) : Safe (after .homeFail s) := by
  refine safe_event h (by unfold exec execHomeFail; rfl) fun t h => ?_
  split
  · exact safe_arise (safe_travel h)
  · exact h

theorem safe_parkEnd (h : Safe s) : Safe (after .parkEnd s) := by
  refine safe_event h (by unfold exec execParkEnd; rfl) fun t h => ?_
  split
  · next pf _ =>
    split
    · next hc =>
      have hr := safe_reach (q := pf.target) h
      have hp : (reach pf.target t).carriage.phase = .park := by simpa using hc.1
      obtain ⟨he, hx, hw, hrp, hm, -⟩ := hr.homing (.inr hp)
      refine AtHome.load ⟨⟨?_, hx, hw, ?_, hm, (hr.endMotion (by simp [carriageMoving, hc.1])).trip⟩, rfl⟩
      · simpa [endMotion] using he
      · simpa [endMotion] using hrp
    · exact h
  · exact h

end Sys2Proof.MotionAndTrips
end

