-- ==== Sys2Proof/Proofs/StepKeepsMotion.lean ====
section
/-! Every command, and what the block does of itself, keeps motion and trip state sound: O57. -/

namespace Sys2Proof.MotionAndTrips

open Sys2Proof.Machine

variable {s t : State} {o : EntryOutcome}

/-- At the rest of a controlled stop an entry at work has failed and retires, and an ERST that waits completes (R48, R168). -/
theorem Still.afterRest (h : Still s) (hf : s.exec.state ≠ .idle → s.exec.failing = true) : Safe (afterRest s) := by
  unfold Machine.afterRest
  split
  · exact h.failActive.finishReset
  · next hn => exact Idle.finishReset ⟨h, not_not.mp fun hx => hn (hf hx)⟩

theorem safe_carriageRest (h : Safe s) (hp : s.carriage.phase = .stopping) : Safe (carriageRest s) := by
  have rest {t : State} (ht : Safe t) (hp : t.carriage.phase = .stopping) :
      Safe (afterRest (setRibbon false (endMotion t))) :=
    (ht.endMotion (by simp [carriageMoving, hp])).setRibbon.afterRest fun hx =>
      ht.motion.fails hx (by simp [stopping, hp])
  unfold carriageRest
  dsimp only
  split
  · exact rest (safe_reach h) (by simpa using hp)
  · exact rest h hp

theorem safe_feedRest (h : Safe s) {m : FeedMove} (hm : s.paper.move = some m) (hs : m.stopping = true) :
    Safe (feedRest m s) := by
  have rest {t : State} (ht : Safe t) (hm : t.paper.move = some m) : Safe (afterRest (endFeed t)) :=
    (ht.endFeed hm).afterRest fun hx => ht.motion.fails hx (by simp [stopping, hm, hs])
  unfold feedRest
  split
  · split
    · exact rest (safe_unload h) hm
    · exact rest h hm
  all_goals
    split
    · exact h
    · exact rest h hm

theorem safe_stopAtRest (h : Safe s) : Safe (after .stopAtRest s) := by
  refine safe_event h (by unfold exec execStopAtRest; rfl) fun t h => ?_
  split
  · next hp =>
    split
    · exact safe_carriageRest h hp
    · exact h
  · split
    · next m hm =>
      split
      · next hc => exact safe_feedRest h hm hc.1
      · exact h
    · exact h

/-! ## The paper's events (R137 to R151) -/

/-- The position after a step is none of what soundness reads. -/
theorem safe_stepPosition {m : FeedMove} (h : Safe s) : Safe (stepPosition m s) :=
  h.upd (by simp [posture, aim, hasActive, activeEntry, holdsEmpty])

/-- A feed step leaves the move its purpose (R137). -/
theorem safe_feedOne {m : FeedMove} (hm : s.paper.move = some m) (h : Safe s) : Safe (feedOne m s) := by
  have hs : Safe (count .feedSteps 1 (stepPosition m s)) := safe_count (safe_stepPosition h)
  have ha : aim (count .feedSteps 1 (stepPosition m s)) = some (m.purpose, m.stopping) := by simp [aim, hm]
  unfold feedOne
  refine safe_testTripIf (hs.upd ?_)
  simp only [posture, ha]
  rfl

theorem safe_feedStep (h : Safe s) : Safe (after .feedStep s) := by
  refine safe_event h (by unfold exec execFeedStep; rfl) fun t h => ?_
  split
  · next m hm =>
    split
    · exact safe_feedOne hm h
    · exact h
  · exact h

theorem safe_paperEnd (h : Safe s) : Safe (after .paperEnd s) := by
  refine safe_event h (by unfold exec execPaperEnd; rfl) fun t h => ?_
  split
  · next m hm =>
    split
    · exact safe_paperEnds h hm
    · exact h
  · exact h

theorem safe_paperJam (h : Safe s) : Safe (after .paperJam s) := by
  refine safe_event h (by unfold exec execPaperJam; rfl) fun t h => ?_
  split
  · exact safe_arise h
  · exact h

theorem safe_ejectFail (h : Safe s) : Safe (after .ejectFail s) := by
  refine safe_event h (by unfold exec execEjectFail; rfl) fun t h => ?_
  split
  · next m hm =>
    split
    · next hc => exact h.retire_endFeed hm hc.2.2
    · exact h
  · exact h

/-- The end of a load feed, or of its preload, finds the part at home (R139, R157). -/
theorem Safe.atHome (h : Safe s) {m : FeedMove} (hm : s.paper.move = some m) (hs : m.stopping = false)
    (hu : ∀ x, Fits m.purpose x → x = .idle) : AtHome (Machine.endFeed s) := by
  have hx : s.exec.state = .idle := hu _ (fed_iff.mpr h.motion.feeds m.purpose (by simp [aim, hm, hs]))
  have hr := h.not_pending hm hs
  have hmv : inMotion s = true := by simp [inMotion, feeding, hm]
  have he : s.engine.state = .homing := by
    by_contra hh
    have hready : s.engine.state = .ready := by
      by_contra hn
      simpa [hmv] using h.motion.rest hh hn
    simpa [hmv] using h.motion.idleStill hready hr (.inl hx)
  have hst := h.endFeed hm
  refine ⟨⟨by simpa [Machine.endFeed] using he, hx, ?_, by simpa [Machine.endFeed] using hr, rfl, hst.trip⟩,
    h.carriage_stands hm⟩
  exact Option.isSome_eq_false_iff.mpr (Option.isNone_iff_eq_none.mpr (h.waits_eq_none (by simp [hx])))

/-- The end of an entry's feed move finds the part workable (R40, R41). -/
theorem Safe.workable_endFeed (h : Safe s) {m : FeedMove} (hm : s.paper.move = some m) (hs : m.stopping = false)
    (hu : ∀ x, Fits m.purpose x → x = .prepare ∨ x = .advance) : Workable (Machine.endFeed s) := by
  have hx : s.exec.state = .prepare ∨ s.exec.state = .advance :=
    hu _ (fed_iff.mpr h.motion.feeds m.purpose (by simp [aim, hm, hs]))
  have hi : s.exec.state ≠ .idle := by rcases hx with hx | hx <;> simp [hx]
  have hst : stopping s = false := by simp [stopping, h.carriage_stands hm, hm, hs]
  obtain ⟨ha, hro, hr⟩ := h.motion.works hi
  refine ⟨h.endFeed hm, ha, by simpa [readyOrHold, Machine.endFeed] using hro, ?_,
    h.waits_eq_none (by rcases hx with hx | hx <;> simp [hx]), by simpa [Machine.endFeed] using hr⟩
  change holdsEmpty s = true
  rw [← Bool.not_eq_false]
  exact fun e => by simpa [hst] using h.motion.holds hi e

theorem Workable.holdAt (h : Workable s) {r : Resume} : Safe (holdAt r s) := h.rest.safe_holdAt h.waits h.resets

theorem Workable.afterStaging (h : Workable s) {next : EntryKind → State → State} (hn : ∀ {k}, Safe (next k s)) :
    Safe (afterStaging next s) := by
  unfold Machine.afterStaging
  split
  · split
    · exact h.holdAt
    · exact hn
  · exact h.safe

theorem Workable.stagingGoesOn (h : Workable s) {k : EntryKind} : Safe (stagingGoesOn k s) := by
  cases k with
  | line f => exact h.stageLine
  | _ => exact h.safe

/-- A feed move that has made its last step goes on as its purpose says. -/
theorem Safe.moveComplete (h : Safe s) {m : FeedMove} (hm : s.paper.move = some m) (hs : m.stopping = false) :
    Safe (moveComplete m.purpose (Machine.endFeed s)) := by
  have home := h.atHome hm hs
  have work := h.workable_endFeed hm hs
  cases hu : m.purpose with
  | preload n => exact (home (by rw [hu]; exact fun _ => id)).still.safe (home (by rw [hu]; exact fun _ => id)).home.resets
  | load => exact (home (by rw [hu]; exact fun _ => id)).finishLoad
  | retract =>
    have hw := work (by rw [hu]; exact fun _ => id)
    exact hw.afterStaging hw.afterRetract
  | perfSkip =>
    have hw := work (by rw [hu]; exact fun _ => id)
    exact hw.afterStaging hw.stagingGoesOn
  | _ => exact (work (by rw [hu]; exact fun _ => id)).retire

theorem safe_feedMoveEnd (h : Safe s) : Safe (after .feedMoveEnd s) := by
  refine safe_event h (by unfold exec execFeedMoveEnd; rfl) fun t h => ?_
  split
  · next m hm =>
    split
    · next hd =>
      have hs : m.stopping = false := by
        simp only [moveDone, Bool.and_eq_true, Bool.not_eq_true'] at hd
        exact hd.1.1
      split
      · exact (safe_unload h).moveComplete hm hs
      · exact h.moveComplete hm hs
    · exact h
  · exact h

theorem safe_preloadComplete (h : Safe s) : Safe (after .preloadComplete s) := by
  refine safe_event h (by unfold exec execPreloadComplete; rfl) fun t h => ?_
  dsimp only
  split
  · next m hm =>
    split
    · next n hu =>
      split
      · exact h
      · next hs =>
        have hh := h.atHome hm (by simpa using hs) (by rw [hu]; exact fun _ => id)
        refine AtHome.loadFeed ?_
        exact hh.upd rfl
    all_goals exact h
  · exact h

theorem safe_paperMotionPulse (h : Safe s) : Safe (after .paperMotionPulse s) := by
  refine safe_event h (by unfold exec execPaperMotionPulse; rfl) fun t h => ?_
  dsimp only
  split
  · exact h
  · split <;> exact h.upd rfl

/-! ## The engine's events, timers and input lines (R118, R141, R158, R162, R163, R174) -/

theorem safe_testTrip (c : TripCause) (h : Safe s) : Safe (after (.testTrip c) s) := by
  refine safe_event h (by unfold exec execTestTrip; rfl) fun t h => ?_
  split
  · split
    · unfold encoderTestTrip
      dsimp only
      split
      · exact safe_travel h
      · exact h
    · unfold jamTestTrip
      split
      · next m hm =>
        split
        · exact safe_feedOne hm h
        · exact h
      · exact h
    all_goals exact h
  · exact h

/-- The hold timer ends in READY with nothing in motion: the executor may be at work in HOLD as in READY (R158). -/
theorem safe_holdTimerExpiry (h : Safe s) : Safe (after .holdTimerExpiry s) := by
  refine safe_event h (by unfold exec execHoldTimerExpiry; rfl) fun t h => ?_
  dsimp only
  split
  · next hc =>
    obtain ⟨he, -, hm⟩ := hc
    have hs : Still { t with engine := { t.engine with state := .hold, holdTimer := none } } :=
      (h.still hm).enter (by simp [he]) nofun rfl rfl rfl
    refine hs.safe (h.not_pending_of_still hm) fun hx => ⟨rfl, ?_⟩
    change holdsEmpty t = true
    rw [← Bool.not_eq_false]
    exact fun e => by simpa [stopping_of_still hm] using h.motion.holds hx e
  · exact h

theorem safe_warmupExpiry (h : Safe s) : Safe (after .warmupExpiry s) := by
  refine safe_event h (by unfold exec execWarmupExpiry; rfl) fun t h => ?_
  dsimp only
  split
  · next hc =>
    obtain ⟨he, -⟩ := hc
    obtain ⟨hi, hr⟩ := h.idle (by simp [he]) (by simp [readyOrHold, he])
    have unready (e : Engine) (hs : e.state = .unready) (hf : e.firstFault = t.engine.firstFault)
        (ho : e.outputs = t.engine.outputs) (hx : e.further = t.engine.further)
        (hp : e.resetPending = t.engine.resetPending) : Safe { t with engine := e } :=
      (hi.enter (by simp [he]) (by simp [hs]) (by rw [hf]) (by rw [ho]) hx).safe (hp.trans hr)
    refine safe_raise ?_
    split
    · refine Idle.enterHoming ?_ (by simp [he]) hr
      exact hi.upd rfl
    all_goals exact unready _ rfl rfl rfl rfl rfl
  · exact h

theorem safe_coolingTick (h : Safe s) : Safe (after .coolingTick s) := by
  refine safe_event h (by unfold exec execCoolingTick; rfl) fun t h => ?_
  refine safe_retest ?_
  exact h.upd rfl

theorem safe_paperSensorAbsent (h : Safe s) : Safe (after .paperSensorAbsent s) := by
  refine safe_event h (by unfold exec execPaperSensorAbsent; rfl) fun t h => ?_
  refine safe_sensorChange ?_
  exact h.upd rfl

theorem safe_paperSensorPresent (h : Safe s) : Safe (after .paperSensorPresent s) := by
  refine safe_event h (by unfold exec execPaperSensorPresent; rfl) fun t h => ?_
  refine safe_sensorChange ?_
  exact h.upd rfl

theorem safe_headHotAsserted (h : Safe s) : Safe (after .headHotAsserted s) := by
  refine safe_event h (by unfold exec execHeadHotAsserted; rfl) fun t h => ?_
  refine safe_ariseIf ?_
  exact h.upd rfl

theorem safe_driverFaultAsserted (h : Safe s) : Safe (after .driverFaultAsserted s) := by
  refine safe_event h (by unfold exec execDriverFaultAsserted; rfl) fun t h => ?_
  refine safe_ariseIf ?_
  exact h.upd rfl

theorem safe_headHotQuiet (h : Safe s) : Safe (after .headHotQuiet s) := by
  refine safe_event h (by unfold exec execHeadHotQuiet; rfl) fun t h => ?_
  exact h.upd rfl

theorem safe_driverFaultQuiet (h : Safe s) : Safe (after .driverFaultQuiet s) := by
  refine safe_event h (by unfold exec execDriverFaultQuiet; rfl) fun t h => ?_
  exact h.upd rfl

theorem safe_homeSensorInactive (h : Safe s) : Safe (after .homeSensorInactive s) := by
  refine safe_event h (by unfold exec execHomeSensorInactive; rfl) fun t h => ?_
  exact h.upd rfl

/-! ## Every command, and every step -/

/-- At power-on nothing moves and no record stands; a level that is asserted then trips the part (R154, R163). -/
theorem safe_powerOn (rate : LinkRate) (s : State) : Safe
    (ariseLevels s.lines.headHot s.lines.driverFault (State.powerOnState rate s.lines s.freeCount s.pending)) := by
  refine safe_ariseLevels (Idle.safe ⟨⟨rfl, ?_, ?_, ?_, nofun, nofun⟩, rfl⟩ rfl)
  · simp [TripInv, State.powerOnState, resetEngine]
  · simp [State.powerOnState, resetFire]
  · simp [State.powerOnState, idleExecutor]

/-- Every command keeps motion and trip state sound. -/
theorem safe_after (c : Instr) (h : Safe s) : Safe (after c s) := by
  cases c with
  | powerOn r => exact safe_powerOn r s
  | resetLine r => exact safe_powerOn r s
  | frameReceived bytes => exact safe_event h rfl (foldl_keeps (fun _ _ => safe_rxByte) bytes)
  | byteGapTimeout => exact safe_byteGapTimeout h
  | receiveOverrun => exact safe_receiveOverrun h
  | unknownKind kind tag p => exact safe_unknownKind kind tag p h
  | replySent => exact safe_replySent h
  | noticeSent => exact safe_noticeSent h
  | stat tag req => exact safe_fields h rfl id
  | evnt tag req => exact safe_fields h rfl fun h => h.upd rfl
  | emsk tag req => exact safe_fields h rfl safe_doEmsk
  | setp tag req => exact safe_fields h rfl safe_doSetp
  | getp tag req => exact safe_fields h rfl safe_doGetp
  | cntrSnap tag req => exact safe_cntrSnap tag req h
  | cntrRead tag group => exact safe_request h rfl safe_doRead
  | cntrClear tag mask => exact safe_request h rfl safe_doClear
  | slotOpen tag req => exact safe_fields h rfl (safe_slotAnswer safe_openSlot)
  | slotData tag req => exact safe_fields h rfl (safe_slotAnswer safe_storeData)
  | slotSeal tag req => exact safe_fields h rfl (safe_slotAnswer safe_sealSlot)
  | slotDrop tag req => exact safe_fields h rfl (safe_slotAnswer safe_dropSlot)
  | line tag req => exact safe_fields h rfl safe_enqueueAnswer
  | feed tag req => exact safe_fields h rfl safe_enqueueAnswer
  | skip tag req => exact safe_fields h rfl safe_enqueueAnswer
  | tear tag req => exact safe_fields h rfl safe_enqueueAnswer
  | haltLine tag req => exact safe_haltLine tag req h
  | haltPass tag => exact safe_request h rfl safe_haltInPass
  | haltNow tag => exact safe_request h rfl safe_haltAtOnce
  | go tag req => exact safe_fields h rfl safe_doGo
  | flsh tag req => exact safe_fields h rfl safe_doFlsh
  | cmpl tag req => exact safe_fields h rfl safe_doCmpl
  | pmap tag req => exact safe_fields h rfl safe_doPmap
  | pinh tag req => exact safe_fields h rfl fun h => h.upd rfl
  | etab tag req => exact safe_fields h rfl safe_doEtab
  | form tag req => exact safe_fields h rfl safe_doForm
  | enga tag req => exact safe_fields h rfl safe_engage
  | rest tag req => exact safe_fields h rfl safe_restEngine
  | wake tag req => exact safe_fields h rfl safe_wakeEngine
  | clrf tag req => exact safe_fields h rfl safe_doClrf
  | erst tag req => exact safe_fields h rfl safe_resetEngineNow
  | dout tag req => exact safe_fields h rfl safe_doDout
  | tovl tag req => exact safe_fields h rfl safe_doTovl
  | executorStart => exact safe_executorStart h
  | repositionEnd => exact safe_repositionEnd h
  | cruiseStart => exact safe_cruiseStart h
  | cruiseEnd => exact safe_cruiseEnd h
  | passEnd => exact safe_passEnd h
  | fireGroupTaken => exact safe_fireGroupTaken h
  | pulseEnd p isOpen => exact safe_pulseEnd p isOpen h
  | markEdge dir n => exact safe_markEdge dir n h
  | encoderLost => exact safe_encoderLost h
  | homeSensorActive => exact safe_homeSensorActive h
  | homeFail => exact safe_homeFail h
  | parkEnd => exact safe_parkEnd h
  | feedStep => exact safe_feedStep h
  | paperEnd => exact safe_paperEnd h
  | paperJam => exact safe_paperJam h
  | ejectFail => exact safe_ejectFail h
  | feedMoveEnd => exact safe_feedMoveEnd h
  | stopAtRest => exact safe_stopAtRest h
  | paperMotionPulse => exact safe_paperMotionPulse h
  | paperSensorAbsent => exact safe_paperSensorAbsent h
  | paperSensorPresent => exact safe_paperSensorPresent h
  | headHotAsserted => exact safe_headHotAsserted h
  | driverFaultAsserted => exact safe_driverFaultAsserted h
  | testTrip c => exact safe_testTrip c h
  | holdTimerExpiry => exact safe_holdTimerExpiry h
  | warmupExpiry => exact safe_warmupExpiry h
  | coolingTick => exact safe_coolingTick h
  | headHotQuiet => exact safe_headHotQuiet h
  | driverFaultQuiet => exact safe_driverFaultQuiet h
  | homeSensorInactive => exact safe_homeSensorInactive h
  | discardedFramePassedOver => exact safe_discardedFramePassedOver h
  | preloadComplete => exact safe_preloadComplete h

theorem safe_tick (h : Safe s) : Safe (tick s) := by
  unfold tick
  split
  · exact safe_travel h
  · exact h.upd rfl

/-- One step keeps motion and trip state sound. -/
theorem safe_step (h : Safe s) (hs : step s = .next t) : Safe t := by
  unfold step at hs
  split at hs
  · next c rest _ =>
    rw [HeadTables.eq_after hs]
    refine safe_after c ?_
    exact h.upd rfl
  · split at hs
    · obtain rfl := Host.Outcome.next.inj hs
      exact safe_beginSending h
    · split at hs
      · next c _ =>
        rw [HeadTables.eq_after hs]
        exact safe_after c h
      · obtain rfl := Host.Outcome.next.inj hs
        exact safe_tick h

end Sys2Proof.MotionAndTrips

namespace Sys2Proof

open Sys2Proof.Machine Sys2Proof.MotionAndTrips

/-- Settles O57: the executor's work starts from one posture and every motion ends in another (`Workable`, `Still`), so
every command keeps what moves and the trip state sound (`safe_after`), and so does what the block does of itself. -/
theorem stepKeepsMotionAndTripState : Obligations.StepKeepsMotionAndTripState := by
  intro s t hs motion trip
  obtain ⟨motion', trip'⟩ := safe_step ⟨motion, trip⟩ hs
  exact ⟨motion', trip'⟩

end Sys2Proof
end

