-- ==== Sys2Proof/Proofs/WorkAndReceivePlaces.lean ====
section
/-! SUPPORT. The executor's work neither reads nor changes the frames that wait in the receive places: what an answered
request sets going is the same before and after its own frame has left its place (R181, R182). -/

namespace Sys2Proof.PrintQueue

open Sys2Proof.Machine

variable {s : State}

/-! ## Retirement and the end of a line (R40, R42) -/

theorem count_dropOldest (c : General) (k : Nat) (s : State) : count c k (dropOldest s) = dropOldest (count c k s) :=
  congrArg (fun t => { t with counters := (count c k s).counters })
    (QueueAndSlots.dropOldest_raiseIf (s.counters.live.halves c k) .counterHalf s).symm

theorem raise_dropOldest (e : Event) (s : State) : raise e (dropOldest s) = dropOldest (raise e s) :=
  (QueueAndSlots.dropOldest_raiseIf true e s).symm

theorem raiseIf_dropOldest (b : Bool) (e : Event) (s : State) :
    raiseIf b e (dropOldest s) = dropOldest (raiseIf b e s) :=
  (QueueAndSlots.dropOldest_raiseIf b e s).symm

theorem countLine_dropOldest (e : Entry) (o : EntryOutcome) (s : State) :
    countLine e o (dropOldest s) = dropOldest (countLine e o s) := by
  unfold countLine
  split
  · exact count_dropOldest _ _ s
  all_goals rfl

theorem leaveQueue_dropOldest (e : Entry) (rest : List Entry) (o : EntryOutcome) (s : State) :
    leaveQueue e rest o (dropOldest s) = dropOldest (leaveQueue e rest o s) := rfl

theorem retire_dropOldest (o : EntryOutcome) (s : State) : retire o (dropOldest s) = dropOldest (retire o s) := by
  unfold retire
  simp only [dropOldest_frame]
  split
  · rfl
  · split
    · rw [leaveQueue_dropOldest, raise_dropOldest, raiseIf_dropOldest, countLine_dropOldest]
    · rfl

theorem completeLine_dropOldest (s : State) : completeLine (dropOldest s) = dropOldest (completeLine s) :=
  retire_dropOldest _ s

theorem beginFeedAfter_dropOldest (s : State) : beginFeedAfter (dropOldest s) = dropOldest (beginFeedAfter s) := by
  change (match activeLine s with
    | some f => if f.feedAfter = 0 then _ else _
    | none => _) = dropOldest (match activeLine s with
    | some f => if f.feedAfter = 0 then _ else _
    | none => _)
  split
  · split
    · exact completeLine_dropOldest
        { s with exec := { s.exec with state := .advance, resume := none } }
    · rfl
  · rfl

/-! ## Passes and the plan (R54, R74, R84, R121) -/

theorem goPosition_dropOldest (p : Plan) (r : PassRec) (s : State) :
    goPosition p r (dropOldest s) = dropOldest (goPosition p r s) := by
  unfold goPosition
  rw [apply_ite dropOldest]
  rfl

theorem beginWait_dropOldest (r : PassRec) (s : State) : beginWait r (dropOldest s) = dropOldest (beginWait r s) := by
  unfold beginWait
  rw [← count_dropOldest, ← raise_dropOldest]
  rfl

theorem submit_dropOldest (p : Plan) (r : PassRec) (s : State) :
    submit p r (dropOldest s) = dropOldest (submit p r s) := by
  unfold submit
  rw [goPosition_dropOldest, beginWait_dropOldest, apply_ite dropOldest]
  rfl

theorem nextWork_dropOldest (s : State) : nextWork (dropOldest s) = dropOldest (nextWork s) := by
  unfold nextWork
  simp only [dropOldest_frame]
  split
  · split
    · exact submit_dropOldest _ _ s
    · exact beginFeedAfter_dropOldest s
  · rfl

theorem planned_dropOldest (f : LineFields) (s : State) : planned f (dropOldest s) = dropOldest (planned f s) := by
  unfold planned
  rw [← count_dropOldest]
  rfl

theorem planAndGo_dropOldest (f : LineFields) (s : State) :
    planAndGo f (dropOldest s) = dropOldest (planAndGo f s) := by
  unfold planAndGo
  rw [← nextWork_dropOldest]
  exact congrArg nextWork (planned_dropOldest f { s with exec := { s.exec with state := .prepare, resume := none } })

/-! ## Staging and the moves (R144 to R150) -/

theorem stageLine_dropOldest (f : LineFields) (s : State) :
    stageLine f (dropOldest s) = dropOldest (stageLine f s) := by
  unfold stageLine
  rw [planAndGo_dropOldest, apply_ite dropOldest]
  rfl

theorem moveFeed_dropOldest (d : Int) (s : State) : moveFeed d (dropOldest s) = dropOldest (moveFeed d s) := by
  unfold moveFeed
  simp only [retire_dropOldest, apply_ite dropOldest]
  rfl

theorem moveSkip_dropOldest (n : Nat) (s : State) : moveSkip n (dropOldest s) = dropOldest (moveSkip n s) := by
  unfold moveSkip
  simp only [dropOldest_frame, retire_dropOldest]
  split <;> rfl

theorem moveTear_dropOldest (s : State) : moveTear (dropOldest s) = dropOldest (moveTear s) := by
  change (match path s with
    | .fanfold => _
    | .sheet => _) = dropOldest (match path s with
    | .fanfold => _
    | .sheet => _)
  split
  · rw [retire_dropOldest, apply_ite dropOldest]
    rfl
  · rfl

theorem beginMove_dropOldest (k : EntryKind) (s : State) :
    beginMove k (dropOldest s) = dropOldest (beginMove k s) := by
  cases k with
  | line f => rfl
  | feed d => exact moveFeed_dropOldest d { s with exec := { s.exec with state := .advance, resume := none } }
  | skip n => exact moveSkip_dropOldest n { s with exec := { s.exec with state := .advance, resume := none } }
  | tear => exact moveTear_dropOldest { s with exec := { s.exec with state := .advance, resume := none } }

theorem afterRetract_dropOldest (k : EntryKind) (s : State) :
    afterRetract k (dropOldest s) = dropOldest (afterRetract k s) := by
  cases k with
  | line f => exact stageLine_dropOldest f s
  | feed d => exact beginMove_dropOldest (.feed d) s
  | skip n => exact beginMove_dropOldest (.skip n) s
  | tear => exact beginMove_dropOldest .tear s

theorem prepare_dropOldest (k : EntryKind) (s : State) : prepare k (dropOldest s) = dropOldest (prepare k s) := by
  have h (t : State) := afterRetract_dropOldest k t
  unfold prepare
  simp only [apply_ite dropOldest, ← h]
  rfl

/-! ## Resumption, the wake and a controlled stop (R49, R96, R138, R161) -/

theorem resumeEntry_dropOldest (e : Entry) (s : State) :
    resumeEntry e (dropOldest s) = dropOldest (resumeEntry e s) := by
  unfold resumeEntry
  simp only [dropOldest_frame]
  split
  · exact prepare_dropOldest _ s
  · exact planAndGo_dropOldest _ s
  · exact nextWork_dropOldest { s with exec := { s.exec with resume := none } }
  · exact beginFeedAfter_dropOldest s
  · exact beginMove_dropOldest _ s
  all_goals rfl

theorem resumeIfHeld_dropOldest (s : State) : resumeIfHeld (dropOldest s) = dropOldest (resumeIfHeld s) := by
  cases he : activeEntry s with
  | none =>
    have hd : activeEntry (dropOldest s) = none := he
    simp only [resumeIfHeld, he, hd]
  | some e =>
    have hd : activeEntry (dropOldest s) = some e := he
    simp only [resumeIfHeld, he, hd, resumeEntry_dropOldest, apply_ite dropOldest]
    rfl

theorem wakeIfDue_dropOldest (s : State) : wakeIfDue (dropOldest s) = dropOldest (wakeIfDue s) := by
  unfold wakeIfDue
  rw [apply_ite dropOldest]
  rfl

theorem stopCarriage_dropOldest (s : State) : stopCarriage (dropOldest s) = dropOldest (stopCarriage s) := by
  unfold stopCarriage
  rw [apply_ite dropOldest]
  rfl

theorem controlledStop_dropOldest (s : State) : controlledStop (dropOldest s) = dropOldest (controlledStop s) := by
  unfold controlledStop
  rw [stopCarriage_dropOldest, apply_ite dropOldest]
  rfl

end Sys2Proof.PrintQueue
end

