-- ==== Sys2Proof/Proofs/PrintQueueRequests.lean ====
section
/-! The Print Queue's requests LINE, FEED, SKIP, TEAR, HALT and GO: O17 to O20. -/

namespace Sys2Proof.PrintQueue

open Sys2Proof.Machine

variable {s u : State} {tag kind : Byte} {c : Instr} {f : Frame} {k : EntryKind}

/-! ## Enqueue requests (R33 to R35) -/

section

variable (hr : Ready c s) (he : encodeFrame c = some f) (hk : f.kind + 0x80#8 = kind)

include hr he hk

/-- A request whose fields fail their check is refused. -/
theorem exec_enqueue_badValue (hx : exec c s = request c (enqueueAnswer tag none) s) :
    exec c s = .next (replied kind f.tag [0x12#8, BitVec.ofNat 8 s.queue.length] s) :=
  HeadTables.exec_replied hr he hx hk rfl

/-- The answer to an enqueue request whose fields pass their check. -/
theorem exec_enqueue {res : Result} (hx : exec c s = request c (enqueueAnswer tag (some k)) s)
    (ht : tryEnqueue tag k (dropOldest s) = (dropOldest u, res)) :
    exec c s = .next (replied kind f.tag [res.code, BitVec.ofNat 8 u.queue.length] u) :=
  HeadTables.exec_replied hr he hx hk (by simp only [enqueueAnswer, ht]; rfl)

theorem exec_enqueue_full (hx : exec c s = request c (enqueueAnswer tag (some k)) s) (hn : 16 ≤ s.queue.length) :
    exec c s = .next (replied kind f.tag [0x16#8, BitVec.ofNat 8 s.queue.length] s) :=
  exec_enqueue (u := s) hr he hk hx (if_pos hn)

end

theorem enqueue_dropOldest (tag : Byte) (k : EntryKind) (s : State) :
    enqueue tag k (dropOldest s) = dropOldest (enqueue tag k s) :=
  wakeIfDue_dropOldest { s with queue := s.queue ++ [⟨tag, k, false⟩] }

/-- An entry that joins the queue adds one to its length. -/
theorem enqueue_length (tag : Byte) (k : EntryKind) (s : State) :
    (enqueue tag k s).queue.length = s.queue.length + 1 := by
  simp [enqueue]

/-- With room in the queue an entry that is no LINE joins it. -/
theorem tryEnqueue_other (hk : ∀ f, k ≠ .line f) (hn : s.queue.length < 16) :
    tryEnqueue tag k (dropOldest s) = (dropOldest (enqueue tag k s), .ok) := by
  refine (if_neg (Nat.not_le.mpr hn)).trans ?_
  cases k with
  | line f => exact absurd rfl (hk f)
  | _ => simp only [enqueue_dropOldest]

theorem tryEnqueue_line_unsealed {f : LineFields} (hn : s.queue.length < 16) (hs : s.slots[f.slot].state ≠ .sealed) :
    tryEnqueue tag (.line f) (dropOldest s) = (dropOldest s, .slotState) :=
  (if_neg (Nat.not_le.mpr hn)).trans (if_neg hs)

theorem tryEnqueue_line_sealed {f : LineFields} (hn : s.queue.length < 16) (hs : s.slots[f.slot].state = .sealed) :
    tryEnqueue tag (.line f) (dropOldest s) = (dropOldest (enqueue tag (.line f) (moveSlot f.slot .bound s)), .ok) := by
  refine (if_neg (Nat.not_le.mpr hn)).trans ((if_pos hs).trans ?_)
  rw [← enqueue_dropOldest]
  rfl

/-! ## The fields of a LINE (R33) -/

/-- A LINE with a field outside its range names no line. -/
theorem lineFieldsOf_none {r : LineReq} (h : 8 ≤ r.slot.toNat ∨ 2 ≤ r.mode.toNat ∨ 3 ≤ r.direction.toNat ∨
    4 ≤ r.cls.toNat ∨ 7920 < r.feedAfter.toNat ∨ 7 ≤ r.ply.toNat) : lineFieldsOf r = none := by
  unfold lineFieldsOf
  split
  · next hslot hmode hdir hply =>
    refine if_neg fun ⟨hcls, hfeed⟩ => ?_
    rcases h with h | h | h | h | h | h
    · simp [QueueAndSlots.slotOf_none h] at hslot
    · have h0 : r.mode ≠ 0#8 := fun e => by simp [e] at h
      have h1 : r.mode ≠ 1#8 := fun e => by simp [e] at h
      simp [LineMode.ofCode, h0, h1] at hmode
    · have h0 : r.direction ≠ 0#8 := fun e => by simp [e] at h
      have h1 : r.direction ≠ 1#8 := fun e => by simp [e] at h
      have h2 : r.direction ≠ 2#8 := fun e => by simp [e] at h
      simp [LineDirection.ofCode, h0, h1, h2] at hdir
    · omega
    · omega
    · have h0 : r.ply ≠ 0#8 := fun e => by simp [e] at h
      simp [plyOf, h0, Nat.not_le.mpr h] at hply
  · rfl

/-- The line a LINE names, each field read from its byte. -/
theorem lineFieldsOf_some {r : LineReq} {f : LineFields} (hslot : f.slot.val = r.slot.toNat)
    (hmode : r.mode = 0#8 ∧ f.mode = .single ∨ r.mode = 1#8 ∧ f.mode = .double)
    (hdir : r.direction = 0#8 ∧ f.direction = .auto ∨ r.direction = 1#8 ∧ f.direction = .forward ∨
      r.direction = 2#8 ∧ f.direction = .reverse)
    (hcls : f.cls = r.cls.toNat) (hcls3 : f.cls ≤ 3) (hfeed : f.feedAfter = r.feedAfter.toNat)
    (hfeedMax : f.feedAfter ≤ 7920)
    (hply : r.ply = 0#8 ∧ f.ply = none ∨ 1 ≤ r.ply.toNat ∧ r.ply.toNat ≤ 6 ∧ f.ply = some r.ply.toNat) :
    lineFieldsOf r = some f := by
  have mode : LineMode.ofCode r.mode = some f.mode := by
    rcases hmode with ⟨e, e'⟩ | ⟨e, e'⟩ <;> rw [e, e'] <;> rfl
  have dir : LineDirection.ofCode r.direction = some f.direction := by
    rcases hdir with ⟨e, e'⟩ | ⟨e, e'⟩ | ⟨e, e'⟩ <;> rw [e, e'] <;> rfl
  have ply : plyOf r.ply = some f.ply := by
    rcases hply with ⟨e, e'⟩ | ⟨h1, h6, e'⟩
    · rw [e, e']
      rfl
    · have h0 : r.ply ≠ 0#8 := fun e => by simp [e] at h1
      rw [plyOf, if_neg h0, if_pos h6, e']
  simp only [lineFieldsOf, QueueAndSlots.slotOf_eq hslot.symm, mode, dir, ply]
  rw [if_pos ⟨hcls ▸ hcls3, hfeed ▸ hfeedMax⟩, ← hcls, ← hfeed]

/-! ## The distance of a FEED, the channel of a SKIP (R34) -/

theorem feedOf_none {w : BitVec 16} (h : w.toInt < -720 ∨ 7920 < w.toInt) : feedOf w = none :=
  if_neg (by omega)

theorem feedOf_some {w : BitVec 16} (h : -720 ≤ w.toInt) (h' : w.toInt ≤ 7920) : feedOf w = some w.toInt :=
  if_pos ⟨h, h'⟩

theorem channelOf_none {n : Byte} (h : n = 0#8 ∨ 12 < n.toNat) : channelOf n = none :=
  if_neg (by rcases h with rfl | h <;> [decide; omega])

theorem channelOf_some {n : Byte} (h : 1 ≤ n.toNat) (h' : n.toNat ≤ 12) : channelOf n = some n.toNat :=
  if_pos ⟨h, h'⟩

/-- An entry that is no LINE is refused with a full queue and otherwise joins it. -/
theorem exec_enqueue_other (hr : Ready c s) (he : encodeFrame c = some f) (hk : f.kind + 0x80#8 = kind)
    (hne : ∀ l, k ≠ .line l) (hx : exec c s = request c (enqueueAnswer tag (some k)) s) (hn : s.queue.length < 16) :
    exec c s = .next (replied kind f.tag [0x00#8, BitVec.ofNat 8 (s.queue.length + 1)]
      (wakeIfDue { s with queue := s.queue ++ [⟨tag, k, false⟩] })) := by
  have h := exec_enqueue hr he hk hx (tryEnqueue_other hne hn)
  rwa [enqueue_length] at h

end Sys2Proof.PrintQueue

namespace Sys2Proof

open Machine PrintQueue

/-- Settles O17: the answer to an enqueue request with its fields, the room and the slot's state as they are. -/
theorem entriesAreEnqueued : Obligations.EntriesAreEnqueued := by
  unfold Obligations.EntriesAreEnqueued
  refine ⟨fun tag r s hr => ?_, fun tag s => ⟨fun w hr => ?_, fun n hr => ?_, fun hr => ?_⟩⟩
  · have line {k : Option LineFields} (h : lineFieldsOf r = k) : exec (.line tag (.fields r)) s =
        request (.line tag (.fields r)) (enqueueAnswer tag (k.map .line)) s := by rw [← h]; rfl
    refine ⟨fun hbad => exec_enqueue_badValue hr rfl rfl (line (lineFieldsOf_none hbad)), ?_⟩
    intro f hslot hmode hdir hcls hcls3 hfeed hfeedMax hply
    have hx := line (lineFieldsOf_some hslot hmode hdir hcls hcls3 hfeed hfeedMax hply)
    refine ⟨exec_enqueue_full hr rfl rfl hx, fun hn hs => ?_, fun hn hs => ?_⟩
    · exact exec_enqueue hr rfl rfl hx (tryEnqueue_line_unsealed hn hs)
    · have h := exec_enqueue hr rfl rfl hx (tryEnqueue_line_sealed hn hs)
      rwa [enqueue_length] at h
  · have feed {k : Option Int} (h : feedOf w = k) : exec (.feed tag (.fields w)) s =
        request (.feed tag (.fields w)) (enqueueAnswer tag (k.map .feed)) s := by rw [← h]; rfl
    refine ⟨fun hbad => exec_enqueue_badValue hr rfl rfl (feed (feedOf_none hbad)), fun h h' => ?_, fun h h' => ?_⟩
    · exact exec_enqueue_full hr rfl rfl (feed (feedOf_some h h'))
    · exact exec_enqueue_other hr rfl rfl nofun (feed (feedOf_some h h'))
  · have skip {k : Option Nat} (h : channelOf n = k) : exec (.skip tag (.fields n)) s =
        request (.skip tag (.fields n)) (enqueueAnswer tag (k.map .skip)) s := by rw [← h]; rfl
    refine ⟨fun hbad => exec_enqueue_badValue hr rfl rfl (skip (channelOf_none hbad)), fun h h' => ?_, fun h h' => ?_⟩
    · exact exec_enqueue_full hr rfl rfl (skip (channelOf_some h h'))
    · exact exec_enqueue_other hr rfl rfl nofun (skip (channelOf_some h h'))
  · exact ⟨exec_enqueue_full hr rfl rfl rfl, exec_enqueue_other hr rfl rfl nofun rfl⟩

end Sys2Proof
end

