-- ==== Sys2Proof/Proofs/HaltAndGo.lean ====
section
/-! The requests HALT and GO: O18, O19 and O20. -/

namespace Sys2Proof.PrintQueue

open Sys2Proof.Machine

variable {s t u : State} {tag : Byte} {c : Instr} {f : Frame} {a : State → State} {e : Entry}

/-- A HALT of any mode answers OK. -/
theorem exec_halt (hr : Ready c s) (he : encodeFrame c = some f)
    (hx : exec c s = request c (fun t => (a t, [Result.ok.code])) s) (hk : f.kind + 0x80#8 = 0xA4#8)
    (ha : a (dropOldest s) = dropOldest u) : exec c s = .next (replied 0xA4#8 f.tag [0x00#8] u) :=
  HeadTables.exec_replied hr he hx hk (by rw [ha]; rfl)

/-! ## Holding at once or pending (R46, R47) -/

/-- With no ACTIVE entry, or a held one, a halt takes effect at once. -/
theorem haltsAtOnce_iff : (!hasActive s || held s) = true ↔ hasActive s = false ∨ s.exec.state = .idle := by
  cases h : hasActive s <;> simp [held, h]

/-- An entry at work is held by the step it is in. -/
theorem not_haltsAtOnce (ha : hasActive s = true) (hx : s.exec.state ≠ .idle) : ¬(!hasActive s || held s) = true :=
  fun h => (haltsAtOnce_iff.mp h).elim (by simp [ha]) hx

theorem haltInLine_at_once (h : hasActive s = false ∨ s.exec.state = .idle) : haltInLine s = addHalted s :=
  if_pos (haltsAtOnce_iff.mpr h)

/-- An entry at work leaves the halt pending, and a pending PASS outlasts it. -/
theorem haltInLine_pending (ha : hasActive s = true) (hx : s.exec.state ≠ .idle) :
    haltInLine s = { s with exec := { s.exec with
      pendingHalt := if s.exec.pendingHalt = some .pass then some .pass else some .line } } := by
  refine (if_neg (not_haltsAtOnce ha hx)).trans ?_
  split
  · next hp => rw [← hp]
  · rfl

theorem haltInPass_at_once (h : hasActive s = false ∨ s.exec.state = .idle) : haltInPass s = addHalted s :=
  if_pos (haltsAtOnce_iff.mpr h)

theorem haltInPass_cool (ha : hasActive s = true) (hx : s.exec.state = .cool) :
    haltInPass s = holdAt (lineResume s) { s with heat := { s.heat with waiting := none } } := by
  refine (if_neg (not_haltsAtOnce ha (by simp [hx]))).trans ?_
  rw [hx]

theorem haltInPass_prepare (ha : hasActive s = true) (hx : s.exec.state = .prepare) (hm : s.paper.move = none) :
    haltInPass s = holdAt (prepareResume s) s := by
  refine (if_neg (not_haltsAtOnce ha (by simp [hx]))).trans ?_
  rw [hx]
  exact if_neg (by simp [feeding, hm])

/-- A movement in progress is made to its end, the halt pending. -/
theorem haltInPass_pending (ha : hasActive s = true)
    (hx : s.exec.state = .prepare ∧ s.paper.move ≠ none ∨ s.exec.state = .position ∨ s.exec.state = .pass ∨
      s.exec.state = .advance) :
    haltInPass s = { s with exec := { s.exec with pendingHalt := some .pass } } := by
  refine (if_neg (not_haltsAtOnce ha (by rcases hx with ⟨hx, -⟩ | hx | hx | hx <;> simp [hx]))).trans ?_
  rcases hx with ⟨hx, hm⟩ | hx | hx | hx <;> rw [hx]
  exact if_pos (by simpa [feeding, Option.isSome_iff_ne_none] using hm)

/-- A plan has a pass in progress exactly when not every pass is done (R73). -/
theorem passNow_isSome (p : Plan) : (passNow p).isSome = !p.passes.all (fun r => r.done) := by
  rw [Bool.eq_iff_iff]
  simp [passNow]

/-- Where a line held between its steps continues (R47). -/
theorem lineResume_eq (s : State) : lineResume s = match s.exec.plan with
    | none => .plan
    | some p => if p.passes.all (fun r => r.done) then .feedAfter
        else .pass (p.passes.takeWhile (fun r => r.done)).length := by
  unfold lineResume
  cases s.exec.plan with
  | none => rfl
  | some p =>
    simp only [passNow_isSome, passIndex]
    cases p.passes.all (fun r => r.done) <;> rfl

/-! ## HALT in NOW mode (R48, R96, R138) -/

/-- A controlled stop goes on, or is requested of the carriage, or of the feed move. -/
theorem controlledStop_cases (s : State) :
    (s.carriage.phase = .stopping ∧ controlledStop s = s) ∨
      (s.carriage.phase ≠ .stopped ∧ s.carriage.phase ≠ .stopping ∧
        controlledStop s = { s with
          carriage := s.carriage.stop (Config.stopTick s.freeCount)
          fire := { s.fire with due := none }
          freeCount := s.freeCount + 1 }) ∨
      (s.carriage.phase = .stopped ∧ controlledStop s = stopFeed s) := by
  unfold controlledStop stopCarriage
  by_cases hp : s.carriage.phase = .stopped
  · exact .inr (.inr ⟨hp, if_neg (by simp [carriageMoving, hp])⟩)
  · rw [if_pos (by simpa [carriageMoving] using hp)]
    by_cases hs : s.carriage.phase = .stopping
    · exact .inl ⟨hs, if_pos hs⟩
    · exact .inr (.inl ⟨hp, hs, if_neg hs⟩)

/-- The ticks to slow from the top speed at ACCEL, the last one whole or not counted (R96, log 7). -/
theorem stopTicks_eq (pf : Profile) (p : Int) (b : Bool) :
    ∃ k, (k = 8 * (pf.top * pf.top - 40000) / pf.accel ∨
        (k = 8 * (pf.top * pf.top - 40000) / pf.accel + 1 ∧ 8 * (pf.top * pf.top - 40000) % pf.accel ≠ 0)) ∧
      stopTicks pf p b = min (p - pf.origin).natAbs (min (pf.target - p).natAbs k) := by
  refine ⟨_, ?_, rfl⟩
  split
  · next h => exact .inr ⟨rfl, by simp_all⟩
  · exact .inl rfl

/-- A feed move that is stopped makes at most one more step (R138, log 23). -/
theorem FeedMove.stop_of_going {m : FeedMove} (st : PaperState) (h : m.stopping = false) :
    ∃ k, k ≤ 1 ∧ m.stop st = { m with stopping := true, left := k } := by
  refine ⟨_, ?_, if_neg (by simp [h])⟩
  split
  · split <;> omega
  all_goals exact Nat.min_le_left ..

/-- What a controlled stop makes of the motion in progress (R96, R138). -/
theorem stopOf_controlledStop (s : State) : StopOf s (controlledStop s) := by
  rcases controlledStop_cases s with ⟨hp, e⟩ | ⟨hp, hs, e⟩ | ⟨hp, e⟩ <;> rw [e]
  · exact ⟨fun _ => rfl, fun _ _ _ _ h => absurd hp h, fun m h => by simp [hp] at h⟩
  · refine ⟨fun h => absurd h hs, fun d p pf _ _ hd hpos hpf => ?_, fun m h => absurd h hp⟩
    obtain ⟨k, hk, hn⟩ := stopTicks_eq pf p (Config.stopTick s.freeCount)
    exact ⟨k, _, hk, hn, by simp [Carriage.stop, hd, hpos, hpf]⟩
  · refine ⟨fun h => by simp [hp] at h, fun _ _ _ h => absurd hp h, fun m _ hm => ⟨fun hs => ?_, fun hs => ?_⟩⟩
    · simp [stopFeed, hm, FeedMove.stop, hs]
    · obtain ⟨k, hk, e⟩ := FeedMove.stop_of_going s.paper.state hs
      exact ⟨k, hk, by simp [stopFeed, hm, e]⟩

/-- Firing is at an end with the carriage's motion in a stop, and the carriage is where it was (R96, R97). -/
theorem controlledStop_keeps (s : State) :
    (s.carriage.phase ≠ .stopped → s.carriage.phase ≠ .stopping → (controlledStop s).fire.due = none) ∧
      (controlledStop s).carriage.position = s.carriage.position ∧
      { controlledStop s with
        carriage := s.carriage, fire := { (controlledStop s).fire with due := s.fire.due }
        paper := { (controlledStop s).paper with move := s.paper.move }, freeCount := s.freeCount } = s := by
  rcases controlledStop_cases s with ⟨hp, e⟩ | ⟨hp, hs, e⟩ | ⟨hp, e⟩ <;> rw [e]
  · exact ⟨fun _ h => absurd hp h, rfl, rfl⟩
  · refine ⟨fun _ _ => rfl, ?_, rfl⟩
    simp only [Carriage.stop]
    split <;> rfl
  · exact ⟨fun h => absurd hp h, rfl, rfl⟩

theorem haltAtOnce_no_entry (ha : hasActive s = false) : haltAtOnce s =
    { s with holds := { s.holds with halted := true }, exec := { s.exec with pendingHalt := none } } :=
  if_pos (by simp [ha])

/-- HALT in NOW mode with an entry at work and a motion in progress (R48). -/
theorem haltAtOnce_moving (ha : hasActive s = true) (hx : s.exec.state ≠ .idle) (hm : inMotion s = true) :
    haltAtOnce s = controlledStop { s with
      holds := { s.holds with halted := true }, exec := { s.exec with pendingHalt := none, failing := true } } :=
  (if_neg (by simp [ha])).trans (if_neg (by simp [held, hx, hm]))

/-- HALT in NOW mode with an ACTIVE entry that stands still (R48). -/
theorem haltAtOnce_standing (ha : hasActive s = true) (hx : s.exec.state = .idle ∨ inMotion s = false) :
    haltAtOnce s = retire .failedHalted { s with
      holds := { s.holds with halted := true }, exec := { s.exec with pendingHalt := none } } :=
  (if_neg (by simp [ha])).trans (if_pos (by rcases hx with hx | hx <;> simp [held, ha, hx]))

/-! ## GO (R49) -/

section

variable (s)

@[simp] theorem motionStarted_rest (e : Engine) : e.motionStarted.state = .rest ↔ e.state = .rest := by
  simp only [Engine.motionStarted]
  split <;> simp_all

@[simp] theorem startFeed_rest (p : Purpose) (d : Dir) (n : Nat) :
    (startFeed p d n s).engine.state = .rest ↔ s.engine.state = .rest := by
  simp [startFeed]

@[simp] theorem goPosition_rest (p : Plan) (r : PassRec) :
    (goPosition p r s).engine.state = .rest ↔ s.engine.state = .rest := by
  unfold goPosition
  dsimp only
  split <;> simp [startPass, setRibbon, Engine.setOutput, startMotion]

@[simp] theorem completeLine_rest : (completeLine s).engine.state = .rest ↔ s.engine.state = .rest := by
  simp [completeLine]

@[simp] theorem beginFeedAfter_rest : (beginFeedAfter s).engine.state = .rest ↔ s.engine.state = .rest := by
  unfold beginFeedAfter
  dsimp only
  split
  · split <;> simp
  · rfl

@[simp] theorem nextWork_rest : (nextWork s).engine.state = .rest ↔ s.engine.state = .rest := by
  unfold nextWork submit
  split
  · split
    · split <;> simp [beginWait]
    · simp
  · rfl

@[simp] theorem planAndGo_rest (f : LineFields) :
    (planAndGo f s).engine.state = .rest ↔ s.engine.state = .rest := by
  simp [planAndGo]

@[simp] theorem moveFeed_rest (d : Int) : (moveFeed d s).engine.state = .rest ↔ s.engine.state = .rest := by
  unfold moveFeed
  dsimp only
  repeat' split
  all_goals simp

@[simp] theorem beginMove_rest (k : EntryKind) : (beginMove k s).engine.state = .rest ↔ s.engine.state = .rest := by
  cases k with
  | line f => rfl
  | feed d => simp [beginMove]
  | skip n =>
    simp only [beginMove, moveSkip]
    split <;> simp
  | tear =>
    simp only [beginMove, moveTear]
    repeat' split
    all_goals simp

@[simp] theorem afterRetract_rest (k : EntryKind) :
    (afterRetract k s).engine.state = .rest ↔ s.engine.state = .rest := by
  unfold afterRetract
  split
  · unfold stageLine
    split <;> simp
  all_goals simp

/-- Work that goes on neither brings the engine to rest nor wakes it. -/
theorem resumeEntry_rest (e : Entry) : (resumeEntry e s).engine.state = .rest ↔ s.engine.state = .rest := by
  unfold resumeEntry prepare
  dsimp only
  repeat' split
  all_goals simp

end

/-- Outside REST nothing wakes (R161). -/
theorem wakeIfDue_of_awake (h : s.engine.state ≠ .rest) : wakeIfDue s = s := if_neg fun hw => h hw.1

/-- GO outside TRIPPED takes HALTED and the pending halt away, and work or a wake follows (R49). -/
theorem exec_go (hr : Ready (.go tag (.fields ())) s) (ht : s.engine.state ≠ .tripped)
    (hu : u = { s with holds := { s.holds with halted := false }, exec := { s.exec with pendingHalt := none } }) :
    exec (.go tag (.fields ())) s =
      .next (replied 0xA5#8 tag [0x00#8] (wakeIfDue (if s.holds.halted then resumeIfHeld u else u))) := by
  have hd : dropOldest u = { dropOldest s with
      holds := { s.holds with halted := false }, exec := { s.exec with pendingHalt := none } } := by rw [hu]; rfl
  have hgo : doGo (dropOldest s) =
      (wakeIfDue (if s.holds.halted then resumeIfHeld (dropOldest u) else dropOldest u), [0x00#8]) :=
    (if_neg ht).trans (by rw [hd]; rfl)
  refine HeadTables.exec_replied hr rfl rfl rfl (hgo.trans ?_)
  rw [resumeIfHeld_dropOldest, ← apply_ite dropOldest, wakeIfDue_dropOldest]

/-- A held entry resumes with no hold left and the engine READY or HOLD, no ERST waiting (R49). -/
theorem canResume_iff : canResume s = true ↔ hasActive s = true ∧ s.exec.state = .idle ∧ s.holds.halted = false ∧
    s.holds.paperOut = false ∧ readyOrHold s = true ∧ s.engine.resetPending = false := by
  simp [canResume, held, holdsEmpty, and_assoc]

theorem resumeIfHeld_of_not (h : canResume s = false) : resumeIfHeld s = s := by
  unfold resumeIfHeld
  split
  · exact if_neg (by simp [h])
  · rfl

theorem resumeIfHeld_of (he : activeEntry s = some e) (h : canResume s = true) : resumeIfHeld s = resumeEntry e s := by
  simp only [resumeIfHeld, he]
  exact if_pos h

end Sys2Proof.PrintQueue

namespace Sys2Proof

open Machine PrintQueue

/-- Settles O18: a halt holds at once where R46 and R47 let it, and pends elsewhere. -/
theorem haltHoldsOrPends : Obligations.HaltHoldsOrPends := by
  unfold Obligations.HaltHoldsOrPends
  refine ⟨fun tag s => ⟨fun hr => ⟨fun h => ?_, fun ha hx => ?_⟩, fun m hm hr => ?_⟩,
    fun tag s point hr hp => ⟨fun h => ?_, fun ha hx => ?_, fun ha hx hm => ?_, fun ha hx => ?_⟩⟩
  · exact exec_halt hr rfl rfl rfl (haltInLine_at_once (s := dropOldest s) h)
  · exact exec_halt hr rfl rfl rfl (haltInLine_pending (s := dropOldest s) ha hx)
  · exact HeadTables.exec_replied hr rfl rfl rfl rfl
  · exact exec_halt hr rfl rfl rfl (haltInPass_at_once (s := dropOldest s) h)
  · rw [hp.trans (lineResume_eq s).symm]
    exact exec_halt hr rfl rfl rfl (haltInPass_cool (s := dropOldest s) ha hx)
  · rw [hp.trans (lineResume_eq s).symm]
    exact exec_halt hr rfl rfl rfl (haltInPass_prepare (s := dropOldest s) ha hx hm)
  · exact exec_halt hr rfl rfl rfl (haltInPass_pending (s := dropOldest s) ha hx)

/-- Settles O19: the entry retires, or has failed and its motion is in a controlled stop, which `StopOf` bounds. -/
theorem haltInNowModeFailsTheEntry : Obligations.HaltInNowModeFailsTheEntry := by
  intro tag s u hr hu
  refine ⟨fun ha => ?_, fun ha hx => ?_, fun ha hx hm =>
    ⟨controlledStop { u with exec := { u.exec with failing := true } }, ?_⟩⟩ <;> subst hu
  · exact exec_halt hr rfl rfl rfl (haltAtOnce_no_entry (s := dropOldest s) ha)
  · exact exec_halt hr rfl rfl rfl ((haltAtOnce_standing (s := dropOldest s) ha hx).trans (retire_dropOldest _
      { s with holds := { s.holds with halted := true }, exec := { s.exec with pendingHalt := none } }))
  · obtain ⟨due, position, rest⟩ := controlledStop_keeps { s with
      holds := { s.holds with halted := true }, exec := { s.exec with pendingHalt := none, failing := true } }
    refine ⟨exec_halt hr rfl rfl rfl ((haltAtOnce_moving (s := dropOldest s) ha hx hm).trans
      (controlledStop_dropOldest { s with
        holds := { s.holds with halted := true }, exec := { s.exec with pendingHalt := none, failing := true } })),
      MotionAndTrips.stopping_controlledStop hm, ?_, by simp, due, position,
      congrArg (fun t => { t with exec := { s.exec with pendingHalt := none } }) rest⟩
    exact stopOf_controlledStop { s with
      holds := { s.holds with halted := true }, exec := { s.exec with pendingHalt := none, failing := true } }

/-- Settles O20: in TRIPPED a GO is refused; elsewhere a held entry resumes by `canResume_iff`, and REST alone wakes. -/
theorem goReleasesTheHalt : Obligations.GoReleasesTheHalt := by
  intro tag s u hr hu
  refine ⟨fun ht => ?_, fun ht hrest hc => ?_, fun e he hx hh hp hro hrp => ?_, fun hrest => ?_⟩
  · exact HeadTables.exec_replied hr rfl rfl rfl (if_pos ht)
  · have stays : (if s.holds.halted then resumeIfHeld u else u) = u := by
      split
      · next hh =>
        refine resumeIfHeld_of_not (Bool.not_eq_true _ ▸ fun h => ?_)
        obtain ⟨ha, hx, -, hp, hro, hrp⟩ := canResume_iff.mp h
        subst hu
        rcases hc with h | h | h | h | h | h
        · exact Bool.noConfusion (hh.symm.trans h)
        · exact Bool.noConfusion (ha.symm.trans h)
        · exact h hx
        · exact Bool.noConfusion (hp.symm.trans h)
        · exact Bool.noConfusion (hro.symm.trans h)
        · exact Bool.noConfusion (hrp.symm.trans h)
      · rfl
    rw [exec_go hr ht hu, stays, wakeIfDue_of_awake (by simpa [hu] using hrest)]
  · have ha : hasActive s = true := by simp [hasActive, he]
    have hc : canResume u = true := by
      subst hu
      exact canResume_iff.mpr ⟨ha, hx, rfl, hp, hro, hrp⟩
    have he' : activeEntry u = some e := by
      rw [hu]
      exact he
    have hrest : s.engine.state ≠ .rest := fun e => by simp [readyOrHold, e] at hro
    have hrest' : u.engine.state ≠ .rest := by simpa [hu] using hrest
    rw [exec_go hr (MotionAndTrips.not_tripped_of_readyOrHold hro) hu, if_pos hh,
      resumeIfHeld_of he' hc, wakeIfDue_of_awake fun h => hrest' ((resumeEntry_rest u e).mp h)]
  · have hc : canResume u = false := Bool.not_eq_true _ ▸ fun h => by
      obtain ⟨-, -, -, -, hro, -⟩ := canResume_iff.mp h
      subst hu
      simp [readyOrHold, hrest] at hro
    rw [exec_go hr (by simp [hrest]) hu, resumeIfHeld_of_not hc, ite_self]

end Sys2Proof
end

