-- ==== Sys2Proof/Proofs/ExecutorWork.lean ====
section
/-! The executor's work: the start and resumption of an entry, the moves of FEED, SKIP and TEAR, and the heat gate: O32,
O33 and O35. -/

namespace Sys2Proof.LineExecutor

open Sys2Proof.Machine

variable {s u : State} {e : Entry} {rest : List Entry} {plan : Plan} {r : PassRec}

/-! ## The start of work (R37 to R39, R49) -/

/-- EXECUTOR_START: a held entry resumes, or the oldest entry starts, or nothing (R37, R49). -/
theorem exec_executorStart (h : Settled s) : exec .executorStart s =
    .next (if canResume s then resumeIfHeld s else if mayStart s then startWork s else s) :=
  h.acting fun s => if canResume s then resumeIfHeld s else if mayStart s then startWork s else s

/-- A QUEUED entry may start with no ACTIVE one, no hold, the engine READY or HOLD and room in the list (R37). -/
theorem mayStart_iff (hq : s.queue = e :: rest) : mayStart s = true ↔ s.exec.state = .idle ∧ e.active = false ∧
    holdsEmpty s = true ∧ readyOrHold s = true ∧ s.engine.resetPending = false ∧ s.completions.length ≤ 31 := by
  simp [mayStart, QueueAndSlots.hasActive_cons hq, hq, and_assoc, Config.completionMax, Nat.lt_succ_iff]

theorem canResume_cons (hq : s.queue = e :: rest) : canResume s = true ↔ s.exec.state = .idle ∧ e.active = true ∧
    holdsEmpty s = true ∧ readyOrHold s = true ∧ s.engine.resetPending = false := by
  simp [canResume, held, QueueAndSlots.hasActive_cons hq, and_assoc, and_left_comm]

/-- With no entry in the queue, or with a condition of R37 not met, EXECUTOR_START does nothing. -/
theorem exec_executorStart_nothing (h : Settled s) (hc : ¬canResume s = true) (hm : ¬mayStart s = true) :
    exec .executorStart s = .next s := by
  rw [exec_executorStart h, if_neg hc, if_neg hm]

theorem startWork_cons (hq : s.queue = e :: rest) :
    startWork s = if startChecks e.kind s then activate e rest s else addPaperOut s := by
  simp only [startWork, hq]

/-- The start checks fail with no form loaded, and for a LINE with fewer than 48 steps left (R38). -/
theorem startChecks_iff (k : EntryKind) (s : State) : startChecks k s = true ↔ s.paper.state = .loaded ∨
    (s.paper.state = .ending ∧ (48 ≤ s.paper.remaining ∨ ∀ f, k ≠ .line f)) := by
  unfold startChecks
  cases s.paper.state with
  | out => simp
  | loaded => simp
  | ending =>
    cases k with
    | line f =>
      have h : decide (Config.bandSteps ≤ s.paper.remaining) = true ↔ 48 ≤ s.paper.remaining := decide_eq_true_iff
      simp [h]
    | _ => simp

/-! ## The moves of FEED, SKIP and TEAR (R41, R144 to R149) -/

/-- With no presentation to retract an entry that is no LINE goes to its own move (R41, R148). -/
theorem prepare_other {k : EntryKind} (hp : k = .tear ∨ s.paper.tearPresented = false) (hk : ∀ f, k ≠ .line f) :
    prepare k s = beginMove k s := by
  refine (if_neg ?_).trans ?_
  · rcases hp with rfl | hp
    · simp [retracts]
    · simp [hp]
  · cases k with
    | line f => exact absurd rfl (hk f)
    | _ => rfl

/-- The first item of a list that meets a test. -/
theorem find?_of_split {α : Type} {p : α → Bool} {before after : List α} {x : α} (hb : ∀ z ∈ before, p z = false)
    (hx : p x = true) : (before ++ x :: after).find? p = some x :=
  List.find?_eq_some_iff_append.mpr ⟨hx, before, after, rfl, fun z hz => by simp [hb z hz]⟩

/-- A stop after the present y in this form ends a SKIP's search (R145). -/
theorem skipDistance_this {p : Paper} {n : Nat} {before after : List Stop} {x : Stop}
    (hs : p.active.stops.filter (fun x => decide (p.y < x.position)) = before ++ x :: after)
    (hb : ∀ z ∈ before, z.channels.getLsbD n = false) (hx : x.channels.getLsbD n = true) :
    skipDistance p n = some (x.position - p.y) := by
  have hf : p.active.stops.find? (fun x => decide (p.y < x.position) && x.carries n) = some x := by
    have h := find?_of_split (p := fun x => Stop.carries x n) (after := after) hb hx
    rw [← hs, List.find?_filter] at h
    simpa using h
  simp only [skipDistance, hf]

/-- With none there the search goes on from the top of the next form (R145, R146). -/
theorem skipDistance_next {p : Paper} {n : Nat}
    (hs : ∀ z ∈ p.active.stops, p.y < z.position → z.channels.getLsbD n = false) :
    skipDistance p n = ((p.next.getD p.active).stops.find? (fun x => x.carries n)).map
      fun x => p.active.length - p.y + x.position := by
  have hf : p.active.stops.find? (fun x => decide (p.y < x.position) && x.carries n) = none := by
    simpa [List.find?_eq_none, Stop.carries] using hs
  simp only [skipDistance, hf]
  cases (p.next.getD p.active).stops.find? (fun x => x.carries n) <;> rfl

/-- A reverse FEED is limited by REVLIM and the top of form (R144). -/
theorem moveFeed_reverse {d : Int} (hd : d < 0) {n : Nat} (hn : n = min d.natAbs (min (paramNat s .revlim) s.paper.y)) :
    moveFeed d s = if n = 0 then retire .clampedReverse s
      else startFeed (.feed (decide (n < d.natAbs))) .reverse n s := by
  subst hn
  exact (if_neg (by omega)).trans (if_neg (by omega))

/-- A TEAR presents on FANFOLD, with a tear feed to make and none standing (R147). -/
theorem moveTear_fanfold (h : param s .path = 0) :
    moveTear s = if s.paper.active.tear = 0 ∨ s.paper.tearPresented = true then retire .done s
      else startFeed .present .forward s.paper.active.tear
        { s with paper := { s.paper with tearPresented := true, tearDistance := 0 } } := by
  simp only [moveTear, path, if_pos h]

/-- A TEAR ejects on SHEET (R149). -/
theorem moveTear_sheet (h : param s .path ≠ 0) :
    moveTear s = startFeed (.eject s.paper.active.length) .forward 0 s := by
  simp only [moveTear, path, if_neg h]

/-! ## The heat gate (R40, R65, R84, R121, R122) -/

theorem gateAdmits_iff {h : Nat} : gateAdmits s h = true ↔
    s.heat.latch = false ∧ (s.heat.h + h ≤ paramNat s .ceiling ∨ s.heat.h ≤ paramNat s .resume) := by
  simp [gateAdmits]

/-- The first pass that is not done is the pass in progress (R73). -/
theorem passNow_of_split {before after : List PassRec} (hp : plan.passes = before ++ r :: after)
    (hb : ∀ q ∈ before, q.done = true) (hr : r.done = false) : passNow plan = some r := by
  rw [passNow, hp]
  exact find?_of_split (by simpa using hb) (by simp [hr])

theorem passNow_of_all_done (h : plan.passes.all (fun r => r.done) = true) : passNow plan = none := by
  simpa [passNow, List.find?_eq_none] using h

theorem nextWork_pass (hx : s.exec.plan = some plan) (hp : passNow plan = some r) : nextWork s = submit plan r s := by
  simp only [nextWork, hx, hp]

/-- With every pass done the feed-after is made, or the line retires (R40, R65). -/
theorem nextWork_done {f : LineFields} (hx : s.exec.plan = some plan) (hp : passNow plan = none)
    (hf : activeLine s = some f) (hu : u = { s with exec := { s.exec with state := .advance, resume := none } }) :
    nextWork s = if f.feedAfter = 0 then retire (if plan.clamped then .clampedPulse else .done) u
      else startFeed .feedAfter .forward f.feedAfter u := by
  subst hu
  simp only [nextWork, hx, hp, beginFeedAfter, hf]
  split
  · simp only [completeLine]
    rfl
  · rw [← hx]

theorem goPosition_at_start
    (h : s.carriage.position.getD 0 = (passProfile r plan.speed (paramNat s .accel)).origin) :
    goPosition plan r s = startPass plan r { s with heat := { s.heat with waiting := none } } := if_pos h

theorem goPosition_elsewhere
    (h : s.carriage.position.getD 0 ≠ (passProfile r plan.speed (paramNat s .accel)).origin) :
    goPosition plan r s = startMotion .reposition
      (if s.carriage.position.getD 0 < (passProfile r plan.speed (paramNat s .accel)).origin then .forward else .reverse)
      (some (slewProfile (s.carriage.position.getD 0) (passProfile r plan.speed (paramNat s .accel)).origin
        (paramNat s .slew) (paramNat s .accel)))
      { s with exec := { s.exec with state := .position }, heat := { s.heat with waiting := none } } := if_neg h

theorem retest_waiting {h : Nat} (hw : s.heat.waiting = some h) (hx : s.exec.plan = some plan)
    (hp : passNow plan = some r) : retest s = if gateAdmits s h then goPosition plan r s else s := by
  simp only [retest, hw, hx, hp]

theorem retest_none (hw : s.heat.waiting = none) : retest s = s := by
  simp only [retest, hw]

end Sys2Proof.LineExecutor

namespace Sys2Proof

open Machine LineExecutor

/-- Settles O32: R37's conditions by `mayStart_iff` and `canResume_cons`, R38's checks by `startChecks_iff`. -/
theorem executorStartsOrResumesWork : Obligations.ExecutorStartsOrResumesWork := by
  refine ⟨fun s h => ⟨fun hq => ?_, fun e rest hq => ⟨fun hn => ?_, fun hx hh hro hrp =>
    ⟨fun ha => ?_, fun ha hl => ⟨fun hp => ?_, fun hp => ?_⟩⟩⟩⟩, fun s e => ⟨fun hr => ?_, fun f hr hk => ?_, fun j hr => ?_,
    fun f hr hf h1 => ?_, fun f hr hf h0 => ?_, fun hr => ?_⟩⟩
  · exact exec_executorStart_nothing h (by simp [canResume, held, QueueAndSlots.hasActive_nil hq])
      (by simp [mayStart, hq])
  · refine exec_executorStart_nothing h (fun hc => ?_) (fun hm => ?_)
    · obtain ⟨hx, ha, hh, hro, hrp⟩ := (canResume_cons hq).mp hc
      simp [hx, ha, hh, hro, hrp] at hn
    · obtain ⟨hx, ha, hh, hro, hrp, hl⟩ := (mayStart_iff hq).mp hm
      simp [hx, ha, hh, hro, hrp, Nat.not_le.mpr (Nat.lt_succ_of_le hl)] at hn
  · have hc := (canResume_cons hq).mpr ⟨hx, ha, hh, hro, hrp⟩
    have he : activeEntry s = some e := by simp [activeEntry, hq, ha]
    rw [exec_executorStart h, if_pos hc, PrintQueue.resumeIfHeld_of he hc]
  · have hm := (mayStart_iff hq).mpr ⟨hx, ha, hh, hro, hrp, hl⟩
    have hc : ¬startChecks e.kind s = true := fun h => by
      rcases (startChecks_iff e.kind s).mp h with h | ⟨h, hk⟩
      · simp [h] at hp
      · rcases hp with hp | ⟨-, hp, f, hf⟩
        · simp [h] at hp
        · exact hk.elim (fun h => absurd hp (Nat.not_lt.mpr h)) (fun h => h f hf)
    rw [exec_executorStart h, if_neg (fun hc => by simp [((canResume_cons hq).mp hc).2.1] at ha), if_pos hm,
      startWork_cons hq, if_neg hc]
    rfl
  · have hm := (mayStart_iff hq).mpr ⟨hx, ha, hh, hro, hrp, hl⟩
    rw [exec_executorStart h, if_neg (fun hc => by simp [((canResume_cons hq).mp hc).2.1] at ha), if_pos hm,
      startWork_cons hq, if_pos ((startChecks_iff e.kind s).mpr hp)]
    rfl
  · simp only [resumeEntry, hr]
  · simp only [resumeEntry, hr, hk, planAndGo]
  · simp only [resumeEntry, hr]
  · simp only [resumeEntry, hr, beginFeedAfter, hf]
    exact if_neg (by omega)
  · simp only [resumeEntry, hr, beginFeedAfter, hf]
    exact if_pos h0
  · simp only [resumeEntry, hr]

/-- Settles O33: each move by its own rule. -/
theorem entriesMakeTheirMoves : Obligations.EntriesMakeTheirMoves := by
  rintro s u rfl
  refine ⟨fun k hp hk => prepare_other hp hk, fun d hd => if_pos hd, rfl, fun d hd n hn => ?_,
    fun n before after x hs hb hx => ?_, fun n hs next before after x hnext => ?_, fun h ht => ?_, fun h ht hn => ?_,
    fun h => ?_⟩
  · have hm : beginMove (.feed d) s = _ := moveFeed_reverse (s := { s with
      exec := { s.exec with state := .advance, resume := none } }) hd hn
    refine ⟨fun h0 => ?_, fun h1 hlt => ?_, fun h1 he => ?_⟩
    · rw [hm, if_pos h0]
    · rw [hm, if_neg (by omega), decide_eq_true hlt]
    · rw [hm, if_neg (by omega), decide_eq_false (by omega)]
  · simp only [beginMove, moveSkip, skipDistance_this hs hb hx]
  · have hd := skipDistance_next hs
    have hn : next = (s.paper.next.getD s.paper.active).stops := by
      rw [hnext]
      cases s.paper.next <;> rfl
    refine ⟨fun hb => ?_, fun hsplit hb hx => ?_⟩
    · have hf : (s.paper.next.getD s.paper.active).stops.find? (fun x => x.carries n) = none := by
        simpa [← hn, List.find?_eq_none, Stop.carries] using hb
      rw [hf] at hd
      simp only [beginMove, moveSkip, hd, Option.map_none]
    · have hf : (s.paper.next.getD s.paper.active).stops.find? (fun x => x.carries n) = some x := by
        rw [← hn, hsplit]
        exact find?_of_split hb hx
      rw [hf] at hd
      simp only [beginMove, moveSkip, hd, Option.map_some]
  · exact (moveTear_fanfold (s := { s with exec := { s.exec with state := .advance, resume := none } }) h).trans
      (if_pos ht)
  · exact (moveTear_fanfold (s := { s with exec := { s.exec with state := .advance, resume := none } }) h).trans
      (if_neg (by simp [ht, hn]))
  · exact moveTear_sheet (s := { s with exec := { s.exec with state := .advance, resume := none } }) h

/-- Settles O35: the pass in progress by `passNow_of_split`, the gate by `gateAdmits_iff`. -/
theorem passesGoThroughTheHeatGate : Obligations.PassesGoThroughTheHeatGate := by
  intro s plan hx
  refine ⟨fun before after r pf hsplit hb hr hpf => ?_, fun hall f hf u hu => ?_⟩
  · have hp := passNow_of_split hsplit hb hr
    have hn := nextWork_pass hx hp
    have admitted (hl : s.heat.latch = false)
        (hh : s.heat.h + r.heat ≤ paramNat s .ceiling ∨ s.heat.h ≤ paramNat s .resume) :
        nextWork s = goPosition plan r s := hn.trans (if_pos (gateAdmits_iff.mpr ⟨hl, hh⟩))
    have refused (h : s.heat.latch = true ∨ paramNat s .ceiling < s.heat.h + r.heat ∧ paramNat s .resume < s.heat.h) :
        ¬gateAdmits s r.heat = true := fun ha => by
      obtain ⟨hl, hh⟩ := gateAdmits_iff.mp ha
      rcases h with h | ⟨h, h'⟩
      · exact Bool.noConfusion (hl.symm.trans h)
      · omega
    subst hpf
    refine ⟨fun hl hh => ⟨fun he => ?_, fun he => ?_⟩, fun h => ?_, fun hw => ⟨fun hl hh => ?_, fun h => ?_⟩, retest_none⟩
    · rw [admitted hl hh, goPosition_at_start he]
    · rw [admitted hl hh, goPosition_elsewhere he]
      rfl
    · exact hn.trans (if_neg (refused h))
    · rw [admitted hl hh, retest_waiting hw hx hp, if_pos (gateAdmits_iff.mpr ⟨hl, hh⟩)]
    · rw [retest_waiting hw hx hp, if_neg (refused h)]
  · have hn := nextWork_done hx (passNow_of_all_done hall) hf hu
    refine ⟨fun h1 => ?_, fun h0 hc => ?_, fun h0 hc => ?_⟩
    · rw [hn, if_neg (by omega)]
    · rw [hn, if_pos h0, if_neg (by simp [hc])]
    · rw [hn, if_pos h0, if_pos hc]

end Sys2Proof
end

