-- ==== Sys2Proof/Proofs/PassMotions.lean ====
section
/-! The motions of a pass, and the rest of a controlled stop: O38 and O48. -/

namespace Sys2Proof.PassMotions

open Sys2Proof.Machine

variable {s u x : State} {pf : Profile} {plan : Plan} {r : PassRec} {before after : List PassRec} {m : FeedMove}

/-! ## Arrivals (R84, R85, R91, R94) -/

/-- A motion reaches its next point with the no-mark distance short of 96 ticks on the way (R94). -/
theorem legClear_iff : legClear s = true ↔ s.carriage.noMark + legLeft s < 96 := decide_eq_true_iff

theorem not_legClear (h : 96 ≤ s.carriage.noMark + legLeft s) : ¬legClear s = true :=
  fun hc => Nat.not_lt.mpr h (legClear_iff.mp hc)

section

variable (h : Settled s) (hpf : s.carriage.profile = some pf)

include h hpf

theorem exec_repositionEnd : exec .repositionEnd s = .next (match working s with
    | some w =>
      if s.exec.state = .position ∧ s.carriage.phase = .reposition ∧ legClear s = true then
        arriveAtStart w.2.1 w.2.2 (endMotion (reach pf.target s))
      else s
    | none => s) := by
  simp only [exec, execRepositionEnd, h.acting, hpf]
  cases working s <;> rfl

theorem exec_cruiseStart : exec .cruiseStart s = .next (if s.carriage.phase = .rampUp ∧ legClear s = true then
    setDue none (setPhase .cruise (reach pf.edgeIn s)) else s) := by
  simp only [exec, execCruiseStart, h.acting, hpf]

theorem exec_cruiseEnd : exec .cruiseEnd s = .next
    (if s.carriage.phase = .cruise ∧ s.fire.due = none ∧ s.fire.driving = 0#24 ∧ legClear s = true then
      setPhase .rampDown (reach pf.edgeOut s) else s) := by
  simp only [exec, execCruiseEnd, h.acting, hpf]

theorem exec_passEnd : exec .passEnd s = .next
    (if s.carriage.phase = .rampDown ∧ s.exec.state = .pass ∧ legClear s = true then afterPass (endPass pf s)
      else s) := by
  simp only [exec, execPassEnd, h.acting, hpf]

theorem exec_repositionEnd_nothing (hn : s.carriage.phase ≠ .reposition ∨ ¬legClear s = true) :
    exec .repositionEnd s = .next s := by
  rw [exec_repositionEnd h hpf]
  split
  · rw [if_neg fun ⟨_, hp, hc⟩ => hn.elim (fun hn => hn hp) (fun hn => hn hc)]
  · rfl

end

/-! ## The end of a pass (R53, R85) -/

/-- The pass in progress is the one that is marked done. -/
theorem markDone_of_split (hb : ∀ q ∈ before, q.done = true) (hr : r.done = false) :
    markDone (before ++ r :: after) = before ++ { r with done := true } :: after := by
  induction before with
  | nil => simp [markDone, hr]
  | cons q before ih =>
    have hq : q.done = true := hb q (List.mem_cons_self ..)
    simp [markDone, hq, ih fun z hz => hb z (List.mem_cons_of_mem _ hz)]

/-- The executor with the pass in progress done, the plan's other passes as they were. -/
theorem passDone_eq (hx : s.exec.plan = some plan) (hp : plan.passes = before ++ r :: after)
    (hb : ∀ q ∈ before, q.done = true) (hr : r.done = false) :
    s.exec.passDone =
      { s.exec with plan := some { plan with passes := before ++ { r with done := true } :: after } } := by
  simp only [Executor.passDone, hx, Option.map_some, hp, markDone_of_split hb hr]

theorem takeWhile_done (hb : ∀ q ∈ before, q.done = true) :
    ((before ++ { r with done := true } :: after).takeWhile (fun q => q.done)).length =
      before.length + 1 + (after.takeWhile (fun q => q.done)).length := by
  rw [List.takeWhile_append_of_pos hb]
  simp [Nat.add_assoc, Nat.add_comm 1]

theorem all_done (hb : ∀ q ∈ before, q.done = true) :
    (before ++ { r with done := true } :: after).all (fun q => q.done) = after.all (fun q => q.done) := by
  rw [List.all_append, List.all_eq_true.mpr (by simpa using hb), List.all_cons, Bool.true_and, Bool.true_and]

/-- Where a line held at the end of a pass continues (R47). -/
theorem afterPassResume_eq (hb : ∀ q ∈ before, q.done = true)
    (hx : u.exec.plan = some { plan with passes := before ++ { r with done := true } :: after }) :
    afterPassResume u = if after.all (fun q => q.done) then .feedAfter
      else .pass (before.length + 1 + (after.takeWhile (fun q => q.done)).length) := by
  simp only [afterPassResume, hx, PrintQueue.passNow_isSome, passIndex, takeWhile_done hb, all_done hb]
  cases after.all (fun q => q.done) <;> rfl

/-! ## The rest of a controlled stop (R48, R96, R138, R168) -/

/-- At rest an ERST that waits completes (R168). -/
theorem finishReset_eq (x : State) : finishReset x = if x.engine.resetPending then
    { x with
      carriage := ⟨none, .stopped, none, false, none, 0, 0, 0, 0, 0, 0, none⟩
      fire := { x.fire with
        planInhibit := if x.fire.driving = 0#24 then 0#24 else x.fire.planInhibit, due := none }
      engine := { x.engine with
        state := .unready, holdTimer := none, resetPending := false, outputs := x.engine.outputs &&& 0xBF#8 } }
    else x := by
  unfold finishReset
  split <;> rfl

theorem afterRest_failing (h : x.exec.failing = true) : afterRest x = finishReset (retire .failedHalted x) := by
  simp [afterRest, failActive, h]

theorem afterRest_sound (h : x.exec.failing = false) : afterRest x = finishReset x := by
  simp [afterRest, h]

theorem exec_stopAtRest_carriage (h : Settled s) (hp : s.carriage.phase = .stopping) :
    exec .stopAtRest s = .next (if legClear s = true then carriageRest s else s) := by
  simp only [exec, execStopAtRest, h.acting, if_pos hp]

theorem exec_stopAtRest_feed (h : Settled s) (hp : s.carriage.phase ≠ .stopping) (hm : s.paper.move = some m) :
    exec .stopAtRest s = .next (if m.stopping = true ∧ s.paper.jamDue = false then feedRest m s else s) := by
  simp only [exec, execStopAtRest, h.acting, if_neg hp, hm]

theorem exec_stopAtRest_none (h : Settled s) (hp : s.carriage.phase ≠ .stopping) (hm : s.paper.move = none) :
    exec .stopAtRest s = .next s := by
  simp only [exec, execStopAtRest, h.acting, if_neg hp, hm]

theorem isEject_iff {p : Purpose} : p.isEject = true ↔ ∃ k, p = .eject k := by
  cases p <;> simp [Purpose.isEject]

theorem isEject_false_iff {p : Purpose} : p.isEject = false ↔ ∀ k, p ≠ .eject k := by
  cases p <;> simp [Purpose.isEject]

theorem atPaperEnd_iff : atPaperEnd s = true ↔ s.paper.state = .ending ∧ s.paper.remaining = 0 := by
  simp [atPaperEnd]

/-- What a stopped feed move brings, an eject and the paper's end apart from the others (R138, R149, log 22). -/
theorem feedRest_eq (m : FeedMove) (s : State) : feedRest m s =
    if atPaperEnd s then
      if m.purpose.isEject then afterRest (endFeed { s with paper := s.paper.unload }) else s
    else afterRest (endFeed s) := by
  cases hp : m.purpose <;> simp only [feedRest, hp, Purpose.isEject, apply_ite afterRest] <;> rfl

/-- PAPER_END takes the paper's end of any move but an eject, the jam of the same step apart (R142). -/
theorem exec_paperEnd (h : Settled s) (hm : s.paper.move = some m) : exec .paperEnd s =
    .next (if m.purpose.isEject = false ∧ atPaperEnd s = true ∧ s.paper.jamDue = false then paperEnds s else s) := by
  simp only [exec, execPaperEnd, h.acting, hm]

end Sys2Proof.PassMotions

namespace Sys2Proof

open Machine PassMotions

/-- Settles O38: each arrival by its own equation; the end of a pass by `passDone_eq` and `afterPassResume_eq`. -/
theorem passMotionsFollowOneAnother : Obligations.PassMotionsFollowOneAnother := by
  intro s pf h hpf
  refine ⟨fun hc => ⟨fun hx hp slot plan r hw u hu => ?_, fun hp u hu v hv => ?_, fun hp hd hg u hu => ?_,
    fun hp hx plan before after r hplan hsplit hb hr u hu => ?_⟩, fun hl => ⟨?_, ?_, ?_, ?_⟩, fun hp => ?_, fun hp => ?_,
    fun hp => ?_, fun hp => ?_⟩
  · have arrives : exec .repositionEnd s = .next (arriveAtStart plan r u) := by
      rw [exec_repositionEnd h hpf, hw, hu]
      exact congrArg _ (if_pos ⟨hx, hp, legClear_iff.mpr hc⟩)
    have hexec : u.exec = s.exec := by simp [hu]
    have hholds : u.holds = s.holds := by simp [hu]
    refine ⟨fun hh => ?_, fun hh => ?_⟩
    · rw [arrives, arriveAtStart, if_neg (by rwa [hexec])]
    · rw [arrives, arriveAtStart, if_pos (by rwa [hexec]), holdAt, hexec, hholds]
      rfl
  · have hfire : u.fire = s.fire := by simp [hu]
    rw [exec_cruiseStart h hpf, if_pos ⟨hp, legClear_iff.mpr hc⟩, ← hu, hv, ← hfire]
    rfl
  · rw [exec_cruiseEnd h hpf, if_pos ⟨hp, hd, hg, legClear_iff.mpr hc⟩, ← hu]
    rfl
  · have ends : exec .passEnd s = .next (afterPass u) := by
      rw [exec_passEnd h hpf, if_pos ⟨hp, hx, legClear_iff.mpr hc⟩, endPass, passDone_eq hplan hsplit hb hr, hu]
    have hexec : u.exec =
        { s.exec with plan := some { plan with passes := before ++ { r with done := true } :: after } } := by simp [hu]
    have hholds : u.holds = s.holds := by simp [hu]
    refine ⟨fun hh => ?_, fun hh => ?_⟩
    · rw [ends, afterPass, if_neg (by rwa [hexec])]
    · rw [ends, afterPass, if_pos (by rwa [hexec]), holdAt, afterPassResume_eq hb (by rw [hexec]), hholds]
  · exact exec_repositionEnd_nothing h hpf (.inr (not_legClear hl))
  · rw [exec_cruiseStart h hpf, if_neg fun hc => not_legClear hl hc.2]
  · rw [exec_cruiseEnd h hpf, if_neg fun ⟨_, _, _, hc⟩ => not_legClear hl hc]
  · rw [exec_passEnd h hpf, if_neg fun ⟨_, _, hc⟩ => not_legClear hl hc]
  · exact exec_repositionEnd_nothing h hpf (.inl hp)
  · rw [exec_cruiseStart h hpf, if_neg fun hc => hp hc.1]
  · rw [exec_cruiseEnd h hpf, if_neg fun ⟨h1, h2, h3, _⟩ =>
      hp.elim (fun n => n h1) fun hp => hp.elim (fun n => n h2) fun n => n h3]
  · rw [exec_passEnd h hpf, if_neg fun hc => hp hc.1]

/-- Settles O48: rest is `afterRest` of the carriage or of the feed move, and `finishReset` is the waiting ERST's end. -/
theorem controlledStopComesToRest : Obligations.ControlledStopComesToRest := by
  intro s h
  refine ⟨fun hp hm => ?_, fun hp hl => ?_, fun rest hrest => ?_⟩
  · cases hmove : s.paper.move with
    | none => exact exec_stopAtRest_none h hp hmove
    | some m =>
      rw [exec_stopAtRest_feed h hp hmove, if_neg (by simp [hm m hmove])]
  · rw [exec_stopAtRest_carriage h hp, if_neg (not_legClear hl)]
  have hrest : rest = finishReset := funext fun x => (hrest x).trans (finishReset_eq x).symm
  subst hrest
  refine ⟨fun pf u hp hc hpf hu => ?_, fun m u hm hk hj hst hrem hu => ?_, fun m hp hm hs => ⟨fun hj => ?_,
    fun hj hst hrem hk => ?_, fun ended u hended hj hu => ?_⟩⟩
  · have hx : exec .stopAtRest s = .next (afterRest u) := by
      rw [exec_stopAtRest_carriage h hp, if_pos (legClear_iff.mpr hc), carriageRest, hpf, hu]
    have hf : u.exec = s.exec := by simp [hu]
    exact ⟨fun hfail => by rw [hx, afterRest_failing (by rwa [hf])],
      fun hfail => by rw [hx, afterRest_sound (by rwa [hf])]⟩
  · rw [exec_paperEnd h hm, if_pos ⟨isEject_false_iff.mpr hk, atPaperEnd_iff.mpr ⟨hst, hrem⟩, hj⟩, hu]
    rfl
  · rw [exec_stopAtRest_feed h hp hm, if_neg (by simp [hj])]
  · rw [exec_stopAtRest_feed h hp hm, if_pos ⟨hs, hj⟩, feedRest_eq, if_pos (atPaperEnd_iff.mpr ⟨hst, hrem⟩),
      if_neg (by simpa using isEject_false_iff.mpr hk)]
  · have hx : exec .stopAtRest s = .next (afterRest u) := by
      rw [exec_stopAtRest_feed h hp hm, if_pos ⟨hs, hj⟩, feedRest_eq, hu]
      rcases hended with ⟨rfl, hst⟩ | ⟨rfl, hst, hrem, hk⟩
      · rw [if_neg fun he => by simp [atPaperEnd_iff.mp he] at hst]
        rfl
      · rw [if_pos (atPaperEnd_iff.mpr ⟨hst, hrem⟩), if_pos (isEject_iff.mpr hk)]
        rfl
    have hf : u.exec = s.exec := by rcases hended with ⟨rfl, -⟩ | ⟨rfl, -⟩ <;> rw [hu]
    exact ⟨fun hfail => by rw [hx, afterRest_failing (by rwa [hf])],
      fun hfail => by rw [hx, afterRest_sound (by rwa [hf])]⟩

end Sys2Proof
end

