-- ==== Sys2Proof/Proofs/FeedMoveEnds.lean ====
section
/-! The ends of feed moves by their purpose, the paper's end and the end of an eject: O47. -/

namespace Sys2Proof.FeedMoveEnds

open Sys2Proof.Machine Sys2Proof.PassMotions

variable {s u : State} {m : FeedMove} {o : EntryOutcome} {e : Entry}

/-! ## A due jam and the ends of moves (R142, R149, R151) -/

/-- The state with a jam due or not. -/
def setJam (b : Bool) (s : State) : State := { s with paper := { s.paper with jamDue := b } }

theorem retire_setJam (b : Bool) (o : EntryOutcome) (s : State) : retire o (setJam b s) = setJam b (retire o s) := by
  cases hq : s.queue with
  | nil =>
    have hj : (setJam b s).queue = [] := hq
    simp only [retire, hq, hj]
  | cons e rest =>
    have hj : (setJam b s).queue = e :: rest := hq
    simp only [retire, hq, hj, apply_ite (setJam b)]
    cases hk : e.kind <;> simp only [countLine, hk] <;> rfl

theorem failActive_setJam (b : Bool) (o : EntryOutcome) (s : State) :
    failActive o (setJam b s) = setJam b (failActive o s) := retire_setJam b _ s

theorem finishReset_setJam (b : Bool) (s : State) : finishReset (setJam b s) = setJam b (finishReset s) := by
  unfold finishReset
  rw [apply_ite (setJam b)]
  rfl

theorem paperEnds_setJam (b : Bool) (s : State) : paperEnds (setJam b s) = setJam b (paperEnds s) := by
  unfold paperEnds
  rw [← finishReset_setJam, ← failActive_setJam]
  rfl

/-- A due jam does not touch the end of a move, nor the end of a move the jam (log 39). -/
theorem settleFeed_setJam (b : Bool) (s : State) : settleFeed (setJam b s) = setJam b (settleFeed s) := by
  cases hm : s.paper.move with
  | none =>
    have hj : (setJam b s).paper.move = none := hm
    simp only [settleFeed, hm, hj]
  | some m =>
    have hj : (setJam b s).paper.move = some m := hm
    simp only [settleFeed, hm, hj, apply_ite (setJam b), ← paperEnds_setJam, ← retire_setJam]
    rfl

theorem over_iff {st : PaperState} : m.over st = true ↔
    ∃ k, m.purpose = .eject k ∧ (m.ended = true ∨ (k ≤ m.made ∧ st = .loaded)) := by
  unfold FeedMove.over
  cases m.purpose <;> simp

/-! ## The rows of the ends -/

section

variable (h : Settled s) (hm : s.paper.move = some m)

include h hm

theorem exec_ejectFail : exec .ejectFail s =
    .next (if m.over s.paper.state = true ∧ s.paper.jamDue = false ∧ m.stopping = false then
      retire .failedEject (endFeed s) else s) := by
  simp only [exec, execEjectFail, h.acting, hm]

theorem exec_feedMoveEnd : exec .feedMoveEnd s =
    .next (if moveDone m s = true then
      moveComplete m.purpose (endFeed (if m.purpose.isEject then { s with paper := s.paper.unload } else s)) else s) := by
  simp only [exec, execFeedMoveEnd, h.acting, hm]

theorem exec_preloadComplete {n : Nat} (hp : m.purpose = .preload n) : exec .preloadComplete s =
    .next (if m.stopping = true then s
      else loadFeed n { endFeed s with motorStep := some ⟨false, true, .forward⟩ }) := by
  simp only [exec, execPreloadComplete, h.acting, hm, hp]

theorem exec_preloadComplete_other (hp : ∀ n, m.purpose ≠ .preload n) : exec .preloadComplete s = .next s := by
  simp only [exec, execPreloadComplete, h.acting, hm]
  split
  · next n e => exact absurd e (hp n)
  all_goals rfl

end

/-- A move in a controlled stop is not done, nor one that a jam waits for (R137, R138). -/
theorem moveDone_iff (m : FeedMove) (s : State) : moveDone m s = true ↔
    m.stopping = false ∧ s.paper.jamDue = false ∧ (match m.purpose with
      | .preload _ => False
      | .eject _ => atPaperEnd s = true
      | .load | .retract | .perfSkip | .feed _ | .skip | .present | .feedAfter =>
        m.left = 0 ∧ atPaperEnd s = false) := by
  unfold moveDone
  cases m.purpose <;> simp [and_assoc]

/-- An eject is done when its paper has left (R149). -/
theorem moveDone_eject {k : Nat} (hp : m.purpose = .eject k) :
    moveDone m s = true ↔ m.stopping = false ∧ s.paper.jamDue = false ∧ atPaperEnd s = true := by
  rw [moveDone_iff, hp]

/-- A move that is done, an eject apart, has made its last step short of the paper's end. -/
theorem left_of_moveDone (hk : ∀ k, m.purpose ≠ .eject k) (h : moveDone m s = true) : m.left = 0 := by
  obtain ⟨-, -, h⟩ := (moveDone_iff m s).mp h
  cases hp : m.purpose <;> rw [hp] at h
  case preload => exact h.elim
  case eject k => exact absurd hp (hk k)
  all_goals exact h.1

/-- Every move but an eject and the preload ends with its last step made and paper left (R137). -/
theorem exec_feedMoveEnd_done (h : Settled s) (hm : s.paper.move = some m) (hs : m.stopping = false)
    (hj : s.paper.jamDue = false) (hl : m.left = 0) (he : ¬atPaperEnd s = true) (hk : ∀ k, m.purpose ≠ .eject k)
    (hp : ∀ n, m.purpose ≠ .preload n) : exec .feedMoveEnd s = .next (moveComplete m.purpose (endFeed s)) := by
  have hd : moveDone m s = true := by
    refine (moveDone_iff m s).mpr ⟨hs, hj, ?_⟩
    cases hu : m.purpose
    case preload n => exact absurd hu (hp n)
    case eject k => exact absurd hu (hk k)
    all_goals exact ⟨hl, Bool.not_eq_true _ ▸ he⟩
  rw [exec_feedMoveEnd h hm, if_pos hd, if_neg (by simp [isEject_false_iff.mpr hk])]

/-- An eject whose paper has left unloads and is done (R149). -/
theorem exec_feedMoveEnd_eject (h : Settled s) (hm : s.paper.move = some m) {k : Nat} (hp : m.purpose = .eject k) :
    exec .feedMoveEnd s =
      .next (if moveDone m s = true then retire .done (endFeed { s with paper := s.paper.unload }) else s) := by
  simp only [exec_feedMoveEnd h hm, hp, moveComplete, Purpose.isEject, if_true]

/-! ## What an end is, before it is taken (R142, R149, log 39) -/

theorem settleFeed_none (hm : s.paper.move = none) : settleFeed s = s := by
  simp only [settleFeed, hm]

theorem settleFeed_paperEnd (hm : s.paper.move = some m) (he : atPaperEnd s = true) (hk : m.purpose.isEject = false) :
    settleFeed s = paperEnds s := by
  simp [settleFeed, hm, he, hk]

theorem settleFeed_eject (hm : s.paper.move = some m) (he : atPaperEnd s = true) (hk : m.purpose.isEject = true) :
    settleFeed s = if m.stopping = true then { s with paper := s.paper.unload }
      else retire .done (endFeed { s with paper := s.paper.unload }) := by
  simp [settleFeed, hm, he, hk]

theorem settleFeed_short (hm : s.paper.move = some m) (he : ¬atPaperEnd s = true) :
    settleFeed s = if m.over s.paper.state = true ∧ m.stopping = false then retire .failedEject (endFeed s) else s := by
  simp [settleFeed, hm, he]

/-- With no ERST waiting a paper end fails the entry and no more (R142). -/
theorem paperEnds_of_no_reset (hr : s.engine.resetPending = false) :
    paperEnds s = failActive .failedPaperOut (addPaperOut (endFeed { s with paper := s.paper.unload })) := by
  refine if_neg ?_
  simp [hr]

/-- A parameter is read from the parameters alone. -/
theorem paramNat_of_params (h : u.params = s.params) {id : ParamId} : paramNat u id = paramNat s id := by
  rw [paramNat, param_eq h id, paramNat]

/-! ## Staging feeds (R47, R148, R150) -/

/-- A pending HALT in PASS mode holds the entry at the end of a staging feed (R47). -/
theorem afterStaging_held (next : EntryKind → State → State) (ha : activeEntry s = some e)
    (hh : s.exec.pendingHalt = some .pass) : afterStaging next s = holdAt (stagingResume e.kind) s := by
  simp only [afterStaging, ha]
  exact if_pos hh

theorem afterStaging_on (next : EntryKind → State → State) (ha : activeEntry s = some e)
    (hh : s.exec.pendingHalt ≠ some .pass) : afterStaging next s = next e.kind s := by
  simp only [afterStaging, ha]
  exact if_neg hh

/-- With the presentation retracted, preparing an entry again is what follows the retract (R148). -/
theorem prepare_of_retracted {k : EntryKind} (hp : s.paper.tearPresented = false) (hx : s.exec.state = .prepare)
    (hr : s.exec.resume = none) : prepare k s = afterRetract k s := by
  have hs : { s with exec := { s.exec with state := .prepare, resume := none } } = s := by
    rw [← hx, ← hr]
  unfold prepare
  rw [hs]
  exact if_neg (by simp [hp])

end Sys2Proof.FeedMoveEnds

namespace Sys2Proof

open Machine PassMotions FeedMoveEnds

/-- Settles O47: each row by its equation, `settleFeed` by the end that is due. -/
theorem feedMovesEndByTheirPurpose : Obligations.FeedMovesEndByTheirPurpose := by
  refine ⟨fun s => settleFeed_none, fun s due => settleFeed_setJam due s, fun m st => over_iff,
    fun s u m unloaded h hm hj hu hunl => ?_⟩
  have hu : u = endFeed s := hu
  have hgone : endFeed { s with paper := s.paper.unload } = { u with paper := unloaded } := by
    rw [hunl, hu]
    rfl
  have ends (hst : s.paper.state = .ending) (hrem : s.paper.remaining = 0) : atPaperEnd s = true :=
    atPaperEnd_iff.mpr ⟨hst, hrem⟩
  have short (hn : s.paper.state ≠ .ending ∨ s.paper.remaining ≠ 0) : ¬atPaperEnd s = true := fun he => by
    simp [atPaperEnd_iff.mp he] at hn
  refine ⟨fun hs => ⟨?_, ?_, ?_⟩, fun hk hst hrem hr => ?_, fun hn => ?_, fun hst hrem => ⟨fun hk => ?_, fun hs hk => ?_,
    fun hs hk => ?_⟩, fun hn => ⟨fun ho hs => ?_, fun hno => ?_⟩, fun hs k hp => ⟨fun ho => ?_, fun hne ho => ?_,
    fun hst hrem => ?_, fun hn => ?_⟩, fun hl hk => ?_, fun hs hl hn => ?_, fun hs n hp v hv ready hready => ?_,
    exec_preloadComplete_other h hm, rfl⟩
  · rw [exec_ejectFail h hm, if_neg (by simp [hs])]
  · rw [exec_feedMoveEnd h hm, if_neg (by simp [moveDone_iff, hs])]
  · by_cases hp : ∃ n, m.purpose = .preload n
    · obtain ⟨n, hp⟩ := hp
      rw [exec_preloadComplete h hm hp, if_pos hs]
    · exact exec_preloadComplete_other h hm (not_exists.mp hp)
  · rw [exec_paperEnd h hm, if_pos ⟨isEject_false_iff.mpr hk, ends hst hrem, hj⟩, paperEnds_of_no_reset hr, hgone, hu]
    rfl
  · rw [exec_paperEnd h hm, if_neg fun he => short hn he.2.1]
  · rw [exec_paperEnd h hm, if_pos ⟨isEject_false_iff.mpr hk, ends hst hrem, hj⟩,
      settleFeed_paperEnd hm (ends hst hrem) (isEject_false_iff.mpr hk)]
  · rw [settleFeed_eject hm (ends hst hrem) (isEject_iff.mpr hk), if_neg (by simp [hs])]
    obtain ⟨k, hp⟩ := hk
    rw [exec_feedMoveEnd_eject h hm hp, if_pos ((moveDone_eject hp).mpr ⟨hs, hj, ends hst hrem⟩)]
  · rw [settleFeed_eject hm (ends hst hrem) (isEject_iff.mpr hk), if_pos hs, hunl, hu, ← hm]
    rfl
  · rw [exec_ejectFail h hm, if_pos ⟨ho, hj, hs⟩, settleFeed_short hm (short hn), if_pos ⟨ho, hs⟩]
  · rw [settleFeed_short hm (short hn), if_neg fun ⟨ho, hs⟩ => by simp [ho, hs] at hno]
  · rw [exec_ejectFail h hm, if_pos ⟨over_iff.mpr ⟨k, hp, ho⟩, hj, hs⟩, hu]
  · refine (exec_ejectFail h hm).trans (congrArg _ (if_neg fun ⟨hover, _⟩ => ?_))
    obtain ⟨k', hp', hk'⟩ := over_iff.mp hover
    obtain rfl : k = k' := Purpose.eject.inj (hp.symm.trans hp')
    rcases hk' with he | ⟨hle, hst⟩
    · simp [hne] at he
    · exact ho.elim (Nat.not_lt.mpr hle) fun hn => hn hst
  · rw [exec_feedMoveEnd_eject h hm hp, if_pos ((moveDone_eject hp).mpr ⟨hs, hj, ends hst hrem⟩), hgone]
  · rw [exec_feedMoveEnd_eject h hm hp, if_neg fun hd => short hn ((moveDone_eject hp).mp hd).2.2]
  · rw [exec_feedMoveEnd h hm, if_neg fun hd => by simp [left_of_moveDone hk hd] at hl]
  · have done (hk : ∀ k, m.purpose ≠ .eject k) (hp : ∀ n, m.purpose ≠ .preload n) :
        exec .feedMoveEnd s = .next (moveComplete m.purpose u) :=
      hu ▸ exec_feedMoveEnd_done h hm hs hj hl (short hn) hk hp
    refine ⟨fun b hp => ?_, fun hp => ?_, fun hp => ?_, fun hp hsens v hv => ?_, fun hp hsens v hv => ?_,
      fun hp e he => ⟨fun hh => ?_, fun hh ht hx hr hline => ?_⟩⟩
    · rw [done (by simp [hp]) (by simp [hp]), hp]
      rfl
    · rcases hp with hp | hp <;> rw [done (by simp [hp]) (by simp [hp]), hp] <;> rfl
    · rw [done (by simp [hp]) (by simp [hp]), hp, hu]
      rfl
    · have hsens' : sensorPresent u = true := by rw [hu]; exact hsens
      rw [done (by simp [hp]) (by simp [hp]), hp, moveComplete, finishLoad, if_pos hsens', ← hv, finishHoming]
      rw [paramNat_of_params (s := s) (by simp [hv, hu])]
    · have hsens' : ¬sensorPresent u = true := by rw [hu]; exact Bool.not_eq_true _ ▸ hsens
      rw [done (by simp [hp]) (by simp [hp]), hp, moveComplete, finishLoad, if_neg hsens', ← hv, finishHoming]
      rw [paramNat_of_params (s := s) (by simp [hv, hu])]
    · have he' : activeEntry u = some e := by rw [hu]; exact he
      have hh' : u.exec.pendingHalt = some .pass := by rw [hu]; exact hh
      have held (next : EntryKind → State → State) : afterStaging next u = holdAt (stagingResume e.kind) u :=
        afterStaging_held next he' hh'
      rcases hp with hp | hp <;> rw [done (by simp [hp]) (by simp [hp]), hp, moveComplete, held, hu] <;> rfl
    · have he' : activeEntry u = some e := by rw [hu]; exact he
      have hh' : u.exec.pendingHalt ≠ some .pass := by rw [hu]; exact hh
      rw [prepare_of_retracted (by rw [hu]; exact ht) (by rw [hu]; exact hx) (by rw [hu]; exact hr)]
      rcases hp with hp | hp <;>
        rw [done (by simp [hp]) (by simp [hp]), hp, moveComplete, afterStaging_on _ he' hh']
      obtain ⟨f, hf⟩ := hline hp
      rw [hf]
      rfl
  · have hload : exec .preloadComplete s = .next (loadFeed n v) := by
      rw [exec_preloadComplete h hm hp, if_neg (by simp [hs]), hv, hu]
    have hfinish : ready = finishHoming := funext hready
    refine ⟨fun h1 => ?_, fun h0 => ?_⟩
    · rw [hload, loadFeed, if_neg (by omega)]
    · have hsens : sensorPresent v = sensorPresent s := by rw [hv, hu]; rfl
      rw [hload, loadFeed, if_pos h0, finishLoad, hsens, hfinish]

end Sys2Proof
end

