-- ==== Sys2Proof/Proofs/StatReply.lean ====
section
/-! The STAT reply, byte by byte: O9. -/

namespace Sys2Proof.StatReply

open Sys2Proof.Machine

variable {s : State} {p rest : List Byte} {i : Nat}

/-! ## Fields of more than one byte, low byte first -/

/-- A byte above the k low bits, and those bits, are the low bits of the field. -/
theorem extract_append {n : Nat} (w : BitVec n) (k : Nat) :
    w.extractLsb' k 8 ++ w.extractLsb' 0 k = w.extractLsb' 0 (8 + k) := by
  ext j hj
  simp only [BitVec.getElem_append, BitVec.getElem_extractLsb']
  split
  · rfl
  · congr 1
    omega

/-- The bytes from an offset on are those of the list that begins there. -/
theorem byteAt_of_drop {bytes : List Byte} (h : p.drop i = bytes) (k : Nat) : byteAt p (i + k) = byteAt bytes k := by
  simp only [byteAt, List.getD_eq_getElem?_getD, ← h, List.getElem?_drop]

theorem word16At_of_drop {w : BitVec 16} (h : p.drop i = le16 w ++ rest) : word16At p i = w := by
  rw [word16At, byteAt_of_drop h 1, show byteAt p i = _ from byteAt_of_drop h 0]
  exact (extract_append w 8).trans BitVec.extractLsb'_eq_self

theorem word24At_of_drop {w : BitVec 24} (h : p.drop i = le24 w ++ rest) : word24At p i = w := by
  rw [word24At, byteAt_of_drop h 2, byteAt_of_drop h 1, show byteAt p i = _ from byteAt_of_drop h 0]
  exact (congrArg _ (extract_append w 8)).trans ((extract_append w 16).trans BitVec.extractLsb'_eq_self)

theorem word32At_of_drop {w : BitVec 32} (h : p.drop i = le32 w ++ rest) : word32At p i = w := by
  rw [word32At, byteAt_of_drop h 3, byteAt_of_drop h 2, byteAt_of_drop h 1,
    show byteAt p i = _ from byteAt_of_drop h 0]
  exact (congrArg (fun x : BitVec 24 => w.extractLsb' 24 8 ++ x)
    ((congrArg _ (extract_append w 8)).trans (extract_append w 16))).trans
      ((extract_append w 24).trans BitVec.extractLsb'_eq_self)

/-! ## The reply in the order of section 11.13 -/

theorem slotCodes_eq (s : State) : (List.finRange 8).map (fun i => s.slots[i].state.code) =
    [s.slots[(0 : Fin 8)].state.code, s.slots[(1 : Fin 8)].state.code, s.slots[(2 : Fin 8)].state.code,
      s.slots[(3 : Fin 8)].state.code, s.slots[(4 : Fin 8)].state.code, s.slots[(5 : Fin 8)].state.code,
      s.slots[(6 : Fin 8)].state.code, s.slots[(7 : Fin 8)].state.code] := rfl

/-- The reply from the steps remaining on. -/
def statTail (s : State) : List Byte :=
  le16 (BitVec.ofNat 16 s.paper.remaining) ++ (le16 (BitVec.ofNat 16 s.paper.y) ++ (le16 s.paper.form ++
    (flags2 s.paper.tearPresented s.paper.next.isSome :: boolByte s.carriage.homed ::
      (le32 (BitVec.ofInt 32 (if s.carriage.homed then s.carriage.position.getD 0 else 0)) ++
        (BitVec.ofInt 8 (correction s .forward) :: BitVec.ofInt 8 (correction s .reverse) ::
          (le32 (BitVec.ofNat 32 s.heat.h) ++
            (s.heat.band.code :: flags2 s.heat.latch s.fire.pendingTable.isSome ::
              (le24 s.fire.inhibit ++ (le24 s.fire.failed ++
                [(s.engine.firstFault.map (fun f => causeCode f.cause)).getD 0#8, s.engine.further.setWidth 8,
                  s.engine.overlayMode.code, s.engine.outputs])))))))))

theorem statReply_eq (s : State) : statReply s =
    Result.ok.code :: s.engine.state.code :: s.exec.state.code :: blockCode (blockingReason s) ::
    flags2 s.holds.halted s.holds.paperOut :: byteOf s.queue.length :: boolByte (hasActive s) ::
    ((activeEntry s).map (fun e => e.tag)).getD 0#8 :: byteOf s.completions.length ::
    s.slots[(0 : Fin 8)].state.code :: s.slots[(1 : Fin 8)].state.code :: s.slots[(2 : Fin 8)].state.code ::
    s.slots[(3 : Fin 8)].state.code :: s.slots[(4 : Fin 8)].state.code :: s.slots[(5 : Fin 8)].state.code ::
    s.slots[(6 : Fin 8)].state.code :: s.slots[(7 : Fin 8)].state.code :: (path s).code :: s.paper.state.code ::
    statTail s := by
  rw [statReply, slotCodes_eq]
  simp [statTail, natLe16, natLe32, intLe32]

/-! ## Flag bytes -/

theorem flags2_zero (a b : Bool) : (flags2 a b).getLsbD 0 = a := by
  cases a <;> cases b <;> rfl

theorem flags2_one (a b : Bool) : (flags2 a b).getLsbD 1 = b := by
  cases a <;> cases b <;> rfl

theorem boolByte_zero (a : Bool) : (boolByte a).getLsbD 0 = a := by
  cases a <;> rfl

/-! ## The blocking reason (R37, logs 16 and 37) -/

theorem blockingReason_working (h : s.exec.state ≠ .idle) : blockingReason s = none := if_pos h

theorem blockingReason_empty (hx : s.exec.state = .idle) (hq : s.queue = []) : blockingReason s = some .empty :=
  (if_neg (not_not.mpr hx)).trans (if_pos hq)

/-- With an entry in the queue the first of R37's further reasons that applies is shown. -/
theorem blockingReason_entry (hx : s.exec.state = .idle) (hq : s.queue ≠ []) : blockingReason s =
    if s.holds.halted then some .held
    else if s.holds.paperOut then some .paper
    else if !readyOrHold s || s.engine.resetPending then some .engine
    else if !hasActive s && decide (32 ≤ s.completions.length) then some .listFull
    else none :=
  (if_neg (not_not.mpr hx)).trans (if_neg hq)

theorem blockingReason_paper (hx : s.exec.state = .idle) (hq : s.queue ≠ []) (hh : s.holds.halted = false)
    (hp : s.holds.paperOut = true) : blockingReason s = some .paper :=
  (blockingReason_entry hx hq).trans ((if_neg (by simp [hh])).trans (if_pos hp))

/-- With no hold the engine comes next, then the completion list (R37, log 37). -/
theorem blockingReason_unheld (hx : s.exec.state = .idle) (hq : s.queue ≠ []) (hh : s.holds.halted = false)
    (hp : s.holds.paperOut = false) : blockingReason s =
      if !readyOrHold s || s.engine.resetPending then some .engine
      else if !hasActive s && decide (32 ≤ s.completions.length) then some .listFull
      else none :=
  (blockingReason_entry hx hq).trans ((if_neg (by simp [hh])).trans (if_neg (by simp [hp])))

end Sys2Proof.StatReply

namespace Sys2Proof

open Machine StatReply

/-- Settles O9: the reply read at each place of section 11.13, the blocking reason by R37's order. -/
theorem statReportsTheState : Obligations.StatReportsTheState := by
  intro tag s hr
  refine ⟨statReply s, HeadTables.exec_replied hr rfl rfl rfl rfl, ?_⟩
  rw [statReply_eq]
  have able (he : s.engine.state = .ready ∨ s.engine.state = .hold) (hrp : s.engine.resetPending = false) :
      ¬(!readyOrHold s || s.engine.resetPending) = true := by
    simp [MotionAndTrips.readyOrHold_iff.mpr he, hrp]
  refine ⟨rfl, rfl, rfl, rfl, flags2_zero .., flags2_one .., rfl,
    boolByte_zero _, fun e he => ?_, fun he => ?_, rfl, fun i => ?_, ?_, rfl, word16At_of_drop rfl, word16At_of_drop rfl,
    word16At_of_drop rfl, flags2_zero .., flags2_one .., boolByte_zero _, fun hh => ?_, fun x hh hx => ?_, rfl, rfl,
    word32At_of_drop rfl, rfl, flags2_zero .., flags2_one .., word24At_of_drop rfl, word24At_of_drop rfl, ?_, rfl, rfl,
    rfl, fun hx => ?_, fun hx => ⟨fun hq => ?_, fun hq => ⟨fun hh => ?_, fun hh hp => ?_, fun hh hp => ⟨fun hn => ?_,
      fun he hrp => ⟨fun ha hl => ?_, fun hl => ?_⟩⟩⟩⟩⟩
  · change ((activeEntry s).map (fun e => e.tag)).getD 0#8 = e.tag
    rw [he]
    rfl
  · change ((activeEntry s).map (fun e => e.tag)).getD 0#8 = 0#8
    rw [he]
    rfl
  · fin_cases i <;> rfl
  · change (path s).code = _
    unfold path
    split <;> rfl
  · refine word32At_of_drop (w := 0#32) (rest := (statTail s).drop 12) ?_
    change (statTail s).drop 8 = _
    rw [statTail, hh]
    rfl
  · refine word32At_of_drop (rest := (statTail s).drop 12) ?_
    change (statTail s).drop 8 = _
    rw [statTail, hh, hx]
    rfl
  · change (s.engine.firstFault.map (fun f => causeCode f.cause)).getD 0#8 = _
    cases s.engine.firstFault <;> rfl
  · exact congrArg blockCode (blockingReason_working hx)
  · exact congrArg blockCode (blockingReason_empty hx hq)
  · exact congrArg blockCode ((blockingReason_entry hx hq).trans (if_pos hh))
  · exact congrArg blockCode (blockingReason_paper hx hq hh hp)
  · refine congrArg blockCode ((blockingReason_unheld hx hq hh hp).trans (if_pos ?_))
    rcases hn with ⟨hready, hhold⟩ | hrp
    · have hro : ¬readyOrHold s = true := fun h => (MotionAndTrips.readyOrHold_iff.mp h).elim hready hhold
      simp [hro]
    · simp [hrp]
  · exact congrArg blockCode ((blockingReason_unheld hx hq hh hp).trans
      ((if_neg (able he hrp)).trans (if_pos (by simp [ha, hl]))))
  · refine congrArg blockCode ((blockingReason_unheld hx hq hh hp).trans ((if_neg (able he hrp)).trans (if_neg ?_)))
    rcases hl with ha | hl
    · simp [ha]
    · simp [Nat.not_le.mpr hl]

end Sys2Proof
end

