-- ==== Sys2Proof/Proofs/LineStaging.lean ====
section
/-! PREPARE of an entry: the retract and the perforation skip: O34. -/

namespace Sys2Proof.LinePlanning

open Sys2Proof.Machine

variable {s : State} {k : EntryKind} {f : LineFields}

/-! ## The perforation skip and the retract (R148, R150) -/

/-- On FANFOLD, above the skip-top, the skip runs to it (R150). -/
theorem perfSkipSteps_top (hp : param s .path = 0) (hy : s.paper.y < s.paper.active.skipTop) :
    perfSkipSteps s = s.paper.active.skipTop - s.paper.y := by
  simp [perfSkipSteps, path, hp, hy]

/-- On FANFOLD, below the skip-top where the band would not fit, the skip runs to the next top of form (R150). -/
theorem perfSkipSteps_bottom (hp : param s .path = 0) (ht : s.paper.active.skipTop ≤ s.paper.y)
    (hb : s.paper.active.length < s.paper.y + 48 + s.paper.active.skipBottom) :
    perfSkipSteps s = s.paper.active.length - s.paper.y := by
  simp [perfSkipSteps, path, hp, Nat.not_lt.mpr ht, Config.bandSteps, hb]

/-- No skip on SHEET, nor where the band fits between the margins (R150). -/
theorem perfSkipSteps_none (h : param s .path ≠ 0 ∨ (s.paper.active.skipTop ≤ s.paper.y ∧
    s.paper.y + 48 + s.paper.active.skipBottom ≤ s.paper.active.length)) : perfSkipSteps s = 0 := by
  by_cases hp : param s .path = 0
  · obtain ⟨ht, hb⟩ := h.resolve_left (· hp)
    simp [perfSkipSteps, path, hp, Nat.not_lt.mpr ht, Config.bandSteps, Nat.not_lt.mpr hb]
  · simp [perfSkipSteps, path, hp]

/-- Every entry but a TEAR retracts a standing presentation (R148). -/
theorem retracts_of_ne_tear (hk : k ≠ .tear) : retracts k = true := by
  cases k with
  | tear => exact absurd rfl hk
  | _ => rfl

/-- A standing presentation is retracted, at once where its distance is 0 (R148). -/
theorem prepare_presented (hk : k ≠ .tear) (hp : s.paper.tearPresented = true) :
    prepare k s =
      if s.paper.tearDistance = 0 then
        afterRetract k { s with
          exec := { s.exec with state := .prepare, resume := none }, paper := { s.paper with tearPresented := false } }
      else startFeed .retract .reverse s.paper.tearDistance
        { s with exec := { s.exec with state := .prepare, resume := none } } :=
  if_pos (by simp [retracts_of_ne_tear hk, hp])

/-- With no presentation standing, what follows the retract comes at once (R148). -/
theorem prepare_unpresented (hp : s.paper.tearPresented = false) :
    prepare k s = afterRetract k { s with exec := { s.exec with state := .prepare, resume := none } } :=
  if_neg (by simp [hp])

/-- A LINE that is to skip does so before it is planned (R150). -/
theorem stageLine_skip {n : Nat} (hn : perfSkipSteps s = n) (hpos : n ≠ 0) :
    stageLine f s =
      startFeed .perfSkip .forward n { s with exec := { s.exec with state := .prepare, resume := none } } := by
  subst hn
  exact if_neg hpos

end Sys2Proof.LinePlanning

namespace Sys2Proof

open Machine LinePlanning

/-- Settles O34: the retract by `prepare_presented`, the skip by what `perfSkipSteps` is in each place. -/
theorem preparationRetractsAndSkips : Obligations.PreparationRetractsAndSkips := by
  intro s u hu
  subst hu
  refine ⟨fun k hk hp => ⟨fun hd => ?_, fun hd => ?_⟩, fun f hp => ⟨fun hpath hy => ?_, fun hpath ht hy hb => ?_,
    fun h => ?_⟩, fun p d n => rfl⟩
  · rw [prepare_presented hk hp, if_neg (by omega)]
  · rw [prepare_presented hk hp, if_pos hd, prepare_unpresented rfl]
  · exact (prepare_unpresented hp).trans (stageLine_skip (perfSkipSteps_top hpath hy) (by omega))
  · exact (prepare_unpresented hp).trans (stageLine_skip (perfSkipSteps_bottom hpath ht hb) (by omega))
  · exact (prepare_unpresented hp).trans (if_pos (perfSkipSteps_none h))

end Sys2Proof
end

