-- ==== Sys2Proof/Proofs/ClassChoice.lean ====
section
/-! The choice of class, shingle factor and pulse width: O36. -/

namespace Sys2Proof.LinePlanning

open Sys2Proof.Machine

/-! ## The class choice (R61 to R65) -/

theorem pulseFits_iff {w v : Nat} : pulseFits w v = true ↔ 4 * w * v ≤ 3000000 := decide_eq_true_iff

/-- The recovery test asks something at f = 1 of an adjacent line and at f = 2 of one with dots two apart (R62). -/
theorem recovers_iff {adjacent twoApart : Bool} {recovery v f : Nat} :
    recovers adjacent twoApart recovery v f = true ↔
      (f = 1 → adjacent = true → v * recovery ≤ 1000000) ∧ (f = 2 → twoApart = true → v * recovery ≤ 2000000) := by
  unfold recovers
  split_ifs with h1 h2
  · cases adjacent <;> simp [h1]
  · cases twoApart <;> simp [h2]
  · simp [h1, h2]

/-- The search downward finds the highest class that satisfies the test (R63). -/
theorem firstClass_eq_some {ok : Nat → Bool} {q k : Nat} (h : firstClass ok q = some k) :
    k ≤ q ∧ ok k = true ∧ ∀ j, k < j → j ≤ q → ok j = false := by
  induction q with
  | zero =>
    obtain ⟨h0, rfl⟩ : ok 0 = true ∧ 0 = k := by simpa [firstClass] using h
    exact ⟨le_rfl, h0, fun j hj hj0 => absurd hj0 (Nat.not_le.mpr hj)⟩
  | succ q ih =>
    by_cases ht : ok (q + 1) = true
    · obtain rfl : q + 1 = k := by simpa [firstClass, ht] using h
      exact ⟨le_rfl, ht, fun j hj hjq => absurd hjq (Nat.not_le.mpr hj)⟩
    · obtain ⟨hk, hok, hmax⟩ := ih (by simpa [firstClass, ht] using h)
      refine ⟨hk.trans q.le_succ, hok, fun j hj hjq => ?_⟩
      rcases Nat.le_succ_iff.mp hjq with hle | rfl
      · exact hmax j hj hle
      · simpa using ht

/-- The search fails exactly when no class up to the cap satisfies the test (R63). -/
theorem firstClass_eq_none {ok : Nat → Bool} {q : Nat} : firstClass ok q = none ↔ ∀ k ≤ q, ok k = false := by
  induction q with
  | zero => simp [firstClass]
  | succ q ih =>
    by_cases ht : ok (q + 1) = true
    · simp only [firstClass, if_pos ht, reduceCtorEq, false_iff]
      exact fun h => by simp [h (q + 1) le_rfl] at ht
    · simp [firstClass, ht, ih, Nat.le_succ_iff, or_imp, forall_and]

section Choice

variable {speed : Nat → Nat} {adjacent twoApart : Bool} {recovery q w : Nat}

/-- Whether class k passes the pulse fit and the recovery test at factor f (R63). -/
def classPasses (speed : Nat → Nat) (adjacent twoApart : Bool) (recovery w f k : Nat) : Bool :=
  pulseFits w (speed k) && recovers adjacent twoApart recovery (speed k) f

theorem classPasses_iff {f k : Nat} : classPasses speed adjacent twoApart recovery w f k = true ↔
    pulseFits w (speed k) = true ∧ recovers adjacent twoApart recovery (speed k) f = true := Bool.and_eq_true_iff

/-- The choice where no class carries the pulse (R65). -/
theorem chooseClass_unfit (h : ∀ k ≤ q, pulseFits w (speed k) = false) :
    chooseClass speed adjacent twoApart recovery q w =
      ⟨0, clampShingle (recovers adjacent twoApart recovery (speed 0)), 750000 / speed 0, true⟩ := by
  have hfit : firstClass (fun k => pulseFits w (speed k)) q = none := firstClass_eq_none.mpr h
  have hpass : firstClass (classPasses speed adjacent twoApart recovery w 1) q = none :=
    firstClass_eq_none.mpr fun k hk => by simp [classPasses, h k hk]
  unfold classPasses at hpass
  simp only [chooseClass, hpass, hfit]

/-- The choice where some class carries the pulse: the first class that passes at the smallest factor at which one
does (R63, R64). -/
theorem chooseClass_fit (h : ∃ k, k ≤ q ∧ pulseFits w (speed k) = true) :
    ∃ k f, chooseClass speed adjacent twoApart recovery q w = ⟨k, f, w, false⟩ ∧ (f = 1 ∨ f = 2 ∨ f = 4) ∧
      firstClass (classPasses speed adjacent twoApart recovery w f) q = some k ∧
      ∀ g, g = 1 ∨ g = 2 → g < f → firstClass (classPasses speed adjacent twoApart recovery w g) q = none := by
  have h4 : classPasses speed adjacent twoApart recovery w 4 = fun k => pulseFits w (speed k) := by
    funext k
    simp [classPasses, recovers]
  cases hfit : firstClass (fun k => pulseFits w (speed k)) q with
  | none =>
    obtain ⟨k, hk, hf⟩ := h
    simp [firstClass_eq_none.mp hfit k hk] at hf
  | some k4 =>
    cases h1 : firstClass (classPasses speed adjacent twoApart recovery w 1) q with
    | some k =>
      refine ⟨k, 1, ?_, .inl rfl, h1, fun g hg hlt => by omega⟩
      unfold classPasses at h1
      simp only [chooseClass, h1]
    | none =>
      cases h2 : firstClass (classPasses speed adjacent twoApart recovery w 2) q with
      | some k =>
        refine ⟨k, 2, ?_, .inr (.inl rfl), h2, fun g hg hlt => ?_⟩
        · unfold classPasses at h1 h2
          simp only [chooseClass, h1, h2, hfit]
        · obtain rfl : g = 1 := by omega
          exact h1
      | none =>
        refine ⟨k4, 4, ?_, .inr (.inr rfl), h4 ▸ hfit, fun g hg hlt => ?_⟩
        · unfold classPasses at h1 h2
          simp only [chooseClass, h1, h2, hfit]
        · rcases hg with rfl | rfl
          · exact h1
          · exact h2

/-- The factor of a clamped plan is the smallest at which class 0 passes the recovery test (R65). -/
theorem clampShingle_spec {ok : Nat → Bool} (h4 : ok 4 = true) :
    (clampShingle ok = 1 ∨ clampShingle ok = 2 ∨ clampShingle ok = 4) ∧ ok (clampShingle ok) = true ∧
      ∀ f, f = 1 ∨ f = 2 → f < clampShingle ok → ok f = false := by
  unfold clampShingle
  split_ifs with h1 h2
  · exact ⟨.inl rfl, h1, fun f hf hlt => by omega⟩
  · refine ⟨.inr (.inl rfl), h2, fun f hf hlt => ?_⟩
    obtain rfl : f = 1 := by omega
    simpa using h1
  · refine ⟨.inr (.inr rfl), h4, fun f hf hlt => ?_⟩
    rcases hf with rfl | rfl
    · simpa using h1
    · simpa using h2

theorem recovers_four {v : Nat} : recovers adjacent twoApart recovery v 4 = true := rfl

/-- The shingle factor of a choice is 1, 2 or 4 (R64, R65). -/
theorem chooseClass_shingle :
    (chooseClass speed adjacent twoApart recovery q w).shingle = 1 ∨
      (chooseClass speed adjacent twoApart recovery q w).shingle = 2 ∨
      (chooseClass speed adjacent twoApart recovery q w).shingle = 4 := by
  by_cases h : ∃ k, k ≤ q ∧ pulseFits w (speed k) = true
  · obtain ⟨k, f, hc, hf, -, -⟩ := chooseClass_fit (adjacent := adjacent) (twoApart := twoApart)
      (recovery := recovery) h
    rwa [hc]
  · rw [chooseClass_unfit (by simpa using h)]
    exact (clampShingle_spec recovers_four).1

end Choice

end Sys2Proof.LinePlanning

namespace Sys2Proof

open Machine LinePlanning

/-- Settles O36: the clamped choice by `chooseClass_unfit`, any other by `chooseClass_fit` and what its search found. -/
theorem classChoiceTakesTheFirstThatFits : Obligations.ClassChoiceTakesTheFirstThatFits := by
  intro speed adjacent twoApart recovery q w c hc fits rec hfits hrec
  subst hc
  replace hfits (k : Nat) : fits k ↔ pulseFits w (speed k) = true := (hfits k).trans pulseFits_iff.symm
  replace hrec (k f : Nat) : rec k f ↔ recovers adjacent twoApart recovery (speed k) f = true :=
    (hrec k f).trans recovers_iff.symm
  simp only [hfits, hrec, ← classPasses_iff, Bool.not_eq_true]
  refine ⟨fun hno => ?_, fun hsome => ?_⟩
  · rw [chooseClass_unfit hno]
    obtain ⟨hf, hok, hmin⟩ := clampShingle_spec (ok := recovers adjacent twoApart recovery (speed 0)) recovers_four
    exact ⟨rfl, rfl, rfl, hf, hok, hmin⟩
  · obtain ⟨k, f, hc, hf, hfound, hnone⟩ := chooseClass_fit (adjacent := adjacent) (twoApart := twoApart)
      (recovery := recovery) hsome
    obtain ⟨hk, hok, hmax⟩ := firstClass_eq_some hfound
    obtain ⟨hfit, hrecovers⟩ := classPasses_iff.mp hok
    rw [hc]
    exact ⟨rfl, rfl, hk, hfit, hrecovers, hf, hmax, fun g hg hlt => firstClass_eq_none.mp (hnone g hg hlt)⟩

end Sys2Proof
end

