-- ==== Sys2Proof/Proofs/LinePasses.lean ====
section
/-! The dots of a line and the passes that hold them: O37. -/

namespace Sys2Proof.LinePlanning

open Sys2Proof.Machine

/-! ## The dots of a line (R1, R59) -/

section Dots

variable {map : Vector MapRow 24} {inhibit : PinSet} {left w g : Nat} {cols : List Column} {r : PassRec}

/-- The dots of a line that are not excluded, each as its target column c and its reference column c + o (R1, R59). -/
def lineDots (map : Vector MapRow 24) (inhibit : PinSet) (left : Nat) (cols : List Column) : List (Nat × Nat) :=
  cols.zipIdx.flatMap fun ci => (dotRows map inhibit ci.1).map fun r =>
    (left + ci.2, left + ci.2 + map[r].offset.val)

/-- A pass's reference columns are those of the dots in its subset (R53, R69). -/
theorem passRefs_eq (sub : Option Nat) :
    passRefs map inhibit left g sub cols =
      ((lineDots map inhibit left cols).filter (fun x => inSubset g sub x.1)).map Prod.snd := by
  rw [lineDots, List.filter_flatMap, List.map_flatMap]
  refine List.flatMap_congr fun ci _ => ?_
  cases hs : inSubset g sub (left + ci.2) <;> simp [List.filter_map, Function.comp_def, hs]

/-- A sum over the numbered columns of what the columns alone give. -/
theorem sum_zipIdx (n : Column → Nat) : (cols.zipIdx.map (fun ci => n ci.1)).sum = (cols.map n).sum := by
  rw [← List.zipIdx_map_fst 0 cols, List.map_map, List.zipIdx_map_fst]
  rfl

/-- Every dot of a column is excluded or belongs to the line (R59). -/
theorem excludedRows_add_dotRows (c : Column) :
    (excludedRows map inhibit c).length + (dotRows map inhibit c).length =
      ((List.finRange 24).filter (fun r : Fin 24 => c.getLsbD r)).length := by
  rw [List.length_eq_length_filter_add (l := List.filter _ _) (rowKept map inhibit), List.filter_filter,
    List.filter_filter, Nat.add_comm]
  simp only [Bool.and_comm, excludedRows, dotRows]

/-- The dots dropped at plan time and the dots planned are all the dots of the image (R59). -/
theorem droppedDots_add_lineDots :
    droppedDots map inhibit cols + (lineDots map inhibit left cols).length =
      (cols.map (fun c => ((List.finRange 24).filter (fun r : Fin 24 => c.getLsbD r)).length)).sum := by
  have hlen : (lineDots map inhibit left cols).length = (cols.map (fun c => (dotRows map inhibit c).length)).sum := by
    simp only [lineDots, List.length_flatMap, List.length_map]
    exact sum_zipIdx fun c => (dotRows map inhibit c).length
  rw [hlen, droppedDots, ← List.sum_map_add]
  simp only [excludedRows_add_dotRows]

/-! ## The subsets of a shingle factor (R67) -/

/-- A subset is one residue, the only one for f = 1 (R67). -/
theorem inSubset_residue {sub : Option Nat} (h : sub ∈ subsets g) :
    ∃ j, ∀ c, inSubset g sub c = decide (c % g = j) := by
  by_cases hg : g = 1
  · obtain rfl : sub = none := by simpa [subsets, hg] using h
    exact ⟨0, fun c => by simp [inSubset, hg, Nat.mod_one]⟩
  · obtain ⟨j, -, rfl⟩ : ∃ j, j < g ∧ some j = sub := by simpa [subsets, hg] using h
    exact ⟨j, fun c => rfl⟩

/-- The subset ALL is for f = 1 alone; any other is a residue below f (R53, R67). -/
theorem subset_of_mem {sub : Option Nat} (h : sub ∈ subsets g) :
    (sub = none ↔ g = 1) ∧ ∀ j, sub = some j → j < g := by
  by_cases hg : g = 1
  · obtain rfl : sub = none := by simpa [subsets, hg] using h
    simp [hg]
  · obtain ⟨j, hj, rfl⟩ : ∃ j, j < g ∧ some j = sub := by simpa [subsets, hg] using h
    exact ⟨by simp [hg], fun i hi => Option.some.inj hi ▸ hj⟩

/-- Every column lies in a subset (R67). -/
theorem exists_subset (hg : 1 ≤ g) (c : Nat) : ∃ sub ∈ subsets g, inSubset g sub c = true := by
  by_cases h1 : g = 1
  · exact ⟨none, by simp [subsets, h1], rfl⟩
  · exact ⟨some (c % g), by simpa [subsets, h1] using Nat.mod_lt c hg, by simp [inSubset]⟩

/-- The subsets come in order of their residues (R67). -/
theorem subsets_pairwise : (subsets g).Pairwise (fun a b => ∃ i j, a = some i ∧ b = some j ∧ i < j) := by
  unfold subsets
  split
  · exact List.pairwise_singleton _ _
  · exact List.pairwise_map.mpr (List.pairwise_lt_range.imp fun h => ⟨_, _, rfl, rfl, h⟩)

/-- Every dot lies in exactly one subset, so the subsets' counts add up to the dots (R67). -/
theorem sum_subsets (hg : 1 ≤ g) (dots : List (Nat × Nat)) :
    ((subsets g).map (fun sub => (dots.filter (fun x => inSubset g sub x.1)).length)).sum = dots.length := by
  by_cases h1 : g = 1
  · simp [subsets, h1, inSubset]
  · simp only [subsets, if_neg h1, List.map_map, Function.comp_def, inSubset, ← List.countP_eq_length_filter]
    induction dots with
    | nil => simp
    | cons x rest ih =>
      have hone : ((List.range g).map (fun j => if decide (x.1 % g = j) = true then 1 else 0)).sum = 1 := by
        change ∑ j ∈ Finset.range g, _ = 1
        simp [Nat.mod_lt x.1 hg]
      simp only [List.countP_cons, List.sum_map_add, ih, hone, List.length_cons]

/-! ## The passes of one set (R53, R67, R69) -/

/-- A pass speaks of the dots of its subset: their number, the heat of so many, their span (R53, R69). -/
structure HoldsSubset (dots : List (Nat × Nat)) (g w : Nat) (r : PassRec) : Prop where
  mem : r.subset ∈ subsets g
  count : r.dots = (dots.filter (fun x => inSubset g r.subset x.1)).length
  pos : 1 ≤ r.dots
  heat : r.heat = r.dots * (w / 16)
  fresh : r.done = false
  span : ∀ x ∈ dots, inSubset g r.subset x.1 = true → r.lo ≤ x.2 ∧ x.2 ≤ r.hi
  low : ∃ x ∈ dots, inSubset g r.subset x.1 = true ∧ x.2 = r.lo
  high : ∃ x ∈ dots, inSubset g r.subset x.1 = true ∧ x.2 = r.hi

/-- What a pass holds does not rest on its direction. -/
theorem HoldsSubset.turn {dots : List (Nat × Nat)} (h : HoldsSubset dots g w r) (d : Dir) :
    HoldsSubset dots g w { r with dir := d } :=
  ⟨h.mem, h.count, h.pos, h.heat, h.fresh, h.span, h.low, h.high⟩

/-- A pass made of reference columns: their number and heat, and a span from the least to the greatest (R53, R69). -/
theorem passOf_eq_some {sub : Option Nat} {refs : List Nat} (h : passOf w sub refs = some r) :
    r.subset = sub ∧ r.dots = refs.length ∧ 1 ≤ r.dots ∧ r.heat = r.dots * (w / 16) ∧ r.done = false ∧
      (r.lo ∈ refs ∧ ∀ x ∈ refs, r.lo ≤ x) ∧ r.hi ∈ refs ∧ ∀ x ∈ refs, x ≤ r.hi := by
  cases refs with
  | nil => cases h
  | cons a rest =>
    cases h
    exact ⟨rfl, rfl, Nat.succ_pos _, rfl, rfl, List.min?_eq_some_iff.mp List.min?_cons',
      List.max?_eq_some_iff.mp List.max?_cons'⟩

/-- A subset gives no pass exactly when it holds no dot (R67). -/
theorem passOf_eq_none {sub : Option Nat} {refs : List Nat} : passOf w sub refs = none ↔ refs = [] := by
  cases refs <;> simp [passOf]

theorem mem_passSet : r ∈ passSet map inhibit left cols w g ↔
    ∃ sub ∈ subsets g, passOf w sub (passRefs map inhibit left g sub cols) = some r := List.mem_filterMap

/-- Every pass of a set holds the dots of its subset (R67). -/
theorem passSet_holds (h : r ∈ passSet map inhibit left cols w g) :
    HoldsSubset (lineDots map inhibit left cols) g w r := by
  obtain ⟨sub, hsub, hr⟩ := mem_passSet.mp h
  obtain ⟨rfl, hcount, hpos, hheat, hdone, ⟨hlo, hmin⟩, hhi, hmax⟩ := passOf_eq_some hr
  have hmem (y : Nat) : y ∈ passRefs map inhibit left g r.subset cols ↔
      ∃ x ∈ lineDots map inhibit left cols, inSubset g r.subset x.1 = true ∧ x.2 = y := by
    simp only [passRefs_eq, List.mem_map, List.mem_filter, and_assoc]
  rw [passRefs_eq, List.length_map] at hcount
  exact ⟨hsub, hcount, hpos, hheat, hdone,
    fun x hx hin => ⟨hmin _ ((hmem _).mpr ⟨x, hx, hin, rfl⟩), hmax _ ((hmem _).mpr ⟨x, hx, hin, rfl⟩)⟩,
    (hmem _).mp hlo, (hmem _).mp hhi⟩

/-- A subset that holds a dot has its pass (R67). -/
theorem exists_pass {sub : Option Nat} {x : Nat × Nat} (hsub : sub ∈ subsets g)
    (hx : x ∈ lineDots map inhibit left cols) (hin : inSubset g sub x.1 = true) :
    ∃ r ∈ passSet map inhibit left cols w g, r.subset = sub := by
  have hne : passRefs map inhibit left g sub cols ≠ [] := by
    rw [passRefs_eq]
    exact List.ne_nil_of_mem (List.mem_map_of_mem (List.mem_filter.mpr ⟨hx, hin⟩))
  obtain ⟨r, hr⟩ := Option.ne_none_iff_exists'.mp (mt passOf_eq_none.mp hne)
  exact ⟨r, mem_passSet.mpr ⟨sub, hsub, hr⟩, (passOf_eq_some hr).1⟩

/-- The passes of a set come in the order of their subsets, each subset once (R67). -/
theorem passSet_pairwise : ((passSet map inhibit left cols w g).map (fun r => r.subset)).Pairwise
    (fun a b => ∃ i j, a = some i ∧ b = some j ∧ i < j) :=
  List.pairwise_map.mpr (subsets_pairwise.filterMap _ fun a b hab r hr q hq => by
    rwa [(passOf_eq_some hr).1, (passOf_eq_some hq).1])

/-- A pass counts its reference columns, and no pass is made of none. -/
theorem sum_passOf (refs : Option Nat → List Nat) (l : List (Option Nat)) :
    ((l.filterMap (fun sub => passOf w sub (refs sub))).map (fun r => r.dots)).sum =
      (l.map (fun sub => (refs sub).length)).sum := by
  induction l with
  | nil => rfl
  | cons sub rest ih =>
    cases h : passOf w sub (refs sub) with
    | none =>
      simp only [List.filterMap_cons, h, ih]
      simp [passOf_eq_none.mp h]
    | some r => simp [h, ih, (passOf_eq_some h).2.1]

/-- The passes of one set hold every dot once (R67). -/
theorem sum_passSet (hg : 1 ≤ g) :
    ((passSet map inhibit left cols w g).map (fun r => r.dots)).sum = (lineDots map inhibit left cols).length := by
  rw [passSet, sum_passOf, ← sum_subsets hg]
  simp only [passRefs_eq, List.length_map]

end Dots

/-! ## The heat check (R68) -/

/-- The heat check doubles the factor while a pass is too hot, and stops at 4 (R68). -/
theorem heatShingle_spec {sets : Nat → List PassRec} {limit f g : Nat} (hf : f = 1 ∨ f = 2 ∨ f = 4)
    (hg : heatShingle sets limit f = g) :
    (g = 1 ∨ g = 2 ∨ g = 4) ∧ f ≤ g ∧ (g ≠ 4 → ∀ r ∈ sets g, r.heat ≤ limit) ∧
      ∀ h, h = 1 ∨ h = 2 → f ≤ h → h < g → ∃ r ∈ sets h, limit < r.heat := by
  have cool (h : Nat) : (¬∃ r ∈ sets h, limit < r.heat) ↔ ∀ r ∈ sets h, r.heat ≤ limit := by simp
  simp only [heatShingle, List.any_eq_true, decide_eq_true_eq] at hg
  simp only [← cool]
  rcases hf with rfl | rfl | rfl
  · split_ifs at hg with h1 h2 <;> subst hg <;> grind
  · split_ifs at hg with h2 <;> subst hg <;> grind
  · subst hg
    grind

/-! ## The directions (R71, R72) -/

/-- A pass without its direction, which is what the planner decides last. -/
def undirected (r : PassRec) : PassRec := { r with dir := .forward }

theorem alternate_undirected (d : Dir) (l : List PassRec) :
    (alternate d l).map undirected = l.map undirected := by
  induction l generalizing d with
  | nil => rfl
  | cons r rest ih => exact congrArg (undirected r :: ·) (ih _)

/-- Choosing the directions changes nothing else of the passes (R71, R72). -/
theorem directed_undirected (d : LineDirection) (ramp : Nat) (p : Int) (l : List PassRec) :
    (directed d ramp p l).map undirected = l.map undirected := by
  cases d with
  | auto =>
    cases l with
    | nil => rfl
    | cons r rest => exact alternate_undirected _ _
  | _ => simp [directed, undirected]

/-- What does not rest on a pass's direction is read of the passes as they were before it was chosen. -/
theorem directed_map {α : Type} {g : PassRec → α} (hg : ∀ r, g (undirected r) = g r) (d : LineDirection) (ramp : Nat)
    (p : Int) (l : List PassRec) : (directed d ramp p l).map g = l.map g := by
  simpa [Function.comp_def, hg] using congrArg (List.map g) (directed_undirected d ramp p l)

/-! ## The plan of a line (R53 to R70) -/

/-- The passes of one set as a line's mode repeats them (R70). -/
def repeated (m : LineMode) (l : List PassRec) : List PassRec :=
  match m with
  | .single => l
  | .double => l ++ l

theorem mem_repeated {m : LineMode} {l : List PassRec} {r : PassRec} : r ∈ repeated m l ↔ r ∈ l := by
  cases m <;> simp [repeated]

section Plan

variable {f : LineFields} {s : State}

/-- The class choice of a line's plan (R57 to R65). -/
def lineChoice (f : LineFields) (s : State) : Choice :=
  chooseClass (cruise s) (apart 1 s.fire.pinMap s.fire.inhibit s.slots[f.slot].cols)
    (apart 2 s.fire.pinMap s.fire.inhibit s.slots[f.slot].cols) (paramNat s .recovery)
    (classCap f.cls (bandOf (paramNat s .warmth) s.heat.h))
    (tableWidth s.fire.table (f.ply.getD s.paper.active.ply) (bandOf (paramNat s .warmth) s.heat.h))

/-- The set of passes of a line's plan for a shingle factor (R67). -/
def lineSet (f : LineFields) (s : State) (g : Nat) : List PassRec :=
  passSet s.fire.pinMap s.fire.inhibit s.slots[f.slot].left s.slots[f.slot].cols (buildPlan f s).width g

/-- The dots of a line that its plan holds. -/
def planDots (f : LineFields) (s : State) : List (Nat × Nat) :=
  lineDots s.fire.pinMap s.fire.inhibit s.slots[f.slot].left s.slots[f.slot].cols

theorem buildPlan_width : (buildPlan f s).width = (lineChoice f s).width := rfl

theorem buildPlan_shingle : heatShingle (lineSet f s) (paramNat s .ceiling - paramNat s .resume)
    (lineChoice f s).shingle = (buildPlan f s).shingle := rfl

/-- The passes: the set of the plan's factor, as the mode repeats it, with the directions chosen last (R70 to R72). -/
theorem buildPlan_passes : (buildPlan f s).passes =
    directed f.direction (rampColumns (buildPlan f s).speed (paramNat s .accel)) (s.carriage.position.getD 0)
      (repeated f.mode (lineSet f s (buildPlan f s).shingle)) := rfl

theorem buildPlan_map {α : Type} {g : PassRec → α} (hg : ∀ r, g (undirected r) = g r) :
    (buildPlan f s).passes.map g = (repeated f.mode (lineSet f s (buildPlan f s).shingle)).map g := by
  rw [buildPlan_passes, directed_map hg]

/-- A pass of a plan is, but for its direction, one of its set. -/
theorem exists_mem_lineSet {α : Type} {g : PassRec → α} (hg : ∀ r, g (undirected r) = g r) {r : PassRec}
    (h : r ∈ (buildPlan f s).passes) : ∃ q ∈ lineSet f s (buildPlan f s).shingle, g q = g r := by
  have hmem : g r ∈ (buildPlan f s).passes.map g := List.mem_map_of_mem h
  rw [buildPlan_map hg] at hmem
  obtain ⟨q, hq, hqr⟩ := List.mem_map.mp hmem
  exact ⟨q, mem_repeated.mp hq, hqr⟩

/-- A pass of the set is, but for its direction, one of the plan. -/
theorem exists_mem_passes {α : Type} {g : PassRec → α} (hg : ∀ r, g (undirected r) = g r) {q : PassRec}
    (h : q ∈ lineSet f s (buildPlan f s).shingle) : ∃ r ∈ (buildPlan f s).passes, g r = g q := by
  have hmem : g q ∈ (buildPlan f s).passes.map g := by
    rw [buildPlan_map hg]
    exact List.mem_map_of_mem (mem_repeated.mpr h)
  exact List.mem_map.mp hmem

/-- Every pass of a plan holds the dots of its subset (R53, R67). -/
theorem buildPlan_holds {r : PassRec} (h : r ∈ (buildPlan f s).passes) :
    HoldsSubset (planDots f s) (buildPlan f s).shingle (buildPlan f s).width r := by
  obtain ⟨q, hq, hqr⟩ := exists_mem_lineSet (g := undirected) (fun _ => rfl) h
  have hold : HoldsSubset (planDots f s) (buildPlan f s).shingle (buildPlan f s).width (undirected q) :=
    (passSet_holds hq).turn .forward
  exact (hqr ▸ hold).turn r.dir

end Plan

end Sys2Proof.LinePlanning

namespace Sys2Proof

open Machine LinePlanning

/-- Settles O37: each pass by `buildPlan_holds`, their number and order by the set of passes that the mode repeats. -/
theorem planHoldsEveryDotOnce : Obligations.PlanHoldsEveryDotOnce := by
  intro f s plan left all columns dots member hplan hcols hleft hall hdots hnone hsome
  subst hplan hcols hleft hall
  obtain rfl : dots = planDots f s := by
    rw [hdots]
    simp only [planDots, lineDots, dotRows, rowKept, Bool.and_assoc]
  obtain rfl : member = inSubset (buildPlan f s).shingle := by
    funext sub c
    cases sub with
    | none => exact hnone c
    | some j => exact hsome j c
  obtain ⟨hg, -, hcool, -⟩ := heatShingle_spec chooseClass_shingle (buildPlan_shingle (f := f) (s := s))
  have hpos : 1 ≤ (buildPlan f s).shingle := by omega
  have hsum : ((lineSet f s (buildPlan f s).shingle).map (fun r => r.dots)).sum = (planDots f s).length :=
    sum_passSet hpos
  refine ⟨?_, droppedDots_add_lineDots, fun r hr => ?_, fun x hx => ?_,
    ⟨(lineSet f s (buildPlan f s).shingle).map (fun r => r.subset), passSet_pairwise, ?_⟩, hg, fun h4 r hr => ?_⟩
  · rw [buildPlan_map fun _ => rfl]
    cases f.mode with
    | single => exact hsum
    | double => simpa [repeated, two_mul] using congrArg₂ (· + ·) hsum hsum
  · have h := buildPlan_holds hr
    obtain ⟨hall, hres⟩ := subset_of_mem h.mem
    exact ⟨h.count, h.pos, h.heat, h.fresh, h.span, h.low, h.high, hall, hres⟩
  · obtain ⟨sub, hsub, hin⟩ := exists_subset hpos x.1
    obtain ⟨r, hr, rfl⟩ := exists_pass (w := (buildPlan f s).width) hsub hx hin
    obtain ⟨q, hq, hqr⟩ := exists_mem_passes (g := fun r => r.subset) (fun _ => rfl) hr
    exact ⟨q, hq, hqr ▸ hin⟩
  · rw [buildPlan_map fun _ => rfl]
    cases f.mode with
    | single => rfl
    | double => exact List.map_append
  · obtain ⟨q, hq, hqr⟩ := exists_mem_lineSet (g := fun r => r.heat) (fun _ => rfl) hr
    exact hqr ▸ hcool h4 q hq

end Sys2Proof
end

