-- ==== Sys2Proof/Proofs/LinePlans.lean ====
section
/-! The planning step and the plan's choices: O50. -/

namespace Sys2Proof.LinePlanning

open Sys2Proof.Machine

/-! ## The width, the class cap and the adjacent dots (R57 to R60) -/

/-- The width of a table is read at the ply's place, in the band's half (R58). -/
theorem tableWidth_eq (t : EnergyTable) (b : Band) (i : Fin 6) :
    tableWidth t (i.val + 1) b = if b = .cool then t.cool[i] else t.warm[i] := by
  cases b <;> simp [tableWidth]

/-- The width for a ply 1..6, whatever place of the table it is read at (R58). -/
theorem tableWidth_of_ply {t : EnergyTable} {b : Band} {ply w : Nat} (hlo : 1 ≤ ply) (hhi : ply ≤ 6)
    (hw : ∀ i : Fin 6, i.val + 1 = ply → w = if b = .cool then t.cool[i] else t.warm[i]) :
    tableWidth t ply b = w := by
  obtain ⟨i, rfl⟩ : ∃ i : Fin 6, i.val + 1 = ply := ⟨⟨ply - 1, by omega⟩, Nat.sub_add_cancel hlo⟩
  rw [hw i rfl, tableWidth_eq]

/-- A warm head caps the class at 2 (R58). -/
theorem classCap_eq (c : Nat) (b : Band) : classCap c b = if b = .cool then c else min c 2 := by
  cases b <;> rfl

/-- Some row has dots of the line in two columns k apart (R60). -/
theorem apart_iff {k : Nat} {map : Vector MapRow 24} {inhibit : PinSet} {cols : List Column} :
    apart k map inhibit cols = true ↔
      ∃ i a b r, cols[i]? = some a ∧ cols[i + k]? = some b ∧
        (a.getLsbD r && rowKept map inhibit r) = true ∧ (b.getLsbD r && rowKept map inhibit r) = true := by
  have hzip (a b : Column) : (a, b) ∈ cols.zip (cols.drop k) ↔ ∃ i, cols[i]? = some a ∧ cols[i + k]? = some b := by
    simp only [List.mem_iff_getElem?, List.getElem?_zip_eq_some, List.getElem?_drop, Nat.add_comm k]
  have hrow (a b : Column) (r : Fin 24) : (a.getLsbD r && b.getLsbD r && rowKept map inhibit r) = true ↔
      (a.getLsbD r && rowKept map inhibit r) = true ∧ (b.getLsbD r && rowKept map inhibit r) = true := by
    simp only [Bool.and_eq_true]
    tauto
  simp only [apart, List.any_eq_true, Prod.exists, hzip, hrow, List.mem_finRange, true_and]
  constructor
  · rintro ⟨a, b, ⟨i, ha, hb⟩, r, hr⟩
    exact ⟨i, a, b, r, ha, hb, hr⟩
  · rintro ⟨i, a, b, r, ha, hb, hr⟩
    exact ⟨a, b, ⟨i, ha, hb⟩, r, hr⟩

/-! ## The directions of the passes (R71, R72) -/

/-- Alternating directions differ from each pass to the next (R72). -/
theorem alternate_dir {k : Nat} {d : Dir} {l : List PassRec} {a b : PassRec} (ha : (alternate d l)[k]? = some a)
    (hb : (alternate d l)[k + 1]? = some b) : a.dir ≠ b.dir := by
  induction l generalizing k d with
  | nil => simp [alternate] at ha
  | cons r rest ih =>
    cases k with
    | succ k => exact ih ha hb
    | zero =>
      cases rest with
      | nil => simp [alternate] at hb
      | cons q rest =>
        obtain rfl : { r with dir := d } = a := by simpa [alternate] using ha
        obtain rfl : { q with dir := dirFlip d } = b := by simpa [alternate] using hb
        cases d <;> simp [dirFlip]

/-- Under AUTO the passes alternate (R72). -/
theorem directed_auto {ramp : Nat} {p : Int} {l : List PassRec} : ∃ d, directed .auto ramp p l = alternate d l := by
  cases l with
  | nil => exact ⟨.forward, rfl⟩
  | cons r rest => exact ⟨_, rfl⟩

/-- Under AUTO the first pass starts from the nearer end of its span (R72). -/
theorem directed_auto_head {ramp : Nat} {p : Int} {l : List PassRec} {r : PassRec}
    (h : (directed .auto ramp p l).head? = some r) :
    r.dir = .forward ↔ (lowEnd r.lo ramp - p).natAbs ≤ (highEnd r.hi ramp - p).natAbs := by
  cases l with
  | nil => simp [directed] at h
  | cons q rest =>
    obtain rfl : { q with dir := autoDir q ramp p } = r := by simpa [directed, alternate] using h
    simp [autoDir]

/-- A plan has passes before their directions are chosen exactly when it has passes after (R71, R72). -/
theorem directed_eq_nil {d : LineDirection} {ramp : Nat} {p : Int} {l : List PassRec} :
    directed d ramp p l = [] ↔ l = [] := by
  rw [← List.map_eq_nil_iff (f := undirected), directed_undirected, List.map_eq_nil_iff]

/-! ## The plan's choices -/

section Plan

variable {f : LineFields} {s : State}

/-- A plan is pulse-clamped when no class carries the pulse and it has a pass (R65, R74). -/
theorem buildPlan_clamped : (buildPlan f s).clamped = true ↔
    (lineChoice f s).unfit = true ∧ (buildPlan f s).passes ≠ [] := by
  rw [buildPlan_passes, Ne, directed_eq_nil]
  change ((lineChoice f s).unfit && !(repeated f.mode (lineSet f s (buildPlan f s).shingle)).isEmpty) = true ↔ _
  simp

/-- In a direction asked for every pass runs that way (R71). -/
theorem buildPlan_dir {d : Dir} {r : PassRec}
    (hd : ∀ ramp p l, directed f.direction ramp p l = l.map (fun r => { r with dir := d }))
    (hr : r ∈ (buildPlan f s).passes) : r.dir = d := by
  rw [buildPlan_passes, hd] at hr
  obtain ⟨q, -, rfl⟩ := List.mem_map.mp hr
  rfl

/-- A factor the heat check passed over has a residue with too many dots (R68). -/
theorem exists_hot_residue {g limit : Nat} (h : ∃ r ∈ lineSet f s g, limit < r.heat) :
    ∃ j, limit <
      (((planDots f s).map Prod.fst).filter (fun c => decide (c % g = j))).length * ((buildPlan f s).width / 16) := by
  obtain ⟨r, hr, hhot⟩ := h
  have hold : HoldsSubset (planDots f s) g (buildPlan f s).width r := passSet_holds hr
  obtain ⟨j, hj⟩ := inSubset_residue hold.mem
  refine ⟨j, ?_⟩
  rw [hold.heat, hold.count] at hhot
  simpa only [List.filter_map, List.length_map, Function.comp_def, hj] using hhot

end Plan

end Sys2Proof.LinePlanning

namespace Sys2Proof

open Machine LinePlanning

/-- Settles O50: the choice is `lineChoice`, its inputs read one by one; the factor by `heatShingle_spec`, the
directions by `directed`. -/
theorem planningStepBuildsThePlan : Obligations.PlanningStepBuildsThePlan := by
  intro f s u plan left columns targets kept hu hplan hcols hleft hkept htargets
  subst hu hplan hcols hleft
  set u : State :=
    { s with fire := { s.fire with table := s.fire.pendingTable.getD s.fire.table, pendingTable := none } }
  obtain rfl : kept = fun c r => c.getLsbD r && rowKept u.fire.pinMap u.fire.inhibit r := by
    funext c r
    rw [hkept, Bool.and_assoc]
    rfl
  have hdots : targets = (planDots f u).map Prod.fst := by
    simp only [htargets, planDots, lineDots, dotRows, List.map_flatMap, List.map_map, Function.comp_def]
    rfl
  refine ⟨rfl, ?_, rfl, rfl, rfl, rfl, rfl, fun hd r hr => buildPlan_dir (fun _ _ _ => by rw [hd]; rfl) hr,
    fun hd r hr => buildPlan_dir (fun _ _ _ => by rw [hd]; rfl) hr,
    fun hd => ⟨fun k a b ha hb => ?_, fun r p R hr hp hR => ?_⟩⟩
  · intro ply w q band adjacent twoApart choice hsome hnone hband hw hlo hhi hq hadj htwo hchoice
    have hply : f.ply.getD u.paper.active.ply = ply := by
      cases hf : f.ply with
      | none => exact (hnone hf).symm
      | some n => exact (hsome n hf).symm
    have hline : lineChoice f u = choice := by
      have hb : bandOf (paramNat u .warmth) u.heat.h = band := hband.symm
      rw [lineChoice, hb, hply, tableWidth_of_ply hlo hhi hw, classCap_eq, ← hq,
        Bool.eq_iff_iff.mpr (apart_iff.trans hadj.symm), Bool.eq_iff_iff.mpr (apart_iff.trans htwo.symm), hchoice]
      rfl
    obtain ⟨-, hle, -, hhot⟩ := heatShingle_spec chooseClass_shingle (buildPlan_shingle (f := f) (s := u))
    subst hline
    refine ⟨rfl, rfl, rfl, buildPlan_clamped, hle, fun g hg hfg hlt => ?_⟩
    rw [hdots]
    exact exists_hot_residue (hhot g hg hfg hlt)
  · rw [buildPlan_passes, hd] at ha hb
    obtain ⟨d, hdir⟩ := directed_auto
    rw [hdir] at ha hb
    exact alternate_dir ha hb
  · rw [buildPlan_passes, hd] at hr
    have hpos : u.carriage.position.getD 0 = p := congrArg (·.getD 0) hp
    have h := directed_auto_head hr
    rw [hpos] at h
    rw [hR]
    exact h

end Sys2Proof
end

