-- ==== Sys2Proof/Proofs/Trips.lean ====
section
/-! A trip field by field: the records it leaves, the further causes, and the ACTIVE entry: O45. -/

namespace Sys2Proof.Trips

open Sys2Proof.Machine Sys2Proof.QueueAndSlots Sys2Proof.MotionAndTrips

variable {c x : TripCause} {s : State} {o : EntryOutcome} {e : Entry} {rest : List Entry}

/-! ## The causes as a set (R164, R166, section 11.4) -/

theorem causeIndex_lt (c : TripCause) : causeIndex c < 6 := by
  cases c <;> decide

/-- No two causes share a place. -/
theorem causeIndex_inj : causeIndex x = causeIndex c ↔ x = c := by
  cases x <;> cases c <;> decide

theorem causeBit_getLsbD (c x : TripCause) : (causeBit c).getLsbD (causeIndex x) = decide (x = c) := by
  simp [causeBit, causeIndex_lt, causeIndex_inj]

theorem getLsbD_ite_causeBit (p : Prop) [Decidable p] (c x : TripCause) :
    (if p then causeBit c else 0#6).getLsbD (causeIndex x) = true ↔ x = c ∧ p := by
  split <;> simp [causeBit_getLsbD, *]

/-- The mechanism causes that have come about and are not yet taken, one by one (R79, R94, R151). -/
theorem dueCauses_getLsbD (s : State) (x : TripCause) : (dueCauses s).getLsbD (causeIndex x) = true ↔
    (x = .paperJam ∧ s.paper.jamDue = true) ∨
      (x = .encoderLost ∧ s.carriage.phase ≠ .stopped ∧ 96 ≤ s.carriage.noMark) ∨
      (x = .homeFail ∧ s.carriage.phase = .seek ∧ 62400 ≤ s.carriage.seekTravel ∧ homeActive s = false) := by
  simp only [dueCauses, BitVec.getLsbD_or, Bool.or_eq_true, getLsbD_ite_causeBit, or_assoc, carriageMoving,
    Bool.and_eq_true, decide_eq_true_eq, Bool.not_eq_true', and_assoc]
  rfl

/-- A trip's own cause is no further cause; every other one that is due is (R166). -/
theorem trip_further_getLsbD (c x : TripCause) (s : State) :
    (trip c s).engine.further.getLsbD (causeIndex x) = true ↔
      x ≠ c ∧ (dueCauses s).getLsbD (causeIndex x) = true := by
  simp only [trip_further, BitVec.getLsbD_and, BitVec.getLsbD_not, causeBit_getLsbD, causeIndex_lt, decide_true,
    Bool.true_and, Bool.and_eq_true, Bool.not_eq_true', decide_eq_false_iff_not, and_comm]

/-! ## The outputs and the paper (R111, R138, R152, R171) -/

/-- TRIPMASK's reach is outputs 0..5; the ribbon's output 6 and the lamp's 7 stand outside it (R111, R171). -/
theorem tripOutputs_getLsbD (m : Nat) (outs : BitVec 8) (i : Fin 8) : (tripOutputs m outs).getLsbD i =
    (if i.val = 7 then true else if i.val = 6 then false
      else outs.getLsbD i && !(BitVec.ofNat 8 m).getLsbD i) := by
  have hreach : (0x3F#8).getLsbD i = decide (i.val < 6) := by revert i; decide
  have hribbon : (0x40#8).getLsbD i = decide (i.val = 6) := by revert i; decide
  have hlamp : (0x80#8).getLsbD i = decide (i.val = 7) := by revert i; decide
  simp only [tripOutputs, BitVec.getLsbD_or, BitVec.getLsbD_and, BitVec.getLsbD_not, hreach, hribbon, hlamp]
  split
  · simp [*]
  · split
    · simp [*]
    · have hlow : i.val < 6 := by omega
      simp [*]

/-- Every trip ends the feed move; one that is no jam leaves where the paper stands (R138). -/
theorem paperTrip_of_ne (h : c ≠ .paperJam) (p : Paper) :
    p.trip c = { p with move := none, jamDue := false, unpulsed := 0, observedUnpulsed := 0 } := by
  simp only [Paper.trip, if_neg h]

/-! ## Retirement, whether or not an entry is ACTIVE (R42, R99) -/

theorem none_or_active (s : State) :
    hasActive s = false ∨ ∃ e rest, s.queue = e :: rest ∧ e.active = true := by
  cases ha : hasActive s with
  | false => exact .inl rfl
  | true => exact .inr (exists_active ha)

/-- The Fire Unit loses nothing at a retirement but its plan-time inhibit set. -/
theorem retire_fire_of_empty (h : s.fire.planInhibit = 0#24) : (retire o s).fire = s.fire := by
  obtain ha | ⟨e, rest, hq, he⟩ := none_or_active s
  · rw [retire_none ha]
  · rw [retire_fire hq he, ← h]

theorem retire_heat_levels (o : EntryOutcome) (s : State) :
    (retire o s).heat.latch = s.heat.latch ∧ (retire o s).heat.band = s.heat.band := by
  obtain ha | ⟨e, rest, hq, he⟩ := none_or_active s
  · simp [retire_none ha]
  · simp [retire_heat hq he]

theorem bankCount_same (b : Bank) (g : General) (k : Nat) :
    (b.count g k).general[g.index] = min (b.general[g.index] + k) (2 ^ g.bits - 1) := by
  simp [Bank.count, saturate]

theorem bankCount_other (b : Bank) {g : General} (k : Nat) {i : Fin 10} (h : g.index ≠ i) :
    (b.count g k).general[i] = b.general[i] :=
  Vector.getElem_set_ne g.index.isLt i.isLt fun hv => h (Fin.ext hv)

/-- A retirement counts a line and nothing else: the trip counter stands (R42). -/
theorem retire_trips (o : EntryOutcome) (s : State) :
    (retire o s).counters.live.general[General.trips.index] = s.counters.live.general[General.trips.index] := by
  obtain ha | ⟨e, rest, hq, he⟩ := none_or_active s
  · rw [retire_none ha]
  · by_cases hk : ∃ f, e.kind = .line f
    · obtain ⟨f, hf⟩ := hk
      rw [retire_live_line hq he hf]
      exact bankCount_other _ 1 (by split <;> decide)
    · rw [retire_counters_other hq he fun f hf => hk ⟨f, hf⟩]

/-! ## The trip, record by record (R164) -/

/-- The state as a trip leaves every record that is not the entry's, before the ACTIVE entry fails (R164). -/
def cutShort (c : TripCause) (s : State) : State :=
  { s with
    engine := tripEngine c s, carriage := clearedCarriage, fire := s.fire.cutOff, paper := s.paper.trip c }

/-- The entry's part of the state, the heat and the counters are not cut short. -/
@[simp] theorem cutShort_frame (c : TripCause) (s : State) : (cutShort c s).queue = s.queue ∧
    (cutShort c s).slots = s.slots ∧ (cutShort c s).completions = s.completions ∧ (cutShort c s).heat = s.heat ∧
    (cutShort c s).counters = s.counters ∧ hasActive (cutShort c s) = hasActive s :=
  ⟨rfl, rfl, rfl, rfl, rfl, rfl⟩

/-- What the ACTIVE entry retires with: TRIP, or HALTED when it had already failed so (R48, R51). -/
def tripOutcome (s : State) : EntryOutcome := if s.exec.failing then .failedHalted else .failedTrip

theorem tripOutcome_failed (s : State) : (tripOutcome s).failed = true := by
  unfold tripOutcome
  split <;> rfl

/-- A trip is a retirement of the state cut short, followed by the hold, the event and the count. -/
theorem trip_eq (c : TripCause) (s : State) :
    trip c s = count .trips 1 (raise .trip (addHalted (retire (tripOutcome s) (cutShort c s)))) := rfl

@[simp] theorem trip_engine (c : TripCause) (s : State) : (trip c s).engine = tripEngine c s := by
  simp [trip_eq, cutShort]

@[simp] theorem trip_carriage (c : TripCause) (s : State) : (trip c s).carriage = clearedCarriage := by
  simp [trip_eq, cutShort]

@[simp] theorem trip_paper (c : TripCause) (s : State) : (trip c s).paper = s.paper.trip c := by
  simp [trip_eq, cutShort]

/-- The plan-time inhibit set is already empty when the entry retires (R109). -/
@[simp] theorem trip_fire (c : TripCause) (s : State) : (trip c s).fire = s.fire.cutOff := by
  simp [trip_eq, retire_fire_of_empty (s := cutShort c s) rfl]
  rfl

theorem trip_heat_levels (c : TripCause) (s : State) :
    (trip c s).heat.latch = s.heat.latch ∧ (trip c s).heat.band = s.heat.band := by
  simpa [trip_eq] using retire_heat_levels (tripOutcome s) (cutShort c s)

theorem trip_halted (c : TripCause) (s : State) : (trip c s).holds.halted = true := by
  simp [trip_eq, addHalted]

/-- TRIP is raised, whatever the count raises after it. -/
theorem trip_raises (c : TripCause) (s : State) : (trip c s).link.events.getLsbD 4 = true := by
  rw [trip_eq]
  refine (raiseIf_events _ .counterHalf _ (by decide)).trans ?_
  rw [raise_events _ _ (by decide)]
  simp [Event.number]

theorem trip_counts (c : TripCause) (s : State) : (trip c s).counters.live.general[General.trips.index] =
    min (s.counters.live.general[General.trips.index] + 1) 65535 := by
  have hr := retire_trips (tripOutcome s) (cutShort c s)
  calc (trip c s).counters.live.general[General.trips.index]
      = min ((retire (tripOutcome s) (cutShort c s)).counters.live.general[General.trips.index] + 1) 65535 :=
        bankCount_same _ .trips 1
    _ = min (s.counters.live.general[General.trips.index] + 1) 65535 := by rw [hr]; rfl

/-- With no ACTIVE entry the queue, the slots and the records stand. -/
theorem trip_without_active (c : TripCause) (h : hasActive s = false) :
    (trip c s).queue = s.queue ∧ (trip c s).slots = s.slots ∧ (trip c s).completions = s.completions := by
  simp [trip_eq, retire_none (s := cutShort c s) h]

section Active

variable (hq : s.queue = e :: rest) (ha : e.active = true)

include hq ha

theorem trip_queue : (trip c s).queue = rest := by
  simp [trip_eq, retire_queue (s := cutShort c s) hq ha]

theorem trip_exec : (trip c s).exec = idleExecutor := by
  simp [trip_eq, retire_exec (s := cutShort c s) hq ha]

theorem trip_completions :
    (trip c s).completions = s.completions ++ [completionOf e (tripOutcome s) (cutShort c s)] := by
  simp [trip_eq, retire_completions (s := cutShort c s) hq ha]

/-- A LINE that a trip fails gives its slot back SEALED, its image kept (R26). -/
theorem trip_slots {f : LineFields} (hk : e.kind = .line f) :
    (trip c s).slots = s.slots.set f.slot { s.slots[f.slot] with state := .sealed } := by
  simp [trip_eq, retire_slots (s := cutShort c s) hq ha, releaseSlot, hk, tripOutcome_failed]

end Active

end Sys2Proof.Trips

namespace Sys2Proof

open Sys2Proof.Machine Sys2Proof.Trips

/-- Settles O45: `trip_eq` record by record; the further causes by `dueCauses_getLsbD`, the ACTIVE entry by the rules of
its retirement. -/
theorem tripIsOneStep : Obligations.TripIsOneStep := by
  rintro c s t rfl
  obtain ⟨hlatch, hband⟩ := trip_heat_levels c s
  refine ⟨by simp [tripEngine], by simp [tripEngine], fun x => ?_, by simp [tripEngine], by simp [tripEngine],
    by simp [tripEngine], by simp [tripEngine], ?_, fun i => ?_, by simp, by simp, by simp, trip_carriage c s,
    trip_fire c s, ?_, by simp, by simp, by simp, ?_, fun hc => ?_, fun hc => ?_, trip_halted c s, by simp,
    trip_raises c s, trip_counts c s, by simp, hlatch, hband, by simp, by simp, by simp, trip_without_active c,
    fun e rest hq ha => ⟨trip_queue hq ha, trip_exec hq ha, _, trip_completions hq ha, rfl, rfl,
      fun f hk => trip_slots hq ha hk⟩⟩
  · rw [trip_further_getLsbD, dueCauses_getLsbD]
  · rw [trip_engine]
    rfl
  · rw [trip_engine]
    exact tripOutputs_getLsbD _ _ i
  · rw [trip_paper]
    rfl
  · rw [trip_paper]
    rfl
  · rw [trip_paper, paperTrip_of_ne hc]
    exact ⟨rfl, rfl, rfl, rfl, rfl⟩
  · subst hc
    rw [trip_paper]
    exact ⟨rfl, rfl, rfl, rfl, rfl⟩

end Sys2Proof
end

