-- ==== Sys2Proof/Proofs/ParameterRequests.lean ====
section
/-! The requests SETP and GETP: O11. -/

namespace Sys2Proof.ParameterRequests

open Sys2Proof.Machine

variable {s : State} {id : ParamId} {v : Int} {tag : Byte} {r : SetpReq}

/-! ## Ids (R196) -/

/-- Ids 0 and 33 to 255 name no parameter. -/
theorem paramOfId_none {b : Byte} (h : b = 0#8 ∨ 32 < b.toNat) : paramOfId b = none := by
  by_cases h0 : b = 0#8
  · exact if_pos h0
  · have hn : 32 < b.toNat := h.resolve_left h0
    have hl : allParams.length = 32 := rfl
    exact (if_neg h0).trans (List.getElem?_eq_none (by omega))

theorem allParams_paramIndex (id : ParamId) : allParams[(paramIndex id).val]? = some id := by
  cases id <;> rfl

/-- A parameter's id is its place in the table plus one. -/
theorem paramOfId_paramIndex {b : Byte} (h : b.toNat = (paramIndex id).val + 1) : paramOfId b = some id := by
  have h0 : b ≠ 0#8 := by
    rintro rfl
    simp at h
  rw [paramOfId, if_neg h0, h, Nat.add_sub_cancel, allParams_paramIndex]

/-! ## SETP's checks (R125, R184) -/

/-- SETP's second check fails exactly for an idle-only parameter with a line ACTIVE, in HOMING or with the carriage
moving, and for PATH with a form loaded. -/
theorem setpBlocked_iff : setpBlocked id s = true ↔
    idleOnly id = true ∧ (lineActive s = true ∨ s.engine.state = .homing ∨ s.carriage.phase ≠ .stopped ∨
      (id = .path ∧ s.paper.state ≠ .out)) := by
  simp [setpBlocked, carriageMoving, loaded, or_assoc]

theorem setpBlocked_eq_false (h : idleOnly id = false ∨ (lineActive s = false ∧ s.engine.state ≠ .homing ∧
    s.carriage.phase = .stopped ∧ (id = .path → s.paper.state = .out))) : setpBlocked id s = false := by
  rw [← Bool.not_eq_true, setpBlocked_iff]
  rintro ⟨hi, hb⟩
  rcases h with h | ⟨hl, he, hc, hp⟩
  · simp [h] at hi
  · rcases hb with hb | hb | hb | ⟨hpath, hout⟩
    · simp [hl] at hb
    · exact he hb
    · exact hb hc
    · exact hout (hp hpath)

theorem inRange_of (hl : paramLow id ≤ v) (hh : v ≤ paramHigh id) : inRange id v = true := by
  simp [inRange, hl, hh]

theorem inRange_eq_false (h : v < paramLow id ∨ paramHigh id < v) : inRange id v = false := by
  simpa [inRange, imp_iff_not_or] using h

theorem chainHolds_iff : chainHolds s = true ↔
    param s .resume < param s .warmth ∧ param s .warmth < param s .hotth ∧ param s .hotth < param s .ceiling := by
  simp [chainHolds, and_assoc]

/-- A value inside its range is set as it stands, an ORDER value only if it keeps the order. -/
theorem judgeValue_inside (hl : paramLow id ≤ v) (hh : v ≤ paramHigh id)
    (ho : paramClass id = .order → chainHolds (setParam s id v) = true) : judgeValue id v s = some (v, .ok) := by
  cases hc : paramClass id with
  | tune => simp [judgeValue, hc, inRange_of hl hh]
  | geom => simp [judgeValue, hc, inRange_of hl hh]
  | order => simp [judgeValue, hc, inRange_of hl hh, ho hc]

/-- A TUNE value below its range is set to the low end. -/
theorem judgeValue_below (hc : paramClass id = .tune) (h : v < paramLow id) :
    judgeValue id v s = some (paramLow id, .okClamped) := by
  have hv : clampInt (paramLow id) (paramHigh id) v = paramLow id := by
    unfold clampInt
    omega
  simp [judgeValue, hc, inRange_eq_false (.inl h), hv]

/-- A TUNE value above its range is set to the high end. -/
theorem judgeValue_above (hc : paramClass id = .tune) (h : paramHigh id < v) :
    judgeValue id v s = some (paramHigh id, .okClamped) := by
  have hv : clampInt (paramLow id) (paramHigh id) v = paramHigh id := by
    have := HeadTables.paramLow_le_paramHigh id
    unfold clampInt
    omega
  simp [judgeValue, hc, inRange_eq_false (.inr h), hv]

/-- A GEOM or ORDER value outside its range is refused. -/
theorem judgeValue_outside (hc : paramClass id ≠ .tune) (h : v < paramLow id ∨ paramHigh id < v) :
    judgeValue id v s = none := by
  cases hk : paramClass id with
  | tune => exact absurd hk hc
  | geom => simp [judgeValue, hk, inRange_eq_false h]
  | order => simp [judgeValue, hk, inRange_eq_false h]

/-- An ORDER value that breaks the order is refused. -/
theorem judgeValue_disorder (hc : paramClass id = .order) (h : chainHolds (setParam s id v) = false) :
    judgeValue id v s = none := by
  simp [judgeValue, hc, h]

/-! ## What an accepted SETP acts on (R119, R120, R122, R161) -/

/-- A TUNE parameter acts on nothing else at once. -/
theorem afterSetp_tune (h : paramClass id = .tune) : afterSetp id s = s := by
  cases id <;> cases h <;> rfl

/-- Of the GEOM parameters WAKEINS alone acts at once. -/
theorem afterSetp_geom (h : paramClass id = .geom) : afterSetp id s = if id = .wakeins then wakeIfDue s else s := by
  cases id <;> cases h <;> rfl

/-- WARMTH judges the band, HOTTH and RESUME the latch; all but WARMTH test a waiting pass again. -/
theorem afterSetp_order (h : paramClass id = .order) : afterSetp id s =
    if id = .warmth then judgeBand s else if id = .ceiling then retest s else retest (judgeLatch s) := by
  cases id <;> cases h <;> rfl

/-! ## The answers (R181, R182, R184, R185) -/

theorem retest_dropOldest (s : State) : retest (dropOldest s) = dropOldest (retest s) := by
  have hg (h : Nat) : gateAdmits (dropOldest s) h = gateAdmits s h := rfl
  unfold retest
  simp only [dropOldest_frame, hg]
  split
  · split
    · split
      · exact PrintQueue.goPosition_dropOldest _ _ s
      · rfl
    · rfl
  · rfl

theorem afterSetp_dropOldest (id : ParamId) (s : State) :
    afterSetp id (dropOldest s) = dropOldest (afterSetp id s) := by
  cases id
  case hotth => exact retest_dropOldest (judgeLatch s)
  case resume => exact retest_dropOldest (judgeLatch s)
  case ceiling => exact retest_dropOldest s
  case wakeins => exact PrintQueue.wakeIfDue_dropOldest s
  all_goals rfl

/-- SETP of an id that names no parameter. -/
theorem exec_setp_unknown (hr : Ready (.setp tag (.fields r)) s) (hi : paramOfId r.id = none) :
    exec (.setp tag (.fields r)) s = .next (replied 0x84#8 tag (paramReply .badValue r.id 0) s) :=
  HeadTables.exec_replied hr rfl rfl rfl (by simp only [onFields, doSetp, hi])

section Known

variable (hr : Ready (.setp tag (.fields r)) s) (hi : paramOfId r.id = some id)

include hr hi

theorem exec_setp_blocked (hb : setpBlocked id s = true) :
    exec (.setp tag (.fields r)) s = .next (replied 0x84#8 tag (paramReply .wrongState r.id (param s id)) s) := by
  have hb' : setpBlocked id (dropOldest s) = true := hb
  refine HeadTables.exec_replied hr rfl rfl rfl ?_
  simp only [onFields, doSetp, hi, hb', if_true]
  rfl

/-- A value that SETP's third check refuses. -/
theorem exec_setp_refused (hb : setpBlocked id s = false) (hj : judgeValue id r.value.toInt s = none) :
    exec (.setp tag (.fields r)) s = .next (replied 0x84#8 tag (paramReply .badValue r.id (param s id)) s) := by
  have hb' : setpBlocked id (dropOldest s) = false := hb
  have hj' : judgeValue id r.value.toInt (dropOldest s) = none := hj
  refine HeadTables.exec_replied hr rfl rfl rfl ?_
  simp only [onFields, doSetp, hi, hb', hj', Bool.false_eq_true, if_false]
  rfl

/-- A value that SETP's third check accepts, as it stands or limited. -/
theorem exec_setp_set {res : Result} (hb : setpBlocked id s = false)
    (hj : judgeValue id r.value.toInt s = some (v, res)) :
    exec (.setp tag (.fields r)) s =
      .next (replied 0x84#8 tag (paramReply res r.id v) (afterSetp id (setParam s id v))) := by
  have hb' : setpBlocked id (dropOldest s) = false := hb
  have hj' : judgeValue id r.value.toInt (dropOldest s) = some (v, res) := hj
  refine HeadTables.exec_replied hr rfl rfl rfl ?_
  rw [← afterSetp_dropOldest]
  simp only [onFields, doSetp, hi, hb', hj', Bool.false_eq_true, if_false]
  rfl

/-- A value inside its range, in the order if it is an ORDER value, is set and answered as it came in. -/
theorem exec_setp_inside (hb : setpBlocked id s = false) (hl : paramLow id ≤ r.value.toInt)
    (hh : r.value.toInt ≤ paramHigh id)
    (ho : paramClass id = .order → chainHolds (setParam s id r.value.toInt) = true) :
    exec (.setp tag (.fields r)) s = .next (replied 0x84#8 tag ([0x00#8, r.id] ++ le32 r.value)
      (afterSetp id (setParam s id r.value.toInt))) := by
  have hp : paramReply .ok r.id r.value.toInt = [0x00#8, r.id] ++ le32 r.value := by
    rw [paramReply, intLe32, BitVec.ofInt_toInt]
    rfl
  rw [exec_setp_set hr hi hb (judgeValue_inside hl hh ho), hp]

end Known

end Sys2Proof.ParameterRequests

namespace Sys2Proof

open Sys2Proof.Machine Sys2Proof.ParameterRequests

/-- Settles O11: SETP by `judgeValue` in each class and what `afterSetp` does there; GETP by the id it reads. -/
theorem setpJudgesAndGetpReads : Obligations.SetpJudgesAndGetpReads := by
  refine ⟨fun tag r s hr => ⟨fun h => exec_setp_unknown hr (paramOfId_none h), fun id hi =>
      ⟨fun h => exec_setp_blocked hr hi (setpBlocked_iff.mpr h), fun h => ?_⟩⟩,
    fun s id v => ⟨param_setParam_same s id v, fun id' h => param_setParam_ne s v h.symm, rfl⟩,
    fun tag b s hr => ⟨fun h => ?_, fun id h => ?_⟩⟩
  · have hb := setpBlocked_eq_false h
    refine ⟨fun hc hl hh => ?_, fun hc h => ?_, fun hc h => ?_, fun hc h => ?_, fun hc hl hh => ?_,
      fun hc hl hh u hu => ⟨fun ho => ?_, fun h1 h2 h3 => ?_⟩⟩
    · rw [exec_setp_inside hr hi hb hl hh (by simp [hc]), afterSetp_tune hc]
    · rw [exec_setp_set hr hi hb (judgeValue_below hc h), afterSetp_tune hc]
      rfl
    · rw [exec_setp_set hr hi hb (judgeValue_above hc h), afterSetp_tune hc]
      rfl
    · exact exec_setp_refused hr hi hb (judgeValue_outside hc h)
    · rw [exec_setp_inside hr hi hb hl hh (by simp [hc]), afterSetp_geom hc]
    · have hd : chainHolds (setParam s id r.value.toInt) = false := by
        rw [← Bool.not_eq_true, chainHolds_iff, ← hu]
        exact ho
      exact exec_setp_refused hr hi hb (judgeValue_disorder hc hd)
    · have hd : chainHolds (setParam s id r.value.toInt) = true := by
        rw [chainHolds_iff, ← hu]
        exact ⟨h1, h2, h3⟩
      rw [exec_setp_inside hr hi hb hl hh fun _ => hd, afterSetp_order hc, hu]
      rfl
  · refine HeadTables.exec_replied hr rfl rfl rfl ?_
    simp only [onFields, doGetp, paramOfId_none h]
    rfl
  · refine HeadTables.exec_replied hr rfl rfl rfl ?_
    simp only [onFields, doGetp, paramOfId_paramIndex h]
    rfl

end Sys2Proof
end

