-- ==== Sys2Proof/Proofs/SensorsAndTimers.lean ====
section
/-! The wheel, the paper sensor, the timers and the cooling tick: O49. -/

namespace Sys2Proof.SensorsAndTimers

open Sys2Proof.Machine

variable {s : State} {i : OverlayInput}

/-! ## The overlay's inputs (R173, R174) -/

theorem driven_iff : driven s i = true ↔
    s.engine.overlayMode = .drive ∧ s.engine.overlayInputs.getLsbD i.bit = true := by
  simp [driven, flagSet]

theorem driven_eq_false_iff : driven s i = false ↔
    s.engine.overlayMode ≠ .drive ∨ s.engine.overlayInputs.getLsbD i.bit = false := by
  simp [driven, flagSet, imp_iff_not_or]

theorem observed_iff : observed s i = true ↔
    s.engine.overlayMode = .observe ∧ s.engine.overlayInputs.getLsbD i.bit = true := by
  simp [observed, flagSet]

/-! ## The wheel (R151) -/

/-- A pulse is suppressed by MOTION_STALL in DRIVE and by a jam that is due; in OBSERVE, MOTION_STALL keeps the observed
unpulsed steps. -/
theorem exec_paperMotionPulse (hs : Settled s) : exec .paperMotionPulse s =
    .next (if driven s .motionStall || s.paper.jamDue then s
      else if observed s .motionStall then { s with paper := { s.paper with unpulsed := 0 } }
      else { s with paper := { s.paper with unpulsed := 0, observedUnpulsed := 0 } }) := by
  rw [exec, execPaperMotionPulse, hs.acting]

theorem exec_pulse_suppressed (hs : Settled s) (h : driven s .motionStall = true ∨ s.paper.jamDue = true) :
    exec .paperMotionPulse s = .next s := by
  rw [exec_paperMotionPulse hs, if_pos (by simpa using h)]

theorem exec_pulse_taken (hs : Settled s) (hd : driven s .motionStall = false) (hj : s.paper.jamDue = false) :
    exec .paperMotionPulse s = .next (if observed s .motionStall then { s with paper := { s.paper with unpulsed := 0 } }
      else { s with paper := { s.paper with unpulsed := 0, observedUnpulsed := 0 } }) := by
  rw [exec_paperMotionPulse hs, if_neg (by simp [hd, hj])]

/-! ## The paper sensor (R141, R161) -/

/-- The state with the paper sensor's line at a level. -/
def withPaperLine (on : Bool) (s : State) : State := { s with lines := { s.lines with paper := on } }

theorem exec_paperSensorAbsent (hs : Settled s) :
    exec .paperSensorAbsent s = .next (sensorChange (sensorPresent s) (withPaperLine false s)) := by
  rw [exec, execPaperSensorAbsent, hs.acting, withPaperLine]

theorem exec_paperSensorPresent (hs : Settled s) :
    exec .paperSensorPresent s = .next (sensorChange (sensorPresent s) (withPaperLine true s)) := by
  rw [exec, execPaperSensorPresent, hs.acting, withPaperLine]

/-- A sensor that is seen as before brings nothing. -/
theorem sensorChange_same {b : Bool} (h : sensorPresent s = b) : sensorChange b s = s := by
  cases b <;> simp [sensorChange, h]

theorem sensorChange_lost (h : sensorPresent s = false) : sensorChange true s = sensorLost s := by
  simp [sensorChange, h]

theorem sensorChange_found (h : sensorPresent s = true) : sensorChange false s = sensorFound s := by
  simp [sensorChange, h]

/-- PAPER_ABSENT in DRIVE hides the line. -/
theorem sensorPresent_of_driven (h : driven s .paperAbsent = true) : sensorPresent s = false := by
  simp [sensorPresent, h]

theorem sensorPresent_of_not_driven (h : driven s .paperAbsent = false) : sensorPresent s = s.lines.paper := by
  simp [sensorPresent, h]

theorem driven_withPaperLine (on : Bool) : driven (withPaperLine on s) i = driven s i := rfl

/-- A line that stands as it was, or that PAPER_ABSENT hides, leaves the sensor as it is seen. -/
theorem sensorPresent_withPaperLine_same {on : Bool} (h : s.lines.paper = on ∨ driven s .paperAbsent = true) :
    sensorPresent (withPaperLine on s) = sensorPresent s := by
  cases hd : driven s .paperAbsent with
  | true => rw [sensorPresent_of_driven hd, sensorPresent_of_driven (driven_withPaperLine on ▸ hd)]
  | false =>
    rw [sensorPresent_of_not_driven hd, sensorPresent_of_not_driven (driven_withPaperLine on ▸ hd)]
    exact (h.resolve_right (by simp [hd])).symm

/-- With PAPER_ABSENT not driven the loss of the sensor is taken. -/
theorem exec_sensor_lost (hs : Settled s) (hd : driven s .paperAbsent = false) (hl : s.lines.paper = true) :
    exec .paperSensorAbsent s = .next (sensorLost (withPaperLine false s)) := by
  rw [exec_paperSensorAbsent hs, sensorPresent_of_not_driven hd, hl,
    sensorChange_lost (sensorPresent_of_not_driven (driven_withPaperLine false ▸ hd))]

/-- With PAPER_ABSENT not driven the return of the sensor is taken. -/
theorem exec_sensor_found (hs : Settled s) (hd : driven s .paperAbsent = false) (hl : s.lines.paper = false) :
    exec .paperSensorPresent s = .next (sensorFound (withPaperLine true s)) := by
  rw [exec_paperSensorPresent hs, sensorPresent_of_not_driven hd, hl,
    sensorChange_found (sensorPresent_of_not_driven (driven_withPaperLine true ▸ hd))]

/-! ## Timers (R158, R162) -/

/-- The hold delay takes a READY part at rest, its timer running, to HOLD. -/
theorem exec_holdTimerExpiry (hs : Settled s) : exec .holdTimerExpiry s =
    .next (if s.engine.state = .ready ∧ s.engine.holdTimer.isSome = true ∧ inMotion s = false then
      { s with engine := { s.engine with state := .hold, holdTimer := none } } else s) := by
  rw [exec, execHoldTimerExpiry, hs.acting]

/-- The warm-up's end enters the homing, or UNREADY, with WAKE raised. -/
theorem exec_warmupExpiry (hs : Settled s) (hw : s.engine.state = .warming) (ht : s.engine.warmTimer ≠ none) {u : State}
    (hu : u = { s with engine := { s.engine with wakeTarget := none, warmTimer := none } }) :
    exec .warmupExpiry s = .next (raise .wake (if s.engine.wakeTarget = some .homing then enterHoming u
      else { u with engine := { u.engine with state := .unready } })) := by
  subst hu
  rw [exec, execWarmupExpiry, hs.acting, if_pos ⟨hw, Option.isSome_iff_ne_none.mpr ht⟩]
  rcases s.engine.wakeTarget with _ | _ | _ <;> rfl

/-- A warm-up timer that does not run brings nothing. -/
theorem exec_warmupExpiry_stopped (hs : Settled s) (h : s.engine.state ≠ .warming ∨ s.engine.warmTimer = none) :
    exec .warmupExpiry s = .next s := by
  rw [exec, execWarmupExpiry, hs.acting, if_neg fun ⟨hw, ht⟩ => h.elim (· hw) (Option.isSome_iff_ne_none.mp ht)]

/-! ## The cooling tick (R118, R122) -/

theorem exec_coolingTick (hs : Settled s) :
    exec .coolingTick s = .next (retest (setHeat (cooled (paramNat s .coolshift) s.heat.h) s)) := by
  rw [exec, execCoolingTick, hs.acting]

/-- A tick takes at least 1 and never more than H. -/
theorem cooled_eq {k n h : Nat} (h0 : n = 0 → h = 0) (h1 : 1 ≤ n → h + max 1 (n / 2 ^ k) = n) : cooled k n = h := by
  unfold cooled
  rcases Nat.eq_zero_or_pos n with hn | hn
  · rw [h0 hn, hn, Nat.zero_sub]
  · have := h1 hn
    omega

end Sys2Proof.SensorsAndTimers

namespace Sys2Proof

open Sys2Proof.Machine Sys2Proof.SensorsAndTimers

/-- Settles O49: pulse and sensor by whether the overlay drives their input, each timer by whether it runs, the tick by
`cooled_eq`. -/
theorem sensorsAndTimersAct : Obligations.SensorsAndTimersAct := by
  refine ⟨fun s u v hs hu hv => ⟨fun hd hj => ?_, fun hj => exec_pulse_suppressed hs (.inr hj),
      fun hm hb => exec_pulse_suppressed hs (.inl (driven_iff.mpr ⟨hm, hb⟩)), fun h => ?_, fun h => ?_, fun h => ?_⟩,
    fun s hs => ⟨fun hr ht hm => ?_, fun h => ?_, fun hw ht u hu => ⟨fun hk => ?_, fun hk => ?_⟩,
      exec_warmupExpiry_stopped hs, fun h h0 h1 => ?_⟩⟩
  · rw [exec_pulse_taken hs (driven_eq_false_iff.mpr hd) hj]
    exact congrArg _ (if_congr observed_iff rfl rfl)
  · rw [exec_paperSensorAbsent hs,
      sensorChange_same (sensorPresent_withPaperLine_same (h.imp id driven_iff.mpr)), hu]
    rfl
  · rw [exec_paperSensorPresent hs,
      sensorChange_same (sensorPresent_withPaperLine_same (h.imp id driven_iff.mpr)), hv]
    rfl
  · have hd : driven s .paperAbsent = false := driven_eq_false_iff.mpr h
    subst hu hv
    refine ⟨fun hl => ?_, fun hl => ?_⟩
    · rw [exec_sensor_lost hs hd hl]
      exact ⟨fun hp => congrArg _ (if_pos hp), fun hp => congrArg _ (if_neg hp)⟩
    · rw [exec_sensor_found hs hd hl]
      exact ⟨fun he hn => congrArg (fun t => Host.Outcome.next (wakeIfDue t)) (if_pos ⟨he, hn⟩),
        fun h => congrArg (fun t => Host.Outcome.next (wakeIfDue t)) (if_neg fun ⟨he, hn⟩ => h.elim (· he) hn)⟩
  · rw [exec_holdTimerExpiry hs, if_pos ⟨hr, Option.isSome_iff_ne_none.mpr ht, hm⟩]
  · rw [exec_holdTimerExpiry hs, if_neg]
    rintro ⟨hr, ht, hm⟩
    rcases h with h | h | h
    · exact h hr
    · simp [h] at ht
    · simp [h] at hm
  · rw [exec_warmupExpiry hs hw ht hu, if_pos hk]
  · rw [exec_warmupExpiry hs hw ht hu, if_neg hk]
  · rw [exec_coolingTick hs, cooled_eq h0 h1]
    rfl

end Sys2Proof
end

