-- ==== Sys2Proof/Proofs/FormRequests.lean ====
section
/-! FORM: its range checks and when a definition is applied at once: O25. -/

namespace Sys2Proof.FormRequests

open Sys2Proof.Machine

variable {s : State} {f : FormReq}

/-! ## The checks of R130 -/

/-- Comparing neighbours, and the last position with the length, compares every pair and bounds every position. -/
theorem positionsRise_iff (length : Nat) (stops : List StopReq) : positionsRise length stops = true ↔
    stops.Pairwise (fun x y => x.position.toNat < y.position.toNat) ∧ ∀ x ∈ stops, x.position.toNat < length := by
  induction stops with
  | nil => simp [positionsRise]
  | cons x tail ih =>
    cases tail with
    | nil => simp [positionsRise]
    | cons y rest =>
      rw [positionsRise, Bool.and_eq_true, decide_eq_true_iff, ih, List.pairwise_cons (l := y :: rest),
        List.forall_mem_cons (l := y :: rest)]
      refine ⟨fun ⟨hxy, hrise, hbelow⟩ => ?_, fun ⟨⟨hx, hrise⟩, _, hbelow⟩ => ⟨hx y List.mem_cons_self, hrise, hbelow⟩⟩
      have hy : ∀ z ∈ rest, y.position.toNat < z.position.toNat := (List.pairwise_cons.mp hrise).1
      have hx : ∀ z ∈ y :: rest, x.position.toNat < z.position.toNat :=
        List.forall_mem_cons.mpr ⟨hxy, fun z hz => hxy.trans (hy z hz)⟩
      exact ⟨⟨hx, hrise⟩, hxy.trans (hbelow y List.mem_cons_self), hbelow⟩

theorem channelsValid_iff (c : BitVec 16) : channelsValid c = true ↔ c ≠ 0#16 ∧ c &&& 0xE001#16 = 0#16 := by
  simp [channelsValid]

/-- The first stop of a list that is not empty stands at 0 and is in channel 1 (R130). -/
theorem firstStop_iff {stops : List StopReq} (h : 1 ≤ stops.length) :
    (stops.head?).any (fun x => decide (x.position = 0#16) && x.channels.getLsbD 1) = true ↔
      ∀ x, stops.head? = some x → x.position.toNat = 0 ∧ x.channels.getLsbD 1 = true := by
  cases stops with
  | nil => simp at h
  | cons x rest => simp [← BitVec.toNat_inj]

/-- FORM's checks pass exactly on a definition within its ranges (R129, R130). -/
theorem formValid_iff (f : FormReq) : formValid f = true ↔ FormOk (formDefOf f) := by
  have hmap {p : Stop → Prop} : (∀ x ∈ (formDefOf f).stops, p x) ↔
      ∀ x ∈ f.stops, p ⟨x.position.toNat, x.channels⟩ := List.forall_mem_map
  have hhead {p : Stop → Prop} : (∀ x, (formDefOf f).stops.head? = some x → p x) ↔
      ∀ x, f.stops.head? = some x → p ⟨x.position.toNat, x.channels⟩ := by
    simp [formDefOf]
  simp only [FormOk, hmap, hhead]
  simp only [formValid, formDefOf, Bool.and_eq_true, decide_eq_true_iff, List.all_eq_true, positionsRise_iff,
    channelsValid_iff, List.length_map, List.pairwise_map, and_assoc]
  constructor
  · rintro ⟨hl, hl', hp, hp', ht, hb, hskip, htear, htear', hn, hn', hch, hfirst, hrise, hbelow⟩
    exact ⟨hl, hl', hp, hp', htear, htear', ht, hb, hskip, hn, hn', (firstStop_iff hn).mp hfirst, hrise,
      fun x hx => ⟨hbelow x hx, hch x hx⟩⟩
  · rintro ⟨hl, hl', hp, hp', htear, htear', ht, hb, hskip, hn, hn', hfirst, hrise, hstops⟩
    exact ⟨hl, hl', hp, hp', ht, hb, hskip, htear, htear', hn, hn', fun x hx => (hstops x hx).2,
      (firstStop_iff hn).mpr hfirst, hrise, fun x hx => (hstops x hx).1⟩

/-! ## Applied at once or pending (R131) -/

theorem formAtOnce_iff : formAtOnce s = true ↔ s.paper.state = .out ∨
    (s.paper.y = 0 ∧ s.queue = [] ∧ s.exec.state = .idle ∧ s.paper.tearPresented = false) := by
  simp [formAtOnce, loaded, and_assoc]

theorem doForm_refused (h : ¬FormOk (formDefOf f)) : doForm (some f) s = (s, formReply .badValue s) := by
  simp [doForm, (formValid_iff f).not.mpr h]

/-- The state with a definition active and none pending. -/
def withActive (d : FormDef) (s : State) : State := { s with paper := { s.paper with active := d, next := none } }

/-- The state with a definition pending. -/
def withPending (d : FormDef) (s : State) : State := { s with paper := { s.paper with next := some d } }

theorem doForm_at_once (h : FormOk (formDefOf f)) (ha : formAtOnce s = true) :
    doForm (some f) s = (withActive (formDefOf f) s, formReply .ok (withActive (formDefOf f) s)) := by
  simp [doForm, (formValid_iff f).mpr h, Paper.takeForm, ha, withActive]

theorem doForm_pending (h : FormOk (formDefOf f)) (ha : ¬formAtOnce s = true) :
    doForm (some f) s = (withPending (formDefOf f) s, formReply .ok (withPending (formDefOf f) s)) := by
  simp [doForm, (formValid_iff f).mpr h, Paper.takeForm, ha, withPending]

end Sys2Proof.FormRequests

namespace Sys2Proof

open Sys2Proof.Machine Sys2Proof.FormRequests

/-- Settles O25: FORM by `formValid_iff` and `formAtOnce_iff`. -/
theorem formIsAppliedOrPending : Obligations.FormIsAppliedOrPending := by
  refine fun tag s => ⟨fun hr => HeadTables.exec_replied hr rfl rfl rfl rfl, fun f d hr hd => ?_⟩
  obtain rfl : d = formDefOf f := hd
  refine ⟨fun hbad => ?_, fun hok hat u hu => ?_, fun hok hout hnot u hu => ?_⟩
  · exact HeadTables.exec_replied hr rfl rfl rfl (doForm_refused (s := dropOldest s) hbad)
  · rw [hu]
    exact HeadTables.exec_replied hr rfl rfl rfl (doForm_at_once (s := dropOldest s) hok (formAtOnce_iff.mpr hat))
  · have hno : ¬formAtOnce (dropOldest s) = true := fun ha => by
      obtain h | ⟨hy, hq, hx, hp⟩ := formAtOnce_iff.mp ha
      · exact hout h
      · exact hnot.elim (· hy) (·.elim (· hq) (·.elim (· hx) (Bool.eq_false_iff.mp hp)))
    rw [hu]
    exact HeadTables.exec_replied hr rfl rfl rfl (doForm_pending (s := dropOldest s) hok hno)

end Sys2Proof
end

