-- ==== Sys2Proof/Proofs/FeedSteps.lean ====
section
/-! FEED_STEP: when a move makes a step, and what the step changes record by record: O46. -/

namespace Sys2Proof.FeedSteps

open Sys2Proof.Machine

variable {s : State} {m : FeedMove} {u : Purpose}

/-! ## Whether a step is made (R137, R138, R142, R149, R151) -/

theorem exec_feedStep (h : Settled s) (hm : s.paper.move = some m) :
    exec .feedStep s = .next (if stepAllowed m s then feedOne m s else s) := by
  simp only [exec, execFeedStep, h.acting, hm]

/-- Only an eject is ever over: once it has ended, or with its L steps made and the sensor present (R149). -/
theorem over_false_iff {st : PaperState} : m.over st = false ↔
    ∀ k, m.purpose = .eject k → m.ended = false ∧ (m.made < k ∨ st ≠ .loaded) := by
  rw [← Bool.not_eq_true, FeedMoveEnds.over_iff]
  simp only [not_exists, not_and, not_or, Bool.not_eq_true, imp_iff_not_or (b := ¬st = .loaded), Nat.not_le]

theorem over_eject_iff {k : Nat} {st : PaperState} (hp : m.purpose = .eject k) :
    m.over st = false ↔ m.ended = false ∧ (m.made < k ∨ st ≠ .loaded) := by
  rw [over_false_iff]
  exact ⟨fun h => h k hp, fun h j hj => by rwa [← Purpose.eject.inj (hp.symm.trans hj)]⟩

theorem over_other {st : PaperState} (hk : ∀ k, m.purpose ≠ .eject k) : m.over st = false :=
  over_false_iff.mpr fun k hp => absurd hp (hk k)

/-- A move makes another step with no jam or paper end due, and while it is not over: an eject that no stop has cut
short, and any other move, or an eject in a stop, for the steps left to it. -/
theorem stepAllowed_iff : stepAllowed m s = true ↔ s.paper.jamDue = false ∧ atPaperEnd s = false ∧
    (∀ k, m.purpose ≠ .preload k) ∧ m.over s.paper.state = false ∧
    (1 ≤ m.left ∨ m.stopping = false ∧ ∃ k, m.purpose = .eject k) := by
  unfold stepAllowed
  cases hp : m.purpose
  case eject => cases m.stopping <;> simp [and_assoc, Nat.one_le_iff_ne_zero, Nat.pos_iff_ne_zero]
  all_goals simp [over_other, hp, and_assoc, Nat.one_le_iff_ne_zero, Nat.pos_iff_ne_zero]

/-- An eject that is over makes no step, in a stop or not. -/
theorem not_stepAllowed_of_over {k : Nat} (hp : m.purpose = .eject k)
    (h : m.ended = true ∨ (k ≤ m.made ∧ s.paper.state = .loaded)) : ¬stepAllowed m s = true := fun ha => by
  obtain ⟨-, -, -, ho, -⟩ := stepAllowed_iff.mp ha
  exact Bool.eq_false_iff.mp ho (FeedMoveEnds.over_iff.mpr ⟨k, hp, h⟩)

theorem atPaperEnd_eq_false (h : ¬(s.paper.state = .ending ∧ s.paper.remaining = 0)) : atPaperEnd s = false :=
  Bool.eq_false_iff.mpr (PassMotions.atPaperEnd_iff.not.mpr h)

theorem exec_feedStep_made (h : Settled s) (hm : s.paper.move = some m) (ha : stepAllowed m s = true) :
    exec .feedStep s = .next (feedOne m s) := by
  rw [exec_feedStep h hm, if_pos ha]

theorem exec_feedStep_nothing (h : Settled s) (hm : s.paper.move = some m) (ha : ¬stepAllowed m s = true) :
    exec .feedStep s = .next s := by
  rw [exec_feedStep h hm, if_neg ha]

section Made

variable (hset : Settled s) (hm : s.paper.move = some m) (hj : s.paper.jamDue = false)
  (hend : ¬(s.paper.state = .ending ∧ s.paper.remaining = 0))

include hset hm

/-- A jam that is due and a paper end each keep the move from stepping. -/
theorem exec_feedStep_due (h : s.paper.jamDue = true ∨ (s.paper.state = .ending ∧ s.paper.remaining = 0)) :
    exec .feedStep s = .next s := by
  refine exec_feedStep_nothing hset hm fun ha => ?_
  obtain ⟨hj, he, -⟩ := stepAllowed_iff.mp ha
  exact h.elim (Bool.eq_false_iff.mp hj) fun h => Bool.eq_false_iff.mp he (PassMotions.atPaperEnd_iff.mpr h)

/-- The model holds a preload as a feed move (log 26), which makes no feed step. -/
theorem exec_feedStep_preload {k : Nat} (hp : m.purpose = .preload k) : exec .feedStep s = .next s :=
  exec_feedStep_nothing hset hm fun ha =>
    have ⟨_, _, hk, _⟩ := stepAllowed_iff.mp ha
    hk k hp

theorem exec_feedStep_over {k : Nat} (hp : m.purpose = .eject k)
    (h : m.ended = true ∨ (k ≤ m.made ∧ s.paper.state = .loaded)) : exec .feedStep s = .next s :=
  exec_feedStep_nothing hset hm (not_stepAllowed_of_over hp h)

/-- With no step left nothing moves, unless it is an eject that no stop has cut short. -/
theorem exec_feedStep_none_left (h : m.left = 0) (hn : m.stopping = true ∨ ∀ k, m.purpose ≠ .eject k) :
    exec .feedStep s = .next s := by
  refine exec_feedStep_nothing hset hm fun ha => ?_
  obtain ⟨-, -, -, -, hl | ⟨hs, k, hp⟩⟩ := stepAllowed_iff.mp ha
  · omega
  · exact hn.elim (Bool.eq_false_iff.mp hs) fun hn => hn k hp

include hj hend

/-- A step that is left to a move which is not over is made. -/
theorem exec_feedStep_left (h : 1 ≤ m.left) (hk : ∀ k, m.purpose ≠ .preload k)
    (ho : ∀ k, m.purpose = .eject k → m.ended = false ∧ (m.made < k ∨ s.paper.state ≠ .loaded)) :
    exec .feedStep s = .next (feedOne m s) :=
  exec_feedStep_made hset hm
    (stepAllowed_iff.mpr ⟨hj, atPaperEnd_eq_false hend, hk, over_false_iff.mpr ho, .inl h⟩)

/-- An eject that is neither over nor in a stop steps on, whatever is left to it (R149). -/
theorem exec_feedStep_eject {k : Nat} (hp : m.purpose = .eject k) (hs : m.stopping = false)
    (ho : m.ended = false ∧ (m.made < k ∨ s.paper.state ≠ .loaded)) :
    exec .feedStep s = .next (feedOne m s) :=
  exec_feedStep_made hset hm
    (stepAllowed_iff.mpr ⟨hj, atPaperEnd_eq_false hend, by simp [hp], (over_eject_iff hp).mpr ho, .inr ⟨hs, k, hp⟩⟩)

end Made

/-! ## The position (R133 to R136) -/

/-- The state with the next form's top reached and counted (R135). -/
def crossed (s : State) : State :=
  count .formsCrossed 1 { s with paper := { s.paper with y := 0, form := s.paper.form + 1#16 } }

theorem crossForward_present : crossForward .present s = crossed s := rfl

theorem crossForward_other (h : u ≠ .present) : crossForward u s = applyNext (crossed s) := by
  cases u
  case present => exact absurd rfl h
  all_goals rfl

/-- A step that reaches the next form's top (R135). -/
def crossesTop (m : FeedMove) (s : State) : Prop :=
  s.paper.state ≠ .out ∧ m.dir = .forward ∧ s.paper.active.length ≤ s.paper.y + 1

theorem not_crossesTop_of_reverse (h : m.dir = .reverse) : ¬crossesTop m s := fun ⟨_, hd, _⟩ => by simp [h] at hd

theorem stepPosition_crossing (h : crossesTop m s) : stepPosition m s = crossForward m.purpose s := by
  obtain ⟨hl, hd, hy⟩ := h
  simp [stepPosition, loaded, hl, hd, hy]

theorem stepPosition_out (h : s.paper.state = .out) : stepPosition m s = s := by
  simp [stepPosition, loaded, h]

section Loaded

variable (h : s.paper.state ≠ .out)

include h

theorem stepPosition_within (hd : m.dir = .forward) (hy : s.paper.y + 1 < s.paper.active.length) :
    stepPosition m s = { s with paper := { s.paper with y := s.paper.y + 1 } } := by
  simp [stepPosition, loaded, h, hd, Nat.not_le.mpr hy]

theorem stepPosition_back (hd : m.dir = .reverse) (hy : 1 ≤ s.paper.y) :
    stepPosition m s = { s with paper := { s.paper with y := s.paper.y - 1 } } := by
  simp [stepPosition, loaded, h, hd, Nat.one_le_iff_ne_zero.mp hy]

theorem stepPosition_wrap (hd : m.dir = .reverse) (hy : s.paper.y = 0) : stepPosition m s =
    { s with paper := { s.paper with y := s.paper.active.length - 1, form := s.paper.form - 1#16 } } := by
  simp [stepPosition, loaded, h, hd, hy]

end Loaded

/-- A step of the position crosses forward into the next form, or changes y and the form number alone. -/
theorem stepPosition_cases (m : FeedMove) (s : State) :
    (crossesTop m s ∧ stepPosition m s = crossForward m.purpose s) ∨
      (¬crossesTop m s ∧ ∃ y form, stepPosition m s = { s with paper := { s.paper with y := y, form := form } }) := by
  by_cases hl : s.paper.state = .out
  · exact .inr ⟨fun ⟨h, _⟩ => h hl, _, _, stepPosition_out hl⟩
  · cases hd : m.dir with
    | forward =>
      by_cases hy : s.paper.active.length ≤ s.paper.y + 1
      · exact .inl ⟨⟨hl, hd, hy⟩, stepPosition_crossing ⟨hl, hd, hy⟩⟩
      · exact .inr ⟨fun ⟨_, _, h⟩ => hy h, _, _, stepPosition_within hl hd (Nat.not_le.mp hy)⟩
    | reverse =>
      refine .inr ⟨not_crossesTop_of_reverse hd, ?_⟩
      by_cases hy : s.paper.y = 0
      · exact ⟨_, _, stepPosition_wrap hl hd hy⟩
      · exact ⟨_, _, stepPosition_back hl hd (Nat.one_le_iff_ne_zero.mpr hy)⟩

/-- Of the paper record a crossing changes the definitions, y and the form number alone. -/
theorem crossForward_paper (u : Purpose) (s : State) : ∃ active next, (crossForward u s).paper =
    { s.paper with active := active, next := next, y := 0, form := s.paper.form + 1#16 } := by
  by_cases h : u = .present
  · exact ⟨_, _, congrArg State.paper (h ▸ crossForward_present)⟩
  · exact ⟨_, _, congrArg State.paper (crossForward_other h)⟩

/-- A crossing is counted (R135). -/
theorem crossForward_live (u : Purpose) (s : State) :
    (crossForward u s).counters.live = s.counters.live.count .formsCrossed 1 := by
  by_cases h : u = .present
  · exact congrArg (fun t => t.counters.live) (h ▸ crossForward_present)
  · exact congrArg (fun t => t.counters.live) (crossForward_other h)

/-- Of the paper record a step of the position changes the definitions, y and the form number alone. -/
theorem stepPosition_paper (m : FeedMove) (s : State) : ∃ active next y form,
    (stepPosition m s).paper = { s.paper with active := active, next := next, y := y, form := form } := by
  obtain ⟨-, h⟩ | ⟨-, y, form, h⟩ := stepPosition_cases m s
  · obtain ⟨active, next, hp⟩ := crossForward_paper m.purpose s
    exact ⟨_, _, _, _, (congrArg State.paper h).trans hp⟩
  · exact ⟨s.paper.active, s.paper.next, y, form, congrArg State.paper h⟩

theorem stepPosition_live_crossing (h : crossesTop m s) :
    (stepPosition m s).counters.live = s.counters.live.count .formsCrossed 1 := by
  rw [stepPosition_crossing h, crossForward_live]

theorem stepPosition_live_same (h : ¬crossesTop m s) : (stepPosition m s).counters.live = s.counters.live := by
  obtain ⟨hc, -⟩ | ⟨-, y, form, e⟩ := stepPosition_cases m s
  · exact absurd hc h
  · rw [e]

/-- A step of the position counts nothing but a crossing. -/
theorem stepPosition_general {i : Fin 10} (h : ¬crossesTop m s ∨ General.formsCrossed.index ≠ i) :
    (stepPosition m s).counters.live.general[i] = s.counters.live.general[i] := by
  by_cases hc : crossesTop m s
  · rw [stepPosition_live_crossing hc]
    exact Trips.bankCount_other _ 1 (h.resolve_left (not_not_intro hc))
  · rw [stepPosition_live_same hc]

/-! ## Events (R133, R174, R186) -/

theorem count_events {c : General} {k n : Nat} (hn : n < 13) (h : s.link.events.getLsbD n = true) :
    (count c k s).link.events.getLsbD n = true := by
  have hc := QueueAndSlots.raiseIf_events (s.counters.live.halves c k) .counterHalf s hn
  exact hc.trans (by rw [h, Bool.true_or])

theorem testTripIf_events {b : Bool} {c : TripCause} {n : Nat} (hn : n < 13) (h : s.link.events.getLsbD n = true) :
    (testTripIf b c s).link.events.getLsbD n = true := by
  cases b
  · exact h
  · exact (QueueAndSlots.raiseIf_events _ .testTrip _ hn).trans (Bool.or_eq_true_iff.mpr (.inl h))

/-- A test trip whose cause was not in the set is told (R174). -/
theorem testTripFor_told {c : TripCause} (h : s.engine.testTrips.getLsbD (causeIndex c) = false) :
    (testTripFor c s).link.events.getLsbD 5 = true := by
  rw [testTripFor, QueueAndSlots.raiseIf_events _ _ _ (by decide), h]
  simp [Event.number]

/-! ## One step, record by record (R137) -/

/-- The paper record of a step, the move and the position apart: tear state, unpulsed steps and remaining distance. -/
def steppedPaper (m : FeedMove) (jamlim : Nat) (test : Bool) (p : Paper) : Paper :=
  ((p.stepTear m.purpose).stepUnpulsed jamlim test).stepRemaining m.dir

theorem feedOne_paper (m : FeedMove) (s : State) : (feedOne m s).paper =
    { steppedPaper m (paramNat s .jamlim) (testJams s) (stepPosition m s).paper with move := some m.stepped } := by
  simp [feedOne, steppedPaper]

/-- Position, form number and definitions after a step are those of the position's own step. -/
theorem feedOne_place (m : FeedMove) (s : State) : (feedOne m s).paper.y = (stepPosition m s).paper.y ∧
    (feedOne m s).paper.form = (stepPosition m s).paper.form ∧
    (feedOne m s).paper.active = (stepPosition m s).paper.active ∧
    (feedOne m s).paper.next = (stepPosition m s).paper.next := by
  simp [feedOne_paper, steppedPaper]

theorem feedOne_live (m : FeedMove) (s : State) :
    (feedOne m s).counters.live = (stepPosition m s).counters.live.count .feedSteps 1 := by
  simp only [feedOne, testTripIf_frame]
  rfl

theorem feedOne_events {n : Nat} (hn : n < 13) (h : (stepPosition m s).link.events.getLsbD n = true) :
    (feedOne m s).link.events.getLsbD n = true :=
  testTripIf_events hn (count_events hn h)

theorem feedOne_motorStep (m : FeedMove) (s : State) :
    (feedOne m s).motorStep = some ⟨true, decide (param s .path = 0), m.dir⟩ := by
  by_cases h : param s .path = 0 <;> simp [feedOne, feedMotors, path, h]

/-- The unpulsed steps reach JAMLIM as R151 counts them, within their range. -/
theorem jamlim_le_oneMore (s : State) (n : Nat) :
    paramNat s .jamlim ≤ oneMore n ↔ param s .jamlim ≤ (min 240 (n + 1) : Nat) := Int.toNat_le

theorem testJams_eq (s : State) : testJams s = (decide (s.engine.overlayMode = .observe) &&
    decide (param s .jamlim ≤ (min 240 (s.paper.observedUnpulsed + 1) : Nat)) &&
      !decide (param s .jamlim ≤ (min 240 (s.paper.unpulsed + 1) : Nat))) := by
  simp only [testJams, jamlim_le_oneMore]

theorem feedOne_test (h : testJams s = true) :
    (feedOne m s).engine = { s.engine with testTrips := s.engine.testTrips ||| 0x08#6 } ∧
      (s.engine.testTrips.getLsbD 3 = false → (feedOne m s).link.events.getLsbD 5 = true) := by
  have he : (stepPosition m s).engine = s.engine := by simp
  simp only [feedOne, testTripIf, h, if_true]
  refine ⟨?_, fun hb => testTripFor_told ?_⟩
  · rw [← he]
    rfl
  · rw [← hb, ← he]
    rfl

theorem feedOne_no_test (h : testJams s = false) : (feedOne m s).engine = s.engine := by
  simp [feedOne, testTripIf, h]

/-- The unpulsed steps after a step, and the judgement for a jam (R151, R174). -/
theorem feedOne_unpulsed (m : FeedMove) (s : State) :
    (feedOne m s).paper.unpulsed = min 240 (s.paper.unpulsed + 1) ∧
      (feedOne m s).paper.observedUnpulsed =
        (if testJams s then 0 else min 240 (s.paper.observedUnpulsed + 1)) ∧
      ((feedOne m s).paper.jamDue = true ↔ param s .jamlim ≤ (min 240 (s.paper.unpulsed + 1) : Nat)) := by
  obtain ⟨active, next, y, form, hp⟩ := stepPosition_paper m s
  simp only [feedOne_paper, steppedPaper, Paper.stepRemaining_frame, Paper.stepUnpulsed_unpulsed,
    Paper.stepTear_frame, hp, decide_eq_true_iff, jamlim_le_oneMore]
  exact ⟨rfl, rfl, trivial⟩

/-- A forward step in ENDING uses up remaining distance, no other step does (R142). -/
theorem feedOne_remaining (m : FeedMove) (s : State) : (feedOne m s).paper.remaining =
    if s.paper.state = .ending ∧ m.dir = .forward then s.paper.remaining - 1 else s.paper.remaining := by
  obtain ⟨active, next, y, form, hp⟩ := stepPosition_paper m s
  rw [feedOne_paper, hp]
  cases hd : m.dir <;> by_cases he : s.paper.state = .ending <;>
    simp [steppedPaper, Paper.stepRemaining, hd, he]

/-- A presentation moves the tear distance out, a retract back, ending the presentation at 0 (R147, R148). -/
theorem feedOne_tear (m : FeedMove) (s : State) :
    (feedOne m s).paper.tearDistance = (if m.purpose = .present then s.paper.tearDistance + 1
      else if m.purpose = .retract then s.paper.tearDistance - 1 else s.paper.tearDistance) ∧
    ((feedOne m s).paper.tearPresented = true ↔
      s.paper.tearPresented = true ∧ (m.purpose = .retract → 1 < s.paper.tearDistance)) := by
  obtain ⟨active, next, y, form, hp⟩ := stepPosition_paper m s
  rw [feedOne_paper, hp]
  cases hu : m.purpose <;> simp [steppedPaper, Paper.stepTear, hu]

/-! The GENERAL counters after a step: the feed steps rise, the forms by a crossing, no other (R135, R137). -/

theorem feedOne_feedSteps (m : FeedMove) (s : State) : (feedOne m s).counters.live.general[(3 : Fin 10)] =
    min (s.counters.live.general[(3 : Fin 10)] + 1) 4294967295 := by
  rw [feedOne_live, ← stepPosition_general (m := m) (.inr (by decide))]
  exact Trips.bankCount_same _ .feedSteps 1

/-- Every counter but the feed steps is as the position's own step leaves it. -/
theorem feedOne_general {i : Fin 10} (hi : General.feedSteps.index ≠ i) :
    (feedOne m s).counters.live.general[i] = (stepPosition m s).counters.live.general[i] := by
  rw [feedOne_live]
  exact Trips.bankCount_other _ 1 hi

theorem feedOne_general_same {i : Fin 10} (hi : General.feedSteps.index ≠ i)
    (hc : ¬crossesTop m s ∨ General.formsCrossed.index ≠ i) :
    (feedOne m s).counters.live.general[i] = s.counters.live.general[i] := by
  rw [feedOne_general hi, stepPosition_general hc]

theorem feedOne_formsCrossed (h : crossesTop m s) : (feedOne m s).counters.live.general[(4 : Fin 10)] =
    min (s.counters.live.general[(4 : Fin 10)] + 1) 4294967295 := by
  rw [feedOne_general (by decide), stepPosition_live_crossing h]
  exact Trips.bankCount_same _ .formsCrossed 1

theorem feedOne_strikes (m : FeedMove) (s : State) :
    (feedOne m s).counters.live.strikes = s.counters.live.strikes := by
  rw [feedOne_live]
  by_cases h : crossesTop m s
  · rw [stepPosition_live_crossing h]
    rfl
  · rw [stepPosition_live_same h]
    rfl

/-- A crossing brings the top of the next form (R135). -/
theorem feedOne_top (h : crossesTop m s) :
    (feedOne m s).paper.y = 0 ∧ (feedOne m s).paper.form = s.paper.form + 1#16 := by
  obtain ⟨hy, hform, -⟩ := feedOne_place m s
  obtain ⟨_, _, hp⟩ := crossForward_paper m.purpose s
  rw [hy, hform, stepPosition_crossing h, hp]
  exact ⟨rfl, rfl⟩

/-- A crossing's definitions: a presentation keeps them, any other move applies a pending one and tells it (R133,
R135). -/
theorem feedOne_definitions (h : crossesTop m s) :
    (m.purpose = .present →
      (feedOne m s).paper.active = s.paper.active ∧ (feedOne m s).paper.next = s.paper.next) ∧
    (m.purpose ≠ .present → (feedOne m s).paper.next = none ∧
      (feedOne m s).paper.active = s.paper.next.getD s.paper.active ∧
      (s.paper.next.isSome = true → (feedOne m s).link.events.getLsbD 11 = true)) := by
  obtain ⟨-, -, hactive, hnext⟩ := feedOne_place m s
  have hs := stepPosition_crossing h
  rw [hactive, hnext, hs]
  refine ⟨fun hp => ?_, fun hp => ⟨?_, ?_, fun hd => feedOne_events (by decide) ?_⟩⟩
  · rw [hp, crossForward_present]
    exact ⟨rfl, rfl⟩
  · rw [crossForward_other hp]
    rfl
  · rw [crossForward_other hp]
    rfl
  · rw [hs, crossForward_other hp]
    refine (QueueAndSlots.raiseIf_events _ .formApplied (crossed s) (by decide)).trans ?_
    exact Bool.or_eq_true_iff.mpr (.inr (by rw [Bool.and_eq_true]; exact ⟨hd, rfl⟩))

/-- All that a step changes lies in the paper record, the counters, the link's events, the test trips and the motors. -/
theorem feedOne_rest (m : FeedMove) (s : State) : { feedOne m s with
    paper := s.paper, counters := s.counters, link := s.link, engine := s.engine, motorStep := s.motorStep } = s := by
  simp

end Sys2Proof.FeedSteps

namespace Sys2Proof

open Sys2Proof.Machine Sys2Proof.FeedSteps

/-- Settles O46: whether a step is made by `stepAllowed_iff`, what it changes by `stepPosition` and the records of
`feedOne`. -/
theorem feedStepMovesThePaper : Obligations.FeedStepMovesThePaper := by
  rintro s m hm t rfl
  obtain ⟨hy, hform, hactive, hnext⟩ := feedOne_place m s
  obtain ⟨hunpulsed, hobserved, hjam⟩ := feedOne_unpulsed m s
  obtain ⟨htear, hpresented⟩ := feedOne_tear m s
  refine ⟨fun hset => ⟨fun hs hj hend => ⟨fun hp => ?_, fun k hp => ⟨fun he ho => ?_, exec_feedStep_over hset hm hp⟩,
      fun k hp => exec_feedStep_preload hset hm hp⟩, fun hs hj hend hk => ⟨fun h1 ho => ?_, ?_⟩,
      exec_feedStep_due hset hm⟩,
    feedOne_motorStep m s, fun test htest => ?_, by rw [feedOne_paper]; rfl, fun hout => ?_, fun hl hd hlt => ?_,
    fun hl hd heq => ?_, fun hl hd h1 => ?_, fun hl hd h0 => ?_, feedOne_feedSteps m s, hunpulsed, hjam, by simp,
    feedOne_remaining m s, htear, hpresented, fun g h3 h4 => ?_, fun hno => ?_, feedOne_strikes m s, by simp,
    feedOne_rest m s⟩
  · have hk : (∀ k, m.purpose ≠ .preload k) ∧ ∀ k, m.purpose ≠ .eject k := by
      rcases hp with hp | hp | hp | ⟨b, hp⟩ | hp | hp | hp <;> simp [hp]
    exact ⟨fun h1 => exec_feedStep_left hset hm hj hend h1 hk.1 fun k hp => absurd hp (hk.2 k),
      fun h0 => exec_feedStep_none_left hset hm h0 (.inr hk.2)⟩
  · exact exec_feedStep_eject hset hm hj hend hp hs ⟨he, ho⟩
  · exact exec_feedStep_left hset hm hj hend h1 hk ho
  · rintro (h0 | ⟨k, hp, ho⟩)
    · exact exec_feedStep_none_left hset hm h0 (.inl hs)
    · exact exec_feedStep_over hset hm hp ho
  · obtain rfl : test = testJams s := htest.trans (testJams_eq s).symm
    refine ⟨fun h => ⟨by rw [hobserved, if_pos h], feedOne_test h⟩, fun h => ⟨?_, feedOne_no_test h⟩⟩
    rw [hobserved, if_neg (Bool.eq_false_iff.mp h)]
  · rw [hy, hform, stepPosition_out hout]
    exact ⟨rfl, rfl⟩
  · rw [hy, hform, hactive, hnext, stepPosition_within hl hd hlt]
    exact ⟨rfl, rfl, rfl, rfl⟩
  · have hc : crossesTop m s := ⟨hl, hd, heq.ge⟩
    obtain ⟨hy0, hf1⟩ := feedOne_top hc
    obtain ⟨hkept, happlied⟩ := feedOne_definitions hc
    refine ⟨hy0, hf1, feedOne_formsCrossed hc, hkept, fun hu => ?_⟩
    obtain ⟨hnone, hdef, htold⟩ := happlied hu
    refine ⟨hnone, fun d hd => ⟨?_, htold (by rw [hd]; rfl)⟩, fun hd => ?_⟩ <;>
      rw [hdef, hd] <;> rfl
  · rw [hy, hform, hactive, stepPosition_back hl hd h1]
    exact ⟨rfl, rfl, rfl⟩
  · have hcount : (feedOne m s).counters.live.general[(4 : Fin 10)] = s.counters.live.general[(4 : Fin 10)] :=
      feedOne_general_same (by decide) (.inl (not_crossesTop_of_reverse hd))
    rw [hy, hform, hactive, hnext, stepPosition_wrap hl hd h0]
    exact ⟨rfl, rfl, rfl, rfl, hcount⟩
  · exact feedOne_general_same (fun e => h3 (HeadTables.generalIndex_inj e).symm)
      (.inr fun e => h4 (HeadTables.generalIndex_inj e).symm)
  · exact feedOne_general_same (by decide) (.inl fun ⟨hl, _, hy⟩ => hno.elim hl (Nat.not_lt.mpr hy))

end Sys2Proof
end

