-- ==== Sys2Proof/Proofs/TrippedLasts.lean ====
section
/-! TRIPPED, its record and its further causes outlast every command but CLRF, ERST, power-on and the RESET line: O59. -/

namespace Sys2Proof.TrippedLasts

open Sys2Proof.Machine

variable {s t u : State} {c : Instr}

/-! ## The posture of TRIPPED, and what lasts (R155, R164 to R166) -/

/-- TRIPPED with nothing in motion and no pass waiting, as a trip leaves the part (R155, R164). -/
structure Stranded (s : State) : Prop where
  tripped : s.engine.state = .tripped
  carriage : s.carriage.phase = .stopped
  paper : s.paper.move = none
  waits : s.heat.waiting = none

/-- What is in motion, in which engine state, leaves a TRIPPED part at rest: the executor is IDLE and no pass waits. -/
theorem stranded_of_motionInv (h : MotionInv s) (he : s.engine.state = .tripped) : Stranded s := by
  obtain ⟨hc, hm⟩ := MotionAndTrips.inMotion_eq_false.mp (h.rest (by simp [he]) (by simp [he]))
  refine ⟨he, hc, hm, Option.not_isSome_iff_eq_none.mp fun hw => ?_⟩
  have hready := (h.works (by simp [h.waits hw])).2.1
  exact MotionAndTrips.not_tripped_of_readyOrHold hready he

/-- From s to t the part stays TRIPPED, the first-fault record stands and no further cause leaves its set. -/
structure Lasts (s t : State) : Prop where
  state : t.engine.state = .tripped
  record : t.engine.firstFault = s.engine.firstFault
  further : s.engine.further &&& ~~~t.engine.further = 0#6

/-- A change of anything but what lasts. -/
theorem Lasts.upd (h : Lasts s t) (e : (u.engine.state, u.engine.firstFault, u.engine.further) =
    (t.engine.state, t.engine.firstFault, t.engine.further)) : Lasts s u := by
  simp only [Prod.mk.injEq] at e
  obtain ⟨hs, hr, hf⟩ := e
  exact ⟨hs.trans h.state, hr.trans h.record, by rw [hf]; exact h.further⟩

/-- A part whose engine record stands. -/
theorem Stranded.keep (h : Stranded s) (e : t.engine = s.engine) : Lasts s t :=
  ⟨by rw [e, h.tripped], by rw [e], by rw [e]; exact BitVec.and_not_self _⟩

theorem Stranded.refl (h : Stranded s) : Lasts s s := h.keep rfl

/-- What needs something that does not hold of the part does not happen. -/
theorem Stranded.unless {p : Prop} [Decidable p] (h : Stranded s) (hp : ¬p) : Lasts s (if p then t else s) := by
  rw [if_neg hp]
  exact h.refl

/-- A set that gains members loses none. -/
theorem and_not_or {a b : CauseSet} (h : a &&& ~~~b = 0#6) (x : CauseSet) : a &&& ~~~(b ||| x) = 0#6 := by
  rw [BitVec.not_or, ← BitVec.and_assoc, h, BitVec.zero_and]

/-! ## What reaches the engine of a TRIPPED part (R161, R166, R174, R175) -/

/-- Another cause joins the further causes (R166). -/
theorem Lasts.arise (h : Lasts s t) (x : TripCause) : Lasts s (arise x t) := by
  rcases arise_cases x t with ⟨hne, -⟩ | ⟨-, e⟩
  · exact absurd h.state hne
  · rw [e]
    exact ⟨h.state, h.record, and_not_or h.further _⟩

theorem Lasts.ariseIf (h : Lasts s t) (b : Bool) (x : TripCause) : Lasts s (ariseIf b x t) := by
  cases b
  · exact h
  · exact h.arise x

theorem Lasts.ariseLevels (h : Lasts s t) (hot fault : Bool) : Lasts s (ariseLevels hot fault t) := by
  have hf : Lasts s { t with freeCount := t.freeCount + 1 } := h.upd rfl
  unfold Machine.ariseLevels
  dsimp only
  split
  · split
    · exact (hf.arise _).arise _
    · exact (hf.arise _).arise _
  · exact (h.ariseIf _ _).ariseIf _ _

/-- A wake begins in REST alone (R161). -/
theorem wakeIfDue_tripped (h : t.engine.state = .tripped) : wakeIfDue t = t :=
  PrintQueue.wakeIfDue_of_awake (by simp [h])

theorem Lasts.sensorChange (h : Lasts s t) (b : Bool) : Lasts s (sensorChange b t) := by
  unfold Machine.sensorChange
  split
  · exact h.upd (by simp)
  · split
    · unfold sensorFound
      split
      · rw [wakeIfDue_tripped (by exact h.state)]
        exact h.upd rfl
      · rwa [wakeIfDue_tripped h.state]
    · exact h

theorem Lasts.overlayEffects (h : Lasts s t) (before : State) : Lasts s (overlayEffects before t) := by
  refine Lasts.sensorChange ((h.ariseLevels (!headHotLevel before && headHotLevel t)
    (!driverFaultLevel before && driverFaultLevel t)).upd ?_) _
  simp

/-! ## Requests and events -/

/-- What a block's answer lets last, its request lets last: the link's part is none of the engine's. -/
theorem Stranded.serve (h : Stranded s) {f : Frame} {a : State → Answer}
    (ha : ∀ {t}, Stranded t → Lasts t (a t).1) : Lasts s (serve f a s) := by
  have hd : Stranded (dropOldest s) := ⟨h.tripped, h.carriage, h.paper, h.waits⟩
  rcases serve_cases f a s with e | e | e | e <;> rw [e]
  · exact h.refl
  · exact h.keep (by simp)
  · exact (ha h).upd rfl
  · obtain ⟨state, record, further⟩ := ha hd
    exact ⟨state, record, further⟩

/-- The state a command acts on is stranded too, with the same engine. -/
theorem Stranded.beginSending (h : Stranded s) : Stranded (beginSending s) :=
  ⟨by simpa using h.tripped, by simpa using h.carriage, by simpa using h.paper, by simpa using h.waits⟩

theorem Lasts.of_beginSending (h : Lasts (beginSending s) t) : Lasts s t :=
  ⟨h.state, by simpa using h.record, by simpa using h.further⟩

theorem Stranded.request (h : Stranded s) {a : State → Answer} (he : exec c s = Machine.request c a s)
    (ha : ∀ {t}, Stranded t → Lasts t (a t).1) : Lasts s (after c s) := by
  unfold after
  rw [he]
  unfold Machine.request
  cases encodeFrame c with
  | some f => exact (h.beginSending.serve ha).of_beginSending
  | none => exact h.beginSending.refl.of_beginSending

theorem Stranded.fields (h : Stranded s) {α : Type} {w : Wire α} {a : α → State → Answer}
    (he : exec c s = Machine.request c (onFields w a) s) (ha : ∀ {x t}, Stranded t → Lasts t (a x t).1) :
    Lasts s (after c s) := by
  refine h.request he fun ht => ?_
  cases w with
  | fields x => exact ha ht
  | wrongLength p => exact ht.refl

theorem Stranded.event (h : Stranded s) {f : State → State} (he : exec c s = acting f s)
    (hf : ∀ t, Stranded t → Lasts t (f t)) : Lasts s (after c s) := by
  unfold after
  rw [he]
  exact (hf _ h.beginSending).of_beginSending

/-! ## Requests that leave the engine's record alone (R17 to R22, R44, R50, R113, R130, R184 to R192) -/

theorem doEmsk_engine (m : Option (BitVec 16)) (s : State) : (doEmsk m s).1.engine = s.engine := by
  unfold doEmsk
  (repeat' split) <;> simp

theorem doGetp_engine (b : Byte) (s : State) : (doGetp b s).1.engine = s.engine := by
  unfold doGetp
  split <;> rfl

theorem doRead_engine (g : Byte) (s : State) : (doRead g s).1.engine = s.engine := by
  unfold doRead
  (repeat' split) <;> rfl

theorem doClear_engine (m : Byte) (s : State) : (doClear m s).1.engine = s.engine := by
  unfold doClear
  split <;> rfl

/-- A slot request reaches the engine's record no more than its own part does (R17). -/
theorem slotAnswer_engine {a : Fin 8 → State → State × Result} (ha : ∀ i, (a i s).1.engine = s.engine) (b : Byte) :
    (slotAnswer b a s).1.engine = s.engine := by
  unfold slotAnswer
  split
  · rfl
  · exact ha _

theorem openSlot_engine (left length : Nat) (i : Fin 8) (s : State) :
    (openSlot left length i s).1.engine = s.engine := by
  unfold openSlot
  (repeat' split) <;> simp

theorem storeData_engine (start : Nat) (bytes : List Byte) (i : Fin 8) (s : State) :
    (storeData start bytes i s).1.engine = s.engine := by
  unfold storeData
  (repeat' split) <;> simp

theorem sealSlot_engine (i : Fin 8) (s : State) : (sealSlot i s).1.engine = s.engine := by
  unfold sealSlot
  split <;> simp

theorem dropSlot_engine (i : Fin 8) (s : State) : (dropSlot i s).1.engine = s.engine := by
  unfold dropSlot
  split <;> simp

theorem doFlsh_engine (s : State) : (doFlsh s).1.engine = s.engine := by
  simp [doFlsh]

theorem doCmpl_engine (n : Byte) (s : State) : (doCmpl n s).1.engine = s.engine := by
  unfold doCmpl
  split <;> rfl

theorem doPmap_engine (o : Option (Vector RowReq 24)) (s : State) : (doPmap o s).1.engine = s.engine := by
  rcases doPmap_cases o s with e | ⟨_, -, -, e⟩ <;> simp [e]

theorem doEtab_engine (o : Option EtabReq) (s : State) : (doEtab o s).1.engine = s.engine := by
  unfold doEtab
  split <;> rfl

theorem doForm_engine (o : Option FormReq) (s : State) : (doForm o s).1.engine = s.engine := by
  unfold doForm
  (repeat' split) <;> simp

theorem rxBytes_engine (bytes : List LineByte) (s : State) : (rxBytes bytes s).engine = s.engine :=
  foldl_keeps (P := fun t => t.engine = s.engine) (fun t b ht => by rw [← ht]; simp) bytes s rfl

/-! ## Requests that act on no TRIPPED part (R35, R49, R122, R156, R159, R161) -/

/-- No pass waits to be tested again, and no wake begins. -/
theorem Stranded.afterSetp (h : Stranded s) (id : ParamId) : (afterSetp id s).engine = s.engine := by
  have hl : (judgeLatch s).heat.waiting = none := h.waits
  cases id
  case hotth | resume => exact congrArg (fun t => t.engine) (LineExecutor.retest_none hl)
  case ceiling => exact congrArg (fun t => t.engine) (LineExecutor.retest_none h.waits)
  case wakeins => exact congrArg (fun t => t.engine) (wakeIfDue_tripped h.tripped)
  all_goals rfl

theorem Stranded.doSetp (h : Stranded s) (r : SetpReq) : (doSetp r s).1.engine = s.engine := by
  unfold Machine.doSetp
  split
  · rfl
  · split
    · rfl
    · split
      · next id _ _ _ v _ _ =>
        have hs : Stranded (setParam s id v) := ⟨h.tripped, h.carriage, h.paper, h.waits⟩
        exact hs.afterSetp id
      · rfl

/-- An entry that joins the queue begins no wake. -/
theorem enqueue_engine (h : s.engine.state = .tripped) (tag : Byte) (k : EntryKind) :
    (enqueue tag k s).engine = s.engine :=
  congrArg (fun t => t.engine) (wakeIfDue_tripped (t := { s with queue := s.queue ++ [⟨tag, k, false⟩] }) h)

theorem Stranded.enqueueAnswer (h : Stranded s) (tag : Byte) (k : Option EntryKind) :
    (enqueueAnswer tag k s).1.engine = s.engine := by
  unfold Machine.enqueueAnswer
  split
  · rfl
  · unfold tryEnqueue
    split
    · rfl
    · split
      · split
        · exact enqueue_engine (s := moveSlot _ .bound s) h.tripped tag _
        · rfl
      all_goals exact enqueue_engine h.tripped tag _

theorem doGo_tripped (h : s.engine.state = .tripped) : (doGo s).1 = s := by
  rw [doGo, if_pos h]
  rfl

theorem engage_tripped (h : s.engine.state = .tripped) : (engage s).1 = s := by
  simp only [engage, h]

theorem restEngine_tripped (h : s.engine.state = .tripped) : (restEngine s).1 = s := by
  simp only [restEngine, h]

theorem wakeEngine_tripped (h : s.engine.state = .tripped) : (wakeEngine s).1 = s := by
  simp [wakeEngine, h]

/-- TOVL acts by its change of view alone (R172, R175). -/
theorem Stranded.doTovl (h : Stranded s) (o : Option TovlReq) : Lasts s (doTovl o s).1 := by
  unfold Machine.doTovl
  split
  · exact h.refl
  · split
    · exact h.refl
    · split
      · next m _ =>
        split
        · next r _ _ _ _ =>
          have hs : Lasts s (syncObserved (setOverlay m (r.inputs.setWidth 6) s)) := h.refl.upd (by simp)
          exact (hs.overlayEffects s).upd (by simp)
        · exact h.refl
      · exact h.refl

/-! ## Events that find nothing in motion (R79 to R96, R137 to R151, R158, R162) -/

theorem not_readyOrHold (h : s.engine.state = .tripped) : readyOrHold s = false := by
  simp [readyOrHold, h]

/-- The executor starts and resumes work in READY or HOLD alone (R37, R49). -/
theorem Stranded.executorStart (h : Stranded s) : Lasts s (after .executorStart s) := by
  refine h.event (by unfold exec execExecutorStart; rfl) fun t h => ?_
  have hr := not_readyOrHold h.tripped
  rw [if_neg (by simp [canResume, hr])]
  exact h.unless (by simp [mayStart, hr])

theorem Stranded.repositionEnd (h : Stranded s) : Lasts s (after .repositionEnd s) := by
  refine h.event (by unfold exec execRepositionEnd; rfl) fun t h => ?_
  split
  · exact h.unless (by simp [h.carriage])
  · exact h.refl

theorem Stranded.cruiseStart (h : Stranded s) : Lasts s (after .cruiseStart s) := by
  refine h.event (by unfold exec execCruiseStart; rfl) fun t h => ?_
  split
  · exact h.unless (by simp [h.carriage])
  · exact h.refl

theorem Stranded.cruiseEnd (h : Stranded s) : Lasts s (after .cruiseEnd s) := by
  refine h.event (by unfold exec execCruiseEnd; rfl) fun t h => ?_
  split
  · exact h.unless (by simp [h.carriage])
  · exact h.refl

theorem Stranded.passEnd (h : Stranded s) : Lasts s (after .passEnd s) := by
  refine h.event (by unfold exec execPassEnd; rfl) fun t h => ?_
  split
  · exact h.unless (by simp [h.carriage])
  · exact h.refl

theorem Stranded.fireGroupTaken (h : Stranded s) : Lasts s (after .fireGroupTaken s) := by
  refine h.event (by unfold exec execFireGroupTaken; rfl) fun t h => ?_
  split
  · exact h.unless (by simp [h.tripped])
  · exact h.refl

theorem Stranded.encoderLost (h : Stranded s) : Lasts s (after .encoderLost s) := by
  refine h.event (by unfold exec execEncoderLost; rfl) fun t h => ?_
  exact h.unless (by simp [carriageMoving, h.carriage])

theorem Stranded.homeSensorActive (h : Stranded s) : Lasts s (after .homeSensorActive s) := by
  refine h.event (by unfold exec execHomeSensorActive; rfl) fun t h => ?_
  dsimp only
  rw [if_neg (by simp [h.carriage])]
  exact h.keep rfl

theorem Stranded.homeFail (h : Stranded s) : Lasts s (after .homeFail s) := by
  refine h.event (by unfold exec execHomeFail; rfl) fun t h => ?_
  exact h.unless (by simp [h.carriage])

theorem Stranded.parkEnd (h : Stranded s) : Lasts s (after .parkEnd s) := by
  refine h.event (by unfold exec execParkEnd; rfl) fun t h => ?_
  split
  · exact h.unless (by simp [h.carriage])
  · exact h.refl

theorem Stranded.stopAtRest (h : Stranded s) : Lasts s (after .stopAtRest s) := by
  refine h.event (by unfold exec execStopAtRest; rfl) fun t h => ?_
  rw [if_neg (by simp [h.carriage]), h.paper]
  exact h.refl

theorem Stranded.feedStep (h : Stranded s) : Lasts s (after .feedStep s) := by
  refine h.event (by unfold exec execFeedStep; rfl) fun t h => ?_
  rw [h.paper]
  exact h.refl

theorem Stranded.paperEnd (h : Stranded s) : Lasts s (after .paperEnd s) := by
  refine h.event (by unfold exec execPaperEnd; rfl) fun t h => ?_
  rw [h.paper]
  exact h.refl

theorem Stranded.ejectFail (h : Stranded s) : Lasts s (after .ejectFail s) := by
  refine h.event (by unfold exec execEjectFail; rfl) fun t h => ?_
  rw [h.paper]
  exact h.refl

theorem Stranded.feedMoveEnd (h : Stranded s) : Lasts s (after .feedMoveEnd s) := by
  refine h.event (by unfold exec execFeedMoveEnd; rfl) fun t h => ?_
  rw [h.paper]
  exact h.refl

theorem Stranded.preloadComplete (h : Stranded s) : Lasts s (after .preloadComplete s) := by
  refine h.event (by unfold exec execPreloadComplete; rfl) fun t h => ?_
  dsimp only
  rw [h.paper]
  exact h.refl

/-- A test trip needs a motion (R174). -/
theorem Stranded.testTrip (h : Stranded s) (x : TripCause) : Lasts s (after (.testTrip x) s) := by
  refine h.event (by unfold exec execTestTrip; rfl) fun t h => ?_
  split
  · split
    · exact h.unless (by simp [carriageMoving, h.carriage])
    · rw [jamTestTrip, h.paper]
      exact h.refl
    all_goals exact h.refl
  · exact h.refl

theorem Stranded.holdTimerExpiry (h : Stranded s) : Lasts s (after .holdTimerExpiry s) := by
  refine h.event (by unfold exec execHoldTimerExpiry; rfl) fun t h => ?_
  exact h.unless (by simp [h.tripped])

theorem Stranded.warmupExpiry (h : Stranded s) : Lasts s (after .warmupExpiry s) := by
  refine h.event (by unfold exec execWarmupExpiry; rfl) fun t h => ?_
  exact h.unless (by simp [h.tripped])

theorem Stranded.coolingTick (h : Stranded s) : Lasts s (after .coolingTick s) := by
  refine h.event (by unfold exec execCoolingTick; rfl) fun t h => ?_
  have hw : (setHeat (cooled (paramNat t .coolshift) t.heat.h) t).heat.waiting = none := h.waits
  rw [LineExecutor.retest_none hw]
  exact h.keep rfl

/-! ## Events that a TRIPPED part takes (R86, R93, R106, R141, R151, R163, R177 to R187) -/

theorem Stranded.byteGapTimeout (h : Stranded s) : Lasts s (after .byteGapTimeout s) := by
  refine h.event (by unfold exec execByteGapTimeout; rfl) fun t h => h.keep ?_
  split <;> simp

theorem Stranded.receiveOverrun (h : Stranded s) : Lasts s (after .receiveOverrun s) := by
  refine h.event (by unfold exec execReceiveOverrun; rfl) fun t h => h.keep ?_
  split <;> simp

theorem Stranded.discardedFramePassedOver (h : Stranded s) : Lasts s (after .discardedFramePassedOver s) := by
  refine h.event (by unfold exec execDiscardedFramePassedOver; rfl) fun t h => h.keep ?_
  split <;> simp

theorem Stranded.replySent (h : Stranded s) : Lasts s (after .replySent s) := by
  refine h.event (by unfold exec execReplySent; rfl) fun t h => h.keep ?_
  dsimp only
  split <;> rfl

theorem Stranded.noticeSent (h : Stranded s) : Lasts s (after .noticeSent s) := by
  refine h.event (by unfold exec execNoticeSent; rfl) fun t h => h.keep ?_
  dsimp only
  split <;> rfl

theorem Stranded.unknownKind (h : Stranded s) (kind tag : Byte) (p : List Byte) :
    Lasts s (after (.unknownKind kind tag p) s) := by
  rcases after_unknownKind kind tag p s with e | e <;> rw [e]
  · exact h.keep (by simp)
  · exact (h.beginSending.serve fun ht => ht.refl).of_beginSending

theorem Stranded.pulseEnd (h : Stranded s) (p : Fin 24) (isOpen : Bool) : Lasts s (after (.pulseEnd p isOpen) s) := by
  refine h.event (by unfold exec execPulseEnd; rfl) fun t h => h.keep ?_
  split <;> simp

/-- An edge may be seen by a standing carriage, and be too far off (R93). -/
theorem Stranded.edge (h : Stranded s) (hl : Lasts t s) (dir : Dir) : Lasts t (edge dir s) := by
  unfold Machine.edge
  split
  · have hc : Lasts t (clearNoMark { s with carriage := s.carriage.countMark dir }) := hl.upd (by simp)
    unfold edgeHomed
    dsimp only
    split
    · exact hc.arise _
    · exact hc.upd rfl
  · rw [h.carriage]
    exact hl

theorem Stranded.markEdge (h : Stranded s) (dir : Dir) (n : Nat) : Lasts s (after (.markEdge dir n) s) := by
  refine h.event (by unfold exec execMarkEdge; rfl) fun t h => ?_
  have ht (k : Nat) : Lasts t (travel k t) := h.refl.upd (by simp)
  dsimp only
  split
  · exact ht _
  · refine Stranded.edge ⟨?_, ?_, ?_, ?_⟩ (ht _) dir
    · simpa using h.tripped
    · simpa using h.carriage
    · simpa using h.paper
    · simpa using h.waits

theorem Stranded.paperJam (h : Stranded s) : Lasts s (after .paperJam s) := by
  refine h.event (by unfold exec execPaperJam; rfl) fun t h => ?_
  split
  · exact h.refl.arise _
  · exact h.refl

theorem Stranded.paperMotionPulse (h : Stranded s) : Lasts s (after .paperMotionPulse s) := by
  refine h.event (by unfold exec execPaperMotionPulse; rfl) fun t h => h.keep ?_
  dsimp only
  split
  · rfl
  · split <;> rfl

theorem Stranded.paperSensorAbsent (h : Stranded s) : Lasts s (after .paperSensorAbsent s) := by
  refine h.event (by unfold exec execPaperSensorAbsent; rfl) fun t h => ?_
  have hl : Lasts t { t with lines := { t.lines with paper := false } } := h.keep rfl
  exact hl.sensorChange _

theorem Stranded.paperSensorPresent (h : Stranded s) : Lasts s (after .paperSensorPresent s) := by
  refine h.event (by unfold exec execPaperSensorPresent; rfl) fun t h => ?_
  have hl : Lasts t { t with lines := { t.lines with paper := true } } := h.keep rfl
  exact hl.sensorChange _

theorem Stranded.headHotAsserted (h : Stranded s) : Lasts s (after .headHotAsserted s) := by
  refine h.event (by unfold exec execHeadHotAsserted; rfl) fun t h => ?_
  have hl : Lasts t { t with lines := { t.lines with headHot := true } } := h.keep rfl
  exact hl.ariseIf _ _

theorem Stranded.driverFaultAsserted (h : Stranded s) : Lasts s (after .driverFaultAsserted s) := by
  refine h.event (by unfold exec execDriverFaultAsserted; rfl) fun t h => ?_
  have hl : Lasts t { t with lines := { t.lines with driverFault := true } } := h.keep rfl
  exact hl.ariseIf _ _

theorem Stranded.headHotQuiet (h : Stranded s) : Lasts s (after .headHotQuiet s) := by
  refine h.event (by unfold exec execHeadHotQuiet; rfl) fun t h => ?_
  exact h.keep rfl

theorem Stranded.driverFaultQuiet (h : Stranded s) : Lasts s (after .driverFaultQuiet s) := by
  refine h.event (by unfold exec execDriverFaultQuiet; rfl) fun t h => ?_
  exact h.keep rfl

theorem Stranded.homeSensorInactive (h : Stranded s) : Lasts s (after .homeSensorInactive s) := by
  refine h.event (by unfold exec execHomeSensorInactive; rfl) fun t h => ?_
  exact h.keep rfl

/-! ## Every command -/

/-- CLRF, ERST, power-on and the RESET line (R154, R167, R168). -/
def clears : Instr → Bool
  | .clrf .. | .erst .. | .powerOn _ | .resetLine _ => true
  | _ => false

theorem Stranded.cntrSnap (h : Stranded s) (tag : Byte) (req : SnapForm) : Lasts s (after (.cntrSnap tag req) s) := by
  cases req with
  | snap u => exact h.request rfl fun ht => ht.keep rfl
  | undefinedOp o p => exact h.request rfl fun ht => ht.refl
  | wrongLength p => exact h.request rfl fun ht => ht.refl

theorem Stranded.haltLine (h : Stranded s) (tag : Byte) (req : HaltForm) : Lasts s (after (.haltLine tag req) s) := by
  cases req with
  | lineMode => exact h.request rfl fun ht => ht.keep (by simp)
  | undefinedMode m => exact h.request rfl fun ht => ht.refl
  | wrongLength p => exact h.request rfl fun ht => ht.refl

/-- Every command that does not clear a trip lets it last. -/
theorem Stranded.lasts_after (h : Stranded s) (c : Instr) (hc : clears c = false) : Lasts s (after c s) := by
  cases c with
  | powerOn r => exact absurd hc (by simp [clears])
  | resetLine r => exact absurd hc (by simp [clears])
  | clrf tag req => exact absurd hc (by simp [clears])
  | erst tag req => exact absurd hc (by simp [clears])
  | frameReceived bytes => exact h.event rfl fun t h => h.keep (rxBytes_engine bytes t)
  | byteGapTimeout => exact h.byteGapTimeout
  | receiveOverrun => exact h.receiveOverrun
  | unknownKind kind tag p => exact h.unknownKind kind tag p
  | replySent => exact h.replySent
  | noticeSent => exact h.noticeSent
  | stat tag req => exact h.fields rfl fun h => h.refl
  | evnt tag req => exact h.fields rfl fun h => h.keep rfl
  | emsk tag req => exact h.fields rfl fun h => h.keep (doEmsk_engine _ _)
  | setp tag req => exact h.fields rfl fun h => h.keep (h.doSetp _)
  | getp tag req => exact h.fields rfl fun h => h.keep (doGetp_engine _ _)
  | cntrSnap tag req => exact h.cntrSnap tag req
  | cntrRead tag group => exact h.request rfl fun h => h.keep (doRead_engine _ _)
  | cntrClear tag mask => exact h.request rfl fun h => h.keep (doClear_engine _ _)
  | slotOpen tag req => exact h.fields rfl fun h => h.keep (slotAnswer_engine (fun i => openSlot_engine _ _ i _) _)
  | slotData tag req => exact h.fields rfl fun h => h.keep (slotAnswer_engine (fun i => storeData_engine _ _ i _) _)
  | slotSeal tag req => exact h.fields rfl fun h => h.keep (slotAnswer_engine (fun i => sealSlot_engine i _) _)
  | slotDrop tag req => exact h.fields rfl fun h => h.keep (slotAnswer_engine (fun i => dropSlot_engine i _) _)
  | line tag req => exact h.fields rfl fun h => h.keep (h.enqueueAnswer _ _)
  | feed tag req => exact h.fields rfl fun h => h.keep (h.enqueueAnswer _ _)
  | skip tag req => exact h.fields rfl fun h => h.keep (h.enqueueAnswer _ _)
  | tear tag req => exact h.fields rfl fun h => h.keep (h.enqueueAnswer _ _)
  | haltLine tag req => exact h.haltLine tag req
  | haltPass tag => exact h.request rfl fun h => h.keep (by simp)
  | haltNow tag => exact h.request rfl fun h => h.keep (by simp)
  | go tag req => exact h.fields rfl fun h => h.keep (congrArg State.engine (doGo_tripped h.tripped))
  | flsh tag req => exact h.fields rfl fun h => h.keep (doFlsh_engine _)
  | cmpl tag req => exact h.fields rfl fun h => h.keep (doCmpl_engine _ _)
  | pmap tag req => exact h.fields rfl fun h => h.keep (doPmap_engine _ _)
  | pinh tag req => exact h.fields rfl fun h => h.keep rfl
  | etab tag req => exact h.fields rfl fun h => h.keep (doEtab_engine _ _)
  | form tag req => exact h.fields rfl fun h => h.keep (doForm_engine _ _)
  | enga tag req => exact h.fields rfl fun h => h.keep (congrArg State.engine (engage_tripped h.tripped))
  | rest tag req => exact h.fields rfl fun h => h.keep (congrArg State.engine (restEngine_tripped h.tripped))
  | wake tag req => exact h.fields rfl fun h => h.keep (congrArg State.engine (wakeEngine_tripped h.tripped))
  | dout tag req => exact h.fields rfl fun h => h.refl.upd rfl
  | tovl tag req => exact h.fields rfl fun h => h.doTovl _
  | executorStart => exact h.executorStart
  | repositionEnd => exact h.repositionEnd
  | cruiseStart => exact h.cruiseStart
  | cruiseEnd => exact h.cruiseEnd
  | passEnd => exact h.passEnd
  | fireGroupTaken => exact h.fireGroupTaken
  | pulseEnd p isOpen => exact h.pulseEnd p isOpen
  | markEdge dir n => exact h.markEdge dir n
  | encoderLost => exact h.encoderLost
  | homeSensorActive => exact h.homeSensorActive
  | homeFail => exact h.homeFail
  | parkEnd => exact h.parkEnd
  | feedStep => exact h.feedStep
  | paperEnd => exact h.paperEnd
  | paperJam => exact h.paperJam
  | ejectFail => exact h.ejectFail
  | feedMoveEnd => exact h.feedMoveEnd
  | stopAtRest => exact h.stopAtRest
  | paperMotionPulse => exact h.paperMotionPulse
  | paperSensorAbsent => exact h.paperSensorAbsent
  | paperSensorPresent => exact h.paperSensorPresent
  | headHotAsserted => exact h.headHotAsserted
  | driverFaultAsserted => exact h.driverFaultAsserted
  | testTrip x => exact h.testTrip x
  | holdTimerExpiry => exact h.holdTimerExpiry
  | warmupExpiry => exact h.warmupExpiry
  | coolingTick => exact h.coolingTick
  | headHotQuiet => exact h.headHotQuiet
  | driverFaultQuiet => exact h.driverFaultQuiet
  | homeSensorInactive => exact h.homeSensorInactive
  | discardedFramePassedOver => exact h.discardedFramePassedOver
  | preloadComplete => exact h.preloadComplete

end Sys2Proof.TrippedLasts

namespace Sys2Proof

open Sys2Proof.Machine Sys2Proof.TrippedLasts

/-- Settles O59: in TRIPPED nothing moves and no pass waits (`stranded_of_motionInv`), so of all that could take the engine
further only another cause is left, which joins the further causes (`Stranded.lasts_after`). -/
theorem trippedLastsUntilItIsCleared : Obligations.TrippedLastsUntilItIsCleared := by
  intro c s t hx hm he hclrf herst hpower hreset
  obtain rfl := HeadTables.eq_after hx
  have hc : clears c = false := by
    cases c with
    | clrf tag req => exact absurd rfl (hclrf tag req)
    | erst tag req => exact absurd rfl (herst tag req)
    | powerOn r => exact absurd rfl (hpower r)
    | resetLine r => exact absurd rfl (hreset r)
    | _ => rfl
  obtain ⟨state, record, further⟩ := (stranded_of_motionInv hm he).lasts_after c hc
  exact ⟨state, record, further⟩

end Sys2Proof
end

