-- ==== Sys2Proof/Proofs/TripClearing.lean ====
section
/-! The requests CLRF and DOUT: O28. -/

namespace Sys2Proof.TripClearing

open Sys2Proof.Machine

variable {s : State}

/-! ## CLRF (R165, R167) -/

/-- HEAD_HOT or DRIVER_FAULT is asserted by its line, or by its overlay input in DRIVE (R163, R173). -/
theorem levelAsserted_iff : levelAsserted s = true ↔
    s.lines.headHot = true ∨ s.lines.driverFault = true ∨ (s.engine.overlayMode = .drive ∧
      (s.engine.overlayInputs.getLsbD 0 = true ∨ s.engine.overlayInputs.getLsbD 1 = true)) := by
  have hot : driven s .headHot = true ↔ s.engine.overlayMode = .drive ∧ s.engine.overlayInputs.getLsbD 0 = true :=
    SensorsAndTimers.driven_iff
  have fault : driven s .driverFault = true ↔ s.engine.overlayMode = .drive ∧ s.engine.overlayInputs.getLsbD 1 = true :=
    SensorsAndTimers.driven_iff
  simp only [levelAsserted, headHotLevel, driverFaultLevel, Bool.or_eq_true, hot, fault, and_or_left]
  tauto

/-- The state in which a trip has been cleared: UNREADY, no record, no further cause, the lamp off. -/
theorem clearTrip_eq (s : State) : clearTrip s = { s with engine := { s.engine with
    state := .unready, firstFault := none, further := 0#6, outputs := s.engine.outputs &&& 0x7F#8 } } := rfl

theorem doClrf_active (he : s.engine.state = .tripped) (hl : levelAsserted s = true) :
    doClrf s = (s, clrfReply .causeActive s) := by
  simp [doClrf, he, hl]

theorem doClrf_quiet (he : s.engine.state = .tripped) (hl : levelAsserted s = false) :
    doClrf s = (clearTrip s, clrfReply .ok s) := by
  simp [doClrf, he, hl]

theorem doClrf_elsewhere (he : s.engine.state ≠ .tripped) : doClrf s = (s, clrfReply .ok s) := by
  simp [doClrf, he]

/-! ## DOUT (R170) -/

/-- DOUT reaches outputs 0..5 alone; a bit in both masks is set. -/
theorem doutOutputs_getLsbD (r : DoutReq) (o : BitVec 8) (i : Fin 8) : (doutOutputs r o).getLsbD i =
    (if i.val < 6 then r.set.getLsbD i || (o.getLsbD i && !r.reset.getLsbD i) else o.getLsbD i) := by
  have hreach : (0x3F#8).getLsbD i = decide (i.val < 6) := by revert i; decide
  simp only [doutOutputs, BitVec.getLsbD_or, BitVec.getLsbD_and, BitVec.getLsbD_not, hreach]
  split
  · simp [*, Bool.or_comm]
  · simp [*]

end Sys2Proof.TripClearing

namespace Sys2Proof

open Sys2Proof.Machine Sys2Proof.TripClearing

/-- Settles O28: CLRF by the engine's state and `levelAsserted_iff`, DOUT bit by bit by `doutOutputs_getLsbD`. -/
theorem clrfAndDoutAct : Obligations.ClrfAndDoutAct := by
  refine ⟨fun tag s hr => ⟨fun he => ⟨fun hl => ?_, fun hh hd ho => ?_⟩, fun he => ?_⟩,
    fun tag r s hr => ⟨_, HeadTables.exec_replied hr rfl rfl rfl rfl, doutOutputs_getLsbD r s.engine.outputs⟩⟩
  · exact HeadTables.exec_replied hr rfl rfl rfl (doClrf_active (s := dropOldest s) he (levelAsserted_iff.mpr hl))
  · have hq : levelAsserted s = false := by
      rw [← Bool.not_eq_true, levelAsserted_iff]
      rintro (h | h | ⟨hm, h⟩)
      · simp [hh] at h
      · simp [hd] at h
      · obtain ⟨hot, fault⟩ := ho hm
        exact h.elim (Bool.eq_false_iff.mp hot) (Bool.eq_false_iff.mp fault)
    rw [← clearTrip_eq]
    exact HeadTables.exec_replied hr rfl rfl rfl (doClrf_quiet (s := dropOldest s) he hq)
  · exact HeadTables.exec_replied hr rfl rfl rfl (doClrf_elsewhere (s := dropOldest s) he)

end Sys2Proof
end

