-- ==== Sys2Proof/Proofs/CausesAndReceivePlaces.lean ====
section
/-! SUPPORT. A cause that arises and a change of the paper sensor neither read nor change the frames that wait in the receive
places, so what TOVL brings is the same before and after its own frame has left its place (R164, R175, R181). -/

namespace Sys2Proof.TestOverlay

open Sys2Proof.Machine Sys2Proof.PrintQueue

variable {s : State}

theorem finishReset_dropOldest (s : State) : finishReset (dropOldest s) = dropOldest (finishReset s) := by
  unfold finishReset
  rw [apply_ite dropOldest]
  rfl

theorem addPaperOut_dropOldest (s : State) : addPaperOut (dropOldest s) = dropOldest (addPaperOut s) :=
  raise_dropOldest .paperOut { s with holds := { s.holds with paperOut := true } }

theorem failActive_dropOldest (o : EntryOutcome) (s : State) :
    failActive o (dropOldest s) = dropOldest (failActive o s) :=
  retire_dropOldest _ s

theorem paperEnds_dropOldest (s : State) : paperEnds (dropOldest s) = dropOldest (paperEnds s) := by
  unfold paperEnds
  rw [← finishReset_dropOldest, ← failActive_dropOldest, ← addPaperOut_dropOldest]
  rfl

theorem settleFeed_dropOldest (s : State) : settleFeed (dropOldest s) = dropOldest (settleFeed s) := by
  have ends (o : EntryOutcome) (t : State) : retire o (endFeed (dropOldest t)) = dropOldest (retire o (endFeed t)) :=
    retire_dropOldest o (endFeed t)
  have hend : atPaperEnd (dropOldest s) = atPaperEnd s := rfl
  unfold settleFeed
  simp only [dropOldest_frame, hend]
  split
  · simp only [apply_ite dropOldest, ← ends, ← paperEnds_dropOldest]
    rfl
  · rfl

theorem trip_dropOldest (c : TripCause) (s : State) : trip c (dropOldest s) = dropOldest (trip c s) := by
  rw [Trips.trip_eq, Trips.trip_eq, ← count_dropOldest, ← raise_dropOldest]
  exact congrArg (fun t => count .trips 1 (raise .trip (addHalted t)))
    (retire_dropOldest (Trips.tripOutcome s) (Trips.cutShort c s))

theorem arise_dropOldest (c : TripCause) (s : State) : arise c (dropOldest s) = dropOldest (arise c s) := by
  unfold arise
  rw [settleFeed_dropOldest, ← apply_ite dropOldest, trip_dropOldest, apply_ite dropOldest]
  rfl

theorem ariseIf_dropOldest (b : Bool) (c : TripCause) (s : State) :
    ariseIf b c (dropOldest s) = dropOldest (ariseIf b c s) := by
  cases b
  · rfl
  · exact arise_dropOldest c s

theorem ariseLevels_dropOldest (hot fault : Bool) (s : State) :
    ariseLevels hot fault (dropOldest s) = dropOldest (ariseLevels hot fault s) := by
  have hf : { dropOldest s with freeCount := (dropOldest s).freeCount + 1 } =
    dropOldest { s with freeCount := s.freeCount + 1 } := rfl
  unfold ariseLevels
  simp only [hf, arise_dropOldest, ariseIf_dropOldest, apply_ite dropOldest]
  rfl

theorem testTripIf_dropOldest (b : Bool) (c : TripCause) (s : State) :
    testTripIf b c (dropOldest s) = dropOldest (testTripIf b c s) := by
  cases b
  · rfl
  · exact raiseIf_dropOldest _ .testTrip
      { s with engine := { s.engine with testTrips := s.engine.testTrips ||| causeBit c } }

theorem sensorFound_dropOldest (s : State) : sensorFound (dropOldest s) = dropOldest (sensorFound s) := by
  unfold sensorFound
  rw [← wakeIfDue_dropOldest, apply_ite dropOldest]
  rfl

theorem sensorLost_dropOldest (s : State) : sensorLost (dropOldest s) = dropOldest (sensorLost s) := by
  unfold sensorLost
  rw [apply_ite dropOldest]
  rfl

theorem sensorChange_dropOldest (b : Bool) (s : State) :
    sensorChange b (dropOldest s) = dropOldest (sensorChange b s) := by
  unfold sensorChange
  rw [sensorLost_dropOldest, sensorFound_dropOldest, apply_ite dropOldest, apply_ite dropOldest]
  rfl

theorem overlayEffects_dropOldest (before after : State) :
    overlayEffects (dropOldest before) (dropOldest after) = dropOldest (overlayEffects before after) := by
  unfold overlayEffects
  rw [← sensorChange_dropOldest, ← testTripIf_dropOldest, ← testTripIf_dropOldest, ← ariseLevels_dropOldest]
  rfl

end Sys2Proof.TestOverlay
end

