-- ==== Sys2Proof/Proofs/TestOverlay.lean ====
section
/-! The request TOVL: O30. -/

namespace Sys2Proof.TestOverlay

open Sys2Proof.Machine Sys2Proof.SensorsAndTimers

variable {s w : State} {r : TovlReq} {m : OverlayMode}

/-! ## The setting (R172, R174) -/

theorem ofCode_code (m : OverlayMode) : OverlayMode.ofCode m.code = some m := by
  cases m <;> rfl

theorem ofCode_none {b : Byte} (h : 2 < b.toNat) : OverlayMode.ofCode b = none := by
  have hne (c : Byte) (hc : c.toNat ≤ 2) : b ≠ c := fun e => absurd (e ▸ hc) (Nat.not_le.mpr h)
  rw [OverlayMode.ofCode, if_neg (hne 0#8 (by decide)), if_neg (hne 1#8 (by decide)), if_neg (hne 2#8 (by decide))]

/-- The two bits above the six inputs are 0 (section 11.11). -/
theorem noInputAbove_iff (b : Byte) : b &&& 0xC0#8 = 0#8 ↔ b.toNat < 64 := by
  revert b
  decide

theorem inputs_setWidth {b : Byte} (h : b.toNat < 64) : (b.setWidth 6).setWidth 8 = b := by
  refine BitVec.eq_of_toNat_eq ?_
  simp only [BitVec.toNat_setWidth]
  omega

/-- The state once a setting has replaced mode and inputs, the observed counts made equal in OBSERVE. -/
def withOverlay (m : OverlayMode) (inputs : Byte) (s : State) : State :=
  { s with
    engine := { s.engine with overlayMode := m, overlayInputs := inputs.setWidth 6 }
    paper := { s.paper with observedUnpulsed := if m = .observe then s.paper.unpulsed else s.paper.observedUnpulsed }
    carriage := { s.carriage with
      observedNoMark := if m = .observe then s.carriage.noMark else s.carriage.observedNoMark } }

theorem syncObserved_setOverlay (m : OverlayMode) (inputs : Byte) (s : State) :
    syncObserved (setOverlay m (inputs.setWidth 6) s) = withOverlay m inputs s := by
  cases m <;> rfl

/-! ## TOVL's answers (R172) -/

theorem doTovl_homing (he : s.engine.state = .homing) :
    doTovl (some r) s = (s, tovlReply .busy s.engine.testTrips s) := by
  simp [doTovl, he]

theorem doTovl_badValue (he : s.engine.state ≠ .homing) (h : 2 < r.mode.toNat ∨ 63 < r.inputs.toNat) :
    doTovl (some r) s = (s, tovlReply .badValue s.engine.testTrips s) := by
  rcases h with h | h
  · simp [doTovl, he, ofCode_none h]
  · have hi : ¬r.inputs &&& 0xC0#8 = 0#8 := by
      rw [noInputAbove_iff]
      omega
    cases hm : OverlayMode.ofCode r.mode <;> simp [doTovl, he, hm, hi]

theorem doTovl_set (he : s.engine.state ≠ .homing) (hm : m.code = r.mode) (hi : r.inputs.toNat < 64) :
    doTovl (some r) s = (emptyTestTrips (overlayEffects s (withOverlay m r.inputs s)),
      [0x00#8, r.mode, r.inputs, s.engine.testTrips.setWidth 8]) := by
  have hc : OverlayMode.ofCode r.mode = some m := hm ▸ ofCode_code m
  simp only [doTovl, if_neg he, hc, if_pos ((noInputAbove_iff _).mpr hi), syncObserved_setOverlay, tovlReply,
    emptyTestTrips_frame, overlayEffects_frame]
  simp only [withOverlay, hm, inputs_setWidth hi]
  rfl

/-- A setting that is taken, its effects as they are before its own frame has left its receive place. -/
theorem exec_tovl_set {tag : Byte} (hr : Ready (.tovl tag (.fields (some r))) s) (he : s.engine.state ≠ .homing)
    (hm : m.code = r.mode) (hi : r.inputs.toNat < 64) :
    exec (.tovl tag (.fields (some r))) s =
      .next (replied 0xC6#8 tag [0x00#8, r.mode, r.inputs, s.engine.testTrips.setWidth 8]
        (emptyTestTrips (overlayEffects s (withOverlay m r.inputs s)))) := by
  refine HeadTables.exec_replied hr rfl rfl rfl ((doTovl_set (s := dropOldest s) he hm hi).trans ?_)
  exact congrArg (fun t => (emptyTestTrips t, _)) (overlayEffects_dropOldest s (withOverlay m r.inputs s))

/-! ## The change of view, input by input (R173 to R175) -/

/-- Whether a level was quiet before a setting and its input drives it after (R175). -/
def newlyDriven (before after : State) (line : Bool) (i : OverlayInput) : Bool :=
  !line && !driven before i && driven after i

/-- A setting leaves the six inputs as its byte has them. -/
theorem withOverlay_flag (i : OverlayInput) :
    (withOverlay m r.inputs s).engine.overlayInputs.getLsbD i.bit = r.inputs.getLsbD i.bit := by
  have hb : i.bit < 6 := by cases i <;> decide
  simp [withOverlay, hb]

theorem driven_withOverlay (i : OverlayInput) :
    driven (withOverlay m r.inputs s) i = true ↔ m = .drive ∧ r.inputs.getLsbD i.bit = true := by
  rw [driven_iff, withOverlay_flag]
  rfl

theorem newlyDriven_iff {line : Bool} (i : OverlayInput) :
    newlyDriven s (withOverlay m r.inputs s) line i = true ↔
      line = false ∧ ¬(s.engine.overlayMode = .drive ∧ s.engine.overlayInputs.getLsbD i.bit = true) ∧
        m = .drive ∧ r.inputs.getLsbD i.bit = true := by
  rw [← driven_iff, ← driven_withOverlay (s := s)]
  simp [newlyDriven, and_assoc]

theorem newlyObserved_iff {line : Bool} (i : OverlayInput) :
    newlyObserved s (withOverlay m r.inputs s) line i = true ↔
      line = false ∧ ¬(s.engine.overlayMode ≠ .off ∧ s.engine.overlayInputs.getLsbD i.bit = true) ∧
        m = .observe ∧ r.inputs.getLsbD i.bit = true := by
  have hobserved : observed (withOverlay m r.inputs s) i = true ↔ m = .observe ∧ r.inputs.getLsbD i.bit = true := by
    rw [observed_iff, withOverlay_flag]
    rfl
  have hviewed : viewed s i = true ↔ s.engine.overlayMode ≠ .off ∧ s.engine.overlayInputs.getLsbD i.bit = true := by
    simp [viewed, flagSet]
  rw [← hobserved, ← hviewed]
  simp [newlyObserved, and_comm, and_left_comm]

/-- A level that rises with its line as it stands rises by its input alone. -/
theorem level_rises (line before after : Bool) :
    (!(line || before) && (line || after)) = (!line && !before && after) := by
  cases line <;> simp

/-- The level causes that a change of view brings. -/
def takeLevels (before after : State) : State :=
  ariseLevels (newlyDriven before after before.lines.headHot .headHot)
    (newlyDriven before after before.lines.driverFault .driverFault) after

/-- The test trips that a change of view makes, in the state its level causes leave. -/
def makeTests (before after v : State) : State :=
  testTripIf (newlyObserved before after before.lines.driverFault .driverFault) .driverFault
    (testTripIf (newlyObserved before after before.lines.headHot .headHot) .headHot v)

/-- The effects of a setting: level causes, test trips, and the paper sensor as it is seen. -/
theorem overlayEffects_withOverlay : overlayEffects s (withOverlay m r.inputs s) = sensorChange (sensorPresent s)
    (makeTests s (withOverlay m r.inputs s) (takeLevels s (withOverlay m r.inputs s))) := by
  unfold makeTests takeLevels newlyDriven
  rw [← level_rises, ← level_rises]
  rfl

/-- Level causes and test trips leave the parameters and the sensor as it is seen. -/
theorem effects_frame (before after : State) :
    (makeTests before after (takeLevels before after)).params = after.params ∧
      sensorPresent (makeTests before after (takeLevels before after)) = sensorPresent after := by
  simp [makeTests, takeLevels, sensorPresent, driven, flagSet]

/-! ## What each change brings (R164, R174, R175, log 12) -/

/-- One level that arises is taken alone; of two the free value says which comes first. -/
theorem ariseLevels_spec (hot fault : Bool) (u : State) :
    (¬hot = true → ¬fault = true → ariseLevels hot fault u = u) ∧
      (hot = true → ¬fault = true → ariseLevels hot fault u = arise .headHot u) ∧
      (¬hot = true → fault = true → ariseLevels hot fault u = arise .driverFault u) ∧
      (hot = true → fault = true → ∀ y, y = { u with freeCount := u.freeCount + 1 } →
        ariseLevels hot fault u = arise .driverFault (arise .headHot y) ∨
          ariseLevels hot fault u = arise .headHot (arise .driverFault y)) := by
  refine ⟨fun h k => ?_, fun h k => ?_, fun h k => ?_, fun h k y hy => ?_⟩
  · rw [Bool.not_eq_true] at h k
    rw [h, k]
    rfl
  · rw [Bool.not_eq_true] at k
    rw [h, k]
    rfl
  · rw [Bool.not_eq_true] at h
    rw [h, k]
    rfl
  · rw [h, k, hy]
    exact HeadTables.ariseLevels_both u

/-- Each level newly seen makes its own test trip, HEAD_HOT's first. -/
theorem testTrips_spec (hot fault : Bool) (v : State) :
    (¬hot = true → ¬fault = true → testTripIf fault .driverFault (testTripIf hot .headHot v) = v) ∧
      (hot = true → ¬fault = true →
        testTripIf fault .driverFault (testTripIf hot .headHot v) = testTripFor .headHot v) ∧
      (¬hot = true → fault = true →
        testTripIf fault .driverFault (testTripIf hot .headHot v) = testTripFor .driverFault v) ∧
      (hot = true → fault = true →
        testTripIf fault .driverFault (testTripIf hot .headHot v) =
          testTripFor .driverFault (testTripFor .headHot v)) := by
  cases hot <;> cases fault <;> simp [testTripIf]

/-- PAPER_ABSENT in DRIVE hides the sensor's line (R173). -/
theorem hides_iff : driven s .paperAbsent = true ↔
    s.engine.overlayMode = .drive ∧ s.engine.overlayInputs.getLsbD 2 = true := driven_iff

theorem hides_withOverlay_iff : driven (withOverlay m r.inputs s) .paperAbsent = true ↔
    m = .drive ∧ r.inputs.getLsbD 2 = true := driven_withOverlay .paperAbsent

theorem withOverlay_lines : (withOverlay m r.inputs s).lines = s.lines := rfl

/-- The sensor is newly absent where PAPER_ABSENT comes to hide a present line in DRIVE. -/
theorem sensor_gone_iff : sensorPresent s = true ∧ sensorPresent (withOverlay m r.inputs s) = false ↔
    s.lines.paper = true ∧ ¬(s.engine.overlayMode = .drive ∧ s.engine.overlayInputs.getLsbD 2 = true) ∧
      m = .drive ∧ r.inputs.getLsbD 2 = true := by
  rw [← hides_iff, ← hides_withOverlay_iff (s := s), sensorPresent, sensorPresent,
    withOverlay_lines]
  cases s.lines.paper <;> simp

/-- The sensor is newly present where PAPER_ABSENT hid a present line in DRIVE and no longer does. -/
theorem sensor_back_iff : sensorPresent s = false ∧ sensorPresent (withOverlay m r.inputs s) = true ↔
    s.lines.paper = true ∧ s.engine.overlayMode = .drive ∧ s.engine.overlayInputs.getLsbD 2 = true ∧
      ¬(m = .drive ∧ r.inputs.getLsbD 2 = true) := by
  rw [← and_assoc (a := s.engine.overlayMode = .drive), ← hides_iff, ← hides_withOverlay_iff (s := s), sensorPresent,
    sensorPresent, withOverlay_lines]
  cases s.lines.paper <;> simp

/-- What neither ends nor begins stands. -/
theorem eq_of_unchanged {a b : Bool} (hend : ¬(a = true ∧ b = false)) (hbegin : ¬(a = false ∧ b = true)) : b = a := by
  cases a <;> cases b <;> simp at hend hbegin ⊢

/-- The sensor newly absent takes LOADED to ENDING (R141). -/
theorem sensorChange_gone (hp : w.params = s.params) (h : sensorPresent w = false) :
    (w.paper.state ≠ .loaded → sensorChange true w = w) ∧
      (w.paper.state = .loaded → sensorChange true w =
        { w with paper := { w.paper with state := .ending, remaining := paramNat s .enddist } }) := by
  have hd : paramNat w .enddist = paramNat s .enddist := congrArg Int.toNat (param_eq hp .enddist)
  rw [sensorChange_lost h, ← hd]
  exact ⟨fun hl => if_neg hl, fun hl => if_pos hl⟩

/-- The sensor newly present takes ENDING back to LOADED short of the paper's end, and may begin a wake (R141, R161). -/
theorem sensorChange_back (h : sensorPresent w = true) :
    (w.paper.state ≠ .ending ∨ w.paper.remaining = 0 → sensorChange false w = wakeIfDue w) ∧
      (w.paper.state = .ending → w.paper.remaining ≠ 0 → sensorChange false w =
        wakeIfDue { w with paper := { w.paper with
          state := .loaded, remaining := 0
          move := w.paper.move.map (fun m => { m with ended := m.over .loaded }) } }) := by
  rw [sensorChange_found h]
  refine ⟨fun hn => congrArg wakeIfDue (if_neg ?_), fun he hn => congrArg wakeIfDue (if_pos ⟨he, hn⟩)⟩
  exact fun ⟨he, hne⟩ => hn.elim (· he) hne

end Sys2Proof.TestOverlay

namespace Sys2Proof

open Sys2Proof.Machine Sys2Proof.SensorsAndTimers Sys2Proof.TestOverlay

/-- Settles O30: the answers by `doTovl`'s checks; the effects in the order of `overlayEffects_withOverlay`, each input's
change of view by `newlyDriven_iff` and `newlyObserved_iff`. -/
theorem tovlReplacesTheOverlay : Obligations.TovlReplacesTheOverlay := by
  refine fun tag s => ⟨fun hr => HeadTables.exec_replied hr rfl rfl rfl rfl, fun r hr => ⟨fun he => ?_, fun he h => ?_,
    fun m u he hm hi hu => ?_⟩⟩
  · exact HeadTables.exec_replied hr rfl rfl rfl (doTovl_homing (s := dropOldest s) he)
  · exact HeadTables.exec_replied hr rfl rfl rfl (doTovl_badValue (s := dropOldest s) he h)
  · obtain rfl : u = withOverlay m r.inputs s := hu
    refine ⟨exec_tovl_set hr he hm hi, fun hot fault hotSeen faultSeen gone back hhot hfault hhotSeen hfaultSeen hgone
      hback => ?_⟩
    obtain rfl := propext (hhot.trans (newlyDriven_iff .headHot).symm)
    obtain rfl := propext (hfault.trans (newlyDriven_iff .driverFault).symm)
    obtain rfl := propext (hhotSeen.trans (newlyObserved_iff .headHot).symm)
    obtain rfl := propext (hfaultSeen.trans (newlyObserved_iff .driverFault).symm)
    obtain rfl := propext (hgone.trans sensor_gone_iff.symm)
    obtain rfl := propext (hback.trans sensor_back_iff.symm)
    rw [overlayEffects_withOverlay]
    obtain ⟨hp, hw⟩ := effects_frame s (withOverlay m r.inputs s)
    obtain ⟨vnone, vhot, vfault, vboth⟩ := ariseLevels_spec (newlyDriven s (withOverlay m r.inputs s) _ .headHot)
      (newlyDriven s (withOverlay m r.inputs s) _ .driverFault) (withOverlay m r.inputs s)
    obtain ⟨wnone, whot, wfault, wboth⟩ := testTrips_spec (newlyObserved s (withOverlay m r.inputs s) _ .headHot)
      (newlyObserved s (withOverlay m r.inputs s) _ .driverFault) (takeLevels s (withOverlay m r.inputs s))
    refine ⟨takeLevels s (withOverlay m r.inputs s), makeTests s (withOverlay m r.inputs s) _, vnone, vhot, vfault, vboth,
      wnone, whot, wfault, wboth, fun hng hnb => sensorChange_same (hw.trans (eq_of_unchanged hng hnb)),
      fun ⟨hb, ha⟩ => ?_, fun ⟨hb, ha⟩ => ?_, fun ⟨hb, ha⟩ => ?_, fun ⟨hb, ha⟩ => ?_⟩
    · rw [hb]
      exact (sensorChange_gone hp (hw.trans ha)).1
    · rw [hb]
      exact (sensorChange_gone hp (hw.trans ha)).2
    · rw [hb]
      exact (sensorChange_back (hw.trans ha)).1
    · rw [hb]
      exact (sensorChange_back (hw.trans ha)).2

end Sys2Proof
end

