-- ==== Sys2Proof/Proofs/ParameterTable.lean ====
section
/-! The rows of the parameter table, and the energies of the engine states: O52. -/

namespace Sys2Proof.ParameterTable

open Sys2Proof.Machine

/-- A parameter's row in R196's table: id, parameter, range, default, class and idle-only mark. -/
def tableRow (id : ParamId) : Nat × ParamId × Int × Int × Int × ParamClass × Bool :=
  ((paramIndex id).val + 1, id, paramLow id, paramHigh id, paramDefault id, paramClass id, idleOnly id)

/-- The id in a parameter's row names the parameter. -/
theorem paramOfId_tableRow (id : ParamId) : paramOfId (BitVec.ofNat 8 (tableRow id).1) = some id := by
  refine ParameterRequests.paramOfId_paramIndex ?_
  rw [BitVec.toNat_ofNat]
  exact Nat.mod_eq_of_lt (by have := (paramIndex id).isLt; simp only [tableRow]; omega)

end Sys2Proof.ParameterTable

namespace Sys2Proof

open Sys2Proof.Machine Sys2Proof.ParameterTable

/-- Settles O52: the table is the list of every parameter's row, in the order of the ids; an id outside 1..32 names none by
`paramOfId_none`. -/
theorem parameterAndEnergyTables : Obligations.ParameterAndEnergyTables := by
  refine ⟨fun rows hrows => ⟨fun r hr => ?_, fun b hb => ParameterRequests.paramOfId_none hb⟩, fun e => ?_⟩
  · have htable : rows = allParams.map tableRow := hrows
    obtain ⟨id, -, rfl⟩ := List.mem_map.mp (htable ▸ hr)
    exact ⟨rfl, paramOfId_tableRow id, rfl, rfl, rfl, rfl, rfl⟩
  · cases e <;> exact ⟨rfl, rfl⟩

end Sys2Proof
end

