-- ==== Sys2Proof/Proofs/EventsAndCounters.lean ====
section
/-! Raising an event, the notice test, and the counters with their half flags: O6. -/

namespace Sys2Proof.LinkUnit

open Sys2Proof.Machine

variable {s : State} {l : Link}

/-! ## The notice test (R187) -/

/-- Two event sets meet exactly when some event is in both. -/
theorem and_ne_zero_iff (a b : EventSet) :
    a &&& b ≠ 0#13 ↔ ∃ n : Fin 13, a.getLsbD n = true ∧ b.getLsbD n = true := by
  refine ⟨fun h => ?_, fun ⟨n, ha, hb⟩ h => ?_⟩
  · by_contra hn
    refine h (BitVec.eq_of_getLsbD_eq fun i hi => ?_)
    rw [BitVec.getLsbD_zero, BitVec.getLsbD_and, ← Bool.not_eq_true, Bool.and_eq_true]
    exact fun hab => hn ⟨⟨i, hi⟩, hab⟩
  · have hn := congrArg (fun x : EventSet => x.getLsbD n) h
    simp only [BitVec.getLsbD_and, ha, hb, BitVec.getLsbD_zero] at hn
    cases hn

/-- With a notice outstanding the test makes none. -/
theorem noticeTest_outstanding (h : l.outstanding = true) : noticeTest l = l :=
  if_neg fun hn => by simp [h] at hn

/-- With an enabled event set and no notice outstanding the test makes one. -/
theorem noticeTest_enabled (ho : l.outstanding = false)
    (h : ∃ n : Fin 13, l.events.getLsbD n = true ∧ l.mask.getLsbD n = true) :
    noticeTest l = { l with notice := true, outstanding := true } :=
  if_pos ⟨(and_ne_zero_iff _ _).mpr h, ho⟩

/-- With no enabled event set the test makes none. -/
theorem noticeTest_masked (h : ∀ n : Fin 13, l.events.getLsbD n = true → l.mask.getLsbD n = false) :
    noticeTest l = l :=
  if_neg fun hn => by
    obtain ⟨n, he, hm⟩ := (and_ne_zero_iff _ _).mp hn.1
    cases (h n he).symm.trans hm

/-- A notice is put into the slot exactly when an enabled event is set and none is outstanding. -/
theorem noticeTest_signals (l : Link) :
    (l.outstanding = false →
      ((∃ n : Fin 13, (noticeTest l).events.getLsbD n = true ∧ l.mask.getLsbD n = true) →
        (noticeTest l).notice = true ∧ (noticeTest l).outstanding = true) ∧
      ((∀ n : Fin 13, (noticeTest l).events.getLsbD n = true → l.mask.getLsbD n = false) →
        (noticeTest l).notice = l.notice ∧ (noticeTest l).outstanding = false)) ∧
    (l.outstanding = true → (noticeTest l).notice = l.notice ∧ (noticeTest l).outstanding = true) := by
  rw [QueueAndSlots.noticeTest_events]
  refine ⟨fun ho => ⟨fun h => ?_, fun h => ?_⟩, fun ho => ?_⟩
  · rw [noticeTest_enabled ho h]
    exact ⟨rfl, rfl⟩
  · rw [noticeTest_masked h]
    exact ⟨rfl, ho⟩
  · rw [noticeTest_outstanding ho]
    exact ⟨rfl, ho⟩

/-- The notice test changes the notice and its flag alone. -/
theorem noticeTest_eq (l : Link) : noticeTest l =
    { l with notice := (noticeTest l).notice, outstanding := (noticeTest l).outstanding } := by
  unfold noticeTest
  split <;> rfl

/-- Raising an event changes the event set, the notice and its flag alone. -/
theorem raise_others (e : Event) (s : State) :
    { raise e s with link := { (raise e s).link with
        events := s.link.events, notice := s.link.notice, outstanding := s.link.outstanding } } = s := by
  simp only [raise, Link.raise]
  rw [noticeTest_eq]

/-! ## Counters (R190, R191) -/

/-- An addition crosses a counter's half value when it takes it from below the half to the half or above, its flag
being clear. -/
theorem crossesHalf_eq {bits v k : Nat} {flag : Bool} (hb : 1 ≤ bits) :
    crossesHalf bits v k flag =
      (decide (v < 2 ^ (bits - 1) ∧ 2 ^ (bits - 1) ≤ v + k) && !flag) := by
  have hhalf : 2 ^ (bits - 1) ≤ 2 ^ bits - 1 := by
    have hdouble : 2 ^ (bits - 1) * 2 = 2 ^ bits := by rw [← pow_succ, Nat.sub_add_cancel hb]
    have := Nat.two_pow_pos (bits - 1)
    omega
  simp only [crossesHalf, saturate, le_min_iff, hhalf, and_true, Bool.decide_and]

theorem General.one_le_bits (g : General) : 1 ≤ g.bits := by
  cases g <;> decide

/-- Adding to a counter sets its half flag when it crosses the half with the flag clear. -/
theorem halves_eq (b : Bank) (g : General) (k : Nat) : b.halves g k =
    (decide (b.general[g.index] < 2 ^ (g.bits - 1) ∧ 2 ^ (g.bits - 1) ≤ b.general[g.index] + k) &&
      !b.generalHalf.getLsbD g.index) :=
  crossesHalf_eq (General.one_le_bits g)

theorem strikeHalves_eq (b : Bank) (p : Fin 24) : b.strikeHalves p =
    (decide (b.strikes[p] = 134217727) && !b.strikesHalf.getLsbD p) := by
  have hcross : (b.strikes[p] < 2 ^ (strikeBits - 1) ∧ 2 ^ (strikeBits - 1) ≤ b.strikes[p] + 1) ↔
      b.strikes[p] = 134217727 := by
    simp only [strikeBits]
    omega
  rw [Bank.strikeHalves, crossesHalf_eq (by decide), decide_eq_decide.mpr hcross]

/-- A counter that is added to stops at its maximum (R190). -/
theorem count_same (g : General) (k : Nat) (s : State) :
    (count g k s).counters.live.general[g.index] = min (s.counters.live.general[g.index] + k) (2 ^ g.bits - 1) := by
  simp [count, Bank.count, saturate]

/-- Adding to a counter leaves every other counter and its half flag. -/
theorem count_other {g g' : General} (h : g' ≠ g) (k : Nat) (s : State) :
    (count g k s).counters.live.general[g'.index] = s.counters.live.general[g'.index] ∧
      (count g k s).counters.live.generalHalf.getLsbD g'.index =
        s.counters.live.generalHalf.getLsbD g'.index := by
  have hi : (g.index : Nat) ≠ g'.index := fun hg => h (HeadTables.generalIndex_inj (Fin.ext hg)).symm
  refine ⟨by simp [count, Bank.count, Vector.getElem_set_ne _ _ hi], ?_⟩
  simp only [count, Bank.count, apply_ite (fun x : BitVec 10 => x.getLsbD g'.index), BitVec.getLsbD_or,
    BitVec.getLsbD_twoPow, hi, decide_false, Bool.and_false, Bool.or_false, ite_self]

/-- A half flag that is newly set, with COUNTER_HALF raised. -/
theorem count_halved {g : General} {k : Nat} (h : s.counters.live.halves g k = true) :
    (count g k s).counters.live.generalHalf.getLsbD g.index = true ∧
      (count g k s).link = s.link.raise .counterHalf := by
  simp [count, Bank.count, Link.raiseIf, h]

/-- No half flag newly set, and nothing raised. -/
theorem count_not_halved {g : General} {k : Nat} (h : s.counters.live.halves g k = false) :
    (count g k s).counters.live.generalHalf = s.counters.live.generalHalf ∧ (count g k s).link = s.link := by
  simp [count, Bank.count, Link.raiseIf, h]

theorem countStrike_same (p : Fin 24) (s : State) :
    (countStrike p s).counters.live.strikes[p] = min (s.counters.live.strikes[p] + 1) 268435455 := by
  simp [countStrike, Bank.strike, saturate, strikeBits]

theorem countStrike_other {p q : Fin 24} (h : q ≠ p) (s : State) :
    (countStrike p s).counters.live.strikes[q] = s.counters.live.strikes[q] ∧
      (countStrike p s).counters.live.strikesHalf.getLsbD q = s.counters.live.strikesHalf.getLsbD q := by
  have hi : (p : Nat) ≠ q := fun hp => h (Fin.ext hp).symm
  refine ⟨by simp [countStrike, Bank.strike, Vector.getElem_set_ne _ _ hi], ?_⟩
  simp only [countStrike, Bank.strike, apply_ite (fun x : BitVec 24 => x.getLsbD q), BitVec.getLsbD_or,
    BitVec.getLsbD_twoPow, hi, decide_false, Bool.and_false, Bool.or_false, ite_self]

theorem countStrike_halved {p : Fin 24} (h : s.counters.live.strikeHalves p = true) :
    (countStrike p s).counters.live.strikesHalf.getLsbD p = true ∧
      (countStrike p s).link = s.link.raise .counterHalf := by
  simp [countStrike, Bank.strike, Link.raiseIf, h]

theorem countStrike_not_halved {p : Fin 24} (h : s.counters.live.strikeHalves p = false) :
    (countStrike p s).counters.live.strikesHalf = s.counters.live.strikesHalf ∧
      (countStrike p s).link = s.link := by
  simp [countStrike, Bank.strike, Link.raiseIf, h]

/-- COUNTER_HALF is raised on the addition that first reaches half. -/
theorem count_half (g : General) (k : Nat) (s : State) :
    (s.counters.live.general[g.index] < 2 ^ (g.bits - 1) → 2 ^ (g.bits - 1) ≤ s.counters.live.general[g.index] + k →
      (count g k s).counters.live.generalHalf.getLsbD g.index = true ∧
      (s.counters.live.generalHalf.getLsbD g.index = false → (count g k s).link = s.link.raise .counterHalf) ∧
      (s.counters.live.generalHalf.getLsbD g.index = true → (count g k s).link = s.link)) ∧
    (2 ^ (g.bits - 1) ≤ s.counters.live.general[g.index] ∨ s.counters.live.general[g.index] + k < 2 ^ (g.bits - 1) →
      (count g k s).counters.live.generalHalf = s.counters.live.generalHalf ∧ (count g k s).link = s.link) := by
  have hh := halves_eq s.counters.live g k
  refine ⟨fun hlow hhigh => ?_, fun h => count_not_halved ?_⟩
  · simp only [hlow, hhigh, and_self, decide_true, Bool.true_and] at hh
    cases hf : s.counters.live.generalHalf.getLsbD g.index with
    | false =>
      obtain ⟨hset, hlink⟩ := count_halved (hh.trans (by rw [hf]; rfl))
      exact ⟨hset, fun _ => hlink, nofun⟩
    | true =>
      obtain ⟨hsame, hlink⟩ := count_not_halved (hh.trans (by rw [hf]; rfl))
      exact ⟨hsame ▸ hf, nofun, fun _ => hlink⟩
  · rw [hh, decide_eq_false (by omega), Bool.false_and]

theorem countStrike_half (p : Fin 24) (s : State) :
    (s.counters.live.strikes[p] = 134217727 →
      (countStrike p s).counters.live.strikesHalf.getLsbD p = true ∧
      (s.counters.live.strikesHalf.getLsbD p = false → (countStrike p s).link = s.link.raise .counterHalf) ∧
      (s.counters.live.strikesHalf.getLsbD p = true → (countStrike p s).link = s.link)) ∧
    (s.counters.live.strikes[p] ≠ 134217727 →
      (countStrike p s).counters.live.strikesHalf = s.counters.live.strikesHalf ∧
      (countStrike p s).link = s.link) := by
  have hh := strikeHalves_eq s.counters.live p
  refine ⟨fun hv => ?_, fun hv => countStrike_not_halved (by rw [hh, decide_eq_false hv, Bool.false_and])⟩
  rw [decide_eq_true hv, Bool.true_and] at hh
  cases hf : s.counters.live.strikesHalf.getLsbD p with
  | false =>
    obtain ⟨hset, hlink⟩ := countStrike_halved (hh.trans (by rw [hf]; rfl))
    exact ⟨hset, fun _ => hlink, nofun⟩
  | true =>
    obtain ⟨hsame, hlink⟩ := countStrike_not_halved (hh.trans (by rw [hf]; rfl))
    exact ⟨hsame ▸ hf, nofun, fun _ => hlink⟩

end Sys2Proof.LinkUnit

namespace Sys2Proof

open Sys2Proof.Machine Sys2Proof.LinkUnit

/-- Settles O6: raising by the notice test (`noticeTest_signals`), counting by where the addition takes the counter
(`count_half`, `countStrike_half`). -/
theorem eventsAndCountersSignalOnce : Obligations.EventsAndCountersSignalOnce := by
  refine ⟨fun e s => ⟨fun n => QueueAndSlots.raise_events e s n.isLt, ?_⟩, fun g k s => ?_, fun p s => ?_⟩
  · obtain ⟨hfree, htaken⟩ := noticeTest_signals { s.link with events := s.link.events ||| eventBit e }
    exact ⟨hfree, htaken, raise_others e s⟩
  · obtain ⟨hhalf, hnot⟩ := count_half g k s
    exact ⟨count_same g k s, fun g' hg => count_other hg k s, rfl, rfl, rfl, hhalf, hnot, rfl⟩
  · obtain ⟨hhalf, hnot⟩ := countStrike_half p s
    exact ⟨countStrike_same p s, fun q hq => countStrike_other hq s, rfl, rfl, rfl, hhalf, hnot, rfl⟩

end Sys2Proof
end

