-- ==== Sys2Proof/Proofs/LinkRequests.lean ====
section
/-! The step on a waiting command, and the requests EVNT, EMSK and CNTR: O1, O10 and O12. -/

namespace Sys2Proof.LinkUnit

open Sys2Proof.Machine

/-! ## EMSK (R186 to R188) -/

/-- The three bits above the thirteen events are clear exactly below 2^13. -/
theorem mask_fits_iff (m : BitVec 16) : m &&& 0xE000#16 = 0#16 ↔ m.toNat < 8192 := by
  have hhigh : ∀ i : Fin 16, (0xE000#16).getLsbD i = decide (13 ≤ i.val) := by decide
  have hbit {i : Nat} (hi : i < 16) : (m &&& 0xE000#16).getLsbD i = (m.getLsbD i && decide (13 ≤ i)) := by
    rw [BitVec.getLsbD_and, hhigh ⟨i, hi⟩]
  refine ⟨fun h => Nat.lt_pow_two_of_testBit (n := 13) _ fun i hi => ?_,
    fun h => BitVec.eq_of_getLsbD_eq fun i hi => ?_⟩
  · by_cases h16 : i < 16
    · have hclear := hbit h16
      rw [h, BitVec.getLsbD_zero, decide_eq_true hi, Bool.and_true] at hclear
      exact hclear.symm
    · exact BitVec.getLsbD_of_ge m i (Nat.le_of_not_lt h16)
  · rw [hbit hi, BitVec.getLsbD_zero]
    by_cases h13 : 13 ≤ i
    · have hclear : m.getLsbD i = false :=
        Nat.testBit_lt_two_pow (h.trans_le (Nat.pow_le_pow_right Nat.two_pos h13))
      rw [hclear, Bool.false_and]
    · rw [decide_eq_false h13, Bool.and_false]

/-- A mask that names no event above 12 reads back as it was sent. -/
theorem eventBytes_setWidth {m : BitVec 16} (h : m.toNat < 8192) : eventBytes (m.setWidth 13) = le16 m := by
  have hw : (m.setWidth 13).setWidth 16 = m :=
    BitVec.eq_of_toNat_eq (by simp only [BitVec.toNat_setWidth]; omega)
  rw [eventBytes, hw]

/-- A new mask and a frame that leaves its receive place do not touch each other. -/
theorem setMask_dropOldest (m : EventSet) (s : State) : setMask m (dropOldest s) = dropOldest (setMask m s) := by
  have hreceived : (setMask m s).link.received = s.link.received := by simp
  simp only [dropOldest, hreceived]
  exact congrArg (fun l => { s with link := l })
    (QueueAndSlots.noticeTest_received { s.link with mask := m } s.link.received.tail)

theorem doEmsk_refused {m : BitVec 16} (h : 8192 ≤ m.toNat) (s : State) :
    doEmsk (some m) s = (s, emskReply .badValue s) :=
  if_neg ((mask_fits_iff m).not.mpr (Nat.not_lt.mpr h))

/-- An accepted mask is answered as it was sent, with the event set as it stands. -/
theorem doEmsk_accepted {m : BitVec 16} (h : m.toNat < 8192) (s : State) :
    doEmsk (some m) s = (setMask (m.setWidth 13) s, 0x00#8 :: (le16 m ++ eventBytes s.link.events)) := by
  have hmask : (setMask (m.setWidth 13) s).link.mask = m.setWidth 13 := by simp [setMask]
  have hevents : (setMask (m.setWidth 13) s).link.events = s.link.events := QueueAndSlots.noticeTest_events _
  rw [← eventBytes_setWidth h]
  refine (if_pos ((mask_fits_iff m).mpr h)).trans ?_
  rw [emskReply, hmask, hevents]
  rfl

/-! ## CNTR (R192) -/

theorem clearMask_fits_iff (m : Byte) : m &&& 0xFC#8 = 0#8 ↔ m.toNat < 4 := by
  revert m
  decide

theorem generalReply_length (s : State) : (generalReply s).length = 34 := rfl

theorem pinsReply_length (s : State) : (pinsReply s).length = 101 := rfl

theorem doRead_undefined {g : Byte} (h : 1 < g.toNat) (s : State) : doRead g s = (s, [0x12#8, g]) := by
  have h0 : g ≠ 0#8 := by bv_omega
  have h1 : g ≠ 1#8 := by bv_omega
  exact (if_neg h0).trans (if_neg h1)

theorem doClear_refused {m : Byte} (h : 4 ≤ m.toNat) (s : State) : doClear m s = (s, [0x12#8]) :=
  if_neg ((clearMask_fits_iff m).not.mpr (Nat.not_lt.mpr h))

theorem doClear_accepted {m : Byte} (h : m.toNat < 4) (s : State) :
    doClear m s = ({ s with counters :=
      ⟨s.counters.live.clear (m.getLsbD 0) (m.getLsbD 1), s.counters.snapshot⟩ }, [0x00#8]) :=
  if_pos ((clearMask_fits_iff m).mpr h)

end Sys2Proof.LinkUnit

namespace Sys2Proof

open Sys2Proof.Machine Sys2Proof.LinkUnit

/-- Settles O1: the first branch of the step. -/
theorem stepRunsFrontCommand : Obligations.StepRunsFrontCommand := by
  intro c rest s h
  rw [step, h]

/-- Settles O10: an accepted mask is set with the notice test (`doEmsk_accepted`). -/
theorem evntEmptiesAndEmskMasks : Obligations.EvntEmptiesAndEmskMasks := by
  intro tag s
  refine ⟨fun hr => HeadTables.exec_replied hr rfl rfl rfl rfl, fun hr => HeadTables.exec_replied hr rfl rfl rfl rfl,
    fun m hr => ⟨fun h => ?_, fun h => ?_⟩⟩
  · exact HeadTables.exec_replied hr rfl rfl rfl (doEmsk_refused h _)
  · refine HeadTables.exec_replied hr rfl rfl rfl ?_
    refine (doEmsk_accepted h _).trans (congrArg (·, _) ?_)
    exact setMask_dropOldest _ s

/-- Settles O12: each operation by its own part. -/
theorem cntrSnapsReadsAndClears : Obligations.CntrSnapsReadsAndClears := by
  intro tag s
  refine ⟨fun pad hr => HeadTables.exec_replied hr rfl rfl rfl rfl,
    fun op arg _ hr => ⟨[], HeadTables.exec_replied hr rfl rfl rfl rfl⟩,
    fun g hr => ⟨fun hg => ?_, fun hg => ?_, fun hg => ⟨[g], ?_⟩⟩, fun m hr => ⟨fun hm => ?_, fun hm => ?_⟩,
    generalReply_length s, pinsReply_length s⟩
  · subst hg
    exact HeadTables.exec_replied hr rfl rfl rfl rfl
  · subst hg
    exact HeadTables.exec_replied hr rfl rfl rfl rfl
  · exact HeadTables.exec_replied hr rfl rfl rfl (doRead_undefined hg _)
  · exact HeadTables.exec_replied hr rfl rfl rfl (doClear_refused hm _)
  · exact HeadTables.exec_replied hr rfl rfl rfl (doClear_accepted hm _)

end Sys2Proof
end

