-- ==== Sys2Proof/Proofs/Receiver.lean ====
section
/-! The receiver, byte by byte, over the bytes of a frame: O4. -/

namespace Sys2Proof.LinkUnit

open Sys2Proof.Machine

variable {s : State} {f : Frame} {w : List Byte}

/-! ## Runs of bytes -/

/-- Bytes on the line, each with its stop bit. -/
def onLine (bytes : List Byte) : List LineByte := bytes.map (fun b => ⟨b, true⟩)

theorem onLine_cons (b : Byte) (bytes : List Byte) : onLine (b :: bytes) = ⟨b, true⟩ :: onLine bytes := rfl

theorem onLine_append (a b : List Byte) : onLine (a ++ b) = onLine a ++ onLine b := List.map_append

theorem rxBytes_cons (b : LineByte) (bytes : List LineByte) (s : State) :
    rxBytes (b :: bytes) s = rxBytes bytes (rxByte s b) := rfl

theorem rxBytes_append (a b : List LineByte) (s : State) : rxBytes (a ++ b) s = rxBytes b (rxBytes a s) :=
  List.foldl_append

theorem setMode_eq {m : RxMode} (h : s.link.mode = m) : setMode m s = s := by
  subst h
  rfl

/-- In HUNT a start byte begins a frame where a place is free (R178). -/
theorem rxByte_start_free (hm : s.link.mode = .hunt) (hr : s.link.received.length < 2) :
    rxByte s ⟨startByte, true⟩ = setMode (.frame []) s := by
  simp [rxByte, hm, rxHunt, Config.receivePlaces, hr]

/-- In HUNT a start byte with no place free is an overrun (R180). -/
theorem rxByte_start_full (hm : s.link.mode = .hunt) (hr : 2 ≤ s.link.received.length) :
    rxByte s ⟨startByte, true⟩ = setMode (.skip [] 0) (overrun s) := by
  simp [rxByte, hm, rxHunt, Config.receivePlaces, Nat.not_lt.mpr hr]

/-! ## FRAME (R178, R179) -/

/-- Bytes of a frame that call for more: a LEN that is valid, and fewer bytes than it asks for. -/
def Unfinished (p : List Byte) : Prop :=
  if p.length = 2 then lenValid p = true else p.length ≠ lenOf p + 4

theorem rxFrameBytes_unfinished (h : Unfinished p) (s : State) : rxFrameBytes p s = setMode (.frame p) s := by
  unfold Unfinished at h
  unfold rxFrameBytes
  split at h
  · next h2 => rw [if_pos h2, if_pos h]
  · next h2 => rw [if_neg h2, if_neg h]

/-- While the bytes call for more, the receiver collects them. -/
theorem rxBytes_frame (bytes got : List Byte) (s : State)
    (h : ∀ n < bytes.length, Unfinished (got ++ bytes.take (n + 1))) :
    rxBytes (onLine bytes) (setMode (.frame got) s) = setMode (.frame (got ++ bytes)) s := by
  induction bytes generalizing got with
  | nil =>
    rw [List.append_nil]
    rfl
  | cons b bytes ih =>
    have hfirst : rxByte (setMode (.frame got) s) ⟨b, true⟩ = setMode (.frame (got ++ [b])) s :=
      rxFrameBytes_unfinished (h 0 (Nat.succ_pos _)) _
    rw [onLine_cons, rxBytes_cons, hfirst, ih, List.append_assoc, List.singleton_append]
    intro n hn
    rw [List.append_assoc, List.singleton_append]
    exact h (n + 1) (Nat.succ_lt_succ hn)

/-- LEN is read from the first two bytes. -/
theorem lenOf_take {n : Nat} (hn : 2 ≤ n) : lenOf (w.take n) = lenOf w := by
  have hbyte {i : Nat} (hi : i < 2) : byteAt (w.take n) i = byteAt w i := by
    simp only [byteAt, List.getD_eq_getElem?_getD, List.getElem?_take_of_lt (hi.trans_le hn)]
  rw [lenOf, word16At, hbyte Nat.one_lt_two, hbyte Nat.two_pos]
  rfl

/-- Every proper part of as many bytes as a valid LEN asks for calls for more. -/
theorem unfinished_take {n : Nat} (hv : lenValid w = true) (hl : w.length = lenOf w + 4) (hn : n < w.length) :
    Unfinished (w.take n) := by
  have hlen : (w.take n).length = n := List.length_take_of_le hn.le
  unfold Unfinished
  rw [hlen]
  split
  · next h2 => rwa [lenValid, lenOf_take h2.ge]
  · by_cases h : 2 ≤ n
    · rw [lenOf_take h]
      omega
    · omega

/-- A start byte and a proper part of as many bytes as a valid LEN asks for. -/
theorem rxBytes_part {n : Nat} (hm : s.link.mode = .hunt) (hr : s.link.received.length < 2) (hv : lenValid w = true)
    (hl : w.length = lenOf w + 4) (hn : n < w.length) :
    rxBytes (onLine (startByte :: w.take n)) s = setMode (.frame (w.take n)) s := by
  rw [onLine_cons, rxBytes_cons, rxByte_start_free hm hr]
  refine (rxBytes_frame (w.take n) [] s fun k hk => ?_).trans (by rw [List.nil_append])
  rw [List.length_take_of_le hn.le] at hk
  rw [List.nil_append, List.take_take, min_eq_left hk]
  exact unfinished_take hv hl (Nat.lt_of_le_of_lt hk hn)

/-- A start byte and all the bytes that a valid LEN asks for: the last of them decides. -/
theorem rxBytes_all (hm : s.link.mode = .hunt) (hr : s.link.received.length < 2) (hv : lenValid w = true)
    (hl : w.length = lenOf w + 4) :
    rxBytes (onLine (startByte :: w)) s =
      if crcMatches w then { s with link := { s.link with received := s.link.received ++ [frameIn w] } }
      else raise .linkError (count .framesRejected 1 s) := by
  have hne : w ≠ [] := fun h => by simp [h] at hl
  have hpart := rxBytes_part hm hr hv hl (Nat.sub_lt (List.length_pos_iff.mpr hne) Nat.one_pos)
  rw [← List.dropLast_eq_take] at hpart
  have hlast : rxBytes (onLine (startByte :: w)) s =
      rxByte (setMode (.frame w.dropLast) s) ⟨w.getLast hne, true⟩ := by
    rw [← hpart]
    conv_lhs => rw [← List.dropLast_append_getLast hne, ← List.cons_append, onLine_append, rxBytes_append]
    rfl
  have hbytes : w.dropLast ++ [w.getLast hne] = w := List.dropLast_append_getLast hne
  have hw : rxByte (setMode (.frame w.dropLast) s) ⟨w.getLast hne, true⟩ =
      rxFrameBytes w (setMode (.frame w.dropLast) s) := by
    conv_rhs => rw [← hbytes]
    rfl
  have hhunt : setMode .hunt s = s := setMode_eq hm
  rw [hlast, hw, rxFrameBytes, if_neg (by omega), if_pos hl]
  refine if_congr Iff.rfl ?_ ?_
  · conv_rhs => rw [← hhunt]
    rfl
  · conv_rhs => rw [← hhunt]
    rfl

/-- A start byte and a LEN outside 2..1026 (R178). -/
theorem rxBytes_badLen (hm : s.link.mode = .hunt) (hr : s.link.received.length < 2) (h2 : w.length = 2)
    (hv : lenValid w = false) :
    rxBytes (onLine (startByte :: w)) s = raise .linkError (count .framesRejected 1 s) := by
  obtain ⟨a, b, rfl⟩ := List.length_eq_two.mp h2
  have hhunt : setMode .hunt s = s := setMode_eq hm
  have hfirst : Unfinished [a] := by simp [Unfinished]
  have htwo : rxBytes (onLine [a, b]) (setMode (.frame []) s) = rxFrameBytes [a, b] (setMode (.frame [a]) s) := by
    refine (rxBytes_append (onLine [a]) (onLine [b]) _).trans ?_
    rw [rxBytes_frame [a] [] s (by simpa using hfirst)]
    rfl
  rw [onLine_cons, rxBytes_cons, rxByte_start_free hm hr, htwo, rxFrameBytes, if_pos h2, hv]
  conv_rhs => rw [← hhunt]
  rfl

/-- A byte without its stop bit in FRAME (R179). -/
theorem rxByte_noStop (hm : s.link.mode = .hunt) (got : List Byte) (b : Byte) :
    rxByte (setMode (.frame got) s) ⟨b, false⟩ = raise .linkError (count .framesRejected 1 s) := by
  have hhunt : setMode .hunt s = s := setMode_eq hm
  conv_rhs => rw [← hhunt]
  rfl

/-! ## SKIP (R180) -/

/-- Once LEN is known, so many bytes are passed over, and the last of them ends it. -/
theorem rxBytes_skip (a b c : Byte) (rest : List Byte) (s : State) :
    rxBytes (onLine (c :: rest)) (setMode (.skip [a, b] (rest.length + 1)) s) = setMode .hunt s := by
  induction rest generalizing c with
  | nil => rfl
  | cons d rest ih =>
    rw [onLine_cons, rxBytes_cons]
    exact ih d

/-- A start byte with no place free, and all the bytes that a valid LEN asks for. -/
theorem rxBytes_overrun (hm : s.link.mode = .hunt) (hr : 2 ≤ s.link.received.length) (hv : lenValid w = true)
    (hl : w.length = lenOf w + 4) : rxBytes (onLine (startByte :: w)) s = overrun s := by
  obtain ⟨a, b, c, rest, rfl⟩ : ∃ a b c rest, w = a :: b :: c :: rest := by
    match w, hl with
    | a :: b :: c :: rest, _ => exact ⟨a, b, c, rest, rfl⟩
  have hrest : lenOf [a, b] + 2 = rest.length + 1 := by
    have hlen : lenOf [a, b] = lenOf (a :: b :: c :: rest) := rfl
    simp only [List.length_cons] at hl
    omega
  have hlen : rxByte (setMode (.skip [a] 0) (overrun s)) ⟨b, true⟩ =
      setMode (.skip [a, b] (rest.length + 1)) (overrun s) := by
    have hvalid : lenValid [a, b] = true := hv
    simp [rxByte, setMode, skipMode, hvalid, hrest]
  have hmode : (overrun s).link.mode = .hunt := by simp [hm]
  rw [onLine_cons, rxBytes_cons, rxByte_start_full hm hr, onLine_cons, rxBytes_cons, onLine_cons, rxBytes_cons]
  exact (congrArg (rxBytes (onLine (c :: rest))) hlen).trans
    ((rxBytes_skip a b c rest _).trans (setMode_eq hmode))

/-! ## The bytes of a frame (R178, section 11.2) -/

theorem coveredBytes_length (f : Frame) : (coveredBytes f).length = f.payload.length + 4 := by
  simp [coveredBytes, le16]

theorem le16_length (x : BitVec 16) : (le16 x).length = 2 := rfl

section

variable (hp : f.payload.length ≤ 1024) (crc : BitVec 16)

include hp

/-- The LEN of a frame counts KIND, TAG and payload. -/
theorem lenOf_frame : lenOf (coveredBytes f ++ le16 crc) = f.payload.length + 2 := by
  have hlen : word16At (coveredBytes f ++ le16 crc) 0 = BitVec.ofNat 16 (f.payload.length + 2) :=
    StatReply.word16At_of_drop (rest := [f.kind, f.tag] ++ f.payload ++ le16 crc) (by simp [coveredBytes])
  rw [lenOf, hlen, BitVec.toNat_ofNat, Nat.mod_eq_of_lt (by omega)]

theorem lenValid_frame : lenValid (coveredBytes f ++ le16 crc) = true := by
  simp [lenValid, lenOf_frame hp, hp]

theorem frame_length : (coveredBytes f ++ le16 crc).length = lenOf (coveredBytes f ++ le16 crc) + 4 := by
  rw [lenOf_frame hp, List.length_append, coveredBytes_length, le16_length]

theorem crcMatches_frame :
    crcMatches (coveredBytes f ++ le16 crc) = decide (crc = crc16 (coveredBytes f)) := by
  have hlen : lenOf (coveredBytes f ++ le16 crc) + 2 = (coveredBytes f).length := by
    rw [lenOf_frame hp, coveredBytes_length]
  have hword : word16At (coveredBytes f ++ le16 crc) (coveredBytes f).length = crc :=
    StatReply.word16At_of_drop (rest := []) (by simp)
  rw [crcMatches, hlen, hword, List.take_left]

theorem frameIn_frame : frameIn (coveredBytes f ++ le16 crc) = f := by
  have hpayload : ((coveredBytes f ++ le16 crc).drop 4).take f.payload.length = f.payload :=
    List.take_left (l₂ := le16 crc)
  rw [frameIn, lenOf_frame hp, Nat.add_sub_cancel, hpayload]
  rfl

end

theorem lineBytes_length (f : Frame) :
    (lineBytes f).length = (coveredBytes f ++ le16 (crc16 (coveredBytes f))).length + 1 := rfl

end Sys2Proof.LinkUnit

namespace Sys2Proof

open Sys2Proof.Machine Sys2Proof.LinkUnit

/-- Settles O4: a frame's bytes are as many as its LEN asks for, so the last one decides (`rxBytes_all`), a proper part
of them leaves the receiver in FRAME (`rxBytes_part`), and with no place free they are passed over to the last
(`rxBytes_overrun`). -/
theorem framesAreReceivedOrRejected : Obligations.FramesAreReceivedOrRejected := by
  refine ⟨fun f s hs hm hr hp => ?_, fun f s hs hm hr hp => ?_, fun s hs hm hr =>
    ⟨fun f crc hp hc => ?_, fun len hlen => ?_, fun f n b hp hn hlt => ?_⟩⟩
  · refine (hs.acting _).trans (congrArg _ ((rxBytes_all hm hr (lenValid_frame hp _) (frame_length hp _)).trans ?_))
    rw [crcMatches_frame hp, frameIn_frame hp, decide_eq_true rfl, if_pos rfl]
  · exact (hs.acting _).trans (congrArg _ (rxBytes_overrun hm hr (lenValid_frame hp _) (frame_length hp _)))
  · refine (hs.acting _).trans (congrArg _ ((rxBytes_all hm hr (lenValid_frame hp crc) (frame_length hp crc)).trans ?_))
    rw [crcMatches_frame hp, decide_eq_false hc, if_neg Bool.false_ne_true]
  · refine (hs.acting _).trans (congrArg _ (rxBytes_badLen hm hr (le16_length len) ?_))
    have hword : word16At (le16 len) 0 = len := StatReply.word16At_of_drop (rest := []) (by simp)
    simp only [lenValid, lenOf, hword]
    rw [← Bool.not_eq_true, Bool.and_eq_true, decide_eq_true_iff, decide_eq_true_iff]
    omega
  · obtain ⟨k, rfl⟩ : ∃ k, n = k + 1 := ⟨n - 1, by omega⟩
    refine (hs.acting _).trans (congrArg _ ?_)
    rw [lineBytes_length] at hlt
    rw [rxBytes_append]
    have hpart := rxBytes_part hm hr (lenValid_frame hp _) (frame_length hp _) (Nat.lt_of_succ_lt_succ hlt)
    exact (congrArg (rxBytes [⟨b, false⟩]) hpart).trans (rxByte_noStop hm _ b)

end Sys2Proof
end

