-- ==== Sys2Proof/Proofs/RequestAnswers.lean ====
section
/-! Requests that wait, that the Link Unit refuses, and the one answer of every other: O7 and O8. -/

namespace Sys2Proof.LinkUnit

open Sys2Proof.Machine

variable {s t : State} {c : Instr} {f : Frame}

/-! ## What the block of a request makes of it (R182) -/

/-- The answer that the block of a request gives to it; a command that is no request has no frame, and its arm is never
read. -/
def blockAnswer (c : Instr) : State → Answer :=
  match c with
  | .unknownKind _ _ _ => bare .unknownKind
  | .stat _ w => onFields w (fun _ => doStat)
  | .evnt _ w => onFields w (fun _ => doEvnt)
  | .emsk _ w => onFields w doEmsk
  | .setp _ w => onFields w doSetp
  | .getp _ w => onFields w doGetp
  | .cntrSnap _ (.snap _) => doSnap
  | .cntrSnap _ (.undefinedOp _ _) => bare .badValue
  | .cntrSnap _ (.wrongLength _) => bare .badLength
  | .cntrRead _ g => doRead g
  | .cntrClear _ m => doClear m
  | .slotOpen _ w => onFields w (fun r => slotAnswer r.slot (openSlot r.left.toNat r.length.toNat))
  | .slotData _ w => onFields w (fun r => slotAnswer r.slot (storeData r.start.toNat r.runs))
  | .slotSeal _ w => onFields w (fun b => slotAnswer b sealSlot)
  | .slotDrop _ w => onFields w (fun b => slotAnswer b dropSlot)
  | .line tag w => onFields w (fun r => enqueueAnswer tag ((lineFieldsOf r).map .line))
  | .feed tag w => onFields w (fun d => enqueueAnswer tag ((feedOf d).map .feed))
  | .skip tag w => onFields w (fun b => enqueueAnswer tag ((channelOf b).map .skip))
  | .tear tag w => onFields w (fun _ => enqueueAnswer tag (some .tear))
  | .haltLine _ .lineMode => fun s => (haltInLine s, [Result.ok.code])
  | .haltLine _ (.undefinedMode _) => bare .badValue
  | .haltLine _ (.wrongLength _) => bare .badLength
  | .haltPass _ => fun s => (haltInPass s, [Result.ok.code])
  | .haltNow _ => fun s => (haltAtOnce s, [Result.ok.code])
  | .go _ w => onFields w (fun _ => doGo)
  | .flsh _ w => onFields w (fun _ => doFlsh)
  | .cmpl _ w => onFields w doCmpl
  | .pmap _ w => onFields w doPmap
  | .pinh _ w => onFields w doPinh
  | .etab _ w => onFields w doEtab
  | .form _ w => onFields w doForm
  | .enga _ w => onFields w (fun _ s => engineAnswer (engage s))
  | .rest _ w => onFields w (fun _ s => engineAnswer (restEngine s))
  | .wake _ w => onFields w (fun _ s => engineAnswer (wakeEngine s))
  | .clrf _ w => onFields w (fun _ => doClrf)
  | .erst _ w => onFields w (fun _ s => engineAnswer (resetEngineNow s, .ok))
  | .dout _ w => onFields w doDout
  | .tovl _ w => onFields w doTovl
  | _ => bare .ok

/-- A request row serves its frame with its block's answer; only an UNKNOWN_KIND row whose KIND is defined does not. -/
theorem exec_request (he : encodeFrame c = some f) (hk : ∀ kind tag p, c = .unknownKind kind tag p →
    RequestKind.ofCode kind = none) (s : State) : exec c s = request c (blockAnswer c) s := by
  cases c
  case unknownKind kind tag p =>
    simp only [exec, execUnknownKind, hk kind tag p rfl]
    rfl
  case cntrSnap tag w => cases w <;> rfl
  case haltLine tag w => cases w <;> rfl
  all_goals cases he
  all_goals rfl

theorem unknownKind_of_wellFormed (hw : WellFormed c = true) {kind tag : Byte} {p : List Byte}
    (hc : c = .unknownKind kind tag p) : RequestKind.ofCode kind = none := by
  subst hc
  simp only [WellFormed, Bool.and_eq_true, Option.isNone_iff_eq_none] at hw
  exact hw.1

/-- A well-formed request row serves its frame with its block's answer. -/
theorem exec_wellFormed (hw : WellFormed c = true) (he : encodeFrame c = some f) (hs : Settled s) :
    exec c s = .next (serve f (blockAnswer c) s) := by
  rw [exec_request he (fun _ _ _ => unknownKind_of_wellFormed hw), request, he]
  exact hs.acting _

/-! ## Requests that wait (R180, R181, log 2, log 19) -/

/-- A request that cannot be decoded keeps its place, takes a free one, or is an overrun. -/
theorem serve_waiting (hd : ¬ Decodable f s) (h : State → Answer) :
    serve f h s = if 4 ≤ s.link.replies.length ∧ s.link.received.head? = some f then s else arrive f s := by
  unfold serve
  by_cases hr : s.link.replies.length < Config.replyPlaces
  · have hwait : ¬ (s.link.received = [] ∨ s.link.received.head? = some f) := fun h => hd ⟨hr, h⟩
    rw [if_pos hr, if_neg (fun h => Nat.not_le.mpr hr h.1)]
    split
    · next hnil => exact absurd (.inl hnil) hwait
    · next g rest hcons =>
      exact if_neg fun hg => hwait (.inr (by rw [hcons, hg]; rfl))
  · rw [if_neg hr]
    exact if_congr (and_iff_right (Nat.not_lt.mp hr)).symm rfl rfl

/-! ## Lengths and kinds (R182, R194) -/

theorem code_of_ofCode {b : Byte} {k : RequestKind} (h : RequestKind.ofCode b = some k) : k.code = b := by
  simpa using List.find?_some h

theorem wireOf_wrongLength {α : Type} {k : RequestKind} {p : List Byte} (h : lengthAllowed k p = false) (x : α) :
    wireOf k p x = .wrongLength p := by
  rw [wireOf, h]
  rfl

/-- A payload of a length its kind does not allow is read back whole from the command, and answered BAD_LENGTH. -/
theorem decodePayload_wrongLength {k : RequestKind} {p : List Byte} (h : lengthAllowed k p = false) (tag : Byte) :
    encodeFrame (decodePayload k tag p) = some ⟨k.code, tag, p⟩ ∧
      ∀ s, exec (decodePayload k tag p) s = request (decodePayload k tag p) (bare .badLength) s := by
  cases k
  case cntr =>
    simp only [decodePayload, decodeCntr, h]
    exact ⟨rfl, fun _ => rfl⟩
  case halt =>
    simp only [decodePayload, decodeHalt, h]
    exact ⟨rfl, fun _ => rfl⟩
  all_goals
    simp only [decodePayload, wireOf_wrongLength h]
    exact ⟨rfl, fun _ => rfl⟩

/-! ## One answer, and none but the code where it is refused (R181, R182, R195) -/

/-- The places of the Link Unit, the frame it sends, and the queue of commands. -/
def linkPlaces (s : State) : RxMode × List Frame × List Frame × Transmitter × List Instr :=
  (s.link.mode, s.link.received, s.link.replies, s.link.tx, s.pending)

/-- A block's answer leaves the Link Unit's places, carries a result code, and is a refusal only of a state that it
leaves as it was. -/
structure Answers (s : State) (a : Answer) : Prop where
  places : linkPlaces a.1 = linkPlaces s
  coded : ∃ code fields, a.2 = code :: fields ∧ (16 ≤ code.toNat → a.1 = s)

/-- What a block makes of a state before its reply is laid out: refused, it is the state that was. -/
structure Judged (s : State) (p : State × Result) : Prop where
  places : linkPlaces p.1 = linkPlaces s
  refused : p.2 ≠ .ok → p.1 = s

variable {r : Result} {code : Byte} {fields : List Byte}

/-- An answer that changes nothing. -/
theorem Answers.same : Answers s (s, code :: fields) := ⟨rfl, code, fields, rfl, fun _ => rfl⟩

/-- An answer that is OK or OK_CLAMPED. -/
theorem Answers.accepted (hc : code.toNat < 16) (h : linkPlaces t = linkPlaces s) : Answers s (t, code :: fields) :=
  ⟨h, code, fields, rfl, fun h16 => absurd h16 (Nat.not_le.mpr hc)⟩

theorem Answers.ok (h : linkPlaces t = linkPlaces s) : Answers s (t, Result.ok.code :: fields) :=
  .accepted (by decide) h

theorem Judged.same : Judged s (s, r) := ⟨rfl, fun _ => rfl⟩

theorem Judged.ok (h : linkPlaces t = linkPlaces s) : Judged s (t, .ok) := ⟨h, fun hn => absurd rfl hn⟩

theorem Judged.answers {p : State × Result} (h : Judged s p) : Answers s (p.1, p.2.code :: fields) := by
  by_cases hr : p.2 = .ok
  · rw [hr]
    exact .ok h.places
  · rw [h.refused hr]
    exact .same

theorem answers_onFields {α : Type} {w : Wire α} {h : α → State → Answer} (hh : ∀ x, Answers s (h x s)) :
    Answers s (onFields w h s) := by
  cases w with
  | fields x => exact hh x
  | wrongLength p => exact .same

/-! ### Link Unit and Counter Block -/

theorem answers_doEmsk (m : Option (BitVec 16)) : Answers s (doEmsk m s) := by
  unfold doEmsk
  split
  · exact .same
  · split
    · exact .ok (by simp [linkPlaces])
    · exact .same

/-- A value that SETP's third check accepts is answered OK or OK_CLAMPED. -/
theorem judgeValue_code {id : ParamId} {v x : Int} (h : judgeValue id v s = some (x, r)) : r.code.toNat < 16 := by
  unfold judgeValue at h
  split at h
  all_goals
    split at h
    all_goals
      cases h
      all_goals decide

theorem answers_doSetp (q : SetpReq) : Answers s (doSetp q s) := by
  unfold doSetp
  split
  · exact .same
  · split
    · exact .same
    · split
      · next hj => exact .accepted (judgeValue_code hj) (by simp [linkPlaces])
      · exact .same

theorem answers_doGetp (b : Byte) : Answers s (doGetp b s) := by
  unfold doGetp
  split <;> exact .same

theorem answers_doRead (g : Byte) : Answers s (doRead g s) := by
  unfold doRead
  split
  · exact .same
  · split <;> exact .same

theorem answers_doClear (m : Byte) : Answers s (doClear m s) := by
  unfold doClear
  split
  · exact .ok rfl
  · exact .same

/-! ### Image Store and Print Queue -/

theorem answers_slotAnswer {b : Byte} {h : Fin 8 → State → State × Result} (hh : ∀ i, Judged s (h i s)) :
    Answers s (slotAnswer b h s) := by
  unfold slotAnswer
  split
  · exact .same
  · next i _ => exact (hh i).answers

theorem judged_openSlot (left length : Nat) (i : Fin 8) : Judged s (openSlot left length i s) := by
  unfold openSlot
  split
  · exact .same
  · split
    · exact .ok rfl
    · exact .same

theorem judged_storeData (start : Nat) (bytes : List Byte) (i : Fin 8) : Judged s (storeData start bytes i s) := by
  unfold storeData
  split
  · exact .same
  · split
    · exact .same
    · split
      · exact .same
      · split
        · exact .ok rfl
        · exact .same

theorem judged_sealSlot (i : Fin 8) : Judged s (sealSlot i s) := by
  unfold sealSlot
  split
  · exact .ok rfl
  · exact .same

theorem judged_dropSlot (i : Fin 8) : Judged s (dropSlot i s) := by
  unfold dropSlot
  split
  · exact .same
  · exact .ok rfl
  · exact .ok rfl
  · exact .same
  · exact .same

theorem judged_tryEnqueue (tag : Byte) (k : EntryKind) : Judged s (tryEnqueue tag k s) := by
  unfold tryEnqueue
  split
  · exact .same
  · split
    · split
      · exact .ok (by simp [linkPlaces])
      · exact .same
    all_goals exact .ok (by simp [linkPlaces])

theorem answers_enqueueAnswer (tag : Byte) (k : Option EntryKind) : Answers s (enqueueAnswer tag k s) := by
  cases k with
  | none => exact .same
  | some k => exact (judged_tryEnqueue tag k).answers

theorem answers_doGo : Answers s (doGo s) := by
  unfold doGo
  dsimp only
  split
  · exact .same
  · refine .ok ?_
    split <;> simp [linkPlaces]

theorem answers_doCmpl (n : Byte) : Answers s (doCmpl n s) := by
  unfold doCmpl
  dsimp only
  split
  · exact .ok rfl
  · exact .same

/-! ### Fire Unit, paper and engine -/

theorem answers_doPmap (o : Option (Vector RowReq 24)) : Answers s (doPmap o s) := by
  unfold doPmap
  split
  · exact .same
  · split
    · exact .same
    · split
      · exact .same
      · split
        · exact .same
        · exact .ok (by simp [linkPlaces])

theorem answers_doEtab (o : Option EtabReq) : Answers s (doEtab o s) := by
  cases o with
  | none => exact .same
  | some q =>
    refine .accepted ?_ rfl
    split <;> decide

theorem answers_doForm (o : Option FormReq) : Answers s (doForm o s) := by
  unfold doForm
  split
  · exact .same
  · split
    · exact .ok rfl
    · exact .same

theorem judged_engage : Judged s (engage s) := by
  unfold engage
  split
  · exact .ok (by simp [linkPlaces])
  · split
    · exact .ok (by simp [linkPlaces])
    · exact .same
  · split
    · exact .ok (by simp [linkPlaces])
    · exact .same
  · exact .same
  · exact .same
  · exact .ok (by simp [linkPlaces])
  · exact .same

theorem judged_restEngine : Judged s (restEngine s) := by
  unfold restEngine
  split
  case h_1 | h_2 | h_3 =>
    split
    · exact .same
    · exact .ok (by simp [linkPlaces])
  all_goals exact .same

theorem judged_wakeEngine : Judged s (wakeEngine s) := by
  unfold wakeEngine
  split
  · exact .ok (by simp [linkPlaces])
  · exact .same

theorem answers_doClrf : Answers s (doClrf s) := by
  unfold doClrf
  split
  · split
    · exact .same
    · exact .ok (by simp [linkPlaces])
  · exact .same

theorem linkPlaces_erstDriven (s : State) : linkPlaces (erstDriven s) = linkPlaces s := by
  unfold erstDriven
  split <;> simp [linkPlaces]

theorem linkPlaces_resetEngineNow (s : State) : linkPlaces (resetEngineNow s) = linkPlaces s := by
  have hwork : linkPlaces (resetWork s) = linkPlaces s := by simp [linkPlaces]
  unfold resetEngineNow
  dsimp only
  split
  · rfl
  · split
    case h_2 | h_3 | h_4 => exact (linkPlaces_erstDriven _).trans hwork
    case h_7 => split <;> simp [linkPlaces]
    all_goals simp [linkPlaces]

theorem answers_doTovl (o : Option TovlReq) : Answers s (doTovl o s) := by
  unfold doTovl
  split
  · exact .same
  · split
    · exact .same
    · split
      · split
        · exact .ok (by simp [linkPlaces])
        · exact .same
      · exact .same

theorem answers_engineAnswer {p : State × Result} (h : Judged s p) : Answers s (engineAnswer p) := h.answers

/-! ### Every request -/

/-- Every block's answer is one reply, and a refusal changes nothing. -/
theorem answers_blockAnswer (c : Instr) (s : State) : Answers s (blockAnswer c s) := by
  cases c
  case stat => exact answers_onFields fun _ => .same
  case evnt => exact answers_onFields fun _ => .ok rfl
  case emsk => exact answers_onFields answers_doEmsk
  case setp => exact answers_onFields answers_doSetp
  case getp => exact answers_onFields answers_doGetp
  case cntrSnap tag w =>
    cases w with
    | snap pad => exact .ok rfl
    | undefinedOp op arg => exact .same
    | wrongLength p => exact .same
  case cntrRead tag g => exact answers_doRead g
  case cntrClear tag m => exact answers_doClear m
  case slotOpen => exact answers_onFields fun _ => answers_slotAnswer (judged_openSlot _ _)
  case slotData => exact answers_onFields fun _ => answers_slotAnswer (judged_storeData _ _)
  case slotSeal => exact answers_onFields fun _ => answers_slotAnswer judged_sealSlot
  case slotDrop => exact answers_onFields fun _ => answers_slotAnswer judged_dropSlot
  case line => exact answers_onFields fun _ => answers_enqueueAnswer _ _
  case feed => exact answers_onFields fun _ => answers_enqueueAnswer _ _
  case skip => exact answers_onFields fun _ => answers_enqueueAnswer _ _
  case tear => exact answers_onFields fun _ => answers_enqueueAnswer _ _
  case haltLine tag w =>
    cases w with
    | lineMode => exact .ok (by simp [linkPlaces])
    | undefinedMode m => exact .same
    | wrongLength p => exact .same
  case haltPass => exact .ok (by simp [linkPlaces])
  case haltNow => exact .ok (by simp [linkPlaces])
  case go => exact answers_onFields fun _ => answers_doGo
  case flsh => exact answers_onFields fun _ => .ok (by simp [linkPlaces])
  case cmpl => exact answers_onFields answers_doCmpl
  case pmap => exact answers_onFields answers_doPmap
  case pinh => exact answers_onFields fun _ => .ok rfl
  case etab => exact answers_onFields answers_doEtab
  case form => exact answers_onFields answers_doForm
  case enga =>
    simp only [blockAnswer]
    refine answers_onFields fun _ => ?_
    exact answers_engineAnswer judged_engage
  case rest =>
    simp only [blockAnswer]
    refine answers_onFields fun _ => ?_
    exact answers_engineAnswer judged_restEngine
  case wake =>
    simp only [blockAnswer]
    refine answers_onFields fun _ => ?_
    exact answers_engineAnswer judged_wakeEngine
  case clrf => exact answers_onFields fun _ => answers_doClrf
  case erst =>
    simp only [blockAnswer]
    refine answers_onFields fun _ => ?_
    exact answers_engineAnswer (.ok (linkPlaces_resetEngineNow s))
  case dout => exact answers_onFields fun _ => .ok rfl
  case tovl => exact answers_onFields answers_doTovl
  all_goals exact .same

end Sys2Proof.LinkUnit

namespace Sys2Proof

open Sys2Proof.Machine Sys2Proof.LinkUnit

/-- Settles O7: a request waits by `serve_waiting`; the Link Unit's own refusals are the result code, in one case with
the group that was named. -/
theorem requestsWaitOrAreRefusedByTheLink : Obligations.RequestsWaitOrAreRefusedByTheLink := by
  refine ⟨fun c f s hw he hs hd => ?_, fun f k s hk hl hs hd => ?_, fun kind tag p s hk hs hd => ?_,
    fun tag op arg s _ hr => HeadTables.exec_replied hr rfl rfl rfl rfl,
    fun tag g s hg hr => HeadTables.exec_replied hr rfl rfl rfl (doRead_undefined hg _)⟩
  · rw [exec_wellFormed hw he hs, serve_waiting hd]
    rfl
  · obtain ⟨henc, hexec⟩ := decodePayload_wrongLength hl f.tag
    have hframe : (⟨k.code, f.tag, f.payload⟩ : Frame) = f := by rw [code_of_ofCode hk]
    have hcmd : decodeFrame f = decodePayload k f.tag f.payload := by rw [decodeFrame, hk]
    rw [hframe] at henc
    rw [hcmd]
    exact HeadTables.exec_replied ⟨hs, f, henc, hd⟩ henc (hexec s) rfl rfl
  · have hx : exec (.unknownKind kind tag p) s = request (.unknownKind kind tag p) (bare .unknownKind) s :=
      exec_request rfl (fun _ _ _ h => by cases h; exact hk) s
    exact HeadTables.exec_replied ⟨hs, _, rfl, hd⟩ rfl hx rfl rfl

/-- Settles O8: every block's answer is one reply that leaves the Link Unit's places, and a refusal changes nothing
(`answers_blockAnswer`); the request's frame leaves its place before it and the reply joins its places after it. -/
theorem everyRequestIsAnsweredOnce : Obligations.EveryRequestIsAnsweredOnce := by
  intro c f s hw he hs hd
  obtain ⟨hplaces, code, fields, hreply, hrefused⟩ := answers_blockAnswer c (dropOldest s)
  simp only [linkPlaces, Prod.mk.injEq] at hplaces
  obtain ⟨hmode, hreceived, hreplies, -, hpending⟩ := hplaces
  have hexec := exec_wellFormed hw he hs
  rw [Ready.serve ⟨hs, f, he, hd⟩ he, answer, hreply] at hexec
  refine ⟨code, fields, _, hexec, congrArg (· ++ _) hreplies, hreceived, hmode, hpending, fun h16 => ?_⟩
  rw [hrefused h16]
  rfl

end Sys2Proof
end

