-- ==== Sys2Proof/Proofs/FrameBeingSent.lean ====
section
/-! SUPPORT. Every command but a reset acts on the state in which a free transmitter has begun what waits for it, and
none but a frame's end changes what is being sent (R183). -/

namespace Sys2Proof.LinkUnit

open Sys2Proof.Machine

variable {s : State} {c : Instr} {f : Frame}

/-! ## What a command acts on, and what it leaves of the frame that is being sent (R183) -/

/-- A command acts by some effect on the state in which a free transmitter has begun what waits for it; unless it marks
the end of the frame that is being sent, its effect leaves that frame. -/
def Acts (c : Instr) : Prop :=
  ∃ f : State → State, (∀ s, exec c s = acting f s) ∧
    (c ≠ .replySent → c ≠ .noticeSent → ∀ s, (f s).link.tx = s.link.tx)

theorem Acts.keeping {f : State → State} (he : ∀ s, exec c s = acting f s)
    (hf : ∀ s, (f s).link.tx = s.link.tx) : Acts c := ⟨f, he, fun _ _ => hf⟩

/-! ### The Link Unit's events (R177 to R183, R187) -/

@[simp] theorem rxBytes_tx (bytes : List LineByte) (s : State) : (rxBytes bytes s).link.tx = s.link.tx :=
  foldl_keeps (P := fun t => t.link.tx = s.link.tx) (fun t b ht => by simpa using ht) bytes s rfl

theorem acts_frameReceived (bytes : List LineByte) : Acts (.frameReceived bytes) :=
  .keeping (fun _ => rfl) (rxBytes_tx bytes)

theorem acts_byteGapTimeout : Acts .byteGapTimeout := by
  refine .keeping (fun _ => by unfold exec execByteGapTimeout; rfl) fun s => ?_
  (repeat' split) <;> simp

theorem acts_receiveOverrun : Acts .receiveOverrun := by
  refine .keeping (fun _ => by unfold exec execReceiveOverrun; rfl) fun s => ?_
  (repeat' split) <;> simp

theorem acts_discardedFramePassedOver : Acts .discardedFramePassedOver := by
  refine .keeping (fun _ => by unfold exec execDiscardedFramePassedOver; rfl) fun s => ?_
  (repeat' split) <;> simp

theorem acts_replySent : Acts .replySent :=
  ⟨_, fun _ => by unfold exec execReplySent; rfl, fun h => absurd rfl h⟩

theorem acts_noticeSent : Acts .noticeSent :=
  ⟨_, fun _ => by unfold exec execNoticeSent; rfl, fun _ h => absurd rfl h⟩

/-! ### The executor's and the carriage's events (R37, R79 to R111) -/

theorem acts_executorStart : Acts .executorStart := by
  refine .keeping (fun _ => by unfold exec execExecutorStart; rfl) fun s => ?_
  (repeat' split) <;> simp

@[simp] theorem arriveAtStart_tx (p : Plan) (r : PassRec) (s : State) :
    (arriveAtStart p r s).link.tx = s.link.tx := by
  unfold arriveAtStart
  split <;> simp

theorem acts_repositionEnd : Acts .repositionEnd := by
  refine .keeping (fun _ => by unfold exec execRepositionEnd; rfl) fun s => ?_
  (repeat' split) <;> simp

theorem acts_cruiseStart : Acts .cruiseStart := by
  refine .keeping (fun _ => by unfold exec execCruiseStart; rfl) fun s => ?_
  (repeat' split) <;> simp

theorem acts_cruiseEnd : Acts .cruiseEnd := by
  refine .keeping (fun _ => by unfold exec execCruiseEnd; rfl) fun s => ?_
  (repeat' split) <;> simp

theorem acts_passEnd : Acts .passEnd := by
  refine .keeping (fun _ => by unfold exec execPassEnd; rfl) fun s => ?_
  (repeat' split) <;> simp

@[simp] theorem takeGroup_tx (g : DueGroup) (x : Slot) (p : Plan) (r : PassRec) (s : State) :
    (takeGroup g x p r s).link.tx = s.link.tx := by
  have hdots := foldl_keeps (P := fun t => t.link.tx = s.link.tx) (f := fireDot p.width)
    (fun t row ht => by simpa using ht) (groupRows s x p.shingle r g.column) (reach g.firePos s) (by simp)
  simpa [takeGroup] using hdots

theorem acts_fireGroupTaken : Acts .fireGroupTaken := by
  refine .keeping (fun _ => by unfold exec execFireGroupTaken; rfl) fun s => ?_
  (repeat' split) <;> simp

theorem acts_pulseEnd (p : Fin 24) (isOpen : Bool) : Acts (.pulseEnd p isOpen) := by
  refine .keeping (fun _ => by unfold exec execPulseEnd; rfl) fun s => ?_
  split <;> simp

theorem acts_markEdge (dir : Dir) (n : Nat) : Acts (.markEdge dir n) := by
  refine .keeping (fun _ => by unfold exec execMarkEdge; rfl) fun s => ?_
  dsimp only
  split <;> simp

theorem acts_encoderLost : Acts .encoderLost := by
  refine .keeping (fun _ => by unfold exec execEncoderLost; rfl) fun s => ?_
  (repeat' split) <;> simp

theorem acts_homeSensorActive : Acts .homeSensorActive := by
  refine .keeping (fun _ => by unfold exec execHomeSensorActive; rfl) fun s => ?_
  (repeat' split) <;> simp

theorem acts_homeSensorInactive : Acts .homeSensorInactive := by
  refine .keeping (fun _ => by unfold exec execHomeSensorInactive; rfl) fun s => ?_
  simp

theorem acts_homeFail : Acts .homeFail := by
  refine .keeping (fun _ => by unfold exec execHomeFail; rfl) fun s => ?_
  (repeat' split) <;> simp

theorem acts_parkEnd : Acts .parkEnd := by
  refine .keeping (fun _ => by unfold exec execParkEnd; rfl) fun s => ?_
  (repeat' split) <;> simp

theorem acts_stopAtRest : Acts .stopAtRest := by
  refine .keeping (fun _ => by unfold exec execStopAtRest; rfl) fun s => ?_
  (repeat' split) <;> simp

/-! ### The paper's events (R137 to R151) -/

theorem acts_feedStep : Acts .feedStep := by
  refine .keeping (fun _ => by unfold exec execFeedStep; rfl) fun s => ?_
  (repeat' split) <;> simp

theorem acts_paperEnd : Acts .paperEnd := by
  refine .keeping (fun _ => by unfold exec execPaperEnd; rfl) fun s => ?_
  (repeat' split) <;> simp

theorem acts_paperJam : Acts .paperJam := by
  refine .keeping (fun _ => by unfold exec execPaperJam; rfl) fun s => ?_
  (repeat' split) <;> simp

theorem acts_ejectFail : Acts .ejectFail := by
  refine .keeping (fun _ => by unfold exec execEjectFail; rfl) fun s => ?_
  (repeat' split) <;> simp

/-- Staging goes on, or the entry is held, by operations that leave the frame that is being sent. -/
theorem afterStaging_tx {next : EntryKind → State → State} (hn : ∀ k s, (next k s).link.tx = s.link.tx) (s : State) :
    (afterStaging next s).link.tx = s.link.tx := by
  unfold afterStaging
  split
  · split
    · simp
    · exact hn _ s
  · rfl

@[simp] theorem moveComplete_tx (u : Purpose) (s : State) : (moveComplete u s).link.tx = s.link.tx := by
  cases u with
  | preload n => rfl
  | retract => exact afterStaging_tx (by simp) s
  | perfSkip => exact afterStaging_tx (by simp) s
  | load | feed b | skip | present | eject n | feedAfter => simp [moveComplete]

theorem acts_feedMoveEnd : Acts .feedMoveEnd := by
  refine .keeping (fun _ => by unfold exec execFeedMoveEnd; rfl) fun s => ?_
  (repeat' split) <;> simp

theorem acts_preloadComplete : Acts .preloadComplete := by
  refine .keeping (fun _ => by unfold exec execPreloadComplete; rfl) fun s => ?_
  (repeat' split) <;> simp

theorem acts_paperMotionPulse : Acts .paperMotionPulse := by
  refine .keeping (fun _ => by unfold exec execPaperMotionPulse; rfl) fun s => ?_
  (repeat' split) <;> simp

theorem acts_paperSensorAbsent : Acts .paperSensorAbsent := by
  refine .keeping (fun _ => by unfold exec execPaperSensorAbsent; rfl) fun s => ?_
  simp

theorem acts_paperSensorPresent : Acts .paperSensorPresent := by
  refine .keeping (fun _ => by unfold exec execPaperSensorPresent; rfl) fun s => ?_
  simp

/-! ### The engine's events and timers (R118, R158, R162, R163, R174) -/

theorem acts_headHotAsserted : Acts .headHotAsserted := by
  refine .keeping (fun _ => by unfold exec execHeadHotAsserted; rfl) fun s => ?_
  simp

theorem acts_headHotQuiet : Acts .headHotQuiet := by
  refine .keeping (fun _ => by unfold exec execHeadHotQuiet; rfl) fun s => ?_
  simp

theorem acts_driverFaultAsserted : Acts .driverFaultAsserted := by
  refine .keeping (fun _ => by unfold exec execDriverFaultAsserted; rfl) fun s => ?_
  simp

theorem acts_driverFaultQuiet : Acts .driverFaultQuiet := by
  refine .keeping (fun _ => by unfold exec execDriverFaultQuiet; rfl) fun s => ?_
  simp

@[simp] theorem encoderTestTrip_tx (s : State) : (encoderTestTrip s).link.tx = s.link.tx := by
  unfold encoderTestTrip
  dsimp only
  split <;> simp

@[simp] theorem jamTestTrip_tx (s : State) : (jamTestTrip s).link.tx = s.link.tx := by
  unfold jamTestTrip
  (repeat' split) <;> simp

theorem acts_testTrip (cause : TripCause) : Acts (.testTrip cause) := by
  refine .keeping (fun _ => by unfold exec execTestTrip; rfl) fun s => ?_
  (repeat' split) <;> simp

theorem acts_holdTimerExpiry : Acts .holdTimerExpiry := by
  refine .keeping (fun _ => by unfold exec execHoldTimerExpiry; rfl) fun s => ?_
  (repeat' split) <;> simp

theorem acts_warmupExpiry : Acts .warmupExpiry := by
  refine .keeping (fun _ => by unfold exec execWarmupExpiry; rfl) fun s => ?_
  (repeat' split) <;> simp

theorem acts_coolingTick : Acts .coolingTick := by
  refine .keeping (fun _ => by unfold exec execCoolingTick; rfl) fun s => ?_
  simp

/-! ### Requests, and every command -/

/-- A request leaves the frame that is being sent: its reply joins the others that wait. -/
theorem serve_blockAnswer_tx (c : Instr) (f : Frame) (s : State) :
    (serve f (blockAnswer c) s).link.tx = s.link.tx := by
  refine serve_keeps (P := fun t => t.link.tx = s.link.tx) (fun _ _ h => by simpa using h) (fun _ h => h)
    (fun _ _ h => h) (fun t ht => ?_) rfl
  have hplaces := (answers_blockAnswer c t).places
  simp only [linkPlaces, Prod.mk.injEq] at hplaces
  obtain ⟨-, -, -, htx, -⟩ := hplaces
  exact htx.trans ht

/-- A request acts so; an UNKNOWN_KIND row whose KIND is defined does nothing. -/
theorem acts_request (he : encodeFrame c = some f) : Acts c := by
  by_cases hk : ∀ kind tag p, c = .unknownKind kind tag p → RequestKind.ofCode kind = none
  · refine .keeping (fun s => ?_) (serve_blockAnswer_tx c f)
    rw [exec_request he hk, request, he]
  · simp only [not_forall] at hk
    obtain ⟨kind, tag, p, rfl, hdefined⟩ := hk
    refine .keeping (f := id) (fun s => ?_) fun _ => rfl
    rw [← Option.isNone_iff_eq_none, Bool.not_eq_true, Option.isNone_eq_false_iff] at hdefined
    exact if_pos hdefined

/-- Every command but a reset acts so. -/
theorem acts_of_not_reset (c : Instr) (hc : HeadTables.isReset c = false) : Acts c := by
  cases c
  case powerOn | resetLine => cases hc
  case frameReceived bytes => exact acts_frameReceived bytes
  case pulseEnd p isOpen => exact acts_pulseEnd p isOpen
  case markEdge dir n => exact acts_markEdge dir n
  case testTrip cause => exact acts_testTrip cause
  case replySent => exact acts_replySent
  case noticeSent => exact acts_noticeSent
  case executorStart => exact acts_executorStart
  case repositionEnd => exact acts_repositionEnd
  case cruiseStart => exact acts_cruiseStart
  case cruiseEnd => exact acts_cruiseEnd
  case passEnd => exact acts_passEnd
  case fireGroupTaken => exact acts_fireGroupTaken
  case encoderLost => exact acts_encoderLost
  case homeSensorActive => exact acts_homeSensorActive
  case homeFail => exact acts_homeFail
  case parkEnd => exact acts_parkEnd
  case feedStep => exact acts_feedStep
  case paperEnd => exact acts_paperEnd
  case paperJam => exact acts_paperJam
  case ejectFail => exact acts_ejectFail
  case feedMoveEnd => exact acts_feedMoveEnd
  case stopAtRest => exact acts_stopAtRest
  case paperMotionPulse => exact acts_paperMotionPulse
  case paperSensorAbsent => exact acts_paperSensorAbsent
  case paperSensorPresent => exact acts_paperSensorPresent
  case headHotAsserted => exact acts_headHotAsserted
  case driverFaultAsserted => exact acts_driverFaultAsserted
  case holdTimerExpiry => exact acts_holdTimerExpiry
  case warmupExpiry => exact acts_warmupExpiry
  case coolingTick => exact acts_coolingTick
  case headHotQuiet => exact acts_headHotQuiet
  case driverFaultQuiet => exact acts_driverFaultQuiet
  case homeSensorInactive => exact acts_homeSensorInactive
  case discardedFramePassedOver => exact acts_discardedFramePassedOver
  case preloadComplete => exact acts_preloadComplete
  case byteGapTimeout => exact acts_byteGapTimeout
  case receiveOverrun => exact acts_receiveOverrun
  all_goals exact acts_request rfl

theorem acting_beginSending (f : State → State) (s : State) : acting f (beginSending s) = acting f s :=
  (beginSending_settled s).acting f

/-- Every command acts on the state in which a free transmitter has begun what waits for it; a reset reads nothing of
the link. -/
theorem exec_beginSending (c : Instr) (s : State) : exec c (beginSending s) = exec c s := by
  cases hc : HeadTables.isReset c with
  | false =>
    obtain ⟨f, he, -⟩ := acts_of_not_reset c hc
    rw [he, he, acting_beginSending]
  | true =>
    cases c
    case powerOn r => simp [exec, execPowerOn]
    case resetLine r => simp [exec, execResetLine]
    all_goals cases hc

/-- No command but a reset takes a frame from the transmitter before its end. -/
theorem tx_of_exec {t : State} (hx : exec c s = .next t) (hs : Settled s) (hr : c ≠ .replySent) (hn : c ≠ .noticeSent)
    (hc : HeadTables.isReset c = false) : t.link.tx = s.link.tx := by
  obtain ⟨f, he, hf⟩ := acts_of_not_reset c hc
  rw [he, hs.acting] at hx
  cases hx
  exact hf hr hn s

theorem isReset_eq_false (hp : ∀ r, c ≠ .powerOn r) (hl : ∀ r, c ≠ .resetLine r) : HeadTables.isReset c = false := by
  cases c
  case powerOn r => exact absurd rfl (hp r)
  case resetLine r => exact absurd rfl (hl r)
  all_goals rfl

end Sys2Proof.LinkUnit
end

