-- ==== Sys2Proof/Proofs/LinkEvents.lean ====
section
/-! The events of the receiver and the transmitter: O5. -/

namespace Sys2Proof.LinkUnit

open Sys2Proof.Machine

variable {s : State}

/-! ## The receiver (R179, R180) -/

/-- The notice test neither reads nor changes the receiver's mode. -/
theorem noticeTest_mode (l : Link) (m : RxMode) :
    noticeTest { l with mode := m } = { noticeTest l with mode := m } := by
  by_cases h : l.events &&& l.mask ≠ 0#13 ∧ l.outstanding = false
  · exact (if_pos h).trans (by rw [noticeTest, if_pos h])
  · exact (if_neg h).trans (by rw [noticeTest, if_neg h])

theorem raise_setMode (e : Event) (m : RxMode) (s : State) : raise e (setMode m s) = setMode m (raise e s) :=
  congrArg (fun l => { s with link := l }) (noticeTest_mode { s.link with events := s.link.events ||| eventBit e } m)

theorem raiseIf_setMode (b : Bool) (e : Event) (m : RxMode) (s : State) :
    raiseIf b e (setMode m s) = setMode m (raiseIf b e s) := by
  cases b
  · rfl
  · exact raise_setMode e m s

theorem count_setMode (g : General) (k : Nat) (m : RxMode) (s : State) :
    count g k (setMode m s) = setMode m (count g k s) :=
  congrArg (fun t : State => { t with counters := (count g k s).counters })
    (raiseIf_setMode (s.counters.live.halves g k) .counterHalf m s)

/-- An overrun is counted and signalled in whatever mode the receiver is. -/
theorem overrun_setMode (m : RxMode) (s : State) : overrun (setMode m s) = setMode m (overrun s) := by
  rw [overrun, count_setMode, raise_setMode, overrun]

theorem exec_byteGapTimeout (hs : Settled s) : exec .byteGapTimeout s = .next (match s.link.mode with
    | .hunt => s
    | .frame _ => rejectFrame s
    | .skip _ _ => setMode .hunt s) := by
  unfold exec execByteGapTimeout
  exact hs.acting _

theorem exec_receiveOverrun_full (hs : Settled s) (hm : s.link.mode = .hunt) (hr : 2 ≤ s.link.received.length) :
    exec .receiveOverrun s = .next (overrun (setMode (.skip [] 0) s)) := by
  unfold exec execReceiveOverrun
  rw [overrun_setMode, hs.acting, if_pos ⟨hm, hr⟩]

theorem exec_receiveOverrun_free (hs : Settled s) (h : s.link.mode ≠ .hunt ∨ s.link.received.length < 2) :
    exec .receiveOverrun s = .next s := by
  unfold exec execReceiveOverrun
  rw [hs.acting, if_neg fun ⟨hm, hr⟩ => h.elim (· hm) (Nat.not_lt.mpr hr)]

theorem exec_discardedFramePassedOver (hs : Settled s) :
    exec .discardedFramePassedOver s = .next (match s.link.mode with
      | .hunt => s
      | .frame _ => s
      | .skip _ _ => setMode .hunt s) := by
  unfold exec execDiscardedFramePassedOver
  exact hs.acting _

/-! ## The transmitter (R183, R187) -/

/-- A transmitter that is busy is settled. -/
theorem settled_of_busy (h : s.link.tx ≠ .free) : Settled s := fun hf => absurd hf h

/-- What a transmitter begins, written out. -/
theorem beginSending_eq (s : State) : beginSending s =
    if s.link.tx ≠ .free then s
    else if s.link.replies ≠ [] then { s with link := { s.link with tx := .reply } }
    else if s.link.notice = true then { s with link := { s.link with tx := .notice s.link.events, notice := false } }
    else s := by
  rcases beginSending_cases s with ⟨ht, hr, e⟩ | ⟨ht, hr, hn, e⟩ | ⟨h, e⟩
  · rw [e, if_neg (not_not.mpr ht), if_pos hr]
  · rw [e, if_neg (not_not.mpr ht), if_neg (not_not.mpr hr), if_pos hn]
  · rw [e]
    split
    · rfl
    · next ht =>
      obtain ⟨hr, hn⟩ := h.resolve_left ht
      rw [if_neg (not_not.mpr hr), if_neg (by simp [hn])]

theorem exec_replySent (hm : s.link.tx = .reply) {r : Frame} {rest : List Frame} (hr : s.link.replies = r :: rest) :
    exec .replySent s =
      .next { s with link := { s.link with replies := rest, tx := .free }, txLine := lineBytes r } := by
  have hs : Settled s := settled_of_busy (by simp [hm])
  have he : exec .replySent s = execReplySent s := rfl
  rw [he, execReplySent, hs.acting]
  simp only [hm, hr]

theorem exec_replySent_none (hs : Settled s) (h : s.link.tx ≠ .reply ∨ s.link.replies = []) :
    exec .replySent s = .next s := by
  have he : exec .replySent s = execReplySent s := rfl
  rw [he, execReplySent, hs.acting]
  split
  · next hm hr => exact (h.elim (· hm) (by simp [hr])).elim
  · rfl

theorem exec_noticeSent {e : EventSet} (hm : s.link.tx = .notice e) :
    exec .noticeSent s =
      .next { s with link := { s.link with tx := .free }, txLine := lineBytes (noticeFrame e) } := by
  have hs : Settled s := settled_of_busy (by simp [hm])
  have he : exec .noticeSent s = execNoticeSent s := rfl
  rw [he, execNoticeSent, hs.acting]
  simp only [hm]

theorem exec_noticeSent_none (hs : Settled s) (h : ∀ e, s.link.tx ≠ .notice e) : exec .noticeSent s = .next s := by
  have he : exec .noticeSent s = execNoticeSent s := rfl
  rw [he, execNoticeSent, hs.acting]
  split
  · next e hm => exact absurd hm (h e)
  all_goals rfl

end Sys2Proof.LinkUnit

namespace Sys2Proof

open Sys2Proof.Machine Sys2Proof.LinkUnit

/-- Settles O5: the receiver's events by its mode; every command acts on what `beginSending` makes of the state
(`exec_beginSending`), and none but a frame's end and a reset changes what is being sent (`tx_of_exec`). -/
theorem linkEventsActByMode : Obligations.LinkEventsActByMode := by
  refine ⟨fun s hs => ⟨(exec_byteGapTimeout hs).trans rfl, exec_receiveOverrun_full hs, exec_receiveOverrun_free hs,
      (exec_discardedFramePassedOver hs).trans rfl⟩,
    fun c s u hu => ?_,
    fun s => ⟨fun r rest hm hr => exec_replySent hm hr, exec_replySent_none, fun e => exec_noticeSent,
      exec_noticeSent_none⟩,
    fun c s t hx hs _ hr hn hp hl => tx_of_exec hx hs hr hn (isReset_eq_false hp hl)⟩
  rw [hu, ← beginSending_eq]
  exact ⟨beginSending_settled s, Settled.beginSending, (exec_beginSending c s).symm⟩

end Sys2Proof
end

