-- ==== Sys2Proof/Proofs/WireFields.lean ====
section
/-! SUPPORT. The bytes of fields and of blocks of equal length, read and written at their places in a payload (R193). -/

namespace Sys2Proof.WireFields

variable {p : List Byte} {i : Nat}

/-! ## Fields -/

theorem le16_word16At (p : List Byte) (i : Nat) : le16 (word16At p i) = [byteAt p i, byteAt p (i + 1)] :=
  congrArg₂ (fun b0 b1 => [b0, b1]) BitVec.extractLsb'_append_eq_right BitVec.extractLsb'_append_eq_left

theorem le24_word24At (p : List Byte) (i : Nat) :
    le24 (word24At p i) = [byteAt p i, byteAt p (i + 1), byteAt p (i + 2)] := by
  have low {k : Nat} (h : k + 8 ≤ 16) :
      (word24At p i).extractLsb' k 8 = (byteAt p (i + 1) ++ byteAt p i).extractLsb' k 8 :=
    BitVec.extractLsb'_append_eq_of_add_le (xhi := byteAt p (i + 2)) h
  rw [le24, low (by decide), low (by decide)]
  exact congrArg₂ (· ++ ·) (le16_word16At p i) (congrArg (fun b => [b]) BitVec.extractLsb'_append_eq_left)

theorem le32_word32At (p : List Byte) (i : Nat) :
    le32 (word32At p i) = [byteAt p i, byteAt p (i + 1), byteAt p (i + 2), byteAt p (i + 3)] := by
  have low {k : Nat} (h : k + 8 ≤ 24) : (word32At p i).extractLsb' k 8 = (word24At p i).extractLsb' k 8 :=
    BitVec.extractLsb'_append_eq_of_add_le (xhi := byteAt p (i + 3)) h
  rw [le32, low (by decide), low (by decide), low (by decide)]
  exact congrArg₂ (· ++ ·) (le24_word24At p i) (congrArg (fun b => [b]) BitVec.extractLsb'_append_eq_left)

/-- The n bytes from an offset on, one by one. -/
theorem map_byteAt_eq_take {n : Nat} (h : i + n ≤ p.length) :
    (List.range n).map (fun j => byteAt p (i + j)) = (p.drop i).take n := by
  refine List.ext_getElem (by simp; omega) fun j hj _ => ?_
  simp only [List.length_map, List.length_range] at hj
  simp [byteAt, List.getElem?_eq_getElem (show i + j < p.length by omega)]

/-! ## Blocks of equal length -/

section

variable {α : Type} {xs : List α} {g : α → List Byte} {n : Nat}

theorem length_blocks (hg : ∀ x, (g x).length = n) : (xs.flatMap g).length = n * xs.length := by
  simp [List.length_flatMap, hg, Nat.mul_comm]

/-- After some bytes and i blocks comes the next block. -/
theorem drop_blocks (hg : ∀ x, (g x).length = n) (pre post : List Byte) (hi : i < xs.length) :
    (pre ++ (xs.flatMap g ++ post)).drop (pre.length + n * i) =
      g xs[i] ++ ((xs.drop (i + 1)).flatMap g ++ post) := by
  have hlen : n * i = ((xs.take i).flatMap g).length := by
    rw [length_blocks hg, List.length_take_of_le hi.le]
  have hsplit : xs.flatMap g = (xs.take i).flatMap g ++ (g xs[i] ++ (xs.drop (i + 1)).flatMap g) := by
    rw [← List.flatMap_cons, ← List.drop_eq_getElem_cons hi, ← List.flatMap_append, List.take_append_drop]
  rw [← List.drop_drop, List.drop_left, hsplit, hlen, List.append_assoc, List.append_assoc, List.drop_left]

/-- Blocks that each spell their own n bytes of a payload spell the payload from its start. -/
theorem blocks_eq_take (h : ∀ i (hi : i < xs.length), g xs[i] = (p.drop (n * i)).take n) :
    xs.flatMap g = p.take (n * xs.length) := by
  induction xs generalizing p with
  | nil => simp
  | cons x xs ih =>
    have hx : g x = p.take n := h 0 (Nat.succ_pos _)
    have hxs : xs.flatMap g = (p.drop n).take (n * xs.length) :=
      ih fun i hi => by
        rw [List.drop_drop, Nat.add_comm, ← Nat.mul_succ]
        exact h (i + 1) (Nat.succ_lt_succ hi)
    rw [List.flatMap_cons, hx, hxs, ← List.take_add, List.length_cons, Nat.mul_succ, Nat.add_comm]

end

end Sys2Proof.WireFields
end

