-- ==== Sys2Proof/Proofs/RequestLayouts.lean ====
section
/-! Reading a request and writing its frame are inverse: O3. -/

namespace Sys2Proof.RequestLayouts

open WireFields

/-! ## Layouts -/

/-- Writing fields and reading a payload of an allowed length are inverse; sound fields are those that a payload within
a frame can hold. -/
structure Layout {α : Type} (allowed : List Byte → Bool) (ok : α → Bool) (read : List Byte → α)
    (write : α → List Byte) : Prop where
  allowed_write : ∀ x, ok x = true → allowed (write x) = true
  read_write : ∀ x, ok x = true → read (write x) = x
  write_read : ∀ p, allowed p = true → write (read p) = p
  ok_read : ∀ p, allowed p = true → p.length ≤ 1024 → ok (read p) = true

section

variable {α : Type} {allowed : List Byte → Bool} {ok : α → Bool} {read : List Byte → α}
  {write : α → List Byte} {k : RequestKind} {w : Wire α} {p : List Byte}

/-- A layout that an empty payload, the query, is added to. -/
theorem Layout.optional (L : Layout allowed ok read write) (hempty : allowed [] = false) :
    Layout (fun p => p.length == 0 || allowed p) (fun o : Option α => o.all ok) (fun p => optionalOf p (read p))
      (fun o => optionalBytes o write) where
  allowed_write
    | none, _ => rfl
    | some x, hx => by simp [optionalBytes, L.allowed_write x hx]
  read_write
    | none, _ => rfl
    | some x, hx => by
      have hne : write x ≠ [] := fun h => by simpa [h, hempty] using L.allowed_write x hx
      simp [optionalBytes, optionalOf, hne, L.read_write x hx]
  write_read
    | [], _ => rfl
    | b :: p, h => L.write_read (b :: p) h
  ok_read
    | [], _, _ => rfl
    | b :: p, h, hp => L.ok_read (b :: p) h hp

/-- The same where every value of the fields is sound. -/
theorem Layout.query (L : Layout allowed (fun _ => true) read write) (hempty : allowed [] = false) :
    Layout (fun p => p.length == 0 || allowed p) (fun _ : Option α => true) (fun p => optionalOf p (read p))
      (fun o => optionalBytes o write) := by
  simpa only [Option.all_true] using L.optional hempty

theorem wrongLengthOk_iff : wrongLengthOk k p = true ↔ p.length ≤ 1024 ∧ lengthAllowed k p = false := by
  rw [wrongLengthOk, Bool.and_eq_true, decide_eq_true_eq, Bool.not_eq_true', payloadMax]

/-- A well-formed payload is read back from its bytes. -/
theorem Layout.wireOf_wireBytes (L : Layout (lengthAllowed k) ok read write) (hw : wireOk k w ok = true) :
    wireOf k (wireBytes w write) (read (wireBytes w write)) = w := by
  cases w with
  | fields x =>
    change wireOf k (write x) (read (write x)) = _
    rw [wireOf, if_pos (L.allowed_write x hw), L.read_write x hw]
  | wrongLength p => exact LinkUnit.wireOf_wrongLength (wrongLengthOk_iff.mp hw).2 _

/-- Every payload is written back from what it is read as. -/
theorem Layout.wireBytes_wireOf (L : Layout (lengthAllowed k) ok read write) (p : List Byte) :
    wireBytes (wireOf k p (read p)) write = p := by
  cases hk : lengthAllowed k p with
  | true => exact (congrArg (wireBytes · write) (if_pos hk)).trans (L.write_read p hk)
  | false => rw [LinkUnit.wireOf_wrongLength hk, wireBytes]

/-- Every payload within a frame is read as a well-formed one. -/
theorem Layout.wireOk_wireOf (L : Layout (lengthAllowed k) ok read write) (hp : p.length ≤ 1024) :
    wireOk k (wireOf k p (read p)) ok = true := by
  cases hk : lengthAllowed k p with
  | true => exact (congrArg (wireOk k · ok) (if_pos hk)).trans (L.ok_read p hk hp)
  | false =>
    rw [LinkUnit.wireOf_wrongLength hk]
    exact wrongLengthOk_iff.mpr ⟨hp, hk⟩

end

/-! ## Requests -/

/-- A command, if it is a well-formed request, is read back from its frame. -/
def ReadsBack (c : Instr) : Prop :=
  ∀ f, WellFormed c = true → encodeFrame c = some f → decodeFrame f = c

/-- Every frame of a kind that fits the link stands for a well-formed request, whose frame it is. -/
def Stands (k : RequestKind) : Prop :=
  ∀ tag p, p.length ≤ 1024 →
    WellFormed (decodePayload k tag p) = true ∧ encodeFrame (decodePayload k tag p) = some (frameOf k tag p)

theorem ofCode_code (k : RequestKind) : RequestKind.ofCode k.code = some k := by
  cases k <;> rfl

theorem decodeFrame_frameOf (k : RequestKind) (tag : Byte) (p : List Byte) :
    decodeFrame (frameOf k tag p) = decodePayload k tag p := by
  simp only [decodeFrame, frameOf, ofCode_code]

/-- A request whose payload is read as the request is read back from its frame. -/
theorem ReadsBack.of_payload {c : Instr} {k : RequestKind} {tag : Byte} {p : List Byte}
    (he : encodeFrame c = some (frameOf k tag p)) (hd : WellFormed c = true → decodePayload k tag p = c) :
    ReadsBack c := by
  intro f hw hf
  obtain rfl := Option.some.inj (he.symm.trans hf)
  rw [decodeFrame_frameOf, hd hw]

/-- A kind with one row in the table, and that row. -/
structure RoundTrip {α : Type} (k : RequestKind) (row : Byte → Wire α → Instr) : Prop where
  readsBack : ∀ tag w, ReadsBack (row tag w)
  stands : Stands k

/-- A kind makes the round trip when its row is read, written and checked by one layout. -/
theorem RoundTrip.of_layout {α : Type} {k : RequestKind} {row : Byte → Wire α → Instr} {ok : α → Bool}
    {read : List Byte → α} {write : α → List Byte} (L : Layout (lengthAllowed k) ok read write)
    (hd : ∀ tag p, decodePayload k tag p = row tag (wireOf k p (read p)) := by intros; rfl)
    (he : ∀ tag w, encodeFrame (row tag w) = some (frameOf k tag (wireBytes w write)) := by intros; rfl)
    (hw : ∀ tag w, WellFormed (row tag w) = wireOk k w ok := by intros; rfl) : RoundTrip k row where
  readsBack tag w := .of_payload (he tag w) fun hwf => by
    rw [hd, L.wireOf_wireBytes ((hw tag w).symm.trans hwf)]
  stands tag p hp := by
    rw [hd, hw, he, L.wireBytes_wireOf, L.wireOk_wireOf hp]
    exact ⟨rfl, rfl⟩

/-! ## Kinds of an empty payload, and of one field (sections 11.7 to 11.12) -/

theorem layout_empty : Layout (fun p => p.length == 0) (fun _ : Unit => true) (fun _ => ()) (fun _ => []) where
  allowed_write _ _ := rfl
  read_write _ _ := rfl
  write_read
    | [], _ => rfl
  ok_read _ _ _ := rfl

theorem layout_byte : Layout (fun p => p.length == 1) (fun _ => true) (byteAt · 0) (fun b => [b]) where
  allowed_write _ _ := rfl
  read_write _ _ := rfl
  write_read
    | [_], _ => rfl
  ok_read _ _ _ := rfl

theorem layout_word16 : Layout (fun p => p.length == 2) (fun _ => true) (word16At · 0) le16 where
  allowed_write _ _ := rfl
  read_write _ _ := StatReply.word16At_of_drop (rest := []) rfl
  write_read
    | [_, _], _ => le16_word16At _ 0
  ok_read _ _ _ := rfl

theorem roundTrip_stat : RoundTrip .stat .stat := .of_layout layout_empty
theorem roundTrip_evnt : RoundTrip .evnt .evnt := .of_layout layout_empty
theorem roundTrip_tear : RoundTrip .tear .tear := .of_layout layout_empty
theorem roundTrip_go : RoundTrip .go .go := .of_layout layout_empty
theorem roundTrip_flsh : RoundTrip .flsh .flsh := .of_layout layout_empty
theorem roundTrip_enga : RoundTrip .enga .enga := .of_layout layout_empty
theorem roundTrip_rest : RoundTrip .rest .rest := .of_layout layout_empty
theorem roundTrip_wake : RoundTrip .wake .wake := .of_layout layout_empty
theorem roundTrip_clrf : RoundTrip .clrf .clrf := .of_layout layout_empty
theorem roundTrip_erst : RoundTrip .erst .erst := .of_layout layout_empty

theorem roundTrip_getp : RoundTrip .getp .getp := .of_layout layout_byte
theorem roundTrip_slotSeal : RoundTrip .slotSeal .slotSeal := .of_layout layout_byte
theorem roundTrip_slotDrop : RoundTrip .slotDrop .slotDrop := .of_layout layout_byte
theorem roundTrip_skip : RoundTrip .skip .skip := .of_layout layout_byte
theorem roundTrip_cmpl : RoundTrip .cmpl .cmpl := .of_layout layout_byte

theorem roundTrip_feed : RoundTrip .feed .feed := .of_layout layout_word16
theorem roundTrip_emsk : RoundTrip .emsk .emsk := .of_layout (layout_word16.query rfl)

/-! ## Kinds of several fields -/

theorem roundTrip_setp : RoundTrip .setp .setp :=
  .of_layout (read := fun p => ⟨byteAt p 0, word32At p 1⟩) (write := fun r => r.id :: le32 r.value) {
    allowed_write := fun _ _ => rfl
    read_write := fun r _ => congrArg (SetpReq.mk r.id) (StatReply.word32At_of_drop (rest := []) rfl)
    write_read
      | [b, _, _, _, _], _ => congrArg (b :: ·) (le32_word32At _ 1)
    ok_read := fun _ _ _ => rfl }

theorem roundTrip_slotOpen : RoundTrip .slotOpen .slotOpen :=
  .of_layout (read := fun p => ⟨byteAt p 0, word16At p 1, word16At p 3⟩)
    (write := fun r => r.slot :: (le16 r.left ++ le16 r.length)) {
    allowed_write := fun _ _ => rfl
    read_write := fun r _ => congrArg₂ (OpenReq.mk r.slot) (StatReply.word16At_of_drop rfl)
      (StatReply.word16At_of_drop (rest := []) rfl)
    write_read
      | [b, _, _, _, _], _ => congrArg₂ (b :: · ++ ·) (le16_word16At _ 1) (le16_word16At _ 3)
    ok_read := fun _ _ _ => rfl }

theorem layout_slotData : Layout (fun p => decide (3 ≤ p.length)) (fun r => decide (r.runs.length + 3 ≤ payloadMax))
    (fun p => (⟨byteAt p 0, word16At p 1, p.drop 3⟩ : DataReq)) (fun r => r.slot :: (le16 r.start ++ r.runs)) where
  allowed_write r _ := decide_eq_true (by simp [le16])
  read_write r _ := congrArg (DataReq.mk r.slot · r.runs) (StatReply.word16At_of_drop rfl)
  write_read
    | b :: _ :: _ :: runs, _ => congrArg (b :: · ++ runs) (le16_word16At _ 1)
  ok_read p h hp := by
    have h3 : 3 ≤ p.length := of_decide_eq_true h
    simp only [List.length_drop, payloadMax, decide_eq_true_eq]
    omega

theorem roundTrip_slotData : RoundTrip .slotData .slotData := .of_layout layout_slotData

theorem roundTrip_line : RoundTrip .line .line :=
  .of_layout (read := fun p => ⟨byteAt p 0, byteAt p 1, byteAt p 2, byteAt p 3, word16At p 4, byteAt p 6⟩)
    (write := fun r => [r.slot, r.mode, r.direction, r.cls] ++ le16 r.feedAfter ++ [r.ply]) {
    allowed_write := fun _ _ => rfl
    read_write := fun r _ => congrArg (LineReq.mk r.slot r.mode r.direction r.cls · r.ply)
      (StatReply.word16At_of_drop rfl)
    write_read
      | [b0, b1, b2, b3, _, _, b6], _ => congrArg ([b0, b1, b2, b3] ++ · ++ [b6]) (le16_word16At _ 4)
    ok_read := fun _ _ _ => rfl }

theorem roundTrip_pinh : RoundTrip .pinh .pinh :=
  .of_layout (read := fun p => ⟨word24At p 0, word24At p 3⟩) (write := fun r => le24 r.clear ++ le24 r.set) {
    allowed_write := fun _ _ => rfl
    read_write := fun _ _ => congrArg₂ PinhReq.mk (StatReply.word24At_of_drop rfl)
      (StatReply.word24At_of_drop (rest := []) rfl)
    write_read
      | [_, _, _, _, _, _], _ => congrArg₂ (· ++ ·) (le24_word24At _ 0) (le24_word24At _ 3)
    ok_read := fun _ _ _ => rfl }

theorem roundTrip_dout : RoundTrip .dout .dout :=
  .of_layout (read := fun p => ⟨byteAt p 0, byteAt p 1⟩) (write := fun r => [r.reset, r.set]) {
    allowed_write := fun _ _ => rfl
    read_write := fun _ _ => rfl
    write_read
      | [_, _], _ => rfl
    ok_read := fun _ _ _ => rfl }

theorem layout_tovl : Layout (fun p => p.length == 2) (fun _ => true)
    (fun p => (⟨byteAt p 0, byteAt p 1⟩ : TovlReq)) (fun r => [r.mode, r.inputs]) where
  allowed_write _ _ := rfl
  read_write _ _ := rfl
  write_read
    | [_, _], _ => rfl
  ok_read _ _ _ := rfl

theorem roundTrip_tovl : RoundTrip .tovl .tovl := .of_layout (layout_tovl.query rfl)

/-! ## The kinds of three rows: HALT by its mode byte, CNTR by its operation byte (sections 11.4, 11.12) -/

/-- A code byte is one of the three, or above them. -/
theorem code_or_above (b : Byte) : b = 0#8 ∨ b = 1#8 ∨ b = 2#8 ∨ 2 < b.toNat := by
  bv_omega

theorem decodePayload_halt_undefined {m : Byte} (h : 2 < m.toNat) (tag : Byte) :
    decodePayload .halt tag [m] = .haltLine tag (.undefinedMode m) := by
  obtain ⟨h0, h1, h2⟩ : m ≠ 0#8 ∧ m ≠ 1#8 ∧ m ≠ 2#8 := by bv_omega
  exact (if_neg h0).trans ((if_neg h1).trans (if_neg h2))

theorem decodePayload_halt_wrongLength {p : List Byte} (h : lengthAllowed .halt p = false) (tag : Byte) :
    decodePayload .halt tag p = .haltLine tag (.wrongLength p) :=
  if_neg (by simp [h])

theorem readsBack_haltLine (tag : Byte) (w : HaltForm) : ReadsBack (.haltLine tag w) := by
  cases w with
  | lineMode => exact .of_payload (k := .halt) rfl fun _ => rfl
  | undefinedMode m =>
    exact .of_payload (k := .halt) rfl fun hw => decodePayload_halt_undefined (of_decide_eq_true hw) tag
  | wrongLength p =>
    exact .of_payload (k := .halt) rfl fun hw => decodePayload_halt_wrongLength (wrongLengthOk_iff.mp hw).2 tag

theorem readsBack_haltPass (tag : Byte) : ReadsBack (.haltPass tag) := .of_payload (k := .halt) rfl fun _ => rfl

theorem readsBack_haltNow (tag : Byte) : ReadsBack (.haltNow tag) := .of_payload (k := .halt) rfl fun _ => rfl

theorem stands_halt : Stands .halt := by
  intro tag p hp
  cases hk : lengthAllowed .halt p with
  | false =>
    rw [decodePayload_halt_wrongLength hk]
    exact ⟨wrongLengthOk_iff.mpr ⟨hp, hk⟩, rfl⟩
  | true =>
    match p, hk with
    | [m], _ =>
      rcases code_or_above m with rfl | rfl | rfl | h
      · exact ⟨rfl, rfl⟩
      · exact ⟨rfl, rfl⟩
      · exact ⟨rfl, rfl⟩
      · rw [decodePayload_halt_undefined h]
        exact ⟨decide_eq_true h, rfl⟩

theorem decodePayload_cntr_undefined {op : Byte} (h : 2 < op.toNat) (tag arg : Byte) :
    decodePayload .cntr tag [op, arg] = .cntrSnap tag (.undefinedOp op arg) := by
  obtain ⟨h0, h1, h2⟩ : op ≠ 0#8 ∧ op ≠ 1#8 ∧ op ≠ 2#8 := by bv_omega
  exact (if_neg h0).trans ((if_neg h1).trans (if_neg h2))

theorem decodePayload_cntr_wrongLength {p : List Byte} (h : lengthAllowed .cntr p = false) (tag : Byte) :
    decodePayload .cntr tag p = .cntrSnap tag (.wrongLength p) :=
  if_neg (by simp [h])

theorem readsBack_cntrSnap (tag : Byte) (w : SnapForm) : ReadsBack (.cntrSnap tag w) := by
  cases w with
  | snap pad => exact .of_payload (k := .cntr) rfl fun _ => rfl
  | undefinedOp op arg =>
    exact .of_payload (k := .cntr) rfl fun hw => decodePayload_cntr_undefined (of_decide_eq_true hw) tag arg
  | wrongLength p =>
    exact .of_payload (k := .cntr) rfl fun hw => decodePayload_cntr_wrongLength (wrongLengthOk_iff.mp hw).2 tag

theorem readsBack_cntrRead (tag group : Byte) : ReadsBack (.cntrRead tag group) :=
  .of_payload (k := .cntr) rfl fun _ => rfl

theorem readsBack_cntrClear (tag mask : Byte) : ReadsBack (.cntrClear tag mask) :=
  .of_payload (k := .cntr) rfl fun _ => rfl

theorem stands_cntr : Stands .cntr := by
  intro tag p hp
  cases hk : lengthAllowed .cntr p with
  | false =>
    rw [decodePayload_cntr_wrongLength hk]
    exact ⟨wrongLengthOk_iff.mpr ⟨hp, hk⟩, rfl⟩
  | true =>
    match p, hk with
    | [op, arg], _ =>
      rcases code_or_above op with rfl | rfl | rfl | h
      · exact ⟨rfl, rfl⟩
      · exact ⟨rfl, rfl⟩
      · exact ⟨rfl, rfl⟩
      · rw [decodePayload_cntr_undefined h]
        exact ⟨decide_eq_true h, rfl⟩

/-! ## Tables and form definitions (sections 11.9, 11.10) -/

theorem layout_pmap : Layout (fun p => p.length == 72) (fun _ => true)
    (fun p => Vector.ofFn (fun r : Fin 24 => rowAt p r.val))
    (fun rows => rows.toList.flatMap (fun r => [r.pin, r.offset, r.enabled])) where
  allowed_write rows _ := by simp [length_blocks (n := 3)]
  read_write rows _ := by
    refine Vector.ext fun i hi => ?_
    have hdrop := drop_blocks (xs := rows.toList) (g := fun r => [r.pin, r.offset, r.enabled]) (n := 3) (i := i)
      (fun _ => rfl) [] [] (by simpa using hi)
    simp only [List.nil_append, List.append_nil, List.length_nil, Nat.zero_add, Vector.getElem_toList] at hdrop
    rw [Vector.getElem_ofFn, rowAt, StatReply.byteAt_of_drop hdrop 1, StatReply.byteAt_of_drop hdrop 2,
      show byteAt _ (3 * i) = _ from StatReply.byteAt_of_drop hdrop 0]
    rfl
  write_read p h := by
    have hlen : p.length = 72 := beq_iff_eq.mp h
    rw [blocks_eq_take (p := p) (n := 3) fun i hi => ?_]
    · simp [← hlen]
    · simp only [Vector.length_toList] at hi
      rw [← map_byteAt_eq_take (by omega)]
      simp only [Vector.getElem_toList, Vector.getElem_ofFn]
      rfl
  ok_read _ _ _ := rfl

theorem roundTrip_pmap : RoundTrip .pmap .pmap := .of_layout (layout_pmap.query rfl)

theorem word16At_written {n i : Nat} (v : Vector (BitVec 16) n) (hi : i < n) (pre post : List Byte) :
    word16At (pre ++ (v.toList.flatMap le16 ++ post)) (pre.length + 2 * i) = v[i] := by
  have hdrop := drop_blocks (xs := v.toList) (g := le16) (n := 2) (fun _ => rfl) pre post (by simpa using hi)
  exact (StatReply.word16At_of_drop hdrop).trans (Vector.getElem_toList _)

theorem words_read {p : List Byte} {o n : Nat} (h : o + 2 * n ≤ p.length) :
    (Vector.ofFn (fun i : Fin n => word16At p (o + 2 * i.val))).toList.flatMap le16 = (p.drop o).take (2 * n) := by
  rw [blocks_eq_take (p := p.drop o) (n := 2) fun i hi => ?_, Vector.length_toList]
  simp only [Vector.length_toList] at hi
  rw [List.drop_drop, ← map_byteAt_eq_take (by omega), Vector.getElem_toList, Vector.getElem_ofFn, le16_word16At]
  rfl

theorem length_words {n : Nat} (v : Vector (BitVec 16) n) : (v.toList.flatMap le16).length = 2 * n := by
  rw [length_blocks (n := 2) fun _ => rfl, Vector.length_toList]

theorem layout_etab : Layout (fun p => p.length == 24) (fun _ => true)
    (fun p => (⟨Vector.ofFn (fun i : Fin 6 => word16At p (2 * i.val)),
      Vector.ofFn (fun i : Fin 6 => word16At p (12 + 2 * i.val))⟩ : EtabReq))
    (fun t => t.cool.toList.flatMap le16 ++ t.warm.toList.flatMap le16) where
  allowed_write t _ := beq_iff_eq.mpr (by rw [List.length_append, length_words, length_words])
  read_write t _ := by
    refine congrArg₂ EtabReq.mk (Vector.ext fun i hi => ?_) (Vector.ext fun i hi => ?_)
    · simpa using word16At_written t.cool hi [] (t.warm.toList.flatMap le16)
    · have hwarm := word16At_written t.warm hi (t.cool.toList.flatMap le16) []
      rw [length_words, List.append_nil] at hwarm
      rwa [Vector.getElem_ofFn]
  write_read p h := by
    have hlen : p.length = 24 := beq_iff_eq.mp h
    have hcool := words_read (p := p) (o := 0) (n := 6) (by omega)
    have hwarm := words_read (p := p) (o := 12) (n := 6) (by omega)
    simp only [Nat.zero_add] at hcool
    rw [hcool, hwarm, List.drop_zero, ← List.take_add, List.take_of_length_le hlen.le]
  ok_read _ _ _ := rfl

theorem roundTrip_etab : RoundTrip .etab .etab := .of_layout (layout_etab.query rfl)

/-- The first ten bytes of a form definition, up to the count of its stops. -/
def formHead (f : FormReq) : List Byte :=
  le16 f.length ++ [f.ply] ++ le16 f.tear ++ le16 f.skipTop ++ le16 f.skipBottom ++ [BitVec.ofNat 8 f.stops.length]

/-- The four bytes of a stop. -/
def stopBytes (x : StopReq) : List Byte := le16 x.position ++ le16 x.channels

theorem formBytes_eq (f : FormReq) : formBytes f = formHead f ++ f.stops.flatMap stopBytes := rfl

theorem formHead_formOf {p : List Byte} (h : 10 ≤ p.length) : formHead (formOf p) = p.take 10 := by
  rw [← List.drop_zero (l := p), ← map_byteAt_eq_take (by omega)]
  simp only [formHead, formOf, le16_word16At, List.length_map, List.length_range, BitVec.ofNat_toNat, List.drop_zero]
  rfl

/-- A count of stops that fits a byte is read back. -/
theorem stopCount_formBytes {f : FormReq} (h : f.stops.length < 256) :
    (byteAt (formBytes f) 9).toNat = f.stops.length :=
  Nat.mod_eq_of_lt h

theorem stops_formBytes {f : FormReq} (h : f.stops.length < 256) : (formOf (formBytes f)).stops = f.stops := by
  have hcount := stopCount_formBytes h
  refine List.ext_getElem (by simp [formOf, hcount]) fun i _ hi => ?_
  have hdrop := drop_blocks (g := stopBytes) (n := 4) (fun _ => rfl) (formHead f) [] hi
  rw [List.append_nil, ← formBytes_eq] at hdrop
  have hchannels := congrArg (List.drop 2) hdrop
  rw [List.drop_drop] at hchannels
  simp only [formOf, List.getElem_map, List.getElem_range, show 12 + 4 * i = 10 + 4 * i + 2 by omega]
  exact congrArg₂ StopReq.mk (StatReply.word16At_of_drop hdrop) (StatReply.word16At_of_drop hchannels)

theorem layout_form :
    Layout formLength (fun f => decide (10 + 4 * f.stops.length ≤ payloadMax)) formOf formBytes where
  allowed_write f h := by
    have hlen : 10 + 4 * f.stops.length ≤ 1024 := of_decide_eq_true h
    have hcount := stopCount_formBytes (f := f) (by omega)
    have hbytes : (formBytes f).length = 10 + 4 * f.stops.length := by
      rw [formBytes_eq, List.length_append, length_blocks (n := 4) (fun _ => rfl)]
      rfl
    simp [formLength, hcount, hbytes]
  read_write f h := by
    have hlen : 10 + 4 * f.stops.length ≤ 1024 := of_decide_eq_true h
    have hstops := stops_formBytes (f := f) (by omega)
    change FormReq.mk (word16At _ 0) (byteAt _ 2) (word16At _ 3) (word16At _ 5) (word16At _ 7)
      (formOf (formBytes f)).stops = f
    rw [hstops, StatReply.word16At_of_drop (w := f.length) rfl, StatReply.word16At_of_drop (w := f.tear) rfl,
      StatReply.word16At_of_drop (w := f.skipTop) rfl, StatReply.word16At_of_drop (w := f.skipBottom) rfl]
    rfl
  write_read p h := by
    simp only [formLength, Bool.and_eq_true, decide_eq_true_eq] at h
    obtain ⟨h10, hlen⟩ := h
    have hcount : (formOf p).stops.length = (byteAt p 9).toNat := by simp [formOf]
    rw [formBytes_eq, formHead_formOf h10, blocks_eq_take (p := p.drop 10) (n := 4) fun i hi => ?_, ← List.take_add,
      hcount, ← hlen, List.take_length]
    rw [List.drop_drop, ← map_byteAt_eq_take (by omega)]
    simp only [formOf, stopBytes, List.getElem_map, List.getElem_range, le16_word16At]
    rw [show 12 + 4 * i = 10 + 4 * i + 2 by omega]
    rfl
  ok_read p h hp := by
    simp only [formLength, Bool.and_eq_true, decide_eq_true_eq] at h
    simpa [formOf, payloadMax, ← h.2] using hp

theorem roundTrip_form : RoundTrip .form .form := .of_layout (layout_form.optional rfl)

/-! ## Every request, and every kind -/

theorem readsBack_unknownKind (kind tag : Byte) (p : List Byte) : ReadsBack (.unknownKind kind tag p) := by
  intro f hw hf
  obtain rfl := Option.some.inj hf
  simp only [decodeFrame, LinkUnit.unknownKind_of_wellFormed hw rfl]

/-- A command that is no request has no frame. -/
theorem ReadsBack.of_none {c : Instr} (h : encodeFrame c = none) : ReadsBack c :=
  fun _ _ hf => nomatch h.symm.trans hf

theorem readsBack (c : Instr) : ReadsBack c := by
  cases c
  case unknownKind kind tag p => exact readsBack_unknownKind kind tag p
  case stat tag w => exact roundTrip_stat.readsBack tag w
  case evnt tag w => exact roundTrip_evnt.readsBack tag w
  case emsk tag w => exact roundTrip_emsk.readsBack tag w
  case setp tag w => exact roundTrip_setp.readsBack tag w
  case getp tag w => exact roundTrip_getp.readsBack tag w
  case cntrSnap tag w => exact readsBack_cntrSnap tag w
  case cntrRead tag group => exact readsBack_cntrRead tag group
  case cntrClear tag mask => exact readsBack_cntrClear tag mask
  case slotOpen tag w => exact roundTrip_slotOpen.readsBack tag w
  case slotData tag w => exact roundTrip_slotData.readsBack tag w
  case slotSeal tag w => exact roundTrip_slotSeal.readsBack tag w
  case slotDrop tag w => exact roundTrip_slotDrop.readsBack tag w
  case line tag w => exact roundTrip_line.readsBack tag w
  case feed tag w => exact roundTrip_feed.readsBack tag w
  case skip tag w => exact roundTrip_skip.readsBack tag w
  case tear tag w => exact roundTrip_tear.readsBack tag w
  case haltLine tag w => exact readsBack_haltLine tag w
  case haltPass tag => exact readsBack_haltPass tag
  case haltNow tag => exact readsBack_haltNow tag
  case go tag w => exact roundTrip_go.readsBack tag w
  case flsh tag w => exact roundTrip_flsh.readsBack tag w
  case cmpl tag w => exact roundTrip_cmpl.readsBack tag w
  case pmap tag w => exact roundTrip_pmap.readsBack tag w
  case pinh tag w => exact roundTrip_pinh.readsBack tag w
  case etab tag w => exact roundTrip_etab.readsBack tag w
  case form tag w => exact roundTrip_form.readsBack tag w
  case enga tag w => exact roundTrip_enga.readsBack tag w
  case rest tag w => exact roundTrip_rest.readsBack tag w
  case wake tag w => exact roundTrip_wake.readsBack tag w
  case clrf tag w => exact roundTrip_clrf.readsBack tag w
  case erst tag w => exact roundTrip_erst.readsBack tag w
  case dout tag w => exact roundTrip_dout.readsBack tag w
  case tovl tag w => exact roundTrip_tovl.readsBack tag w
  all_goals exact .of_none rfl

theorem stands (k : RequestKind) : Stands k :=
  match k with
  | .stat => roundTrip_stat.stands
  | .evnt => roundTrip_evnt.stands
  | .emsk => roundTrip_emsk.stands
  | .setp => roundTrip_setp.stands
  | .getp => roundTrip_getp.stands
  | .cntr => stands_cntr
  | .slotOpen => roundTrip_slotOpen.stands
  | .slotData => roundTrip_slotData.stands
  | .slotSeal => roundTrip_slotSeal.stands
  | .slotDrop => roundTrip_slotDrop.stands
  | .line => roundTrip_line.stands
  | .feed => roundTrip_feed.stands
  | .skip => roundTrip_skip.stands
  | .tear => roundTrip_tear.stands
  | .halt => stands_halt
  | .go => roundTrip_go.stands
  | .flsh => roundTrip_flsh.stands
  | .cmpl => roundTrip_cmpl.stands
  | .pmap => roundTrip_pmap.stands
  | .pinh => roundTrip_pinh.stands
  | .etab => roundTrip_etab.stands
  | .form => roundTrip_form.stands
  | .enga => roundTrip_enga.stands
  | .rest => roundTrip_rest.stands
  | .wake => roundTrip_wake.stands
  | .clrf => roundTrip_clrf.stands
  | .erst => roundTrip_erst.stands
  | .dout => roundTrip_dout.stands
  | .tovl => roundTrip_tovl.stands

end Sys2Proof.RequestLayouts

namespace Sys2Proof

open Sys2Proof.RequestLayouts

/-- Settles O3: each row's layout is read back from what it writes (`readsBack`), and each kind's payloads are written
back from what they are read as (`stands`); a frame of no kind is the row UNKNOWN_KIND. -/
theorem decodeAndEncodeAgree : Obligations.DecodeAndEncodeAgree := by
  refine ⟨fun c f hw he => readsBack c f hw he, fun f hp => ?_⟩
  cases hk : RequestKind.ofCode f.kind with
  | some k =>
    have hframe : frameOf k f.tag f.payload = f := by rw [frameOf, LinkUnit.code_of_ofCode hk]
    rw [← hframe, decodeFrame_frameOf]
    exact stands k f.tag f.payload hp
  | none =>
    have hcmd : decodeFrame f = .unknownKind f.kind f.tag f.payload := by simp only [decodeFrame, hk]
    rw [hcmd]
    exact ⟨by simp [WellFormed, hk, payloadMax, hp], rfl⟩

end Sys2Proof
end

