-- ==== Sys2Proof/Proofs/ReplyLayouts.lean ====
section
/-! The reply layouts of chapter 11, byte by byte: O53. -/

namespace Sys2Proof.ReplyLayouts

open Machine WireFields StatReply

/-! ## The pin map, and the strike counters, row by row (sections 11.9, 11.12) -/

/-- In a table of n rows after some bytes, row i begins after the rows before it. -/
theorem drop_rows {n m : Nat} {g : Fin m → List Byte} (hg : ∀ i, (g i).length = n) (pre post : List Byte)
    (i : Fin m) :
    ∃ rest, (pre ++ ((List.finRange m).flatMap g ++ post)).drop (pre.length + n * i.val) = g i ++ rest := by
  have hdrop := drop_blocks hg pre post (i := i.val) (xs := List.finRange m) (by simp)
  rw [List.getElem_finRange] at hdrop
  exact ⟨_, hdrop⟩

theorem length_rows {n m : Nat} {g : Fin m → List Byte} (hg : ∀ i, (g i).length = n) :
    ((List.finRange m).flatMap g).length = n * m := by
  rw [length_blocks hg, List.length_finRange]

variable (s : State) (res : Result)

theorem pmapReply_length : (pmapReply res s).length = 73 := by
  rw [pmapReply, List.length_cons, length_rows (n := 3) fun _ => rfl]

theorem pmapReply_row (r : Fin 24) :
    byteAt (pmapReply res s) (1 + 3 * r.val) = BitVec.ofNat 8 s.fire.pinMap[r].pin.val ∧
      byteAt (pmapReply res s) (2 + 3 * r.val) = BitVec.ofNat 8 s.fire.pinMap[r].offset.val ∧
      byteAt (pmapReply res s) (3 + 3 * r.val) = (if s.fire.pinMap[r].enabled then 1#8 else 0#8) := by
  obtain ⟨rest, hdrop⟩ :=
    drop_rows (n := 3) (g := fun i => mapRowBytes s.fire.pinMap[i]) (fun _ => rfl) [res.code] [] r
  rw [List.append_nil] at hdrop
  refine ⟨byteAt_of_drop hdrop 0, ?_, ?_⟩
  · rw [show 2 + 3 * r.val = 1 + 3 * r.val + 1 by omega]
    exact byteAt_of_drop hdrop 1
  · rw [show 3 + 3 * r.val = 1 + 3 * r.val + 2 by omega]
    exact byteAt_of_drop hdrop 2

theorem pinsReply_length : (pinsReply s).length = 101 := by
  rw [pinsReply, List.length_append, length_rows (n := 4) fun _ => rfl]
  rfl

theorem pinsReply_strikes (q : Fin 24) :
    word32At (pinsReply s) (5 + 4 * q.val) = BitVec.ofNat 32 s.counters.snapshot.strikes[q] := by
  obtain ⟨rest, hdrop⟩ := drop_rows (n := 4) (g := fun i => natLe32 s.counters.snapshot.strikes[i]) (fun _ => rfl)
    ([Result.ok.code, 1#8] ++ le24 s.counters.snapshot.strikesHalf) [] q
  rw [List.append_nil] at hdrop
  exact word32At_of_drop hdrop

/-! ## The energy table (section 11.9) -/

theorem tableBytes_length (t : EnergyTable) : (tableBytes t).length = 24 := by
  rw [tableBytes, List.length_append, length_rows (n := 2) fun _ => rfl, length_rows (n := 2) fun _ => rfl]

/-- The six widths of one heat band. -/
def widthBytes (v : Vector Nat 6) : List Byte := (List.finRange 6).flatMap (fun i => natLe16 v[i])

theorem tableBytes_eq (t : EnergyTable) : tableBytes t = widthBytes t.cool ++ widthBytes t.warm := rfl

theorem widthBytes_length (v : Vector Nat 6) : (widthBytes v).length = 12 := length_rows (n := 2) fun _ => rfl

theorem word16At_widthBytes (v : Vector Nat 6) (pre post : List Byte) (i : Fin 6) :
    word16At (pre ++ (widthBytes v ++ post)) (pre.length + 2 * i.val) = BitVec.ofNat 16 v[i] := by
  obtain ⟨rest, hdrop⟩ := drop_rows (n := 2) (g := fun i => natLe16 v[i]) (fun _ => rfl) pre post i
  exact word16At_of_drop hdrop

/-- The widths of a table that stands in a payload after some bytes: COOL, then WARM. -/
theorem tableBytes_widths (t : EnergyTable) (pre post : List Byte) (i : Fin 6) :
    word16At (pre ++ (tableBytes t ++ post)) (pre.length + 2 * i.val) = BitVec.ofNat 16 t.cool[i] ∧
      word16At (pre ++ (tableBytes t ++ post)) (pre.length + 12 + 2 * i.val) = BitVec.ofNat 16 t.warm[i] := by
  have hwarm := word16At_widthBytes t.warm (pre ++ widthBytes t.cool) post i
  rw [List.length_append, widthBytes_length, List.append_assoc] at hwarm
  rw [tableBytes_eq, List.append_assoc]
  exact ⟨word16At_widthBytes t.cool pre _ i, hwarm⟩

/-- The ETAB reply up to the pending table. -/
def etabHead : List Byte := [res.code, boolByte s.fire.pendingTable.isSome] ++ tableBytes s.fire.table

theorem etabReply_eq : etabReply res s =
    etabHead s res ++ (s.fire.pendingTable.map tableBytes).getD (List.replicate 24 0#8) := rfl

theorem etabHead_length : (etabHead s res).length = 26 := by
  rw [etabHead, List.length_append, tableBytes_length]
  rfl

theorem etabReply_length : (etabReply res s).length = 50 := by
  rw [etabReply_eq, List.length_append, etabHead_length]
  cases s.fire.pendingTable with
  | none => rfl
  | some t => exact congrArg (26 + ·) (tableBytes_length t)

theorem etabReply_widths (i : Fin 6) :
    word16At (etabReply res s) (2 + 2 * i.val) = BitVec.ofNat 16 s.fire.table.cool[i] ∧
      word16At (etabReply res s) (14 + 2 * i.val) = BitVec.ofNat 16 s.fire.table.warm[i] := by
  rw [etabReply, List.append_assoc]
  exact tableBytes_widths s.fire.table [res.code, boolByte s.fire.pendingTable.isSome] _ i

theorem etabReply_pending {t : EnergyTable} (h : s.fire.pendingTable = some t) (i : Fin 6) :
    word16At (etabReply res s) (26 + 2 * i.val) = BitVec.ofNat 16 t.cool[i] ∧
      word16At (etabReply res s) (38 + 2 * i.val) = BitVec.ofNat 16 t.warm[i] := by
  have hwidths := tableBytes_widths t (etabHead s res) [] i
  rw [etabHead_length, List.append_nil] at hwidths
  rwa [etabReply_eq, h]

theorem etabReply_none (h : s.fire.pendingTable = none) {k : Nat} (h26 : 26 ≤ k) (hk : k < 50) :
    byteAt (etabReply res s) k = 0#8 := by
  rw [etabReply_eq, byteAt, List.getD_append_right _ _ _ _ ((etabHead_length s res).le.trans h26), etabHead_length, h]
  exact List.getD_replicate _ (by omega)

/-! ## A form definition (section 11.10) -/

theorem formDefBytes_length (d : FormDef) : (formDefBytes d).length = 10 + 4 * d.stops.length := by
  rw [formDefBytes, List.length_append, length_blocks (n := 4) fun _ => rfl]
  rfl

theorem formDefBytes_stop {d : FormDef} {k : Nat} {x : Stop} (h : d.stops[k]? = some x) :
    word16At (formDefBytes d) (10 + 4 * k) = BitVec.ofNat 16 x.position ∧
      word16At (formDefBytes d) (12 + 4 * k) = x.channels := by
  obtain ⟨hk, rfl⟩ := List.getElem?_eq_some_iff.mp h
  have hdrop := drop_blocks (g := fun x : Stop => natLe16 x.position ++ le16 x.channels) (n := 4) (fun _ => rfl)
    (natLe16 d.length ++ [byteOf d.ply] ++ natLe16 d.tear ++ natLe16 d.skipTop ++ natLe16 d.skipBottom ++
      [byteOf d.stops.length]) [] hk
  have hchannels := congrArg (List.drop 2) hdrop
  rw [List.append_nil] at hdrop
  rw [List.append_nil, List.drop_drop] at hchannels
  refine ⟨word16At_of_drop hdrop, ?_⟩
  rw [show 12 + 4 * k = 10 + 4 * k + 2 by omega]
  exact word16At_of_drop hchannels

/-! ## The first-fault record (section 11.11) -/

theorem faultBytes_length (f : Option FaultRecord) : (faultBytes f).length = 13 := by
  cases f <;> rfl

theorem byteAt_clrfReply_further : byteAt (clrfReply res s) 14 = s.engine.further.setWidth 8 := by
  cases h : s.engine.firstFault <;> simp only [clrfReply, h] <;> rfl

theorem clrfReply_none (h : s.engine.firstFault = none) {k : Nat} (h1 : 1 ≤ k) (hk : k < 14) :
    byteAt (clrfReply res s) k = 0#8 := by
  obtain ⟨j, rfl⟩ := Nat.exists_eq_add_of_le' h1
  rw [clrfReply, h, byteAt, List.getD_cons_succ, List.getD_append _ _ _ _ (by simp [faultBytes_length]; omega)]
  exact List.getD_replicate _ (by omega)

theorem clrfReply_some {f : FaultRecord} (h : s.engine.firstFault = some f) :
    byteAt (clrfReply res s) 1 = causeCode f.cause ∧ byteAt (clrfReply res s) 2 = f.engine.code ∧
      byteAt (clrfReply res s) 3 = f.exec.code ∧
      byteAt (clrfReply res s) 4 = flags2 f.tag.isSome f.position.isSome ∧
      byteAt (clrfReply res s) 5 = f.tag.getD 0#8 ∧
      word32At (clrfReply res s) 6 = BitVec.ofInt 32 (f.position.getD 0) ∧
      word16At (clrfReply res s) 10 = BitVec.ofNat 16 f.y ∧ word16At (clrfReply res s) 12 = f.form := by
  rw [clrfReply, h]
  exact ⟨rfl, rfl, rfl, rfl, rfl, word32At_of_drop rfl, word16At_of_drop rfl, word16At_of_drop rfl⟩

/-! ## The GENERAL counters (section 11.12) -/

theorem generalReply_eq {v : Vector Nat 10} (h : v = s.counters.snapshot.general) : generalReply s =
    [0x00#8, 0#8] ++ (le16 (s.counters.snapshot.generalHalf.setWidth 16) ++ (natLe32 v[0] ++ (natLe16 v[1] ++
      (natLe32 v[2] ++ (natLe32 v[3] ++ (natLe32 v[4] ++ (natLe32 v[5] ++ (natLe16 v[6] ++ (natLe16 v[7] ++
        (natLe16 v[8] ++ (natLe16 v[9] ++ []))))))))))) := by
  subst h
  rfl

end Sys2Proof.ReplyLayouts

namespace Sys2Proof

open Machine StatReply ReplyLayouts

/-- Settles O53: each reply read at the places of its layout; tables row by row (`drop_rows`), a form definition stop by
stop. -/
theorem repliesCarryTheirLayouts : Obligations.RepliesCarryTheirLayouts := by
  intro s res p
  refine ⟨?_, ?_, ?_, ?_, ?_, ?_, ?_, ?_⟩
  · rintro i rfl
    exact ⟨rfl, rfl, rfl, rfl, word16At_of_drop rfl, word16At_of_drop rfl, word16At_of_drop (rest := []) rfl⟩
  · rintro rfl
    exact ⟨pmapReply_length s res, rfl, pmapReply_row s res⟩
  · rintro rfl
    exact ⟨etabReply_length s res, rfl, rfl, etabReply_widths s res, fun t ht => etabReply_pending s res ht,
      fun hn k => etabReply_none s res hn⟩
  · intro layout hl
    have hlayout (d : FormDef) : layout d (formDefBytes d) :=
      (hl d _).mpr ⟨formDefBytes_length d, word16At_of_drop rfl, rfl, word16At_of_drop rfl, word16At_of_drop rfl,
        word16At_of_drop rfl, rfl, fun k x => formDefBytes_stop⟩
    refine ⟨formDefBytes s.paper.active, (s.paper.next.map formDefBytes).getD [], rfl, hlayout _, fun hn => ?_,
      fun d hd => ?_⟩
    · rw [hn]
      rfl
    · rw [hd]
      exact hlayout d
  · rintro rfl
    refine ⟨by simp [clrfReply, faultBytes_length], rfl, byteAt_clrfReply_further s res,
      fun hn k => clrfReply_none s res hn, fun f hf => ?_⟩
    obtain ⟨hcause, hengine, hexec, hflags, htag, hposition, hy, hform⟩ := clrfReply_some s res hf
    exact ⟨hcause, hengine, hexec, hflags, fun t ht => by rw [htag, ht]; rfl, fun hn => by rw [htag, hn]; rfl,
      fun x hx => by rw [hposition, hx]; rfl, fun hn => by rw [hposition, hn]; rfl, hy, hform⟩
  · rintro arrived rfl
    exact ⟨rfl, rfl, rfl, rfl, rfl⟩
  · rintro v hv rfl
    rw [generalReply_eq s hv]
    exact ⟨rfl, rfl, rfl, word16At_of_drop rfl, word32At_of_drop rfl, word16At_of_drop rfl, word32At_of_drop rfl,
      word32At_of_drop rfl, word32At_of_drop rfl, word32At_of_drop rfl, word16At_of_drop rfl, word16At_of_drop rfl,
      word16At_of_drop rfl, word16At_of_drop rfl⟩
  · rintro rfl
    exact ⟨pinsReply_length s, rfl, rfl, word24At_of_drop rfl, pinsReply_strikes s⟩

end Sys2Proof
end

