-- ==== Sys2Proof/Proofs/PaperAndFilters.lean ====
section
/-! The paper record, the filters and the no-mark distances are not kept by every step: O55. -/

namespace Sys2Proof.PaperAndFilters

open Sys2Proof.Machine

/-! ## A fire group due in CRUISE to a carriage without a motion profile (R78, R91, R94, R174) -/

/-- A LINE of slot 0 at work. -/
def lineAtWork : Entry := ⟨1#8, .line ⟨0, .single, .forward, 0, 0, none⟩, true⟩

/-- A plan of one pass, over the single reference column 0. -/
def onePassPlan : Plan := ⟨100, 0, 600, 0, 1, false, 0, [⟨.forward, none, 1, 6, 0, 0, false⟩]⟩

/-- In CRUISE at column 0, but with no profile of the motion held; in OBSERVE, a tick past the last mark as it is
observed and none as it is. -/
def cruisingCarriage : Carriage := ⟨some 0, .cruise, some .forward, true, some 0, 0, 0, 0, 0, 1, 0, none⟩

/-- The part at work on that LINE, its fire group due 1,000 ticks ahead, and FIRE_GROUP_TAKEN waiting. With no profile
the travel left is 0 (`legLeft`), so the group counts as reached with the no-mark distance short of 96 ticks. -/
def farGroupDue : State :=
  { State.reset with
    queue := [lineAtWork]
    exec := ⟨.pass, some onePassPlan, none, none, false⟩
    carriage := cruisingCarriage
    fire := { resetFire with due := some ⟨0, 1000⟩ }
    engine := { resetEngine with state := .ready, overlayMode := .observe }
    pending := [.fireGroupTaken] }

theorem paramsInv_farGroupDue : ParamsInv farGroupDue :=
  HeadTables.paramsInv_congr rfl (HeadTables.tablesInv_powerOn .bps115200 ⟨false, false, false, false⟩ 0 []).1

theorem paperInv_farGroupDue : PaperInv farGroupDue := HeadTables.paperInv_reset

theorem carriageInv_farGroupDue : CarriageInv farGroupDue := by
  unfold CarriageInv
  decide

/-- The 1,000 ticks are travelled in one step, and the observed distance starts again from 1 + 1000 − 96. -/
theorem observedNoMark_after :
    (after .fireGroupTaken { farGroupDue with pending := [] }).carriage.observedNoMark = 905 := by
  decide

end Sys2Proof.PaperAndFilters

namespace Sys2Proof

open Sys2Proof.Machine Sys2Proof.PaperAndFilters

/-- Refutes O55: its premises do not ask a moving carriage for a profile, and without one FIRE_GROUP_TAKEN travels past
every no-mark limit. The observed distance of `farGroupDue` goes from 1 to 905. -/
theorem not_stepKeepsPaperAndFilters : ¬ Obligations.StepKeepsPaperAndFilters := by
  intro h
  obtain ⟨-, -, -, -, -, -, observed⟩ := h farGroupDue (after .fireGroupTaken { farGroupDue with pending := [] })
    (exec_after .fireGroupTaken _) paramsInv_farGroupDue paperInv_farGroupDue carriageInv_farGroupDue
  rw [observedNoMark_after] at observed
  exact absurd observed (by decide)

end Sys2Proof
end

