-- ==== Sys2Proof/Proofs/IdleSteps.lean ====
section
/-! The step on an empty queue: a frame is begun, a frame is decoded, or time passes: O2. -/

namespace Sys2Proof.IdleSteps

open Sys2Proof.Machine

variable {s : State}

/-- A frame can be begun by a free transmitter for which one waits. -/
theorem canSend_iff : canSend s = true ↔ s.link.tx = .free ∧ (s.link.replies ≠ [] ∨ s.link.notice = true) := by
  simp [canSend]

/-- A busy transmitter, and one for which no frame waits, begins nothing. -/
theorem canSend_eq_false (h : s.link.tx ≠ .free ∨ (s.link.replies = [] ∧ s.link.notice = false)) :
    canSend s = false := by
  rw [Bool.eq_false_iff, Ne, canSend_iff]
  rintro ⟨ht, hw⟩
  obtain ⟨hr, hn⟩ := h.resolve_left (· ht)
  exact hw.elim (· hr) (Bool.eq_false_iff.mp hn)

theorem frameDue_some {f : Frame} {rest : List Frame} (hp : s.link.replies.length < 4)
    (hr : s.link.received = f :: rest) : frameDue s = some (decodeFrame f) := by
  simp [frameDue, Config.replyPlaces, hp, hr]

theorem frameDue_none (h : 4 ≤ s.link.replies.length ∨ s.link.received = []) : frameDue s = none := by
  rcases h with h | h
  · simp [frameDue, Config.replyPlaces, Nat.not_lt.mpr h]
  · simp [frameDue, h]

variable (hq : s.pending = [])

include hq

theorem step_sends (h : canSend s = true) : step s = .next (beginSending s) := by
  simp only [step, hq, h, if_true]

theorem step_decodes {c : Instr} (h : canSend s = false) (hf : frameDue s = some c) : step s = exec c s := by
  simp only [step, hq, h, hf, Bool.false_eq_true, if_false]

theorem step_ticks (h : canSend s = false) (hf : frameDue s = none) : step s = .next (tick s) := by
  simp only [step, hq, h, hf, Bool.false_eq_true, if_false]

end Sys2Proof.IdleSteps

namespace Sys2Proof

open Sys2Proof.Machine Sys2Proof.IdleSteps

/-- Settles O2: the transmitter by `beginSending_cases`, the frames by `frameDue`, time by `tick`. -/
theorem emptyQueueDecodesOrPassesTime : Obligations.EmptyQueueDecodesOrPassesTime := by
  intro s hq
  refine ⟨fun ht hr => ?_, fun ht hr hn => ?_, fun hn => ?_⟩
  · rw [step_sends hq (canSend_iff.mpr ⟨ht, .inl hr⟩)]
    simp [beginSending, ht, hr]
  · rw [step_sends hq (canSend_iff.mpr ⟨ht, .inr hn⟩)]
    simp [beginSending, ht, hr, hn]
  · have hs := canSend_eq_false hn
    refine ⟨fun f rest hp hr => step_decodes hq hs (frameDue_some hp hr), fun hf => ⟨fun hm hl => ?_, fun hm => ?_⟩⟩
    · rw [step_ticks hq hs (frameDue_none hf), tick, if_pos ⟨by simpa [carriageMoving] using hm, hl⟩]
    · have still : ¬(carriageMoving s = true ∧ 0 < room s) := fun ⟨hc, hl⟩ =>
        hm.elim (by simpa [carriageMoving] using hc) (Nat.pos_iff_ne_zero.mp hl)
      have down (n : Option Nat) : countDown n = n.map (fun n => n - 1) := by cases n <;> rfl
      rw [step_ticks hq hs (frameDue_none hf), tick, if_neg still, down, down]

end Sys2Proof
end

