-- ==== Sys2Proof/Proofs/EngineRequests.lean ====
section
/-! The requests ENGA, REST, WAKE and ERST: O26, O27 and O29. -/

namespace Sys2Proof.EngineRequests

open Sys2Proof.Machine

variable {s u w : State} {tag : Byte} {r : Result} {c : Instr} {f : Frame}

/-! ## The answers (section 11.11) -/

/-- The four engine requests answer the result and the engine state that the request leaves. -/
theorem exec_engine {a : State → State × Result} {kind : Byte} {payload : List Byte} (hr : Ready c s)
    (he : encodeFrame c = some f) (hx : exec c s = request c (fun t => engineAnswer (a t)) s)
    (hk : f.kind + 0x80#8 = kind) (ha : a (dropOldest s) = (dropOldest u, r)) (hp : engineReply r u = payload) :
    exec c s = .next (replied kind f.tag payload u) := by
  refine HeadTables.exec_replied hr he hx hk ?_
  rw [ha, ← hp]
  rfl

variable {payload : List Byte} (r)

theorem exec_enga (hr : Ready (.enga tag (.fields ())) s) (ha : engage (dropOldest s) = (dropOldest u, r))
    (hp : engineReply r u = payload) : exec (.enga tag (.fields ())) s = .next (replied 0xC0#8 tag payload u) :=
  exec_engine hr rfl rfl rfl ha hp

theorem exec_rest (hr : Ready (.rest tag (.fields ())) s) (ha : restEngine (dropOldest s) = (dropOldest u, r))
    (hp : engineReply r u = payload) : exec (.rest tag (.fields ())) s = .next (replied 0xC1#8 tag payload u) :=
  exec_engine hr rfl rfl rfl ha hp

theorem exec_wake (hr : Ready (.wake tag (.fields ())) s) (ha : wakeEngine (dropOldest s) = (dropOldest u, r))
    (hp : engineReply r u = payload) : exec (.wake tag (.fields ())) s = .next (replied 0xC2#8 tag payload u) :=
  exec_engine hr rfl rfl rfl ha hp

theorem exec_erst (hr : Ready (.erst tag (.fields ())) s) (ha : resetEngineNow (dropOldest s) = dropOldest u)
    (hp : engineReply .ok u = payload) : exec (.erst tag (.fields ())) s = .next (replied 0xC4#8 tag payload u) :=
  exec_engine (a := fun t => (resetEngineNow t, .ok)) hr rfl rfl rfl (by rw [ha]) hp

/-! ## ENGA and the entry to HOMING (R79, R80, R156, R157) -/

/-- The seek starts with the homed flag clear and the coordinate absent (R79, R157). -/
theorem enterHoming_seek (h : homeActive s = false) : enterHoming s = { s with
    engine := { s.engine with state := .homing, holdTimer := none, warmTimer := none }
    carriage := { s.carriage with
      position := none, phase := .seek, direction := some .reverse, homed := false, markPhase := none
      noMark := 0, observedNoMark := 0, seekTravel := 0, profile := none } } := if_neg (Bool.eq_false_iff.mp h)

/-- With HOME already active the park move starts at once, from −4608 ticks to −3200 (R79, R80). -/
theorem enterHoming_park (h : homeActive s = true) : enterHoming s = { s with
    engine := { s.engine with state := .homing, holdTimer := none, warmTimer := none }
    carriage := { s.carriage with
      position := some (-4608), phase := .park, direction := some .forward, homed := false, markPhase := none
      noMark := 0, observedNoMark := 0, seekTravel := 0
      profile := some ⟨-4608, -3200, -4608, -3200, paramNat s .slew, paramNat s .accel⟩ } } := if_pos h

theorem enterHoming_state (s : State) : (enterHoming s).engine.state = .homing := by
  cases h : homeActive s with
  | true => rw [enterHoming_park h]
  | false => rw [enterHoming_seek h]

theorem enterHoming_dropOldest (s : State) : enterHoming (dropOldest s) = dropOldest (enterHoming s) := by
  cases h : homeActive s with
  | true =>
    rw [enterHoming_park h, enterHoming_park (s := dropOldest s) h]
    rfl
  | false =>
    rw [enterHoming_seek h, enterHoming_seek (s := dropOldest s) h]
    rfl

/-- READY and HOLD start homing with the executor IDLE and nothing moving, and refuse it otherwise (R156). -/
theorem engage_readyOrHold (h : s.engine.state = .ready ∨ s.engine.state = .hold) : engage s =
    if s.exec.state = .idle ∧ inMotion s = false then (enterHoming s, .ok) else (s, .wrongState) := by
  rcases h with h | h <;> simp only [engage, h]

/-! ## REST and WAKE (R159 to R161) -/

/-- What keeps the part from REST, and takes it out of it (R159, R161). -/
theorem wakeCondition_iff : wakeCondition s = true ↔
    (s.queue ≠ [] ∧ s.holds.halted = false ∧ s.holds.paperOut = false) ∨ s.carriage.phase ≠ .stopped ∨
      s.paper.move ≠ none ∨ (param s .wakeins = 1 ∧ sensorPresent s = true ∧ s.paper.state = .out) := by
  simp [wakeCondition, holdsEmpty, inMotion, carriageMoving, feeding, loaded, or_assoc, and_assoc,
    Option.isSome_iff_ne_none]

/-- A wake ends in HOMING from a REST entered in READY, and in UNREADY from any other (R161). -/
theorem originTarget_eq (o : Option RestOrigin) :
    originTarget o = if o = some .ready then .homing else .unready := by
  rcases o with _ | _ | _ <;> rfl

/-- From UNREADY, READY and HOLD the part rests unless a wake condition holds (R159). -/
theorem restEngine_entering
    (h : s.engine.state = .unready ∨ s.engine.state = .ready ∨ s.engine.state = .hold) :
    restEngine s = if wakeCondition s then (s, .wakePending)
      else (enterRest (if s.engine.state = .unready then .unready else .ready) s, .ok) := by
  rcases h with h | h | h <;> simp only [restEngine, h] <;> rfl

theorem restEngine_elsewhere (h : s.engine.state = .homing ∨ s.engine.state = .rest ∨ s.engine.state = .warming ∨
    s.engine.state = .tripped) : restEngine s = (s, .wrongState) := by
  rcases h with h | h | h | h <;> simp only [restEngine, h]

end Sys2Proof.EngineRequests

namespace Sys2Proof

open Sys2Proof.Machine Sys2Proof.EngineRequests

/-- Settles O26: ENGA by the engine state, the entry to HOMING by the HOME level. -/
theorem engaStartsHoming : Obligations.EngaStartsHoming := by
  refine ⟨fun tag s hr => ⟨fun h => ?_, fun h hx hm => ?_, fun h hn => ?_, fun h => ?_, fun h => ?_, fun h => ?_⟩,
    fun s => ⟨enterHoming_seek, enterHoming_park⟩⟩
  · refine exec_enga .ok hr ?_ (by rw [engineReply, enterHoming_state]; rfl)
    rw [← enterHoming_dropOldest]
    simp only [engage, dropOldest_frame, h]
  · refine exec_enga .ok hr ?_ (by rw [engineReply, enterHoming_state]; rfl)
    rw [← enterHoming_dropOldest]
    exact (engage_readyOrHold (s := dropOldest s) h).trans (if_pos ⟨hx, hm⟩)
  · refine exec_enga .wrongState hr ((engage_readyOrHold (s := dropOldest s) h).trans
      (if_neg fun ⟨hx, hm⟩ => ?_)) rfl
    exact hn.elim (· hx) (Bool.eq_false_iff.mp hm)
  · refine exec_enga .busy hr ?_ rfl
    rcases h with h | h <;> simp only [engage, dropOldest_frame, h]
  · refine exec_enga .ok hr ?_ rfl
    simp only [engage, dropOldest_frame, h]
    rfl
  · refine exec_enga .tripped hr ?_ (by rw [engineReply, h]; rfl)
    simp only [engage, dropOldest_frame, h]

/-- Settles O27: REST and WAKE by the engine state and `wakeCondition_iff`. -/
theorem restAndWakeActByTheEngineState : Obligations.RestAndWakeActByTheEngineState := by
  intro tag s t w busy hbusy ht hw
  have hb : busy ↔ wakeCondition s = true := hbusy.trans wakeCondition_iff.symm
  have wakes : beginWake (originTarget s.engine.restOrigin) s = w := by
    rw [hw, originTarget_eq]
    rfl
  refine ⟨fun hr => ⟨fun h hn => ?_, fun h hy => ?_, fun h => ?_⟩, fun hr => ⟨fun h => ?_, fun h => ?_⟩,
    fun h hy => ?_, fun h => ?_⟩
  · refine exec_rest .ok hr ((restEngine_entering (s := dropOldest s) h).trans ?_) (by rw [ht]; rfl)
    rw [if_neg (show ¬wakeCondition (dropOldest s) = true from fun hc => hn (hb.mpr hc)), ht]
    rfl
  · exact exec_rest .wakePending hr ((restEngine_entering (s := dropOldest s) h).trans
      (if_pos (show wakeCondition (dropOldest s) = true from hb.mp hy))) rfl
  · exact exec_rest .wrongState hr (restEngine_elsewhere (s := dropOldest s) h) rfl
  · refine exec_wake .ok hr ((if_pos (c := (dropOldest s).engine.state = .rest) h).trans ?_) (by rw [hw]; rfl)
    rw [← wakes]
    rfl
  · exact exec_wake .ok hr (if_neg (c := (dropOldest s).engine.state = .rest) h) rfl
  · exact (if_pos ⟨h, hb.mp hy⟩).trans wakes
  · exact if_neg fun ⟨hr, hc⟩ => h.elim (· hr) (· (hb.mpr hc))

end Sys2Proof
end

