-- ==== Sys2Proof/Proofs/EngineResetRequest.lean ====
section
/-! The request ERST: O29. -/

namespace Sys2Proof.EngineResetRequest

open Sys2Proof.Machine

variable {s u v : State} {tag : Byte}

/-! ## ERST and the waiting requests -/

theorem resetWork_dropOldest (s : State) : resetWork (dropOldest s) = dropOldest (resetWork s) :=
  PrintQueue.raiseIf_dropOldest _ _ { s with
    queue := [], completions := [], holds := ⟨false, false⟩, exec := idleExecutor
    slots := Vector.replicate 8 freeSlot, heat := { s.heat with waiting := none } }

theorem erstDriven_dropOldest (s : State) : erstDriven (dropOldest s) = dropOldest (erstDriven s) := by
  unfold erstDriven clearIfStanding
  rw [apply_ite dropOldest, ← PrintQueue.controlledStop_dropOldest, apply_ite dropOldest]
  rfl

theorem resetEngineNow_dropOldest (s : State) :
    resetEngineNow (dropOldest s) = dropOldest (resetEngineNow s) := by
  unfold resetEngineNow
  rw [resetWork_dropOldest, apply_ite dropOldest]
  congr 1
  simp only [dropOldest_frame]
  cases s.engine.state with
  | unready | rest | warming => rfl
  | homing | ready | hold => exact erstDriven_dropOldest _
  | tripped =>
    dsimp only
    rw [apply_ite dropOldest]
    rfl

/-- ERST is accepted in every state, and answers the engine state that it leaves. -/
theorem exec_erst_replied (hr : Ready (.erst tag (.fields ())) s) {code : Byte} (ha : resetEngineNow s = u)
    (hc : u.engine.state.code = code) :
    exec (.erst tag (.fields ())) s = .next (replied 0xC4#8 tag [0x00#8, code] u) :=
  EngineRequests.exec_erst hr (by rw [resetEngineNow_dropOldest, ha]) (by rw [← hc]; rfl)

/-! ## What ERST clears (R168, R169) -/

/-- With nothing in progress ERST clears the carriage's record, the fire group due and the ribbon too. -/
theorem clearAtRest_eq (s : State) : clearAtRest s = { s with
    carriage := ⟨none, .stopped, none, false, none, 0, 0, 0, 0, 0, 0, none⟩
    fire := { s.fire with
      planInhibit := if s.fire.driving = 0#24 then 0#24 else s.fire.planInhibit, due := none }
    engine := { s.engine with outputs := s.engine.outputs &&& 0xBF#8 } } := rfl

/-- The engine enters UNREADY, with no ERST left pending. -/
theorem enterUnready_eq (h : s.engine.resetPending = false) :
    enterUnready s = { s with engine := { s.engine with state := .unready, holdTimer := none } } :=
  congrArg (fun b => { s with engine := { s.engine with state := .unready, holdTimer := none, resetPending := b } })
    h.symm

/-- The ribbon output and the alarm output go one after the other. -/
theorem ribbon_and_alarm_off (o : BitVec 8) : o &&& 0xBF#8 &&& 0x7F#8 = o &&& 0x3F#8 := BitVec.and_assoc ..

/-- The clearing of a first ERST, then the engine's part (R168's table). -/
theorem resetEngineNow_first (h : s.engine.resetPending = false) :
    (s.engine.state = .unready → resetEngineNow s = clearAtRest (resetWork s)) ∧
      (s.engine.state = .homing ∨ s.engine.state = .ready ∨ s.engine.state = .hold →
        resetEngineNow s = erstDriven (resetWork s)) ∧
      (s.engine.state = .rest → resetEngineNow s = beginWake .unready (clearAtRest (resetWork s))) ∧
      (s.engine.state = .warming → resetEngineNow s =
        clearAtRest { resetWork s with engine := { s.engine with wakeTarget := some .unready } }) ∧
      (s.engine.state = .tripped → resetEngineNow s = if levelAsserted s then clearAtRest (resetWork s)
        else clearTrip (clearAtRest (resetWork s))) := by
  refine ⟨fun he => ?_, fun he => ?_, fun he => ?_, fun he => ?_, fun he => ?_⟩
  case refine_2 => rcases he with he | he | he <;> simp [resetEngineNow, h, he]
  all_goals
    simp [resetEngineNow, h, he]

/-! ## The controlled stop of an ERST (R96, R97, R138, log 31) -/

/-- With the ERST pending, a carriage that stands loses its record before the motion is stopped. -/
def pendingReset (s : State) : State := clearIfStanding { s with engine := { s.engine with resetPending := true } }

theorem pendingReset_moving (h : s.carriage.phase ≠ .stopped) :
    pendingReset s = { s with engine := { s.engine with resetPending := true } } :=
  if_pos (by simpa [carriageMoving] using h)

theorem pendingReset_standing (h : s.carriage.phase = .stopped) :
    pendingReset s = { s with
      engine := { s.engine with resetPending := true }
      carriage := ⟨none, .stopped, none, false, none, 0, 0, 0, 0, 0, 0, none⟩ } :=
  if_neg (by simpa [carriageMoving] using h)

theorem pendingReset_engine (s : State) : (pendingReset s).engine = { s.engine with resetPending := true } := by
  by_cases h : s.carriage.phase = .stopped
  · rw [pendingReset_standing h]
  · rw [pendingReset_moving h]

theorem inMotion_pendingReset (s : State) : inMotion (pendingReset s) = inMotion s := by
  by_cases h : s.carriage.phase = .stopped
  · rw [pendingReset_standing h]
    simp [inMotion, carriageMoving, feeding, h]
  · rw [pendingReset_moving h]
    rfl

/-- A motion in progress is stopped as any controlled stop stops it. -/
theorem stopOf_pendingReset (s : State) : StopOf s (controlledStop (pendingReset s)) := by
  by_cases h : s.carriage.phase = .stopped
  · rw [pendingReset_standing h]
    refine ⟨fun hs => absurd (h.symm.trans hs) nofun, fun _ _ _ hs => absurd h hs, fun m _ hm => ?_⟩
    exact (PrintQueue.stopOf_controlledStop _).2.2 m rfl hm
  · rw [pendingReset_moving h]
    exact PrintQueue.stopOf_controlledStop { s with engine := { s.engine with resetPending := true } }

/-- A standing carriage has lost its record; a moving one is where it was, and fires no more. -/
theorem controlledStop_pendingReset (s : State) :
    (s.carriage.phase ≠ .stopped →
      (controlledStop (pendingReset s)).carriage.position = s.carriage.position) ∧
    (s.carriage.phase = .stopped →
      (controlledStop (pendingReset s)).carriage = ⟨none, .stopped, none, false, none, 0, 0, 0, 0, 0, 0, none⟩) ∧
    (s.carriage.phase ≠ .stopped → s.carriage.phase ≠ .stopping →
      (controlledStop (pendingReset s)).fire.due = none) := by
  refine ⟨fun h => ?_, fun h => ?_, fun h hs => ?_⟩
  · rw [pendingReset_moving h]
    exact (PrintQueue.controlledStop_keeps _).2.1
  · rw [pendingReset_standing h]
    rfl
  · rw [pendingReset_moving h]
    exact (PrintQueue.controlledStop_keeps _).1 h hs

theorem pendingReset_frame (s : State) :
    { pendingReset s with engine := s.engine, carriage := s.carriage } = s := by
  by_cases h : s.carriage.phase = .stopped
  · rw [pendingReset_standing h]
  · rw [pendingReset_moving h]

theorem controlledStop_pendingReset_engine (s : State) :
    (controlledStop (pendingReset s)).engine = { s.engine with resetPending := true } :=
  (congrArg State.engine (PrintQueue.controlledStop_keeps (pendingReset s)).2.2).trans (pendingReset_engine s)

/-- The stop changes the motion, the group due and the oracle's place, and no more. -/
theorem controlledStop_pendingReset_frame (s : State) :
    { controlledStop (pendingReset s) with
      engine := s.engine, carriage := s.carriage
      fire := { (controlledStop (pendingReset s)).fire with due := s.fire.due }
      paper := { (controlledStop (pendingReset s)).paper with move := s.paper.move }, freeCount := s.freeCount } =
    s := by
  have hf := pendingReset_frame s
  have hk := congrArg (fun x : State => { x with engine := s.engine, carriage := s.carriage })
    (PrintQueue.controlledStop_keeps (pendingReset s)).2.2
  have hd : (pendingReset s).fire.due = s.fire.due := congrArg (·.fire.due) hf
  have hm : (pendingReset s).paper.move = s.paper.move := congrArg (·.paper.move) hf
  have hn : (pendingReset s).freeCount = s.freeCount := congrArg (·.freeCount) hf
  rw [← hd, ← hm, ← hn]
  exact hk.trans hf

end Sys2Proof.EngineResetRequest

namespace Sys2Proof

open Sys2Proof.Machine Sys2Proof.EngineResetRequest

/-- Settles O29: the clearing on arrival, then R168's table, a motion brought to a controlled stop first. -/
theorem erstClearsTheWork : Obligations.ErstClearsTheWork := by
  intro tag s u v hr hu hv
  replace hu : u = resetWork s := hu
  have cleared : clearAtRest (resetWork s) = v := by rw [hv, hu]; rfl
  have hvs : v.engine.state = s.engine.state := by rw [hv, hu]
  refine ⟨fun hp => exec_erst_replied hr (if_pos hp) rfl, fun hp => ?_⟩
  obtain ⟨unready, driven, rest, warming, tripped⟩ := resetEngineNow_first hp
  refine ⟨fun he => ?_, fun he hm => ?_, fun he hm hk => ?_, fun he => ?_, fun he => ?_, fun he hl => ?_,
    fun he hl => ?_⟩
  · exact exec_erst_replied hr ((unready he).trans cleared) (by rw [hvs, he]; rfl)
  · refine exec_erst_replied hr ((driven he).trans ((if_pos hm).trans ?_)) rfl
    rw [erstAtRest, cleared]
    exact enterUnready_eq (by rw [hv, hu]; exact hp)
  · refine ⟨controlledStop (pendingReset u), exec_erst_replied hr ((driven he).trans ?_) ?_, ?_, ?_, ?_⟩
    · rw [hu]
      exact if_neg fun h => h.elim (Bool.eq_false_iff.mp · hm) hk
    · rw [controlledStop_pendingReset_engine, hu]
      rfl
    · exact MotionAndTrips.stopping_controlledStop ((inMotion_pendingReset u).trans (hu ▸ hm))
    · rw [controlledStop_pendingReset_engine, hu]
      rfl
    · obtain ⟨position, carriage, due⟩ := controlledStop_pendingReset u
      have hc : u.carriage = s.carriage := hu ▸ rfl
      rw [hc] at position carriage due
      refine ⟨?_, position, fun h => (carriage h).trans (hv ▸ rfl), due, ?_⟩
      · rw [hu]
        exact stopOf_pendingReset (resetWork s)
      · rw [hu]
        exact controlledStop_pendingReset_frame (resetWork s)
  · exact exec_erst_replied hr ((rest he).trans (by rw [cleared, hv, hu]; rfl)) rfl
  · exact exec_erst_replied hr ((warming he).trans (by rw [hv, hu]; rfl)) (by rw [show _ = _ from hvs, he]; rfl)
  · exact exec_erst_replied hr ((tripped he).trans ((if_pos hl).trans cleared)) (by rw [hvs, he]; rfl)
  · refine exec_erst_replied hr ((tripped he).trans ((if_neg (by simp [hl])).trans ?_)) rfl
    rw [cleared, TripClearing.clearTrip_eq, hv, hu]
    simp only [ribbon_and_alarm_off]

end Sys2Proof
end

