-- ==== Sys2Proof/Proofs/CarriageMotions.lean ====
section
/-! The carriage's motions: how they start, travel and end: O39. -/

namespace Sys2Proof.CarriageMotions

open Sys2Proof.Machine

variable {s u : State} {d : Dir} {p q : Int} {n : Nat} {pf : Profile}

/-! ## The way to a place (R76, R82, R91) -/

/-- A place lies `n` ticks ahead in the direction of motion. -/
theorem ahead_eq (hf : d = .forward → q = p + n) (hr : d = .reverse → q = p - n) : ahead d p q = n := by
  cases d with
  | forward => simp [ahead, dirSign, hf rfl]
  | reverse => simp [ahead, dirSign, hr rfl]

/-- A place already passed lies no way ahead. -/
theorem ahead_passed (hf : d = .forward → q < p) (hr : d = .reverse → p < q) : ahead d p q = 0 := by
  cases d with
  | forward =>
    have := hf rfl
    simp only [ahead, dirSign]
    omega
  | reverse =>
    have := hr rfl
    simp only [ahead, dirSign]
    omega

theorem reach_eq (hd : s.carriage.direction = some d) (hx : s.carriage.position = some p) :
    reach q s = travel (ahead d p q) s := by
  simp only [reach, hd, hx]

/-- The travel left is the way to the next place: the end point, a cruise edge or the due group's fire position. -/
theorem legLeft_eq (hd : s.carriage.direction = some d) (hpf : s.carriage.profile = some pf)
    (hx : s.carriage.position = some p)
    (hq : ((s.carriage.phase = .park ∨ s.carriage.phase = .reposition ∨ s.carriage.phase = .rampDown ∨
          s.carriage.phase = .stopping) ∧ q = pf.target) ∨
        (s.carriage.phase = .rampUp ∧ q = pf.edgeIn) ∨
        (s.carriage.phase = .cruise ∧ s.fire.due = none ∧ q = pf.edgeOut) ∨
        (s.carriage.phase = .cruise ∧ s.fire.due.map (fun g => g.firePos) = some q)) : legLeft s = ahead d p q := by
  simp only [legLeft, hd, hpf, hx]
  rcases hq with ⟨hp | hp | hp | hp, rfl⟩ | ⟨hp, rfl⟩ | ⟨hp, hg, rfl⟩ | ⟨hp, hg⟩
  case inr.inr.inr =>
    obtain ⟨g, hdue, rfl⟩ := Option.map_eq_some_iff.mp hg
    rw [hp, hdue]
    rfl
  case inr.inr.inl =>
    rw [hp, hg]
    rfl
  all_goals
    rw [hp]
    rfl

theorem legLeft_seek (h : s.carriage.phase = .seek) : legLeft s = 62400 - s.carriage.seekTravel := by
  unfold legLeft
  simp only [h]
  split <;> rfl

/-! ## Travel (R76, R79, R94, R174, logs 5 and 17) -/

/-- Every tick of a motion's travel moves the carriage and counts, in the seek towards its own count too. -/
theorem travel_of_moving (hd : s.carriage.direction = some d) :
    s.carriage.travel n = { s.carriage with
      position := s.carriage.position.map (fun p => p + dirSign d * (n : Int))
      seekTravel := if s.carriage.phase = .seek then s.carriage.seekTravel + n else s.carriage.seekTravel
      noMark := min 96 (s.carriage.noMark + n)
      observedNoMark := min 96 (s.carriage.observedNoMark + n) } := by
  simp only [Carriage.travel, hd]
  rfl

/-- Only the overlay's OBSERVE parts the two distances, and only the observed one can then come to 96 alone. -/
theorem observedLost_iff : observedLost n s = true ↔ s.engine.overlayMode = .observe ∧ 1 ≤ n ∧
    96 ≤ s.carriage.observedNoMark + n ∧ s.carriage.noMark < s.carriage.observedNoMark := by
  simp only [observedLost, Bool.and_eq_true, decide_eq_true_eq, and_assoc]
  rfl

theorem travel_seen (h : ¬observedLost n s = true) : travel n s = { s with carriage := s.carriage.travel n } :=
  if_neg h

/-- The observed distance that comes to 96 by itself makes a test trip and starts again. -/
theorem travel_observed (h : observedLost n s = true) : travel n s = testTripFor .encoderLost
    { s with carriage := { s.carriage.travel n with observedNoMark := s.carriage.observedNoMark + n - 96 } } :=
  if_pos h

/-! ## The start and the end of a motion (R78, R82, R111, R158) -/

/-- A pass's motion starts in RAMP_UP with its four points, the ribbon on. -/
theorem startPass_eq (plan : Plan) (r : PassRec) (s : State) : startPass plan r s =
    { s with
      exec := { s.exec with state := .pass }
      engine := { s.engine with
        state := (if s.engine.state = .hold then .ready else s.engine.state), holdTimer := none
        outputs := s.engine.outputs ||| 0x40#8 }
      carriage := { s.carriage with
        phase := .rampUp, direction := some r.dir, noMark := 0, observedNoMark := 0
        profile := some (passProfile r plan.speed (paramNat s .accel)) } } := rfl

/-- The four points of a forward pass's motion, with the ramp's length in columns (R82). -/
theorem passProfile_forward {r : PassRec} {v a : Nat} (h : r.dir = .forward) : passProfile r v a =
    ⟨16 * (r.lo - 12 - (rampColumns v a : Nat)), 16 * (r.hi + 12 + (rampColumns v a : Nat)), 16 * (r.lo - 12),
      16 * (r.hi + 12), v, a⟩ := by
  simp only [passProfile, h]
  rfl

/-- The four points of a reverse pass's motion (R82). -/
theorem passProfile_reverse {r : PassRec} {v a : Nat} (h : r.dir = .reverse) : passProfile r v a =
    ⟨16 * (r.hi + 12 + (rampColumns v a : Nat)), 16 * (r.lo - 12 - (rampColumns v a : Nat)), 16 * (r.hi + 12),
      16 * (r.lo - 12), v, a⟩ := by
  simp only [passProfile, h]
  rfl

/-- The other outputs stand when the ribbon drive is switched. -/
theorem setRibbon_bits (e : Engine) (on : Bool) (i : Fin 8) :
    (e.setOutput 6 on).outputs.getLsbD i = if i.val = 6 then on else e.outputs.getLsbD i := by
  have hi := i.isLt
  by_cases h : i.val = 6 <;> cases on <;> simp [Engine.setOutput, h]

end Sys2Proof.CarriageMotions

namespace Sys2Proof

open Sys2Proof.Machine Sys2Proof.CarriageMotions

/-- Settles O39: the way to a place, the travel along it, and the start and the end of a motion. -/
theorem motionsStartTravelAndEnd : Obligations.MotionsStartTravelAndEnd := by
  intro s
  refine ⟨fun d p q n hd hx => ⟨fun hf hr => ?_, fun hf hr => ?_⟩, fun d n u hd hu => ?_,
    fun d pf p q hd hpf hx hq => ?_, legLeft_seek, rfl, fun plan r a v R ha hv _ hR => ?_, rfl,
    fun on => ⟨_, rfl, setRibbon_bits s.engine on⟩⟩
  · rw [reach_eq hd hx, ahead_eq hf hr]
  · rw [reach_eq hd hx, ahead_passed hf hr]
  · have hu' : u = { s with carriage := s.carriage.travel n } := by
      rw [hu, travel_of_moving hd]
      cases d <;> simp [dirSign, sub_eq_add_neg]
    refine ⟨fun h => ?_, fun ho hn ht hl => ?_⟩
    · rw [hu']
      refine travel_seen fun hlost => ?_
      obtain ⟨ho, hn, ht, hl⟩ := observedLost_iff.mp hlost
      rcases h with h | h | h | h
      · exact h ho
      all_goals omega
    · rw [hu']
      exact travel_observed (observedLost_iff.mpr ⟨ho, hn, ht, hl⟩)
  · rw [legLeft_eq hd hpf hx hq]
    exact ⟨fun _ => ahead_eq, ahead_passed⟩
  · have hR' : R = (rampColumns v a : Nat) := hR
    rw [startPass_eq, ← ha, ← hv, hR']
    cases hdir : r.dir with
    | forward => simp only [passProfile_forward hdir]
    | reverse => simp only [passProfile_reverse hdir]

end Sys2Proof
end

