-- ==== Sys2Proof/Proofs/FireGroupOrder.lean ====
section
/-! Corrections, fire positions and the order of the fire groups: O51. -/

namespace Sys2Proof.FireGroupOrder

open Sys2Proof.Machine

variable {s : State} {slot : Slot} {plan : Plan} {r : PassRec} {d : Dir} {has : Nat → Bool} {todo : Nat → Prop}

/-! ## Corrections (R89) -/

/-- The sixteenth of a filter to the nearest integer, halves away from zero. -/
theorem roundSixteenth_eq {x k : Int} (hp : 0 ≤ x → 16 * k ≤ x + 8 ∧ x + 8 < 16 * k + 16)
    (hn : x < 0 → -16 * k ≤ 8 - x ∧ 8 - x < 16 - 16 * k) : roundSixteenth x = k := by
  unfold roundSixteenth
  split <;> omega

/-! ## The work in hand (R40, R73) -/

/-- An ACTIVE line is the oldest entry of the queue (R32). -/
theorem activeLine_split {f : LineFields} (h : activeLine s = some f) :
    ∃ e rest, s.queue = e :: rest ∧ e.active = true ∧ e.kind = .line f := by
  unfold activeLine activeEntry at h
  cases hq : s.queue with
  | nil => simp [hq] at h
  | cons e rest =>
    cases ha : e.active with
    | false => simp [hq, ha] at h
    | true =>
      cases hk : e.kind with
      | line f' =>
        simp only [hq, ha, if_true, hk, Option.some.injEq] at h
        exact ⟨e, rest, rfl, ha, hk.trans (congrArg _ h)⟩
      | feed _ | skip _ | tear => simp [hq, ha, hk] at h

/-- The work in hand is the first pass not done of the ACTIVE line's plan. -/
theorem working_split (h : working s = some (slot, plan, r)) :
    ∃ e rest f before after, s.queue = e :: rest ∧ e.active = true ∧ e.kind = .line f ∧ slot = s.slots[f.slot] ∧
      s.exec.plan = some plan ∧ plan.passes = before ++ r :: after ∧ (∀ q ∈ before, q.done = true) ∧
      r.done = false := by
  unfold working at h
  split at h
  next f p hl hx =>
    obtain ⟨r', hr, hw⟩ := Option.map_eq_some_iff.mp h
    cases hw
    obtain ⟨hd, before, after, hs, hb⟩ := List.find?_eq_some_iff_append.mp hr
    obtain ⟨e, rest, hq, ha, hk⟩ := activeLine_split hl
    exact ⟨e, rest, f, before, after, hq, ha, hk, rfl, hx, hs, by simpa using hb, by simpa using hd⟩
  next => cases h

/-! ## The rows of a group (R31, R100) -/

theorem imageDot_iff {c : Nat} {row : Fin 24} : imageDot slot c row = true ↔
    slot.left ≤ c ∧ ∃ col, slot.cols[c - slot.left]? = some col ∧ col.getLsbD row = true := by
  rw [imageDot, Bool.and_eq_true, decide_eq_true_eq, List.getD_eq_getElem?_getD]
  cases slot.cols[c - slot.left]? <;> simp

theorem inSubset_iff {f c : Nat} {sub : Option Nat} : inSubset f sub c = true ↔ ∀ j, sub = some j → c % f = j := by
  cases sub <;> simp [inSubset, eq_comm]

theorem mem_groupRows {f ref : Nat} {row : Fin 24} : row ∈ groupRows s slot f r ref ↔
    ∃ c, c + s.fire.pinMap[row].offset.val = ref ∧ slot.left ≤ c ∧
      (∃ col, slot.cols[c - slot.left]? = some col ∧ col.getLsbD row = true) ∧
      s.fire.pinMap[row].enabled = true ∧ s.fire.planInhibit.getLsbD s.fire.pinMap[row].pin = false ∧
      (∀ j, r.subset = some j → c % f = j) := by
  simp only [groupRows, List.mem_filter, List.mem_finRange, true_and, Bool.and_eq_true, decide_eq_true_eq, imageDot_iff,
    inSubset_iff, rowKept, Bool.not_eq_true']
  constructor
  · rintro ⟨⟨⟨ho, he, hi⟩, hs⟩, hl, hc⟩
    exact ⟨_, Nat.sub_add_cancel ho, hl, hc, he, hi, hs⟩
  · rintro ⟨c, rfl, hl, hc, he, hi, hs⟩
    rw [Nat.add_sub_cancel]
    exact ⟨⟨⟨Nat.le_add_left .., he, hi⟩, hs⟩, hl, hc⟩

/-- A group holds each of its rows once. -/
theorem groupRows_nodup (f ref : Nat) : (groupRows s slot f r ref).Nodup := (List.nodup_finRange 24).filter _

/-! ## The search for the next group (R91) -/

/-- A column comes first, in the direction of travel, of those still to do. -/
def IsFirst (d : Dir) (todo : Nat → Prop) (c : Nat) : Prop :=
  todo c ∧ ∀ x, todo x → (d = .forward → c ≤ x) ∧ (d = .reverse → x ≤ c)

/-- What a search has to give: the first column to do, or none when there is none. -/
def Finds (d : Dir) (todo : Nat → Prop) (found : Option Nat) : Prop :=
  (∃ c, found = some c ∧ IsFirst d todo c) ∨ found = none ∧ ∀ c, ¬todo c

theorem IsFirst.unique {c x : Nat} (hc : IsFirst d todo c) (hx : IsFirst d todo x) : c = x := by
  have h1 := hc.2 x hx.1
  have h2 := hx.2 c hc.1
  cases d with
  | forward => exact Nat.le_antisymm (h1.1 rfl) (h2.1 rfl)
  | reverse => exact Nat.le_antisymm (h2.2 rfl) (h1.2 rfl)

theorem Finds.congr {todo' : Nat → Prop} {found : Option Nat} (h : Finds d todo found)
    (ht : ∀ c, todo c ↔ todo' c) : Finds d todo' found := by
  rwa [show todo' = todo from funext fun c => propext (ht c).symm]

theorem Finds.eq_some_iff {found : Option Nat} {c : Nat} (h : Finds d todo found) :
    found = some c ↔ IsFirst d todo c := by
  rcases h with ⟨x, rfl, hx⟩ | ⟨rfl, hn⟩
  · exact ⟨fun e => Option.some.inj e ▸ hx, fun hc => congrArg some (hx.unique hc)⟩
  · exact ⟨nofun, fun hc => absurd hc.1 (hn c)⟩

theorem Finds.eq_none_iff {found : Option Nat} (h : Finds d todo found) : found = none ↔ ∀ c, ¬todo c := by
  rcases h with ⟨x, rfl, hx⟩ | ⟨rfl, hn⟩
  · exact ⟨nofun, fun hn => absurd hx.1 (hn x)⟩
  · exact iff_of_true rfl hn

/-- A forward search looks at the columns from a place on. -/
theorem findGroup_forward (has : Nat → Bool) (n start : Nat) :
    Finds .forward (fun c => start ≤ c ∧ c < start + n ∧ has c = true) (findGroup has .forward n start) := by
  induction n generalizing start with
  | zero => exact .inr ⟨rfl, fun c => by omega⟩
  | succ n ih =>
    unfold findGroup
    split
    next h => exact .inl ⟨start, rfl, ⟨le_rfl, by omega, h⟩, fun x hx => ⟨fun _ => hx.1, nofun⟩⟩
    next h =>
      refine (ih (start + 1)).congr fun c => ⟨fun ⟨hs, hn, hc⟩ => ⟨by omega, by omega, hc⟩, fun ⟨hs, hn, hc⟩ => ?_⟩
      have : start ≠ c := fun e => h (e ▸ hc)
      exact ⟨by omega, by omega, hc⟩

/-- A reverse search looks at the columns from a place down, and ends at column 0. -/
theorem findGroup_reverse (has : Nat → Bool) {n start : Nat} (hn : n ≤ start + 1) :
    Finds .reverse (fun c => c ≤ start ∧ start < c + n ∧ has c = true) (findGroup has .reverse n start) := by
  induction n generalizing start with
  | zero => exact .inr ⟨rfl, fun c => by omega⟩
  | succ n ih =>
    unfold findGroup
    split
    next h => exact .inl ⟨start, rfl, ⟨le_rfl, by omega, h⟩, fun x hx => ⟨nofun, fun _ => hx.1⟩⟩
    next h =>
      dsimp only
      split
      next h0 =>
        refine .inr ⟨rfl, fun c ⟨hs, _, hc⟩ => h ?_⟩
        rwa [show start = c by omega]
      next h0 =>
        refine (ih (by omega)).congr fun c => ⟨fun ⟨hs, hn, hc⟩ => ⟨by omega, by omega, hc⟩, fun ⟨hs, hn, hc⟩ => ?_⟩
        have : start ≠ c := fun e => h (e ▸ hc)
        exact ⟨by omega, by omega, hc⟩

/-! ## The group that falls due (R91) -/

/-- A column has a group still to fire: within the pass, with a dot, and ahead of the group fired last. -/
def Todo (s : State) (slot : Slot) (plan : Plan) (r : PassRec) (last : Option Nat) (c : Nat) : Prop :=
  r.lo ≤ c ∧ c ≤ r.hi ∧ groupRows s slot plan.shingle r c ≠ [] ∧
    ∀ x, last = some x → (r.dir = .forward → x < c) ∧ (r.dir = .reverse → c < x)

/-- The next group due is the first still to fire, with the fire position of this moment. -/
theorem nextDue_finds (hw : working s = some (slot, plan, r)) {last : Option Nat}
    (hl : ∀ c, last = some c → r.lo ≤ c ∧ c ≤ r.hi) :
    ∃ found, Finds r.dir (Todo s slot plan r last) found ∧
      nextDue s last = found.map fun c => ⟨c, firePosition s plan r.dir c⟩ := by
  have hg : ∀ c, (!(groupRows s slot plan.shingle r c).isEmpty) = true ↔ groupRows s slot plan.shingle r c ≠ [] := by
    simp
  simp only [nextDue, hw, dueAfter]
  refine ⟨_, ?_, rfl⟩
  cases hd : r.dir with
  | forward =>
    refine (findGroup_forward _ _ _).congr fun c => ?_
    rw [hg, Todo, hd]
    cases last with
    | none => grind
    | some x =>
      obtain ⟨hlo, hhi⟩ := hl x rfl
      grind
  | reverse =>
    cases last with
    | none =>
      refine (findGroup_reverse _ (by omega)).congr fun c => ?_
      rw [hg, Todo, hd]
      grind
    | some x =>
      obtain ⟨hlo, hhi⟩ := hl x rfl
      dsimp only
      split
      next h0 => exact .inr ⟨rfl, fun c ⟨_, _, _, hx⟩ => Nat.not_lt_zero c (h0 ▸ (hx x rfl).2 hd)⟩
      next h0 =>
        refine (findGroup_reverse _ (by omega)).congr fun c => ?_
        rw [hg, Todo, hd]
        grind

end Sys2Proof.FireGroupOrder

namespace Sys2Proof

open Sys2Proof.Machine Sys2Proof.FireGroupOrder

/-- Settles O51: `roundSixteenth_eq`, `mem_groupRows` and the search of `nextDue_finds`. -/
theorem fireGroupsFallDueInOrder : Obligations.FireGroupsFallDueInOrder := by
  refine ⟨fun s d x k hx hp hn => ?_, fun s plan ref => ⟨?_, fun id hid => ?_⟩, fun s slot plan r hw =>
    ⟨working_split hw, fun _ _ => mem_groupRows, groupRows_nodup plan.shingle, fun last todo hl ht => ?_⟩⟩
  · have hk : roundSixteenth (s.carriage.dev d) = k := by
      have hdev : s.carriage.dev d = x := by rw [hx]; cases d <;> rfl
      exact hdev ▸ roundSixteenth_eq hp hn
    rw [correction, hk]
    rfl
  · simp [firePosition, dirSign]
  · have ht : trimId plan.cls = id := by rcases hid with ⟨h, rfl⟩ | ⟨h, rfl⟩ | ⟨h, rfl⟩ | ⟨h, rfl⟩ <;> rw [h] <;> rfl
    simp [firePosition, dirSign, ht]
  · obtain ⟨found, hf, he⟩ := nextDue_finds hw hl
    replace hf := hf.congr fun c => (ht c).symm
    rw [he]
    refine ⟨fun g => ?_, by rw [Option.map_eq_none_iff, hf.eq_none_iff], by rw [setDue, he]⟩
    obtain ⟨column, firePos⟩ := g
    simp only [Option.map_eq_some_iff, hf.eq_some_iff, DueGroup.mk.injEq]
    exact ⟨fun ⟨c, ⟨h, hfirst⟩, hc, hp⟩ => hc ▸ ⟨h, hp.symm, hfirst⟩,
      fun ⟨h, hp, hfirst⟩ => ⟨column, ⟨h, hfirst⟩, rfl, hp.symm⟩⟩

end Sys2Proof
end

