-- ==== Sys2Proof/Proofs/MarkEdges.lean ====
section
/-! The reference track: what a mark edge counts, corrects and clears: O42. -/

namespace Sys2Proof.MarkEdges

open Sys2Proof.Machine

variable {s : State} {dir : Dir}

/-! ## What travel and a cleared distance leave of the track's record -/

@[simp] theorem travel_track (n : Nat) (s : State) :
    (travel n s).carriage.markPhase = s.carriage.markPhase ∧
      (travel n s).carriage.markCount = s.carriage.markCount ∧
      (travel n s).carriage.devForward = s.carriage.devForward ∧
      (travel n s).carriage.devReverse = s.carriage.devReverse := by
  rcases travel_cases n s with ⟨-, e⟩ | ⟨-, e⟩ <;> simp [e]

@[simp] theorem clearNoMark_track (s : State) :
    (clearNoMark s).carriage.position = s.carriage.position ∧
      (clearNoMark s).carriage.markPhase = s.carriage.markPhase ∧
      (clearNoMark s).carriage.markCount = s.carriage.markCount ∧
      (clearNoMark s).carriage.devForward = s.carriage.devForward ∧
      (clearNoMark s).carriage.devReverse = s.carriage.devReverse := by
  unfold clearNoMark
  (repeat' split) <;> simp

/-! ## The no-mark distances at an edge (R87, R94, R174) -/

theorem clearNoMark_seen (h : observed s .markStall = false) :
    clearNoMark s = { s with carriage := { s.carriage with noMark := 0, observedNoMark := 0 } } :=
  if_neg (Bool.eq_false_iff.mp h)

theorem clearNoMark_stalled (h : observed s .markStall = true) (hn : s.carriage.observedNoMark < 96) :
    clearNoMark s = { s with carriage := { s.carriage with noMark := 0 } } :=
  (if_pos h).trans (if_neg (Nat.not_le.mpr hn))

theorem clearNoMark_lost (h : observed s .markStall = true) (hn : 96 ≤ s.carriage.observedNoMark) :
    clearNoMark s =
      testTripFor .encoderLost { s with carriage := { s.carriage with noMark := 0, observedNoMark := 0 } } :=
  (if_pos h).trans (if_pos hn)

/-- The three cases of `clearNoMark` are all there is to it. -/
theorem eq_clearNoMark {stall : Bool} {cleared : State → State} {x : State} (hs : observed x .markStall = stall)
    (hc : (stall = false → cleared x = { x with carriage := { x.carriage with noMark := 0, observedNoMark := 0 } }) ∧
      (stall = true → x.carriage.observedNoMark < 96 →
        cleared x = { x with carriage := { x.carriage with noMark := 0 } }) ∧
      (stall = true → 96 ≤ x.carriage.observedNoMark →
        cleared x =
          testTripFor .encoderLost { x with carriage := { x.carriage with noMark := 0, observedNoMark := 0 } })) :
    cleared x = clearNoMark x := by
  obtain ⟨seen, stalled, lost⟩ := hc
  cases stall with
  | false => rw [seen rfl, clearNoMark_seen hs]
  | true =>
    rcases Nat.lt_or_ge x.carriage.observedNoMark 96 with hn | hn
    · rw [stalled rfl hn, clearNoMark_stalled hs hn]
    · rw [lost rfl hn, clearNoMark_lost hs hn]

/-! ## The edge (R79, R80, R86 to R88, R93) -/

/-- Only the filter of the motion's direction is corrected. -/
theorem filter_eq (c : Carriage) (fdepth : Nat) (d : Int) : c.filter fdepth d = { c with
    devForward := if c.direction = some .forward then filterStep fdepth c.devForward d else c.devForward
    devReverse := if c.direction = some .reverse then filterStep fdepth c.devReverse d else c.devReverse } := by
  obtain ⟨_, _, direction⟩ := c
  rcases direction with _ | _ | _ <;> rfl

/-- An edge with the homed flag set counts, then trips a slip or corrects a filter by the deviation. -/
theorem edgeHomed_eq {k d : Int} {v : State} (hk : k = s.carriage.markCount + dirSign dir)
    (hd : d = s.carriage.markPhase.getD 0 + 32 * k - s.carriage.position.getD 0)
    (hv : v = clearNoMark { s with carriage := { s.carriage with markCount := k } }) :
    edgeHomed dir s = if param s .sliplim < (d.natAbs : Int) then arise .carriageSlip v
      else { v with carriage := v.carriage.filter (paramNat s .fdepth) d } := by
  have hdev : v.carriage.deviation = d := by simp [Carriage.deviation, hv, hd]
  rw [← hdev, hv, hk]
  rfl

/-- Without the homed flag the seek and a controlled stop clear the distances, the park move captures the coordinate,
and no other phase takes the edge (log 14). -/
theorem edge_unhomed (h : s.carriage.homed = false) :
    (s.carriage.phase = .seek ∨ s.carriage.phase = .stopping → edge dir s = clearNoMark s) ∧
      (s.carriage.phase = .park → edge dir s = capture s) ∧
      (s.carriage.phase ≠ .seek → s.carriage.phase ≠ .park → s.carriage.phase ≠ .stopping → edge dir s = s) := by
  unfold edge
  rw [if_neg (Bool.eq_false_iff.mp h)]
  refine ⟨fun hp => ?_, fun hp => ?_, fun hs hp ht => ?_⟩
  · rcases hp with hp | hp <;> simp only [hp]
  · simp only [hp]
  · cases hph : s.carriage.phase <;> simp only [hph, ne_eq, not_true_eq_false] at hs hp ht ⊢

end Sys2Proof.MarkEdges

namespace Sys2Proof

open Sys2Proof.Machine Sys2Proof.MarkEdges

/-- Settles O42: the travel to the edge, then `edgeHomed_eq` or `edge_unhomed`. -/
theorem markEdgeCountsAndCorrects : Obligations.MarkEdgeCountsAndCorrects := by
  intro s u dir n stall cleared hs hu hstall hcl
  have same : ∀ c : Carriage, cleared { u with carriage := c } = clearNoMark { u with carriage := c } := fun c =>
    eq_clearNoMark (by simp [observed, flagSet, hu, hstall, OverlayInput.bit]) (hcl _)
  have hx : exec (.markEdge dir n) s = .next (if driven s .markStall then u else edge dir u) := by
    rw [hu]
    unfold exec execMarkEdge
    exact hs.acting _
  have hphase : u.carriage.phase = s.carriage.phase := by simp [hu]
  refine ⟨fun hm hi => ?_, fun hn => ?_⟩
  · rw [hx, if_pos ((SensorsAndTimers.driven_iff (i := .markStall)).mpr ⟨hm, hi⟩)]
  rw [if_neg (Bool.eq_false_iff.mp (SensorsAndTimers.driven_eq_false_iff.mpr hn))] at hx
  refine ⟨fun hh k d hk hd v hv => ?_, fun hh hp => ?_, fun hh hp => ?_, fun hh h1 h2 h3 => ?_⟩
  · have hk' : k = u.carriage.markCount + dirSign dir := by rw [hk, hu]; cases dir <;> simp [dirSign]
    have hd' : d = u.carriage.markPhase.getD 0 + 32 * k - u.carriage.position.getD 0 := by rw [hd]; simp [hu]
    have hv' := hv.trans (same _)
    have hedge : edge dir u = edgeHomed dir u := if_pos (by simpa [hu] using hh)
    have hpar : param u .sliplim = param s .sliplim ∧ paramNat u .fdepth = paramNat s .fdepth := by
      simp [param, paramNat, hu]
    rw [hx, hedge, edgeHomed_eq hk' hd' hv', hpar.1, hpar.2]
    refine ⟨fun hslip => by rw [if_pos hslip], fun hslip g hg => ?_⟩
    rw [if_neg (by omega), filter_eq]
    have hg' : ∀ x, g x = filterStep (paramNat s .fdepth) x d := hg
    have htrack : v.carriage.direction = s.carriage.direction ∧ v.carriage.devForward = s.carriage.devForward ∧
        v.carriage.devReverse = s.carriage.devReverse := by simp [hv', hu]
    obtain ⟨hdir, hforward, hreverse⟩ := htrack
    rw [hg', hg', ← hdir, ← hforward, ← hreverse]
  · rw [hx, (edge_unhomed (by simpa [hu] using hh)).1 (hphase ▸ hp)]
    exact congrArg _ (same u.carriage).symm
  · rw [hx, (edge_unhomed (by simpa [hu] using hh)).2.1 (hphase ▸ hp), same]
    rfl
  · rw [hx, (edge_unhomed (by simpa [hu] using hh)).2.2 (hphase ▸ h1) (hphase ▸ h2) (hphase ▸ h3)]

end Sys2Proof
end

