-- ==== Sys2Proof/Proofs/Homing.lean ====
section
/-! Homing: the seek's end, the park move and the load: O43. -/

namespace Sys2Proof.Homing

open Sys2Proof.Machine

variable {s : State}

/-! ## The events of homing (R79, R80, R94, R157) -/

theorem exec_homeSensorActive (h : Settled s) : exec .homeSensorActive s = .next
    (if s.carriage.phase = .seek then homeReached { s with lines := { s.lines with home := true } }
      else { s with lines := { s.lines with home := true } }) := by
  unfold exec execHomeSensorActive
  exact h.acting _

theorem exec_parkEnd (h : Settled s) : exec .parkEnd s = .next (match s.carriage.profile with
    | some pf =>
      if s.carriage.phase = .park ∧ s.carriage.homed = true ∧ legClear s = true then
        load (endMotion (reach pf.target s))
      else s
    | none => s) := by
  unfold exec execParkEnd
  exact h.acting _

/-! ## The load (R139, R140) -/

/-- Homing ends in READY, with HOMED raised (R157). -/
theorem finishHoming_eq (s : State) : finishHoming s = raise .homed
    { s with engine := { s.engine with state := .ready, holdTimer := some (paramNat s .holddly) } } := rfl

theorem load_absent (h : s.paper.state = .out) (hp : sensorPresent s = false) : load s = finishHoming s := by
  simp only [load, h, hp]
  rfl

theorem load_present (h : s.paper.state = .out) (hp : sensorPresent s = true) : load s = beginLoad s := by
  simp only [load, h, hp, if_true]

theorem load_loaded (h : s.paper.state = .loaded) :
    load s = finishHoming { s with holds := { s.holds with paperOut := false } } := by
  simp only [load, h]

theorem load_ending (h : s.paper.state = .ending) : load s = finishHoming s := by
  simp only [load, h]

/-- A load begins with no step unpulsed. -/
def unpulsedCleared (s : State) : State := { s with paper := { s.paper with unpulsed := 0, observedUnpulsed := 0 } }

/-- On FANFOLD the preload comes first. -/
theorem beginLoad_preload (hp : param s .path = 0) (hn : 1 ≤ param s .preload) : beginLoad s =
    startFeed (.preload (paramNat s .loaddist)) .forward (paramNat s .preload) (unpulsedCleared s) := by
  have hne : paramNat s .preload ≠ 0 := by
    rw [paramNat]
    omega
  simp only [beginLoad, path, hp, if_true, hne, if_false]
  rfl

/-- Without a preload the load's own feed comes first. -/
theorem beginLoad_feed (h : param s .path ≠ 0 ∨ param s .preload ≤ 0) :
    beginLoad s = loadFeed (paramNat s .loaddist) (unpulsedCleared s) := by
  by_cases hp : param s .path = 0
  · have hn : paramNat s .preload = 0 := Int.toNat_eq_zero.mpr (h.resolve_left (· hp))
    simp only [beginLoad, path, hp, if_true, hn]
    rfl
  · simp only [beginLoad, path, hp, if_false]
    rfl

theorem loadFeed_pos {n : Nat} (hn : n ≠ 0) : loadFeed n s = startFeed .load .forward n s := if_neg hn

/-- A load without a distance is at its end at once, and succeeds with the sensor present. -/
theorem loadFeed_zero (hp : sensorPresent s = true) : loadFeed 0 s = finishHoming (loadSucceeds s) := by
  simp only [loadFeed, if_true, finishLoad, hp]

end Sys2Proof.Homing

namespace Sys2Proof

open Sys2Proof.Machine Sys2Proof.Homing

/-- Settles O43: the rows of homing, then the load by the paper state and the sensor. -/
theorem homingParksAndLoads : Obligations.HomingParksAndLoads := by
  intro s
  refine ⟨fun hs => ?_, fun hs hp => ?_, fun hs hp => ?_, fun hs h => ?_, fun pf u hs hpf hp hh hl hu => ?_,
    fun ready hready => ?_⟩
  · unfold exec execHomeSensorInactive
    exact hs.acting _
  · rw [exec_homeSensorActive hs, if_neg hp]
  · rw [exec_homeSensorActive hs, if_pos hp]
    rfl
  · rw [exec_parkEnd hs]
    split
    · rw [if_neg]
      rintro ⟨hp, hh, hl⟩
      rcases h with h | h | h
      · exact h hp
      · exact Bool.eq_false_iff.mp h hh
      · exact PassMotions.not_legClear h hl
    · rfl
  · simp only [exec_parkEnd hs, hpf]
    rw [if_pos ⟨hp, hh, PassMotions.legClear_iff.mpr hl⟩, hu]
  · have finish : ∀ x, finishHoming x = ready x := fun x => (hready x).symm
    refine ⟨fun h hn => ?_, fun h => ?_, fun h => ?_,
      fun h hp u hu => ⟨fun h0 hn => ?_, fun hn => ⟨fun hd => ?_, fun hd => ?_⟩⟩⟩
    · rw [load_absent h hn, finish]
    · rw [load_loaded h, finish]
    · rw [load_ending h, finish]
    · rw [load_present h hp, beginLoad_preload h0 hn, hu]
      rfl
    · have hne : paramNat s .loaddist ≠ 0 := by
        rw [paramNat]
        omega
      rw [load_present h hp, beginLoad_feed hn, loadFeed_pos hne, hu]
      rfl
    · have h0 : paramNat s .loaddist = 0 := Int.toNat_eq_zero.mpr hd
      rw [load_present h hp, beginLoad_feed hn, h0, loadFeed_zero (by exact hp), finish, hu]
      rfl

end Sys2Proof
end

