-- ==== Sys2Proof/Proofs/Causes.lean ====
section
/-! The six causes and how each arises: O44. -/

namespace Sys2Proof.Causes

open Sys2Proof.Machine

variable {s : State} {c : TripCause}

/-! ## A cause that arises (R163, R164, R166) -/

theorem arise_tripped (h : s.engine.state = .tripped) : arise c s =
    { s with engine := { s.engine with further := s.engine.further ||| BitVec.twoPow 6 (causeIndex c) } } := if_pos h

theorem arise_jam (h : s.engine.state ≠ .tripped) : arise .paperJam s = trip .paperJam s :=
  (if_neg h).trans (congrArg _ (if_pos rfl))

/-- A cause other than a jam takes the end of the feed move first (log 39). -/
theorem arise_settled (h : s.engine.state ≠ .tripped) (hc : c ≠ .paperJam) : arise c s = trip c (settleFeed s) :=
  (if_neg h).trans (congrArg _ (if_neg hc))

section

variable (h : Settled s)

include h

/-! ## The events of the causes (R79, R94, R151, R163) -/

theorem exec_encoderLost : exec .encoderLost s = .next
    (if carriageMoving s = true ∧ 96 - s.carriage.noMark ≤ legLeft s then
      arise .encoderLost (travel (96 - s.carriage.noMark) s) else s) := by
  unfold exec execEncoderLost
  exact h.acting _

theorem exec_homeFail : exec .homeFail s = .next
    (if s.carriage.phase = .seek ∧ homeActive s = false ∧ s.carriage.noMark + legLeft s ≤ 96 then
      arise .homeFail (travel (legLeft s) s) else s) := by
  unfold exec execHomeFail
  exact h.acting _

theorem exec_paperJam : exec .paperJam s = .next (if s.paper.jamDue then arise .paperJam s else s) := by
  unfold exec execPaperJam
  exact h.acting _

theorem exec_headHotAsserted : exec .headHotAsserted s = .next
    (ariseIf (!headHotLevel s) .headHot { s with lines := { s.lines with headHot := true } }) := by
  unfold exec execHeadHotAsserted
  exact h.acting _

theorem exec_driverFaultAsserted : exec .driverFaultAsserted s = .next
    (ariseIf (!driverFaultLevel s) .driverFault { s with lines := { s.lines with driverFault := true } }) := by
  unfold exec execDriverFaultAsserted
  exact h.acting _

/-! ## The test trips (R174) -/

theorem exec_testTrip_unobserved (ho : s.engine.overlayMode ≠ .observe) (c : TripCause) :
    exec (.testTrip c) s = .next s := by
  unfold exec execTestTrip
  exact (h.acting _).trans (congrArg _ (if_neg ho))

/-- Travel and feed steps make the test trips of two causes; the others have none of their own. -/
theorem exec_testTrip_other (he : c ≠ .encoderLost) (hj : c ≠ .paperJam) : exec (.testTrip c) s = .next s := by
  unfold exec execTestTrip
  refine (h.acting _).trans (congrArg _ ((ite_congr rfl (fun _ => ?_) fun _ => rfl).trans (ite_self s)))
  cases c with
  | encoderLost => exact absurd rfl he
  | paperJam => exact absurd rfl hj
  | homeFail | carriageSlip | headHot | driverFault => rfl

theorem exec_testTrip_jam (ho : s.engine.overlayMode = .observe) :
    exec (.testTrip .paperJam) s = .next (jamTestTrip s) := by
  unfold exec execTestTrip
  exact (h.acting _).trans (congrArg _ (if_pos ho))

theorem exec_testTrip_encoder (ho : s.engine.overlayMode = .observe) :
    exec (.testTrip .encoderLost) s = .next (encoderTestTrip s) := by
  unfold exec execTestTrip
  exact (h.acting _).trans (congrArg _ (if_pos ho))

/-- The feed step that jams in test alone is the one of FEED_STEP. -/
theorem exec_feedStep_testJam (hj : testJams s = true) : exec .feedStep s = .next (jamTestTrip s) := by
  unfold exec execFeedStep
  refine (h.acting _).trans (congrArg _ ?_)
  cases hm : s.paper.move with
  | none => simp only [jamTestTrip, hm]
  | some m => simp only [jamTestTrip, hm, hj, Bool.and_true]

end

/-- Only the view of OBSERVE has the jam: the observed steps come to JAMLIM and the real ones do not. -/
theorem testJams_iff : testJams s = true ↔ s.engine.overlayMode = .observe ∧
    param s .jamlim ≤ (min 240 (s.paper.observedUnpulsed + 1) : Nat) ∧
    (min 240 (s.paper.unpulsed + 1) : Nat) < param s .jamlim := by
  rw [FeedSteps.testJams_eq]
  simp only [Bool.and_eq_true, decide_eq_true_eq, Bool.not_eq_true', decide_eq_false_iff_not, not_le, and_assoc]

theorem jamTestTrip_none (h : testJams s = false) : jamTestTrip s = s := by
  unfold jamTestTrip
  simp only [h, Bool.and_false]
  split <;> rfl

end Sys2Proof.Causes

namespace Sys2Proof

open Sys2Proof.Machine Sys2Proof.Causes

/-- Settles O44: each cause's row where it arises and where it does not, and what a cause that arises does. -/
theorem causesTripThePart : Obligations.CausesTripThePart := by
  refine fun s => ⟨fun hs => ⟨fun hp hn => ?_, fun hn => ?_, fun n hn => ⟨fun hp ha hl => ?_, fun hx => ?_⟩,
    fun hj => ?_, fun hj => ?_, fun u hu => ⟨fun hl => ?_, fun hl => ?_⟩, fun u hu => ⟨fun hl => ?_, fun hl => ?_⟩,
    ?_, ?_, exec_testTrip_unobserved hs, fun c => exec_testTrip_other hs,
    fun jams hjams => ⟨fun hj => ?_, fun hj => ?_⟩,
    fun ho k hk => ⟨fun hp hn hl => ?_, fun hx => ?_⟩⟩, arise_jam, fun c => arise_settled, fun c => arise_tripped,
    fun c => rfl⟩
  · rw [exec_encoderLost hs, if_pos ⟨decide_eq_true hp, by omega⟩]
  · rw [exec_encoderLost hs, if_neg]
    rintro ⟨hp, hl⟩
    exact hn.elim (fun h => of_decide_eq_true hp h) (by omega)
  · have hleft : legLeft s = n := (CarriageMotions.legLeft_seek hp).trans hn.symm
    rw [exec_homeFail hs, hleft, if_pos ⟨hp, ha, hl⟩]
  · rw [exec_homeFail hs, if_neg]
    rintro ⟨hp, ha, hl⟩
    have hleft := CarriageMotions.legLeft_seek hp
    rcases hx with hx | hx | hx
    · exact hx hp
    · exact Bool.eq_false_iff.mp ha hx
    · omega
  · rw [exec_paperJam hs, if_pos hj]
  · rw [exec_paperJam hs, if_neg (Bool.eq_false_iff.mp hj)]
  · rw [exec_headHotAsserted hs, hl, hu]
    rfl
  · rw [exec_headHotAsserted hs, hl, hu]
    rfl
  · rw [exec_driverFaultAsserted hs, hl, hu]
    rfl
  · rw [exec_driverFaultAsserted hs, hl, hu]
    rfl
  · unfold exec execHeadHotQuiet
    exact hs.acting _
  · unfold exec execDriverFaultQuiet
    exact hs.acting _
  · have ht := testJams_iff.mpr (hjams.mp hj)
    rw [exec_feedStep_testJam hs ht, exec_testTrip_jam hs (hjams.mp hj).1]
  · have ht : testJams s = false := Bool.eq_false_iff.mpr fun ht => hj (hjams.mpr (testJams_iff.mp ht))
    by_cases ho : s.engine.overlayMode = .observe
    · rw [exec_testTrip_jam hs ho, jamTestTrip_none ht]
    · exact exec_testTrip_unobserved hs ho _
  · rw [exec_testTrip_encoder hs ho, hk]
    exact congrArg _ (if_pos ⟨decide_eq_true hp, hk ▸ hl, hn⟩)
  · rw [exec_testTrip_encoder hs ho]
    refine congrArg _ (if_neg ?_)
    rintro ⟨hp, hl, hn⟩
    replace hl : k ≤ legLeft s := hk ▸ hl
    rcases hx with hx | hx | hx
    · exact of_decide_eq_true hp hx
    · omega
    · omega

end Sys2Proof
end

