-- ==== Sys2Proof/Proofs/DrivingPins.lean ====
section
/-! SUPPORT. No command but FIRE_GROUP_TAKEN starts a pulse: every other effect leaves the driving pins, or releases
some (R101 to R110). -/

namespace Sys2Proof.FireGroups

open Sys2Proof.Machine

variable {s : State} {d : PinSet} {c : Instr} {o : TripCause}

/-- Every driving pin is one of these. -/
def Within (d : PinSet) (s : State) : Prop := ∀ q, s.fire.driving.getLsbD q = true → d.getLsbD q = true

theorem Within.upd {t : State} (h : Within d s) (e : t.fire.driving = s.fire.driving) : Within d t := by
  rwa [Within, e]

/-- With every pulse ended no pin drives. -/
theorem Within.none (h : s.fire.driving = 0#24) : Within d s := fun q hq => by simp [h] at hq

/-! ## Causes, marks and the overlay (R93, R109, R164, R166, R175) -/

theorem within_trip : Within d (trip o s) := .none (by rw [Trips.trip_fire]; rfl)

theorem within_arise (h : Within d s) : Within d (arise o s) := by
  rcases arise_cases o s with ⟨-, e⟩ | ⟨-, e⟩ <;> rw [e]
  · exact within_trip
  · exact h

theorem within_ariseIf {b : Bool} (h : Within d s) : Within d (ariseIf b o s) := by
  unfold ariseIf
  split
  · exact within_arise h
  · exact h

theorem within_ariseLevels {hot fault : Bool} (h : Within d s) : Within d (ariseLevels hot fault s) := by
  unfold ariseLevels
  dsimp only
  split
  · split <;> exact within_arise (within_arise (h.upd rfl))
  · exact within_ariseIf (within_ariseIf h)

theorem within_overlayEffects {before : State} (h : Within d s) : Within d (overlayEffects before s) := by
  unfold overlayEffects
  exact (within_ariseLevels (hot := !headHotLevel before && headHotLevel s)
    (fault := !driverFaultLevel before && driverFaultLevel s) h).upd (by simp)

theorem within_edge {dir : Dir} (h : Within d s) : Within d (edge dir s) := by
  unfold edge
  split
  · unfold edgeHomed
    dsimp only
    split
    · exact within_arise (h.upd (by simp))
    · exact h.upd (by simp)
  · split <;> exact h.upd (by simp)

/-! ## Requests and events -/

theorem within_beginSending (h : Within d s) : Within d (beginSending s) := h.upd (by simp)

theorem within_serve {f : Frame} {a : State → Answer} (ha : ∀ t, Within d t → Within d (a t).1) (h : Within d s) :
    Within d (serve f a s) :=
  serve_keeps (fun _ _ h => h.upd (by simp)) (fun _ h => h.upd rfl) (fun _ _ h => h.upd rfl) ha h

/-- A request starts no pulse that its block's answer does not. -/
theorem within_request {a : State → Answer} (h : Within d s) (he : exec c s = request c a s)
    (ha : ∀ t, Within d t → Within d (a t).1) : Within d (after c s) := by
  unfold after
  rw [he]
  unfold request
  cases encodeFrame c with
  | some f => exact within_serve ha (within_beginSending h)
  | none => exact within_beginSending h

/-- A request of one layout starts no pulse that the handling of its fields does not (R182). -/
theorem within_fields {α : Type} {w : Wire α} {a : α → State → Answer} (h : Within d s)
    (he : exec c s = request c (onFields w a) s) (ha : ∀ x t, (a x t).1.fire.driving = t.fire.driving) :
    Within d (after c s) :=
  within_request h he fun _ ht => onFields_keeps ht fun x t ht => ht.upd (ha x t)

theorem within_event {f : State → State} (h : Within d s) (he : exec c s = acting f s)
    (hf : ∀ t, Within d t → Within d (f t)) : Within d (after c s) := by
  unfold after
  rw [he]
  exact hf _ (within_beginSending h)

/-- An event whose effect leaves the driving pins. -/
theorem within_quiet {f : State → State} (h : Within d s) (he : exec c s = acting f s)
    (hf : ∀ t, (f t).fire.driving = t.fire.driving) : Within d (after c s) :=
  within_event h he fun t ht => ht.upd (hf t)

theorem within_unknownKind (kind tag : Byte) (p : List Byte) (h : Within d s) :
    Within d (after (.unknownKind kind tag p) s) := by
  have hb := within_beginSending h
  rcases after_unknownKind kind tag p s with e | e <;> rw [e]
  · exact hb
  · exact within_serve (fun _ => id) hb

/-! ## Requests whose handling splits (R17 to R22, R44, R46, R50, R156 to R175) -/

theorem doSetp_driving (r : SetpReq) (s : State) : (doSetp r s).1.fire.driving = s.fire.driving := by
  unfold doSetp
  (repeat' split) <;> simp

theorem slotAnswer_driving {b : Byte} {a : Fin 8 → State → State × Result}
    (ha : ∀ i, (a i s).1.fire.driving = s.fire.driving) : (slotAnswer b a s).1.fire.driving = s.fire.driving := by
  unfold slotAnswer
  split
  · rfl
  · exact ha _

theorem openSlot_driving (left length : Nat) (i : Fin 8) (s : State) :
    (openSlot left length i s).1.fire.driving = s.fire.driving := by
  unfold openSlot
  (repeat' split) <;> rfl

theorem storeData_driving (start : Nat) (bytes : List Byte) (i : Fin 8) (s : State) :
    (storeData start bytes i s).1.fire.driving = s.fire.driving := by
  unfold storeData
  (repeat' split) <;> rfl

theorem sealSlot_driving (i : Fin 8) (s : State) : (sealSlot i s).1.fire.driving = s.fire.driving := by
  unfold sealSlot
  split <;> rfl

theorem dropSlot_driving (i : Fin 8) (s : State) : (dropSlot i s).1.fire.driving = s.fire.driving := by
  unfold dropSlot
  split <;> rfl

theorem enqueueAnswer_driving (tag : Byte) (o : Option EntryKind) (s : State) :
    (enqueueAnswer tag o s).1.fire.driving = s.fire.driving := by
  unfold enqueueAnswer tryEnqueue
  (repeat' split) <;> simp [enqueue]

theorem doGo_driving (s : State) : (doGo s).1.fire.driving = s.fire.driving := by
  unfold doGo
  split
  · rfl
  · simp only [wakeIfDue_frame]
    split <;> simp

theorem haltAtOnce_driving (s : State) : (haltAtOnce s).fire.driving = s.fire.driving := by simp

theorem engage_driving (s : State) : (engage s).1.fire.driving = s.fire.driving := by
  unfold engage
  (repeat' split) <;> simp

theorem restEngine_driving (s : State) : (restEngine s).1.fire.driving = s.fire.driving := by
  unfold restEngine
  (repeat' split) <;> simp

theorem wakeEngine_driving (s : State) : (wakeEngine s).1.fire.driving = s.fire.driving := by
  unfold wakeEngine
  split <;> simp

theorem doClrf_driving (s : State) : (doClrf s).1.fire.driving = s.fire.driving := by
  unfold doClrf
  (repeat' split) <;> simp

theorem erstDriven_driving (s : State) : (erstDriven s).fire.driving = s.fire.driving := by
  unfold erstDriven
  split <;> simp

theorem resetEngineNow_driving (s : State) : (resetEngineNow s).fire.driving = s.fire.driving := by
  unfold resetEngineNow
  (repeat' split) <;> simp [erstDriven_driving]

theorem doPmap_driving (r : Option (Vector RowReq 24)) (s : State) :
    (doPmap r s).1.fire.driving = s.fire.driving := by
  rcases doPmap_cases r s with e | ⟨_, -, -, e⟩ <;> simp [e]

theorem doEtab_driving (r : Option EtabReq) (s : State) : (doEtab r s).1.fire.driving = s.fire.driving := by
  unfold doEtab
  split <;> rfl

theorem doForm_driving (r : Option FormReq) (s : State) : (doForm r s).1.fire.driving = s.fire.driving := by
  unfold doForm
  (repeat' split) <;> rfl

theorem doEmsk_driving (m : Option (BitVec 16)) (s : State) : (doEmsk m s).1.fire.driving = s.fire.driving := by
  unfold doEmsk
  (repeat' split) <;> rfl

theorem doRead_driving (g : Byte) (s : State) : (doRead g s).1.fire.driving = s.fire.driving := by
  unfold doRead
  (repeat' split) <;> rfl

theorem doClear_driving (m : Byte) (s : State) : (doClear m s).1.fire.driving = s.fire.driving := by
  unfold doClear
  split <;> rfl

theorem doGetp_driving (b : Byte) (s : State) : (doGetp b s).1.fire.driving = s.fire.driving := by
  unfold doGetp
  split <;> rfl

theorem doCmpl_driving (n : Byte) (s : State) : (doCmpl n s).1.fire.driving = s.fire.driving := by
  unfold doCmpl
  dsimp only
  split <;> rfl

/-- TOVL's effects are the sensor's and the causes' (R175). -/
theorem within_doTovl (r : Option TovlReq) (s : State) (h : Within d s) : Within d (doTovl r s).1 := by
  unfold doTovl
  (repeat' split)
  · exact h
  · exact h
  · exact (within_overlayEffects (h.upd (by simp))).upd rfl
  · exact h
  · exact h

theorem within_cntrSnap (tag : Byte) (req : SnapForm) (h : Within d s) : Within d (after (.cntrSnap tag req) s) := by
  cases req with
  | snap u => exact within_request h rfl fun _ h => h.upd rfl
  | undefinedOp o p => exact within_request h rfl fun _ => id
  | wrongLength p => exact within_request h rfl fun _ => id

theorem within_haltLine (tag : Byte) (req : HaltForm) (h : Within d s) : Within d (after (.haltLine tag req) s) := by
  cases req with
  | lineMode => exact within_request h rfl fun _ h => h.upd (by simp)
  | undefinedMode m => exact within_request h rfl fun _ => id
  | wrongLength p => exact within_request h rfl fun _ => id

/-! ## Events (R37 to R111, R137 to R163, R177 to R187) -/

theorem rxBytes_driving (bytes : List LineByte) (s : State) : (rxBytes bytes s).fire.driving = s.fire.driving :=
  foldl_keeps (P := fun t => t.fire.driving = s.fire.driving) (fun t b ht => by simpa using ht) bytes s rfl

theorem within_byteGapTimeout (h : Within d s) : Within d (after .byteGapTimeout s) := by
  refine within_quiet h (by unfold exec execByteGapTimeout; rfl) fun t => ?_
  split <;> simp

theorem within_receiveOverrun (h : Within d s) : Within d (after .receiveOverrun s) := by
  refine within_quiet h (by unfold exec execReceiveOverrun; rfl) fun t => ?_
  split <;> simp

theorem within_discardedFramePassedOver (h : Within d s) : Within d (after .discardedFramePassedOver s) := by
  refine within_quiet h (by unfold exec execDiscardedFramePassedOver; rfl) fun t => ?_
  split <;> rfl

theorem within_replySent (h : Within d s) : Within d (after .replySent s) := by
  refine within_quiet h (by unfold exec execReplySent; rfl) fun t => ?_
  dsimp only
  split <;> rfl

theorem within_noticeSent (h : Within d s) : Within d (after .noticeSent s) := by
  refine within_quiet h (by unfold exec execNoticeSent; rfl) fun t => ?_
  dsimp only
  split <;> rfl

theorem within_executorStart (h : Within d s) : Within d (after .executorStart s) := by
  refine within_quiet h (by unfold exec execExecutorStart; rfl) fun t => ?_
  (repeat' split) <;> simp

theorem within_repositionEnd (h : Within d s) : Within d (after .repositionEnd s) := by
  refine within_quiet h (by unfold exec execRepositionEnd; rfl) fun t => ?_
  unfold arriveAtStart
  (repeat' split) <;> simp

theorem within_cruiseStart (h : Within d s) : Within d (after .cruiseStart s) := by
  refine within_quiet h (by unfold exec execCruiseStart; rfl) fun t => ?_
  (repeat' split) <;> simp

theorem within_cruiseEnd (h : Within d s) : Within d (after .cruiseEnd s) := by
  refine within_quiet h (by unfold exec execCruiseEnd; rfl) fun t => ?_
  (repeat' split) <;> simp

theorem within_passEnd (h : Within d s) : Within d (after .passEnd s) := by
  refine within_quiet h (by unfold exec execPassEnd; rfl) fun t => ?_
  (repeat' split) <;> simp

/-- A pin that is not driven any more leaves the others. -/
theorem drive_off {f : Fire} {p : Fin 24} {q : Nat} (h : (f.drive p false).driving.getLsbD q = true) :
    f.driving.getLsbD q = true := by
  simp only [Fire.drive, Bool.false_eq_true, if_false, BitVec.getLsbD_and, Bool.and_eq_true] at h
  exact h.1

/-- The end of a pulse releases its pin and no other changes (R106). -/
theorem within_pulseEnd (p : Fin 24) (isOpen : Bool) (h : Within d s) : Within d (after (.pulseEnd p isOpen) s) := by
  refine within_event h (by unfold exec execPulseEnd; rfl) fun t h => ?_
  split
  · have hp : Within d { t with fire := t.fire.drive p false } := fun q hq => h q (drive_off hq)
    exact hp.upd (by simp)
  · exact h

theorem within_markEdge (dir : Dir) (n : Nat) (h : Within d s) : Within d (after (.markEdge dir n) s) := by
  refine within_event h (by unfold exec execMarkEdge; rfl) fun t h => ?_
  have ht : Within d (travel (min n (room t)) t) := h.upd (by simp)
  dsimp only
  split
  · exact ht
  · exact within_edge ht

theorem within_encoderLost (h : Within d s) : Within d (after .encoderLost s) := by
  refine within_event h (by unfold exec execEncoderLost; rfl) fun t h => ?_
  split
  · exact within_arise (h.upd (by simp))
  · exact h

theorem within_homeSensorActive (h : Within d s) : Within d (after .homeSensorActive s) := by
  refine within_quiet h (by unfold exec execHomeSensorActive; rfl) fun t => ?_
  dsimp only
  split <;> simp

theorem within_homeFail (h : Within d s) : Within d (after .homeFail s) := by
  refine within_event h (by unfold exec execHomeFail; rfl) fun t h => ?_
  split
  · exact within_arise (h.upd (by simp))
  · exact h

theorem within_parkEnd (h : Within d s) : Within d (after .parkEnd s) := by
  refine within_quiet h (by unfold exec execParkEnd; rfl) fun t => ?_
  (repeat' split) <;> simp

theorem within_stopAtRest (h : Within d s) : Within d (after .stopAtRest s) := by
  refine within_quiet h (by unfold exec execStopAtRest; rfl) fun t => ?_
  (repeat' split) <;> simp

theorem within_feedStep (h : Within d s) : Within d (after .feedStep s) := by
  refine within_quiet h (by unfold exec execFeedStep; rfl) fun t => ?_
  (repeat' split) <;> simp

theorem within_paperEnd (h : Within d s) : Within d (after .paperEnd s) := by
  refine within_quiet h (by unfold exec execPaperEnd; rfl) fun t => ?_
  (repeat' split) <;> simp

theorem within_paperJam (h : Within d s) : Within d (after .paperJam s) := by
  refine within_event h (by unfold exec execPaperJam; rfl) fun t h => ?_
  split
  · exact within_arise h
  · exact h

theorem within_ejectFail (h : Within d s) : Within d (after .ejectFail s) := by
  refine within_quiet h (by unfold exec execEjectFail; rfl) fun t => ?_
  (repeat' split) <;> simp

theorem afterStaging_driving {next : EntryKind → State → State}
    (hn : ∀ k, (next k s).fire.driving = s.fire.driving) : (afterStaging next s).fire.driving = s.fire.driving := by
  unfold afterStaging
  (repeat' split) <;> simp [hn]

theorem moveComplete_driving (u : Purpose) (s : State) : (moveComplete u s).fire.driving = s.fire.driving := by
  cases u with
  | retract => exact afterStaging_driving fun k => by simp
  | perfSkip => exact afterStaging_driving fun k => by simp
  | _ => simp [moveComplete]

theorem within_feedMoveEnd (h : Within d s) : Within d (after .feedMoveEnd s) := by
  refine within_quiet h (by unfold exec execFeedMoveEnd; rfl) fun t => ?_
  (repeat' split) <;> simp [moveComplete_driving]

theorem within_preloadComplete (h : Within d s) : Within d (after .preloadComplete s) := by
  refine within_quiet h (by unfold exec execPreloadComplete; rfl) fun t => ?_
  (repeat' split) <;> simp

theorem within_paperMotionPulse (h : Within d s) : Within d (after .paperMotionPulse s) := by
  refine within_quiet h (by unfold exec execPaperMotionPulse; rfl) fun t => ?_
  (repeat' split) <;> rfl

theorem within_paperSensorAbsent (h : Within d s) : Within d (after .paperSensorAbsent s) := by
  refine within_quiet h (by unfold exec execPaperSensorAbsent; rfl) fun t => ?_
  simp

theorem within_paperSensorPresent (h : Within d s) : Within d (after .paperSensorPresent s) := by
  refine within_quiet h (by unfold exec execPaperSensorPresent; rfl) fun t => ?_
  simp

theorem within_headHotAsserted (h : Within d s) : Within d (after .headHotAsserted s) := by
  refine within_event h (by unfold exec execHeadHotAsserted; rfl) fun t h => ?_
  exact within_ariseIf (h.upd rfl)

theorem within_driverFaultAsserted (h : Within d s) : Within d (after .driverFaultAsserted s) := by
  refine within_event h (by unfold exec execDriverFaultAsserted; rfl) fun t h => ?_
  exact within_ariseIf (h.upd rfl)

/-- An input line that goes quiet. -/
theorem within_lines {l : State → Lines} (h : Within d s)
    (he : exec c s = acting (fun s => { s with lines := l s }) s) : Within d (after c s) :=
  within_quiet h he fun _ => rfl

theorem within_coolingTick (h : Within d s) : Within d (after .coolingTick s) := by
  refine within_quiet h (by unfold exec execCoolingTick; rfl) fun t => ?_
  simp

theorem within_testTrip (x : TripCause) (h : Within d s) : Within d (after (.testTrip x) s) := by
  refine within_quiet h (by unfold exec execTestTrip; rfl) fun t => ?_
  split
  · split
    · unfold encoderTestTrip
      dsimp only
      split <;> simp
    · unfold jamTestTrip
      (repeat' split) <;> simp
    all_goals rfl
  · rfl

theorem within_holdTimerExpiry (h : Within d s) : Within d (after .holdTimerExpiry s) := by
  refine within_quiet h (by unfold exec execHoldTimerExpiry; rfl) fun t => ?_
  split <;> rfl

theorem within_warmupExpiry (h : Within d s) : Within d (after .warmupExpiry s) := by
  refine within_quiet h (by unfold exec execWarmupExpiry; rfl) fun t => ?_
  (repeat' split) <;> simp

/-! ## Every command -/

/-- Only FIRE_GROUP_TAKEN makes a pin drive that did not. -/
theorem within_after (hc : c ≠ .fireGroupTaken) (h : Within d s) : Within d (after c s) := by
  cases c with
  | powerOn r => exact within_ariseLevels (.none rfl)
  | resetLine r => exact within_ariseLevels (.none rfl)
  | frameReceived bytes => exact within_quiet h rfl (rxBytes_driving bytes)
  | byteGapTimeout => exact within_byteGapTimeout h
  | receiveOverrun => exact within_receiveOverrun h
  | unknownKind kind tag p => exact within_unknownKind kind tag p h
  | replySent => exact within_replySent h
  | noticeSent => exact within_noticeSent h
  | stat tag req => exact within_fields h rfl fun _ _ => rfl
  | evnt tag req => exact within_fields h rfl fun _ _ => rfl
  | emsk tag req => exact within_fields h rfl doEmsk_driving
  | setp tag req => exact within_fields h rfl doSetp_driving
  | getp tag req => exact within_fields h rfl doGetp_driving
  | cntrSnap tag req => exact within_cntrSnap tag req h
  | cntrRead tag group => exact within_request h rfl fun t h => h.upd (doRead_driving group t)
  | cntrClear tag mask => exact within_request h rfl fun t h => h.upd (doClear_driving mask t)
  | slotOpen tag req => exact within_fields h rfl fun r t => slotAnswer_driving fun i => openSlot_driving _ _ i t
  | slotData tag req => exact within_fields h rfl fun r t => slotAnswer_driving fun i => storeData_driving _ _ i t
  | slotSeal tag req => exact within_fields h rfl fun r t => slotAnswer_driving fun i => sealSlot_driving i t
  | slotDrop tag req => exact within_fields h rfl fun r t => slotAnswer_driving fun i => dropSlot_driving i t
  | line tag req => exact within_fields h rfl fun _ => enqueueAnswer_driving tag _
  | feed tag req => exact within_fields h rfl fun _ => enqueueAnswer_driving tag _
  | skip tag req => exact within_fields h rfl fun _ => enqueueAnswer_driving tag _
  | tear tag req => exact within_fields h rfl fun _ => enqueueAnswer_driving tag _
  | haltLine tag req => exact within_haltLine tag req h
  | haltPass tag => exact within_request h rfl fun _ h => h.upd (by simp)
  | haltNow tag => exact within_request h rfl fun t h => h.upd (haltAtOnce_driving t)
  | go tag req => exact within_fields h rfl fun _ => doGo_driving
  | flsh tag req => exact within_fields h rfl fun _ _ => rfl
  | cmpl tag req => exact within_fields h rfl doCmpl_driving
  | pmap tag req => exact within_fields h rfl doPmap_driving
  | pinh tag req => exact within_fields h rfl fun _ _ => rfl
  | etab tag req => exact within_fields h rfl doEtab_driving
  | form tag req => exact within_fields h rfl doForm_driving
  | enga tag req => exact within_fields h rfl fun _ => engage_driving
  | rest tag req => exact within_fields h rfl fun _ => restEngine_driving
  | wake tag req => exact within_fields h rfl fun _ => wakeEngine_driving
  | clrf tag req => exact within_fields h rfl fun _ => doClrf_driving
  | erst tag req => exact within_fields h rfl fun _ => resetEngineNow_driving
  | dout tag req => exact within_fields h rfl fun _ _ => rfl
  | tovl tag req => exact within_request h rfl fun _ ht => onFields_keeps ht within_doTovl
  | executorStart => exact within_executorStart h
  | repositionEnd => exact within_repositionEnd h
  | cruiseStart => exact within_cruiseStart h
  | cruiseEnd => exact within_cruiseEnd h
  | passEnd => exact within_passEnd h
  | fireGroupTaken => exact absurd rfl hc
  | pulseEnd p isOpen => exact within_pulseEnd p isOpen h
  | markEdge dir n => exact within_markEdge dir n h
  | encoderLost => exact within_encoderLost h
  | homeSensorActive => exact within_homeSensorActive h
  | homeFail => exact within_homeFail h
  | parkEnd => exact within_parkEnd h
  | feedStep => exact within_feedStep h
  | paperEnd => exact within_paperEnd h
  | paperJam => exact within_paperJam h
  | ejectFail => exact within_ejectFail h
  | feedMoveEnd => exact within_feedMoveEnd h
  | stopAtRest => exact within_stopAtRest h
  | paperMotionPulse => exact within_paperMotionPulse h
  | paperSensorAbsent => exact within_paperSensorAbsent h
  | paperSensorPresent => exact within_paperSensorPresent h
  | headHotAsserted => exact within_headHotAsserted h
  | driverFaultAsserted => exact within_driverFaultAsserted h
  | testTrip x => exact within_testTrip x h
  | holdTimerExpiry => exact within_holdTimerExpiry h
  | warmupExpiry => exact within_warmupExpiry h
  | coolingTick => exact within_coolingTick h
  | headHotQuiet => exact within_lines (l := fun t => { t.lines with headHot := false }) h rfl
  | driverFaultQuiet => exact within_lines (l := fun t => { t.lines with driverFault := false }) h rfl
  | homeSensorInactive => exact within_lines (l := fun t => { t.lines with home := false }) h rfl
  | discardedFramePassedOver => exact within_discardedFramePassedOver h
  | preloadComplete => exact within_preloadComplete h

end Sys2Proof.FireGroups
end

