-- ==== Sys2Proof/Proofs/FireGroups.lean ====
section
/-! FIRE_GROUP_TAKEN and the dots it fires: O40. -/

namespace Sys2Proof.FireGroups

open Sys2Proof.Machine

variable {s t : State} {w : Nat} {row : Fin 24} {p : Fin 24}

/-! ## One dot (R101 to R105) -/

theorem fireDot_dropped (hp : p = s.fire.pinMap[row].pin)
    (h : s.fire.inhibit.getLsbD p = true ∨ s.fire.driving.getLsbD p = true) :
    fireDot w s row = count .droppedDots 1 s :=
  if_pos (by rw [← hp]; simpa using h)

theorem fireDot_fired (hp : p = s.fire.pinMap[row].pin) (hi : s.fire.inhibit.getLsbD p = false)
    (hd : s.fire.driving.getLsbD p = false) : fireDot w s row = startPulse w p s := by
  rw [hp] at hi hd ⊢
  exact if_neg (by rw [hi, hd]; exact Bool.false_ne_true)

/-- The one pin more that drives when a pulse starts. -/
theorem startPulse_driving (w : Nat) (p : Fin 24) (s : State) (q : Fin 24) :
    (startPulse w p s).fire.driving.getLsbD q = (s.fire.driving.getLsbD q || decide (q = p)) := by
  simp [startPulse, Fire.drive, Fin.ext_iff, eq_comm]

/-- A pulse is reported as heat and as a strike of its pin, and changes nothing else (R103, R104, R117). -/
theorem startPulse_reports (w : Nat) (p : Fin 24) (s : State) :
    (startPulse w p s).heat.h = min (s.heat.h + w / 16) 16777215 ∧
      (startPulse w p s).counters.live.strikes =
        s.counters.live.strikes.set p (min (s.counters.live.strikes[p] + 1) 268435455) ∧
      (startPulse w p s).counters.live.general = s.counters.live.general ∧
      { startPulse w p s with
        fire := { (startPulse w p s).fire with driving := s.fire.driving }, heat := s.heat
        counters := s.counters, link := s.link } = s :=
  ⟨rfl, by simp [startPulse, countStrike, Bank.strike, saturate, strikeBits],
    by simp [startPulse, countStrike, Bank.strike], rfl⟩

/-! ## A group (R91, R94, R101) -/

theorem exec_fireGroupTaken (h : Settled s) {g : DueGroup} {slot : Slot} {plan : Plan} {r : PassRec}
    (hg : s.fire.due = some g) (hw : working s = some (slot, plan, r)) : exec .fireGroupTaken s =
      .next (if s.engine.state = .ready ∧ s.carriage.phase = .cruise ∧ legClear s = true then
        takeGroup g slot plan r s else s) := by
  simp only [exec, execFireGroupTaken, h.acting, hg, hw]

/-- The inhibit list stands, and whatever pin has begun to drive is not on it. -/
def FiresFree (s t : State) : Prop :=
  t.fire.inhibit = s.fire.inhibit ∧ ∀ q : Fin 24, s.fire.driving.getLsbD q = false →
    t.fire.driving.getLsbD q = true → s.fire.inhibit.getLsbD q = false

theorem FiresFree.upd (h : FiresFree s t) {u : State} (hi : u.fire.inhibit = t.fire.inhibit)
    (hd : u.fire.driving = t.fire.driving) : FiresFree s u := by
  rwa [FiresFree, hi, hd]

theorem firesFree_fireDot (h : FiresFree s t) : FiresFree s (fireDot w t row) := by
  obtain ⟨hi, hq⟩ := h
  by_cases hp : t.fire.inhibit.getLsbD t.fire.pinMap[row].pin = true ∨
      t.fire.driving.getLsbD t.fire.pinMap[row].pin = true
  · rw [fireDot_dropped rfl hp]
    exact FiresFree.upd ⟨hi, hq⟩ (by simp) (by simp)
  · obtain ⟨hf, hn⟩ := not_or.mp hp
    refine ⟨by simp [hi], fun q hs ht => ?_⟩
    rw [fireDot_fired rfl (Bool.eq_false_iff.mpr hf) (Bool.eq_false_iff.mpr hn), startPulse_driving,
      Bool.or_eq_true, decide_eq_true_eq] at ht
    rcases ht with ht | rfl
    · exact hq q hs ht
    · rw [← hi]
      exact Bool.eq_false_iff.mpr hf

/-- A group fires no pin on the inhibit list (R101, R102). -/
theorem firesFree_takeGroup (g : DueGroup) (slot : Slot) (plan : Plan) (r : PassRec) (s : State) :
    FiresFree s (takeGroup g slot plan r s) := by
  have hreach : FiresFree s (reach g.firePos s) := ⟨by simp, fun q hs ht => by
    rw [show (reach g.firePos s).fire = s.fire by simp, hs] at ht
    cases ht⟩
  exact FiresFree.upd (foldl_keeps (fun _ _ => firesFree_fireDot) _ _ hreach) rfl rfl

/-- FIRE_GROUP_TAKEN takes a group in READY and CRUISE, or nothing. -/
theorem after_fireGroupTaken (s : State) : after .fireGroupTaken s = beginSending s ∨
    ∃ g slot plan r, s.engine.state = .ready ∧ s.carriage.phase = .cruise ∧
      after .fireGroupTaken s = takeGroup g slot plan r (beginSending s) := by
  obtain ⟨f, hx, hf⟩ : ∃ f : State → State, exec .fireGroupTaken s = acting f s ∧ ∀ t, f t = t ∨
      ∃ g slot plan r, t.engine.state = .ready ∧ t.carriage.phase = .cruise ∧ f t = takeGroup g slot plan r t := by
    refine ⟨_, by unfold exec execFireGroupTaken; rfl, fun t => ?_⟩
    split
    · next g w _ _ =>
      split
      · next h => exact .inr ⟨g, w.1, w.2.1, w.2.2, h.1, h.2.1, rfl⟩
      · exact .inl rfl
    · exact .inl rfl
  have ha : after .fireGroupTaken s = f (beginSending s) := by rw [after, hx]; rfl
  rw [ha]
  simpa using hf (beginSending s)

/-- FIRE_GROUP_TAKEN starts a pulse in READY and CRUISE alone, and on no inhibited pin. -/
theorem pulse_of_fireGroupTaken {q : Fin 24} (hs : s.fire.driving.getLsbD q = false)
    (ht : (after .fireGroupTaken s).fire.driving.getLsbD q = true) :
    s.engine.state = .ready ∧ s.carriage.phase = .cruise ∧ s.fire.inhibit.getLsbD q = false := by
  rcases after_fireGroupTaken s with e | ⟨g, slot, plan, r, he, hp, e⟩ <;> rw [e] at ht
  · rw [show (beginSending s).fire = s.fire by simp, hs] at ht
    cases ht
  · obtain ⟨-, free⟩ := firesFree_takeGroup g slot plan r (beginSending s)
    have hfire : (beginSending s).fire = s.fire := by simp
    rw [hfire] at free
    exact ⟨he, hp, free q hs ht⟩

end Sys2Proof.FireGroups

namespace Sys2Proof

open Sys2Proof.Machine Sys2Proof.FireGroups

/-- Settles O40: the group by its row, the dots by their pins, and the safety clause by `within_after`. -/
theorem fireGroupIsTakenInCruise : Obligations.FireGroupIsTakenInCruise := by
  refine fun s => ⟨fun g slot plan r hs hg hw => ⟨fun he hp hl => ?_, fun hn => ?_⟩,
    fun w row p hp => ⟨fireDot_dropped hp,
    fun hi hd => ⟨_, fireDot_fired hp hi hd, startPulse_driving w p s, startPulse_reports w p s⟩⟩,
    fun c t q ht hs hd => ?_⟩
  · rw [exec_fireGroupTaken hs hg hw, if_pos ⟨he, hp, PassMotions.legClear_iff.mpr hl⟩]
    rfl
  · rw [exec_fireGroupTaken hs hg hw, if_neg]
    rintro ⟨he, hp, hl⟩
    rcases hn with h | h | h
    · exact h he
    · exact h hp
    · exact PassMotions.not_legClear h hl
  · rw [HeadTables.eq_after ht] at hd
    by_cases hc : c = .fireGroupTaken
    · subst hc
      exact ⟨rfl, pulse_of_fireGroupTaken hs hd⟩
    · have := within_after (d := s.fire.driving) hc (fun _ => id) q hd
      exact absurd this (Bool.eq_false_iff.mp hs)

end Sys2Proof
end
